-- ==== Sys2Proof/Word.lean ====
section
/-! DEFINITION. The words the manual treats as bits: a byte of a frame, a store slot or a
counter kept modulo 256, and the 3-bit soft value of a received beat (R98). -/

namespace Sys2Proof

/-- A byte: every field of a frame body or of a store slot, and every number the manual counts
modulo 256 (epochs, versions, game serials and tags; chapter 00, "Modulo comparison"). -/
abbrev Byte := BitVec 8

/-- The soft value of a bipolar beat, 0 strongest minus to 7 strongest plus (R98). -/
abbrev Soft := BitVec 3

end Sys2Proof
end

