-- ==== Sys2Proof/Config.lean ====
section
/-! DEFINITION. The numbers the manual fixes for every LQ-48: times (in microseconds, the unit in
which every time of chapters 01 to 11 is a whole number: a beat is 20, a base tick 15,625) and the
capacities of its queues and tables. -/

namespace Sys2Proof.Config

/-- A gate of the Pad Unit, 8 ms (R122). -/
def gateTime : Nat := 8000
/-- The 16 quiet beats of a gap, 320 µs (R97, R99). -/
def gapTime : Nat := 320
/-- A base tick, 1/64 s (chapter 07, opening). -/
def baseTickTime : Nat := 15625
/-- A count of the 500 kHz tone clock (R148). -/
def toneCountTime : Nat := 2
/-- The deadline of a SENT claim, 300 ms (R41, R45). -/
def claimTime : Nat := 300000
/-- The silence limit in LISTENING and PLAY, 7,500 ms (R81). -/
def silenceTime : Nat := 7500000
/-- The silence limit in REST, 60,000 ms (R81). -/
def silenceRestTime : Nat := 60000000
/-- From silence to removal, 60,000 ms (R81). -/
def removalTime : Nat := 60000000
/-- The listening deadline, 4,000 ms (R182). -/
def listeningTime : Nat := 4000000
/-- The loading timeout, 10,000 ms (R179). -/
def loadingTime : Nat := 10000000
/-- A batch falls due 250 ms after the oldest pending time (R163). -/
def batchTime : Nat := 250000
/-- Owned marks pending that make a batch due at once (R163). -/
def batchCount : Nat := 4
/-- A HAIL is overdue 1,000 ms after its due time (R115). -/
def overdueTime : Nat := 1000000
/-- The HAIL interval of a tile, 2,000 ms plus 8 ms for each of its number (R115). -/
def hailInterval (tile : Nat) : Nat := 2000000 + 8000 * tile
/-- In REST the HAIL interval is eight times as long (R115). -/
def restFactor : Nat := 8

/-- Room of the answer queue (R34). -/
def answerRoom : Nat := 8
/-- Room of the transmit queue (R119). -/
def transmitRoom : Nat := 8
/-- Room of the engine queue (R62). -/
def engineRoom : Nat := 32
/-- The Claim List's entries and the answer hold's events together number at most this (R40). -/
def claimRoom : Nat := 4
/-- Room of the tone queue (R149). -/
def toneRoom : Nat := 4
/-- Room of the roster (R77). -/
def rosterRoom : Nat := 48
/-- The greatest event depth (R62). -/
def depthLimit : Nat := 8
/-- Where the loss counter holds, and the tile is promoted (R102). -/
def lossLimit : Nat := 8
/-- Names in a HAIL's poor list (R95). -/
def poorRoom : Nat := 4
/-- Records of a BATCH or SNAP_PART slot (R159). -/
def recordRoom : Nat := 9
/-- Marks of a SNAPSHOT frame (R23). -/
def snapshotRoom : Nat := 16
/-- Frames of a grading window (R94). -/
def gradeWindow : Nat := 16
/-- What a faulty frame adds to corrected beats (R93). -/
def faultBeats : Nat := 64
/-- Gates in READING before MISREAD (R127). -/
def readingGates : Nat := 8
/-- The largest count of a gate; a count there is an overflow (R122). -/
def countLimit : Nat := 4095
/-- Program-verify passes of a PROGRAM (R156). -/
def programPasses : Nat := 8
/-- Erase-verify passes of an ERASE (R156). -/
def erasePasses : Nat := 4
/-- A compaction is owed when this many ERASED blocks or fewer are left (R162). -/
def fewErased : Nat := 2
/-- The store is worn when fewer journal blocks than this are not RETIRED (R170). -/
def fewUsable : Nat := 3
/-- The highest block sequence (R160). -/
def lastSequence : Nat := 65535
/-- The part generation a HAIL carries (R116). -/
def generation : Byte := 3
/-- The layout generation the part accepts (R183). -/
def layoutGeneration : Byte := 2
/-- The tile number in use when the header gives none that can be trusted (R183). -/
def fallbackTile : Nat := 62

end Sys2Proof.Config
end

