-- ==== Sys2Proof/Syntax.lean ====
section
/-! DEFINITION. The commands of the part: one constructor per row of spec/opcode_table.json.
The table gives its rows no operands, so the operands here are the facts about the world that the
rules need to know what a row does: how long since the command before it, what the line carried,
what a gate counted, how a store operation went (notes/assumptions/1.md to 5.md). -/

namespace Sys2Proof

/-- What the line carries in one beat (R97). -/
inductive Symbol
  | quiet
  | plus
  | minus
  deriving DecidableEq, Repr

/-- A unipolar beat as a coupler meets it: the symbol on the line and whether the bounce detector
saw a contact break during the beat (R97, R98). -/
structure UniBeat where
  symbol : Symbol
  broken : Bool
  deriving DecidableEq, Repr

/-- A bipolar beat as the sampler gives it: a soft value, or `none` for an erased beat (R98). -/
abbrev Beat := Option Soft

/-- What a receiver takes from the line between two gaps: the 8 beats of the contention key, the 8 of
the sync word, the 52 of the head block and those of the body block (R100).
A beat missing from a list is a beat in which the line was quiet, and so an erased one (R98, R99). -/
structure Reception where
  key  : List UniBeat
  sync : List Beat
  head : List Beat
  body : List Beat
  deriving DecidableEq, Repr

/-- What unreliable contents turn out to be, slot by slot (R156): as before (or, for a failed
program, as intended), erased, or bytes whose check does not match. -/
inductive SlotLeft
  | kept
  | erased
  | bad (bytes : List Byte)
  deriving DecidableEq, Repr

/-- How a PROGRAM or ERASE went: what each verify pass found, in order (true: as intended), and what
the contents are left as should the operation fail or be abandoned (R156, R158). -/
structure OpResult where
  verifies : List Bool
  left     : List SlotLeft
  deriving DecidableEq, Repr

/-- What befalls the store operations of a power-on start (R182): how the operation still in progress
at the start ended, how many page reads end within the command (`none`: all that are asked for), and the
results of the programs and erases, in order.
When either list runs out the start waits in STARTING with its operation in progress. -/
structure StartRun where
  settle  : OpResult
  reads   : Option Nat
  results : List OpResult
  deriving DecidableEq, Repr

/-- The commands. `dt` is the time in microseconds since the command before. -/
inductive Instr
  | powerUp (dt : Nat) (run : StartRun)
  | droop (dt : Nat) (result : OpResult)
  | droopClears (dt : Nat) (run : StartRun)
  | duplicateKey (dt : Nat) (key : List UniBeat)
  | faultyFrame (dt : Nat) (rx : Reception)
  | hail (dt : Nat) (rx : Reception)
  | update (dt : Nat) (rx : Reception)
  | snapshot (dt : Nat) (rx : Reception)
  | claim (dt : Nat) (rx : Reception)
  | grant (dt : Nat) (rx : Reception)
  | refuse (dt : Nat) (rx : Reception)
  | cue (dt : Nat) (rx : Reception)
  | ask (dt : Nat) (rx : Reception)
  | newGame (dt : Nat) (rx : Reception)
  | rest (dt : Nat) (rx : Reception)
  | wake (dt : Nat) (rx : Reception)
  | loadOpen (dt : Nat) (rx : Reception)
  | loadPart (dt : Nat) (rx : Reception)
  | seal (dt : Nat) (rx : Reception)
  | sealCheck (dt : Nat)
  | gap (dt : Nat)
  | contentionLost (dt : Nat) (seen : Option (List Symbol))
  | frameSent (dt : Nat) (run : StartRun)
  | silenceDeadline (dt : Nat) (peer : Nat)
  | removalDeadline (dt : Nat) (peer : Nat)
  | claimDeadline (dt : Nat) (tag : Byte)
  | listeningDeadline (dt : Nat)
  | loadingTimeout (dt : Nat)
  | hailDue (dt : Nat)
  | gateEnd (dt : Nat) (counts : List Nat)
  | baseTick (dt : Nat)
  | timerExpiry (dt : Nat) (timer : Nat)
  | toneEnd (dt : Nat)
  | engineEventTaken (dt : Nat)
  | answerEventTaken (dt : Nat)
  | storeReadEnd (dt : Nat)
  | storeProgramEnd (dt : Nat) (result : OpResult)
  | storeEraseEnd (dt : Nat) (result : OpResult)
  | batchStart (dt : Nat)
  | labelBlock (dt : Nat)
  | compactionStart (dt : Nat)
  | snapshotSlot (dt : Nat)
  | newGameSlot (dt : Nat)
  | eraseObsolete (dt : Nat)
  | contentionWon (dt : Nat) (seen : List Symbol)
  | powerLoss (dt : Nat) (result : OpResult)
  deriving DecidableEq, Repr

end Sys2Proof
end

