-- ==== Sys2Proof/Decode.lean ====
section
/-! DEFINITION. The commands a word spells. No row of spec/opcode_table.json gives any bits: a command is
an event at the part's pins or within it, so no word spells one. -/

namespace Sys2Proof

/-- The command that `nbits` bits with value `w` spell: none (notes/assumptions/7.md). -/
def decodeTableWord (_nbits _w : Nat) : Option Instr := none

end Sys2Proof
end

