-- ==== Sys2Proof/Machine/Codec.lean ====
section
/-! DEFINITION. The trail line's code (chapter 05, R97 to R111; layouts R194 to R196): bits and
checks, the convolutional code and its puncturing, the scrambler, the frame a sender drives, and the
receiver from the key to the body check. Nothing here touches the machine's state. -/

namespace Sys2Proof.Machine

/-! ## Bits -/

/-- The low `w` bits of `n`, high bit first (chapter 00, "Byte and bit order"). -/
def bitsOf (w n : Nat) : List Bool := (List.range w).map fun i => n.testBit (w - 1 - i)

/-- The number a list of bits spells, high bit first. -/
def ofBits : List Bool → Nat := List.foldl (fun acc b => 2 * acc + b.toNat) 0

/-- The bits of a list of bytes, each high bit first. -/
def bytesToBits (bs : List Byte) : List Bool := bs.flatMap fun b => bitsOf 8 b.toNat

/-- `n` bytes read from a list of bits, high bit first. -/
def bitsToBytes : Nat → List Bool → List Byte
  | 0, _ => []
  | n + 1, bits => BitVec.ofNat 8 (ofBits (bits.take 8)) :: bitsToBytes n (bits.drop 8)

/-- A 16-bit number as two bytes, high byte first. -/
def wordBytes (n : Nat) : List Byte := [BitVec.ofNat 8 (n / 256), BitVec.ofNat 8 n]

/-- The number two bytes hold, high byte first. -/
def wordOf (hi lo : Byte) : Nat := 256 * hi.toNat + lo.toNat

/-- `n` is 1 to 127 ahead of `m`, modulo 256 (chapter 00, "Modulo comparison"). -/
def ahead (n m : Byte) : Bool := decide (1 ≤ (n - m).toNat ∧ (n - m).toNat ≤ 127)

/-! ## Checks -/

/-- `f n`, with `n` brought to a numeral first when Lean's kernel evaluates it. -/
def withValue {α : Type} (n : Nat) (f : Nat → α) : α :=
  match n with
  | 0 => f 0
  | k + 1 => f (k + 1)

/-- A cyclic check (R194): the bits are shifted into a register of `m` = 2^width values, high bit
first, and the content after the last bit is the check. `gen` is the generator without its top term. A bit
enters by meeting the bit that leaves at the top (PRESUMED, notes/assumptions/34.md). -/
def crc (m gen : Nat) : Nat → List Bool → Nat
  | reg, [] => reg
  | reg, b :: bits =>
    match Nat.beq (2 * reg / m) b.toNat with
    | true => withValue (2 * reg % m) fun r => crc m gen r bits
    | false => withValue (Nat.xor (2 * reg % m) gen) fun r => crc m gen r bits

/-- The 7-bit check, x⁷ + x³ + 1 from 0 (R110, R194). -/
def crc7 (bits : List Bool) : Nat := crc 128 0x09 0 bits

/-- The 16-bit check, x¹⁶ + x¹² + x⁵ + 1 from FFFF hex (R111, R194). -/
def crc16 (bits : List Bool) : Nat := crc 65536 0x1021 0xFFFF bits

/-! ## Frames -/

/-- The kinds of frame, with LOAD_OPEN and the seal sharing code 12 (R110, R193). -/
inductive FrameKind
  | hail | update | snapshot | claim | grant | refuse | cue | ask | newGame | rest | wake
  | loadOpen | loadPart
  deriving DecidableEq, Repr

/-- The code of a kind (R110). -/
def FrameKind.code : FrameKind → Nat
  | .hail => 1 | .update => 2 | .snapshot => 3 | .claim => 4 | .grant => 5 | .refuse => 6
  | .cue => 7 | .ask => 8 | .newGame => 9 | .rest => 10 | .wake => 11 | .loadOpen => 12
  | .loadPart => 13

/-- The kind a code names, if any (R110, the KIND test). -/
def FrameKind.ofCode : Nat → Option FrameKind
  | 1 => some .hail | 2 => some .update | 3 => some .snapshot | 4 => some .claim
  | 5 => some .grant | 6 => some .refuse | 7 => some .cue | 8 => some .ask
  | 9 => some .newGame | 10 => some .rest | 11 => some .wake | 12 => some .loadOpen
  | 13 => some .loadPart | _ => none

/-- The body lengths a kind allows (R110, the LENGTH test). -/
def FrameKind.lengthOk (k : FrameKind) (n : Nat) : Bool :=
  match k with
  | .hail => decide (7 ≤ n ∧ n ≤ 11)
  | .update => n == 6
  | .snapshot => decide (5 ≤ n ∧ n ≤ 35)
  | .claim => n == 5
  | .grant => n == 4
  | .refuse => n == 3
  | .cue => n == 1
  | .ask => n == 0
  | .newGame => n == 1
  | .rest => n == 0
  | .wake => n == 0
  | .loadOpen => decide (1 ≤ n ∧ n ≤ 2)
  | .loadPart => n == 36

/-- The kinds whose addressee the dispatcher judges (R113). -/
def FrameKind.addressed : FrameKind → Bool
  | .claim | .grant | .refuse | .ask | .loadOpen | .loadPart => true
  | _ => false

/-- The contention classes (R102). -/
inductive ContentionClass
  | promoted | answer | request | beacon
  deriving DecidableEq, Repr

/-- The two bits of a class in a key (R101, R102). -/
def ContentionClass.code : ContentionClass → Nat
  | .promoted => 0 | .answer => 1 | .request => 2 | .beacon => 3

/-- The class of a kind while the loss counter is below 8 (R102).
The table gives no class to the kinds the part does not send; they take REQUEST here and are never
built. -/
def FrameKind.contentionClass : FrameKind → ContentionClass
  | .grant | .refuse | .update => .answer
  | .hail => .beacon
  | _ => .request

/-- A frame as a sender builds it: head fields and body bytes (R100, R195, R196). -/
structure Frame where
  kind      : FrameKind
  strong    : Bool
  addressee : Nat
  body      : List Byte
  deriving DecidableEq, Repr

/-- The head's 17 field bits: kind, body rate, body length, addressee (R100, R195). -/
def headFields (code : Nat) (strong : Bool) (len addressee : Nat) : List Bool :=
  bitsOf 4 code ++ strong :: bitsOf 6 len ++ bitsOf 6 addressee

/-- The body check over the head's fields, seven 0 bits and the body bytes (R111). -/
def bodyCheck (fields : List Bool) (body : List Byte) : Nat :=
  crc16 (fields ++ List.replicate 7 false ++ bytesToBits body)

/-! ## The convolutional code -/

/-- First output of the encoder, taps 1 + D + D² (R105). -/
def firstOutput (u s1 s2 : Bool) : Bool := (u ^^ s1) ^^ s2

/-- Second output of the encoder, taps 1 + D² (R105). -/
def secondOutput (u s2 : Bool) : Bool := u ^^ s2

/-- The outputs for a list of input bits from the encoder's state (R105). -/
def encodeFrom : Bool → Bool → List Bool → List (Bool × Bool)
  | _, _, [] => []
  | s1, s2, u :: us => (firstOutput u s1 s2, secondOutput u s2) :: encodeFrom u s1 us

/-- A block's outputs, from state 0 (R105). -/
def encode (bits : List Bool) : List (Bool × Bool) := encodeFrom false false bits

/-- STRONG sends both outputs of every bit (R106). -/
def strongBeats : List (Bool × Bool) → List Bool
  | [] => []
  | (a, b) :: rest => a :: b :: strongBeats rest

/-- LIGHT sends of each pair of bits both outputs of the first and the first output of the second; an
odd last bit is sent whole (R106). -/
def lightBeats : List (Bool × Bool) → List Bool
  | [] => []
  | [(a, b)] => [a, b]
  | (a, b) :: (c, _) :: rest => a :: b :: c :: lightBeats rest

/-- The beats of a block at a rate (R106). -/
def blockBeats (strong : Bool) (bits : List Bool) : List Bool :=
  if strong then strongBeats (encode bits) else lightBeats (encode bits)

/-- A code output of 1 is a plus pulse, 0 a minus pulse (R97). -/
def pulseOf (b : Bool) : Symbol := if b then .plus else .minus

/-! ## The scrambler -/

/-- One step of the 7-stage generator: its output (stage 7 ⊕ stage 6) and the stages after.
The stages are a number, stage 1 its bit 0 and stage 7 its bit 6 (R107). -/
def scrambleStep (stages : Nat) : Bool × Nat :=
  let out := stages.testBit 6 ^^ stages.testBit 5
  (out, (2 * stages + out.toNat) % 128)

/-- Scrambles, and descrambles, a list of bits from the generator's stages (R107). -/
def scrambleFrom : Nat → List Bool → List Bool
  | _, [] => []
  | stages, b :: bits =>
    (b ^^ (scrambleStep stages).1) ::
      withValue (scrambleStep stages).2 fun next => scrambleFrom next bits

/-- Scrambling under a sender's number: the generator starts at 64 plus it (R107). -/
def scramble (sender : Nat) (bits : List Bool) : List Bool := scrambleFrom (64 + sender) bits

/-! ## What a sender drives -/

/-- A contention key: 64 times the class plus the tile number (R101). -/
def contentionKey (cls : ContentionClass) (tile : Nat) : Nat := 64 * cls.code + tile

/-- The preamble's 8 unipolar beats (R100). -/
def preamble : List Symbol :=
  [.plus, .quiet, .plus, .quiet, .plus, .quiet, .plus, .quiet]

/-- The key's 8 unipolar beats: a 0 bit is a pulse, a 1 bit quiet (R100). -/
def keySymbols (key : Nat) : List Symbol :=
  (bitsOf 8 key).map fun b => if b then .quiet else .plus

/-- The signs of the sync word, + + + − − + − + (R100). -/
def syncSigns : List Bool := [true, true, true, false, false, true, false, true]

/-- The head block's 26 input bits: the fields, the check and two tails (R105, R195). -/
def headBits (f : Frame) : List Bool :=
  let fields := headFields f.kind.code f.strong f.body.length f.addressee
  fields ++ bitsOf 7 (crc7 fields) ++ [false, false]

/-- The body block's 8L + 18 input bits: the scrambled bytes and check, and two tails (R105, R107). -/
def bodyBits (sender : Nat) (f : Frame) : List Bool :=
  let fields := headFields f.kind.code f.strong f.body.length f.addressee
  scramble sender (bytesToBits f.body ++ bitsOf 16 (bodyCheck fields f.body)) ++ [false, false]

/-- The signs of the bipolar beats of the head block, always STRONG (R106). -/
def headBeats (f : Frame) : List Bool := blockBeats true (headBits f)

/-- The signs of the bipolar beats of the body block at the frame's rate (R106). -/
def bodyBeats (sender : Nat) (f : Frame) : List Bool := blockBeats f.strong (bodyBits sender f)

/-- Every symbol of a frame, preamble to last body beat (R100). -/
def frameSymbols (sender key : Nat) (f : Frame) : List Symbol :=
  preamble ++ keySymbols key ++
    (syncSigns ++ headBeats f ++ bodyBeats sender f).map pulseOf

/-- A contender that drives quiet (a 1 bit of its key) in a beat where the line carries a pulse has
lost (R101). The beats after the last one given are quiet. -/
def losesKey (key : Nat) (line : List Symbol) : Bool :=
  (List.zip (bitsOf 8 key) line).any fun p => p.1 && p.2 != .quiet

/-! ## The receiver -/

/-- A unipolar beat as read: a pulse of either sense is a 0 bit, and a quiet beat or one with a contact
break is a 1 bit (R97, R98, R100). -/
def UniBeat.bit (b : UniBeat) : Bool := b.broken || b.symbol == .quiet

/-- The 8 bits of a received key; a beat not given was quiet (R103). -/
def keyOf (beats : List UniBeat) : Nat :=
  ofBits ((List.range 8).map fun i =>
    match beats[i]? with
    | some b => UniBeat.bit b
    | none => true)

/-- The sender a key names: its last 6 bits (R103). -/
def senderOf (beats : List UniBeat) : Nat := keyOf beats % 64

/-- Exactly `n` beats: the first `n` given, and erased ones where the line was quiet (R98, R99). -/
def takeBeats : Nat → List Beat → List Beat
  | 0, _ => []
  | n + 1, [] => none :: takeBeats n []
  | n + 1, b :: bs => b :: takeBeats n bs

/-- The hard sign of a beat that is not erased: plus when its soft value is 4 or more (R98). -/
def hardSign (q : Soft) : Bool := decide (4 ≤ q.toNat)

/-- The beats whose hard sign agrees with a pattern; an erased beat agrees with none (R104). -/
def agreements (beats : List Beat) (signs : List Bool) : Nat :=
  (List.zip beats signs).countP fun p =>
    match p.1 with
    | some q => hardSign q == p.2
    | none => false

/-- The sense of a frame. -/
inductive Sense
  | normal
  | inverted
  deriving DecidableEq, Repr

/-- The sync test (R104): 7 or 8 agreements with the pattern, or with its inverse. -/
def syncSense (sync : List Beat) : Option Sense :=
  let beats := takeBeats 8 sync
  if 7 ≤ agreements beats syncSigns then some .normal
  else if 7 ≤ agreements beats (syncSigns.map (!·)) then some .inverted
  else none

/-- A later soft value under the sense found: under INVERTED q becomes 7 − q (R104). -/
def Sense.apply (sn : Sense) (b : Beat) : Beat :=
  match sn, b with
  | .normal, b => b
  | .inverted, none => none
  | .inverted, some q => some (7 - q)

/-- The beats of each bit position at STRONG: two beats a bit (R106). -/
def strongPositions : Nat → List Beat → List (Beat × Beat)
  | 0, _ => []
  | n + 1, bs => (bs.headD none, bs.tail.headD none) :: strongPositions n (bs.drop 2)

/-- The beats of `n` pairs of bit positions at LIGHT, the punctured position weighed as erased (R106). -/
def lightPositions : Nat → List Beat → List (Beat × Beat)
  | 0, _ => []
  | n + 1, bs =>
    (bs.headD none, bs.tail.headD none) :: (bs.tail.tail.headD none, none) ::
      lightPositions n (bs.drop 3)

/-- The distance of a beat from an expected output: 7 − q when plus was expected, q when minus, and 0
when erased or punctured (R108). -/
def beatCost (b : Beat) (expected : Bool) : Nat :=
  match b with
  | none => 0
  | some q => if expected then 7 - q.toNat else q.toNat

/-- The branch distance of input `u` from state (s1, s2) at a position (R108). -/
def branchCost (p : Beat × Beat) (u s1 s2 : Bool) : Nat :=
  beatCost p.1 (firstOutput u s1 s2) + beatCost p.2 (secondOutput u s2)

/-- The four path metrics, of states 0 to 3 (R108). -/
structure Metrics where
  m0 : Nat
  m1 : Nat
  m2 : Nat
  m3 : Nat
  deriving DecidableEq, Repr

/-- The predecessor each state recorded at a position: true for the higher-numbered of its two (R108). -/
structure Choices where
  c0 : Bool
  c1 : Bool
  c2 : Bool
  c3 : Bool
  deriving DecidableEq, Repr

/-- At a block's start state 0's metric is 0 and the others are 64 (R108). -/
def Metrics.start : Metrics := ⟨0, 64, 64, 64⟩

/-- Subtracts 64 from all four when the smallest is 64 or more (R108). -/
def Metrics.normalize (m : Metrics) : Metrics :=
  if 64 ≤ min (min m.m0 m.m1) (min m.m2 m.m3) then
    ⟨m.m0 - 64, m.m1 - 64, m.m2 - 64, m.m3 - 64⟩
  else m

/-- The same metrics, brought to numerals when Lean's kernel evaluates them. -/
def Metrics.withValues {α : Type} (m : Metrics) (f : Metrics → α) : α :=
  withValue m.m0 fun a => withValue m.m1 fun b => withValue m.m2 fun c => withValue m.m3 fun d =>
    f ⟨a, b, c, d⟩

/-- One position of the decoder (R108). State 2·s1 + s2 is reached by input s1 from the states whose
first bit is s2: states 2·s2 and 2·s2 + 1. On equal sums the lower-numbered is recorded. -/
def decodeStep (m : Metrics) (p : Beat × Beat) : Metrics × Choices :=
  let a0 := m.m0 + branchCost p false false false
  let b0 := m.m1 + branchCost p false false true
  let a1 := m.m2 + branchCost p false true false
  let b1 := m.m3 + branchCost p false true true
  let a2 := m.m0 + branchCost p true false false
  let b2 := m.m1 + branchCost p true false true
  let a3 := m.m2 + branchCost p true true false
  let b3 := m.m3 + branchCost p true true true
  (Metrics.normalize ⟨min a0 b0, min a1 b1, min a2 b2, min a3 b3⟩,
    ⟨decide (b0 < a0), decide (b1 < a1), decide (b2 < a2), decide (b3 < a3)⟩)

/-- The choices of every position of a block, the last position first (R108). -/
def forward : Metrics → List Choices → List (Beat × Beat) → List Choices
  | _, acc, [] => acc
  | m, acc, p :: ps =>
    (decodeStep m p).1.withValues fun next => forward next ((decodeStep m p).2 :: acc) ps

/-- Traces back from a state through the recorded choices and reads off the input bits (R108). -/
def traceBack : List Choices → Bool → Bool → List Bool → List Bool
  | [], _, _, acc => acc
  | c :: cs, s1, s2, acc =>
    let higher := match s1, s2 with
      | false, false => c.c0
      | false, true => c.c1
      | true, false => c.c2
      | true, true => c.c3
    traceBack cs s2 higher (s1 :: acc)

/-- The decoded input bits of a block, tails among them (R108). -/
def decodeBlock (ps : List (Beat × Beat)) : List Bool :=
  traceBack (forward Metrics.start [] ps) false false []

/-- Whether a beat was sent, not erased, and carries another sign than the re-encoded one (R109). -/
def corrected (b : Beat) (sign : Bool) : Bool :=
  match b with
  | none => false
  | some q => hardSign q != sign

/-- The corrected count of a block: its bits coded again and compared beat by beat (R109). -/
def correctedCount (ps : List (Beat × Beat)) (bits : List Bool) : Nat :=
  (List.zip ps (encode bits)).foldl
    (fun n p => n + (corrected p.1.1 p.2.1).toNat + (corrected p.1.2 p.2.2).toNat) 0

/-- The faults a receiver can find (R104, R110, R111). -/
inductive LineFault
  | syncMiss | head | kind | length | body
  deriving DecidableEq, Repr

/-- A good frame: its sender, head fields, body bytes and corrected count (R109, R111). -/
structure GoodFrame where
  sender    : Nat
  kind      : FrameKind
  strong    : Bool
  addressee : Nat
  body      : List Byte
  corrected : Nat
  deriving DecidableEq, Repr

/-- What a receiver makes of a reception: nothing for senders 0 and 63 (R103), a faulty frame of a
sender, or a good frame. -/
inductive Heard
  | ignored
  | faulty (sender : Nat) (fault : LineFault)
  | good (f : GoodFrame)
  deriving DecidableEq, Repr

/-- The body block: taken at the head's rate and length, decoded, descrambled and checked (R111). -/
def receiveBody (sender : Nat) (kind : FrameKind) (strong : Bool) (len addressee : Nat)
    (fields : List Bool) (headCount : Nat) (beats : List Beat) : Heard :=
  let ps := if strong then strongPositions (8 * len + 18) beats
    else lightPositions (4 * len + 9) beats
  let bits := decodeBlock ps
  let plain := scramble sender (bits.take (8 * len + 16))
  let body := bitsToBytes len plain
  if ofBits (plain.drop (8 * len)) = bodyCheck fields body then
    .good ⟨sender, kind, strong, addressee, body, headCount + correctedCount ps bits⟩
  else .faulty sender .body

/-- The head block and its three tests in order, then the body (R110). -/
def receiveHead (sender : Nat) (sn : Sense) (head body : List Beat) : Heard :=
  let ps := strongPositions 26 (head.map sn.apply)
  let bits := decodeBlock ps
  let fields := bits.take 17
  let len := ofBits ((fields.drop 5).take 6)
  if crc7 fields = ofBits ((bits.drop 17).take 7) then
    match FrameKind.ofCode (ofBits (fields.take 4)) with
    | none => .faulty sender .kind
    | some kind =>
      if kind.lengthOk len then
        receiveBody sender kind ((fields.drop 4).headD false) len (ofBits (fields.drop 11)) fields
          (correctedCount ps bits) (body.map sn.apply)
      else .faulty sender .length
  else .faulty sender .head

/-- The receiver, key to body check (R103, R104, R110, R111). Whether the key is the tile's own is for
the tile to judge (R90). -/
def receive (rx : Reception) : Heard :=
  let sender := senderOf rx.key
  if sender = 0 ∨ sender = 63 then .ignored
  else
    match syncSense rx.sync with
    | none => .faulty sender .syncMiss
    | some sn => receiveHead sender sn rx.head rx.body

/-- The reception of a frame as it stands on an undisturbed line: what a station with number `sender`
that contends with `key` drives, strongest pulses, the couplers in the same orientation. -/
def undisturbed (key sender : Nat) (f : Frame) : Reception :=
  let beat : Bool → Beat := fun b => some (if b then 7 else 0)
  { key := (keySymbols key).map fun s => ⟨s, false⟩
    sync := syncSigns.map beat
    head := (headBeats f).map beat
    body := (bodyBeats sender f).map beat }

end Sys2Proof.Machine
end

