-- ==== Sys2Proof/Machine/State.lean ====
section
/-! DEFINITION. The state of one LQ-48: every register, table, queue, counter and pin the chapters
give its eleven blocks, as plain data, the queue of commands that wait, and State.reset. -/

namespace Sys2Proof.Machine

/-! ## Stops -/

/-- What stops the machine. The manual gives the part no fault: whatever a station, a player or the
store does, the part goes on. No command raises one, so the type has no constructor (safe). -/
inductive Fault
  deriving DecidableEq, Repr

/-- What the model refuses. -/
inductive Refusal
  /-- Answered by exec alone, for a command that has no meaning yet (safe). None is left so. -/
  | notModelled (mnemonic : String)
  deriving DecidableEq, Repr

/-! ## Session Control (R180, R181) -/

/-- The session states (R180). -/
inductive Session
  | starting | unwritten | loading | listening | play | rest | silent
  deriving DecidableEq, Repr

/-- How far a power-on start has come within STARTING (R182, R174): reading the header, content and
journal; putting the census in order; writing the SESSION slot. -/
inductive StartStage
  | reading | census | session
  deriving DecidableEq, Repr

/-- The health flags (R181): five state flags and three event flags. -/
structure Health where
  unwritten  : Bool
  loading    : Bool
  withdrawn  : Bool
  storeWorn  : Bool
  quarantine : Bool
  overrun    : Bool
  loop       : Bool
  rosterFull : Bool
  deriving DecidableEq, Repr

/-! ## The header's settings (R123, R94, R197) -/

/-- A pad's event enables and wake enable (R123). -/
structure PadSetting where
  placed  : Bool
  lifted  : Bool
  misread : Bool
  wake    : Bool
  deriving DecidableEq, Repr

/-- The header page's fields as the blocks use them for the session (R5, R94, R123, R197). -/
structure Header where
  layout     : Byte
  tile       : Nat
  first      : Nat
  size       : Nat
  sealed     : Nat
  padCount   : Nat
  emptyLimit : Nat
  debounce   : Nat
  faultLimit : Nat
  fairLimit  : Nat
  poorLimit  : Nat
  pads       : List PadSetting
  bands      : List (Nat × Nat)
  deriving DecidableEq, Repr

/-! ## Mark Unit (R1 to R4, R23, R34) -/

/-- The kinds of owned mark (R2). -/
inductive MarkKind
  | flag | level | tally
  deriving DecidableEq, Repr

/-- An owned entry (R3), with the mark's initial value from the mark page (R6) and the captured flag
the Journal Writer keeps for it (R163). The journal-pending flag is held with the time at which it was
set (notes/assumptions/11.md). The kind's TALLY digits are the value's two decimal digits. -/
structure Owned where
  kind     : MarkKind
  initial  : Nat
  value    : Nat
  version  : Byte
  sealed   : Bool
  announce : Bool
  pending  : Option Nat
  cause    : Option (Nat × Byte)
  captured : Bool
  deriving DecidableEq, Repr

/-- The states of a replica (R4). -/
inductive ReplicaState
  | unknown | fresh | stale
  deriving DecidableEq, Repr

/-- A replica entry (R4). -/
structure Replica where
  value   : Nat
  version : Byte
  epoch   : Byte
  state   : ReplicaState
  deriving DecidableEq, Repr

/-- An entry of the mark table (R1). -/
inductive MarkEntry
  | owned (o : Owned)
  | replica (r : Replica)
  deriving DecidableEq, Repr

/-- A replica as power-on start, a new game and a withdrawal set it (R11). -/
def Replica.blank : Replica := ⟨0, 0, 0, .unknown⟩

/-- The refusal reasons (R196). -/
inductive Reason
  | short | mismatch | range | sealed | notOwner | busy | order | worn | check
  deriving DecidableEq, Repr

/-- The operations of a claim (R25). -/
inductive ClaimOp
  | set | add | take | swap
  deriving DecidableEq, Repr

/-- What an answer says (R34). -/
inductive AnswerWord
  | grant (value : Nat) (version : Byte)
  | refuse (reason : Reason)
  deriving DecidableEq, Repr

/-- The frame an answer answers: a CLAIM, or a LOAD frame, the seal told apart because the last beat of
its GRANT starts the part afresh (R34, R178). -/
inductive AnswerTo
  | claim | load | seal
  deriving DecidableEq, Repr

/-- An answer of the answer queue (R34). -/
structure Answer where
  word      : AnswerWord
  answers   : AnswerTo
  addressee : Nat
  tag       : Byte
  mark      : Nat
  deriving DecidableEq, Repr

/-- The snapshot run (R23). -/
structure SnapshotRun where
  running : Bool
  next    : Nat
  restart : Bool
  deriving DecidableEq, Repr

/-! ## Roster (R77, R15) -/

/-- Grades of the line from a peer (R94). -/
inductive Grade
  | good | fair | poor
  deriving DecidableEq, Repr

/-- A roster entry (R77). The state is PRESENT exactly while a silence deadline is held. -/
structure Peer where
  tile        : Nat
  present     : Bool
  epoch       : Byte
  first       : Nat
  size        : Nat
  serial      : Byte
  listsMePoor : Bool
  lastHeard   : Nat
  silenceAt   : Option Nat
  removalAt   : Option Nat
  counted     : Nat
  corrected   : Nat
  faults      : Nat
  grade       : Grade
  deriving DecidableEq, Repr

/-- What the routing table names as a mark's owner (R15). -/
inductive Route
  | none
  | self
  | peer (tile : Nat)
  deriving DecidableEq, Repr

/-! ## Claim List (R38) -/

/-- The phases of an entry, the deadline present in SENT (R38). -/
inductive Phase
  | queued
  | sent (deadline : Nat)
  deriving DecidableEq, Repr

/-- An entry of the Claim List (R38). -/
structure ClaimEntry where
  tag   : Byte
  step  : Nat
  mark  : Nat
  op    : ClaimOp
  a     : Byte
  b     : Byte
  owner : Nat
  phase : Phase
  deriving DecidableEq, Repr

/-- The outcomes of a claim (R47, R40). -/
inductive ClaimOutcome
  | granted
  | refused (reason : Reason)
  | noAnswer
  | unrouted
  | noRoom
  deriving DecidableEq, Repr

/-! ## Pad Unit (R125, R130) -/

/-- A pad event's kind and class, `none` for UNKNOWN (R130). -/
inductive PadEventKind
  | placed (cls : Nat)
  | lifted (cls : Option Nat)
  | misread
  deriving DecidableEq, Repr

/-- A pad's state with the fields present in it (R125): in ARRIVING and LEAVING the run, in READING the
reading count and the last class, in OCCUPIED and LEAVING the held class (`none` for UNKNOWN), in
OCCUPIED the change candidate. -/
inductive PadState
  | empty
  | arriving (run : Nat)
  | reading (count : Nat) (last : Option Nat)
  | occupied (held : Option Nat) (candidate : Option Nat)
  | leaving (held : Option Nat) (run : Nat)
  deriving DecidableEq, Repr

/-- A pad record (R125). -/
structure Pad where
  state : PadState
  held  : Option PadEventKind
  deriving DecidableEq, Repr

/-- A pad record as power-on start and a new game set it (R125). -/
def Pad.blank : Pad := ⟨.empty, none⟩

/-! ## Timer Unit (R138) -/

/-- The lengths of a tick (R138). -/
inductive TickLength
  | sixtyFourth | eighth | second | fourSeconds
  deriving DecidableEq, Repr

/-- A quest timer (R138). -/
structure Timer where
  running   : Bool
  preset    : Nat
  tick      : TickLength
  repeats   : Bool
  remaining : Nat
  base      : Nat
  deriving DecidableEq, Repr

/-- A timer after power-on start (R138). -/
def Timer.blank : Timer := ⟨false, 1, .sixtyFourth, false, 0, 0⟩

/-! ## Output Unit (R143, R149, R152) -/

/-- A light channel's quest pattern; a BLINK has its period and on-time in base ticks (R143). -/
inductive LightPattern
  | off
  | on
  | blink (period onTime : Nat)
  | follow (mark : Nat)
  deriving DecidableEq, Repr

/-- A light channel (R143). -/
structure Light where
  pattern : LightPattern
  phase   : Nat
  deriving DecidableEq, Repr

/-- The wave duties of a tone: 1 in 4, 3 or 2 (R148). -/
inductive WaveDuty
  | quarter | third | half
  deriving DecidableEq, Repr

/-- A tone record (R149). -/
structure Tone where
  pitch    : Nat
  duty     : WaveDuty
  duration : Nat
  deriving DecidableEq, Repr

/-- The sources of the digit display (R152). -/
inductive DigitSource
  | none
  | fixed (n : Nat)
  | mark (m : Nat)
  | timer (t : Nat)
  deriving DecidableEq, Repr

/-- The digit display record (R152). -/
structure Digits where
  source    : DigitSource
  blankZero : Bool
  deriving DecidableEq, Repr

/-! ## Quest Engine (R49, R50, R54, R59, R62) -/

/-- The pad events a PAD_EVENT condition names (R54). -/
inductive PadEdge
  | placed | lifted | misread
  deriving DecidableEq, Repr

/-- The comparisons of a MARK_TEST (R57). -/
inductive Comparison
  | eq | ne | ge | lt
  deriving DecidableEq, Repr

/-- A condition (R54); a class of `none` is ANY. -/
inductive Condition
  | padEvent (pad : Nat) (event : PadEdge) (cls : Option Nat)
  | padHolds (pad : Nat) (cls : Option Nat)
  | markTest (mark : Nat) (cmp : Comparison) (value : Nat)
  | timerExpired (timer : Nat)
  | cueHeard (cue : Nat)
  | stepDone (step : Nat)
  deriving DecidableEq, Repr

/-- An effect (R59). -/
inductive Effect
  | claim (op : ClaimOp) (mark : Nat) (a b : Byte)
  | cue (cue : Nat)
  | arm (step : Nat)
  | disarm (step : Nat)
  | disarmQuest (quest : Nat)
  | timerStart (timer preset : Nat) (tick : TickLength) (repeats : Bool)
  | timerStop (timer : Nat)
  | light (channel : Nat) (pattern : LightPattern)
  | tone (tone : Tone) (cut : Bool)
  | digits (digits : Digits)
  | recheck (pad : Nat)
  deriving DecidableEq, Repr

/-- What a step does when its claim is not granted (R68). -/
inductive OnRefusal
  | rearm
  | drop
  | fallback (step : Nat)
  deriving DecidableEq, Repr

/-- The content fields of a step (R49). -/
structure StepRecord where
  quest      : Nat
  armed      : Bool
  matchAll   : Bool
  conditions : List Condition
  effects    : List Effect
  repeats    : Nat
  onRefusal  : OnRefusal
  deriving DecidableEq, Repr

/-- The states of a step (R53). -/
inductive StepState
  | dormant | armed | pending | withdrawn | spent | quarantined
  deriving DecidableEq, Repr

/-- A step: its content and its runtime fields (R50). A QUARANTINED step's content is never used; of it
the record keeps the repeat field alone, and the seen flags the number of conditions. -/
structure Step where
  record : StepRecord
  state  : StepState
  seen   : List Bool
  left   : Nat
  tag    : Option Byte
  deriving DecidableEq, Repr

/-- What an event of the engine queue tells (R62). -/
inductive Happening
  | pad (pad : Nat) (kind : PadEventKind)
  | timer (timer : Nat)
  | cue (cue : Nat)
  | stepDone (step : Nat)
  | mark (mark : Nat)
  deriving DecidableEq, Repr

/-- What waits for the engine: an event of the engine queue with its depth, or an answer event of the
answer hold (R62, R63, R47). -/
inductive Arrival
  | event (what : Happening) (depth : Nat)
  | answer (step : Nat) (tag : Byte) (outcome : ClaimOutcome)
  deriving DecidableEq, Repr

/-! ## Line Unit (R99, R102, R115, R118, R119) -/

/-- The trail line as the tile follows it (R99): quiet since the end of the last frame the tile knows of,
fewer than 16 beats of it counted yet; idle, those 16 beats having passed; or with a frame on it, the tile's
own or another station's, whose end has not come. -/
inductive LineState
  | quiet (since : Nat)
  | idle
  | busy
  deriving DecidableEq, Repr

/-- A frame of the transmit queue (R119). -/
inductive Queued
  | claim (tag : Byte) (mark : Nat) (op : ClaimOp) (a b : Byte) (owner : Nat)
  | cue (cue : Nat)
  | ask (peer : Nat)
  | wake
  deriving DecidableEq, Repr

/-- The source an outstanding frame was built from (R117). A HAIL keeps the event flags it carries and
whether an immediate request was set after it was built (R115, R116). -/
inductive Source
  | hail (overrun loop rosterFull : Bool) (requested : Bool)
  | answer (a : Answer)
  | slate (mark : Nat)
  | snapshot (count : Nat)
  | queue (q : Queued)
  deriving DecidableEq, Repr

/-- The outstanding frame (R118): as built, the key it contends with, its source, whether contention is
won, and whether its source still holds it. -/
structure Outstanding where
  frame  : Frame
  key    : Nat
  source : Source
  won    : Bool
  live   : Bool
  deriving DecidableEq, Repr

/-- The HAIL schedule (R115), with the end of the last HAIL sent since power-on start. -/
structure HailSchedule where
  due       : Option Nat
  immediate : Bool
  lastEnd   : Option Nat
  deriving DecidableEq, Repr

/-! ## Store Controller (R155, R157) -/

/-- The store operations (R156). A slot is named by its slot index in the block. -/
inductive StoreOp
  | read (block page : Nat)
  | program (block slot : Nat) (data : List Byte)
  | erase (block : Nat)
  deriving DecidableEq, Repr

/-- The types of a block's label (R160). -/
inductive LabelType
  | journal | snapshot
  deriving DecidableEq, Repr

/-- What a store operation is for: its client (R157) and what the client does with its result. -/
inductive Purpose
  | startRead (n : Nat)
  | label (type : LabelType)
  | session
  | batch
  | snapPart
  | snapEnd
  | newGame
  | retired
  | eraseObsolete
  | loadErase
  | loadRetired
  | loadPart (tag : Byte) (sender : Nat)
  deriving DecidableEq, Repr

/-- An operation with its purpose and the verify passes used (R157). -/
structure Operation where
  op      : StoreOp
  purpose : Purpose
  passes  : Nat
  deriving DecidableEq, Repr

/-- The store array (R155): the bytes that do not read erased, as pairs of address and byte with the
addresses rising and no byte FF hex, and for each block how many of its slots, counted from slot 0, lie
at or below the highest one attempted since its last erasure. -/
structure Store where
  cells     : List Host.Cell
  attempted : List Nat
  deriving DecidableEq, Repr

/-! ## Journal Writer (R161, R163) -/

/-- The census states (R161). -/
inductive BlockState
  | erased | active | full | building | obsolete | retired
  deriving DecidableEq, Repr

/-- A journal block in the census, with the sequence of its label (0 while it has none). -/
structure Block where
  state    : BlockState
  sequence : Nat
  deriving DecidableEq, Repr

/-- The Journal Writer (R163).
`census` holds blocks 2 to 15 in order; the retired-block set is the blocks RETIRED in it (R161).
`snapSlot` and `snapMark` are the compaction state: the BUILDING block's next slot and the lowest mark
not yet written to it. `newGameOwed` is the owed NEW_GAME slot's serial and epoch.
`newGameWaits` and `withdrawWaits` are a new game and a withdrawal that wait for the operation in
progress (R171, R167). -/
structure Writer where
  census         : List Block
  nextSequence   : Nat
  nextSlot       : Nat
  inFlight       : Option (List Nat)
  oldestPending  : Option Nat
  snapSlot       : Nat
  snapMark       : Nat
  compactionOwed : Bool
  newGameOwed    : Option (Byte × Byte)
  newGameWaits   : Option (Byte × Byte)
  withdrawWaits  : Bool
  deriving DecidableEq, Repr

/-- A Journal Writer before recovery: an unread census, everything else as R163 gives it. -/
def Writer.blank : Writer :=
  { census := List.replicate 14 ⟨.obsolete, 0⟩, nextSequence := 1, nextSlot := 1, inFlight := none,
    oldestPending := none, snapSlot := 1, snapMark := 0, compactionOwed := false, newGameOwed := none,
    newGameWaits := none, withdrawWaits := false }

/-! ## Loader handling (R175, R178) -/

/-- The erase progress (R175). -/
inductive EraseProgress
  | next (block : Nat)
  | done
  | failed
  deriving DecidableEq, Repr

/-- The loader handling (R175): the loading tag and the sender of the LOAD_OPEN that gave it, the erase
progress, the highest slot programmed in blocks 0 and 1, the time of the last LOAD frame, the seals held
with a place in the answer queue, and whether the handling is sealed (R178). -/
structure Loader where
  tag      : Option Byte
  opener   : Nat
  progress : EraseProgress
  slot0    : Option Nat
  slot1    : Option Nat
  lastLoad : Nat
  seals    : List (Byte × Nat)
  isSealed : Bool
  deriving DecidableEq, Repr

/-- The loader handling after power-on start and at entry to UNWRITTEN (R175). R175 gives no time of the last LOAD frame
there, and none has opened a loading: the time and the opener's number are 0 (DESIGN CHOICE, notes/assumptions/6.md). -/
def Loader.blank : Loader := ⟨none, 0, .done, none, none, 0, [], false⟩

/-! ## The whole part -/

/-- The state of the part. -/
structure State where
  /-- The commands waiting, first in first out. -/
  pending : List Instr
  /-- The present time in microseconds (the crystal's). -/
  now : Nat
  /-- Whether the part has power. -/
  powered : Bool
  -- Session Control
  session : Session
  stage : StartStage
  epoch : Byte
  serial : Byte
  tile : Nat
  listenAt : Option Nat
  restOwed : Bool
  droop : Bool
  health : Health
  header : Header
  -- Mark Unit
  marks : List MarkEntry
  winFirst : Nat
  winSize : Nat
  watched : List Bool
  answers : List Answer
  run : SnapshotRun
  -- Roster
  roster : List Peer
  routes : List Route
  -- Claim List
  claims : List ClaimEntry
  tagCounter : Byte
  -- Quest Engine
  steps : List Step
  inbox : List Arrival
  -- Line Unit
  line : LineState
  transmit : List Queued
  losses : Nat
  hail : HailSchedule
  outstanding : Option Outstanding
  lineOut : List Symbol
  -- Pad Unit
  pads : List Pad
  gateStart : Option Nat
  -- Timer Unit
  timers : List Timer
  lastTick : Option Nat
  -- Output Unit
  lights : List Light
  sessionPhase : Nat
  tones : List Tone
  toneCount : Nat
  toneStart : Nat
  toneTable : List Nat
  digits : Digits
  -- Store Controller
  store : Store
  op : Option Operation
  waiting : Option Operation
  -- Journal Writer
  writer : Writer
  -- Loader handling
  loader : Loader
  deriving DecidableEq, Repr

/-- No health flag set (R180). -/
def Health.clear : Health := ⟨false, false, false, false, false, false, false, false⟩

/-- The settings before a header has been read: none of them is in force (DESIGN CHOICE,
notes/assumptions/6.md). -/
def Header.blank : Header :=
  { layout := 0, tile := 0, first := 0, size := 0, sealed := 0, padCount := 0, emptyLimit := 0,
    debounce := 0, faultLimit := 0, fairLimit := 0, poorLimit := 0,
    pads := List.replicate 6 ⟨false, false, false, false⟩, bands := List.replicate 16 (0, 0) }

/-- A store in which every byte reads erased (R155; what an unlisted byte reads as is FF hex). -/
def Store.blank : Store := ⟨[], List.replicate 16 0⟩

/-- Every working register at its power-on value (the "After power-on start" tables of the chapters),
without power, over a store that has never been written (DESIGN CHOICE, notes/assumptions/6.md). -/
def State.reset : State :=
  { pending := []
    now := 0
    powered := false
    session := .starting
    stage := .reading
    epoch := 0
    serial := 0
    tile := Config.fallbackTile
    listenAt := none
    restOwed := false
    droop := false
    health := Health.clear
    header := Header.blank
    marks := List.replicate 256 (.replica Replica.blank)
    winFirst := 0
    winSize := 0
    watched := List.replicate 256 false
    answers := []
    run := ⟨false, 0, false⟩
    roster := []
    routes := List.replicate 256 Route.none
    claims := []
    tagCounter := 0
    steps := []
    inbox := []
    line := .quiet 0
    transmit := []
    losses := 0
    hail := ⟨none, false, none⟩
    outstanding := none
    lineOut := []
    pads := List.replicate 6 Pad.blank
    gateStart := none
    timers := List.replicate 4 Timer.blank
    lastTick := none
    lights := List.replicate 8 ⟨.off, 0⟩
    sessionPhase := 0
    tones := []
    toneCount := 0
    toneStart := 0
    toneTable := []
    digits := ⟨.none, false⟩
    store := Store.blank
    op := none
    waiting := none
    writer := Writer.blank
    loader := Loader.blank }

end Sys2Proof.Machine
end

