-- ==== Sys2Proof/Machine/Flags.lean ====
section
/-! DEFINITION. The health flags: setting the event flags and the state flags, and the health byte of a
HAIL (R116, R181, R196). -/

namespace Sys2Proof.Machine

/-- Sets OVERRUN (R181). -/
def State.setOverrun (s : State) : State := { s with health := { s.health with overrun := true } }

/-- Sets LOOP (R62, R181). -/
def State.setLoop (s : State) : State := { s with health := { s.health with loop := true } }

/-- Sets ROSTER_FULL (R79, R181). -/
def State.setRosterFull (s : State) : State :=
  { s with health := { s.health with rosterFull := true } }

/-- Sets WITHDRAWN for the session (R89, R181). -/
def State.setWithdrawn (s : State) : State :=
  { s with health := { s.health with withdrawn := true } }

/-- Sets STORE_WORN; the Journal Writer is then stopped (R170, R181). -/
def State.setWorn (s : State) : State := { s with health := { s.health with storeWorn := true } }

/-- Clears the event flags a HAIL carried (R116). -/
def State.clearCarried (s : State) (overrun loop rosterFull : Bool) : State :=
  { s with health :=
    { s.health with
      overrun := s.health.overrun && !overrun
      loop := s.health.loop && !loop
      rosterFull := s.health.rosterFull && !rosterFull } }

/-- The health byte of a HAIL, UNWRITTEN in bit 7 down to ROSTER_FULL in bit 0 (R196). -/
def Health.byte (h : Health) : Byte :=
  BitVec.ofNat 8 (ofBits [h.unwritten, h.loading, h.withdrawn, h.storeWorn, h.quarantine, h.overrun,
    h.loop, h.rosterFull])

/-- The flags of a received health byte that the part reads: UNWRITTEN, LOADING and WITHDRAWN make the
sender's effective window empty (R84). -/
def healthEmptiesWindow (b : Byte) : Bool := b.getLsbD 7 || b.getLsbD 6 || b.getLsbD 5

end Sys2Proof.Machine
end

