-- ==== Sys2Proof/Machine/Ops.lean ====
section
/-! DEFINITION. The named operations over the store's memory, the mark table, the queues and the event
path, which every block's rules are written with. -/

namespace Sys2Proof.Machine

/-! ## The store array's memory (R155) -/

/-- What an unlisted byte reads as: an erased byte reads FF hex (R155). -/
def erasedByte : Byte := 0xFF

/-- The array's size in bytes (R155). -/
def storeSize : Nat := 32768

/-- The byte at an address. -/
def readByte : List Host.Cell → Nat → Byte
  | [], _ => erasedByte
  | (b, v) :: rest, a => if b = a then v else readByte rest a

/-- Stores a byte at an address, keeping the canonical form. -/
def writeByte (a : Nat) (v : Byte) : List Host.Cell → List Host.Cell
  | [] => if v = erasedByte then [] else [(a, v)]
  | (b, w) :: rest =>
    if a < b then if v = erasedByte then (b, w) :: rest else (a, v) :: (b, w) :: rest
    else if a = b then if v = erasedByte then rest else (a, v) :: rest
    else (b, w) :: writeByte a v rest

/-- Stores bytes at rising addresses. -/
def writeBytes : Nat → List Byte → List Host.Cell → List Host.Cell
  | _, [], cells => cells
  | a, v :: vs, cells => writeBytes (a + 1) vs (writeByte a v cells)

/-- The cells at or above an address. -/
def cellsFrom (a : Nat) : List Host.Cell → List Host.Cell
  | [] => []
  | (b, v) :: rest => if b < a then cellsFrom a rest else (b, v) :: rest

/-- `n` bytes from an address, read off cells that begin at or above it. -/
def fillBytes : Nat → Nat → List Host.Cell → List Byte
  | 0, _, _ => []
  | n + 1, a, [] => erasedByte :: fillBytes n (a + 1) []
  | n + 1, a, (b, v) :: rest =>
    if b = a then v :: fillBytes n (a + 1) rest else erasedByte :: fillBytes n (a + 1) ((b, v) :: rest)

/-- `n` bytes from an address. Laws/Memory.lean proves it reads each of them as readByte does. -/
def readBytes (cells : List Host.Cell) (a n : Nat) : List Byte := fillBytes n a (cellsFrom a cells)

/-- The cells outside the addresses from `lo` to below `hi`. -/
def dropRange (lo hi : Nat) (cells : List Host.Cell) : List Host.Cell :=
  cells.filter fun c => decide (c.1 < lo ∨ hi ≤ c.1)

/-- The canonical form from an address on: addresses rising, within the array, no byte FF hex. -/
def cellsOk : Nat → List Host.Cell → Bool
  | _, [] => true
  | lo, (a, v) :: rest =>
    decide (lo ≤ a) && decide (a < storeSize) && (v != erasedByte) && cellsOk (a + 1) rest

/-- The store's memory has its canonical form. -/
def Store.wf (st : Store) : Bool := cellsOk 0 st.cells

/-- The address of a block (R155). -/
def blockAddr (block : Nat) : Nat := 2048 * block

/-- The address of a slot by its slot index in a block (R155). -/
def slotAddr (block slot : Nat) : Nat := 2048 * block + 32 * slot

/-- The 128 bytes of a page (R155). -/
def Store.page (st : Store) (block page : Nat) : List Byte :=
  readBytes st.cells (2048 * block + 128 * page) 128

/-- The 32 bytes of a slot (R155). -/
def Store.slot (st : Store) (block slot : Nat) : List Byte :=
  readBytes st.cells (slotAddr block slot) 32

/-- A slot reads erased when all its bytes are FF hex (R159). -/
def allErased (bytes : List Byte) : Bool := bytes.all (· == erasedByte)

/-- Exactly `n` bytes: the first `n` given, erased ones after them. -/
def exactBytes : Nat → List Byte → List Byte
  | 0, _ => []
  | n + 1, [] => erasedByte :: exactBytes n []
  | n + 1, b :: bs => b :: exactBytes n bs

/-- Writes a slot's 32 bytes; there is no such slot outside the array's 16 blocks of 64. -/
def Store.writeSlot (st : Store) (block slot : Nat) (data : List Byte) : Store :=
  if block < 16 ∧ slot < 64 then
    { st with cells := writeBytes (slotAddr block slot) (exactBytes 32 data) st.cells }
  else st

/-- Counts a slot as attempted (R155). -/
def Store.attempt (st : Store) (block slot : Nat) : Store :=
  { st with attempted := st.attempted.set block (max (st.attempted.getD block 0) (slot + 1)) }

/-- Counts an erasure of a block: none of its slots is attempted any more (R155). -/
def Store.forget (st : Store) (block : Nat) : Store :=
  { st with attempted := st.attempted.set block 0 }

/-- Every byte of a block becomes FF hex (R155). -/
def Store.eraseBlock (st : Store) (block : Nat) : Store :=
  { st with cells := dropRange (blockAddr block) (blockAddr (block + 1)) st.cells }

/-- What one slot of unreliable contents is left as (R156); a slot that read erased still does. -/
def Store.leaveSlot (st : Store) (block slot : Nat) (l : SlotLeft) : Store :=
  match l with
  | .kept => st
  | .erased => st.writeSlot block slot []
  | .bad bytes => if allErased (st.slot block slot) then st else st.writeSlot block slot bytes

/-- What a slot is left as by a failed program of some data: as intended, erased, or bad (R156). -/
def Store.leaveProgram (st : Store) (block slot : Nat) (data : List Byte) (l : SlotLeft) : Store :=
  match l with
  | .kept => st.writeSlot block slot data
  | .erased => st.writeSlot block slot []
  | .bad bytes => st.writeSlot block slot bytes

/-- What a block is left as by a failed or abandoned erase, slot by slot (R156). -/
def Store.leaveBlock (st : Store) (block : Nat) (slot : Nat) : List SlotLeft → Store
  | [] => st
  | l :: ls => (st.leaveSlot block slot l).leaveBlock block (slot + 1) ls

/-! ## Time and session -/

/-- The present time moves on (each command says by how much). -/
def State.advance (s : State) (dt : Nat) : State := { s with now := s.now + dt }

/-- LISTENING, PLAY and REST: the states in which the game's blocks act. -/
def Session.inGame : Session → Bool
  | .listening | .play | .rest => true
  | _ => false

/-- PLAY and REST: the states in which every source may send (R117) and claims are taken (R32). -/
def Session.onBoard : Session → Bool
  | .play | .rest => true
  | _ => false

/-- UNWRITTEN and LOADING. -/
def Session.blankTile : Session → Bool
  | .unwritten | .loading => true
  | _ => false

/-! ## Tables -/

/-- Every entry of a table, with its index, from a first index. -/
def mapFrom {α β : Type} (f : Nat → α → β) : Nat → List α → List β
  | _, [] => []
  | i, x :: xs => f i x :: mapFrom f (i + 1) xs

/-- Changes one entry of a table. -/
def modifyAt {α : Type} (f : α → α) : Nat → List α → List α
  | _, [] => []
  | 0, x :: xs => f x :: xs
  | i + 1, x :: xs => x :: modifyAt f i xs

/-- The entry of a mark; there are 256 (R1). -/
def State.mark (s : State) (m : Nat) : MarkEntry := s.marks.getD m (.replica Replica.blank)

/-- The owned entry of a mark, if it is one. -/
def State.owned (s : State) (m : Nat) : Option Owned :=
  match s.mark m with
  | .owned o => some o
  | .replica _ => none

/-- Changes an entry that is owned. -/
def MarkEntry.onOwned (f : Owned → Owned) : MarkEntry → MarkEntry
  | .owned o => .owned (f o)
  | .replica r => .replica r

/-- Changes an entry that is a replica. -/
def MarkEntry.onReplica (f : Replica → Replica) : MarkEntry → MarkEntry
  | .owned o => .owned o
  | .replica r => .replica (f r)

/-- Changes the owned entry of one mark. -/
def State.modifyOwned (s : State) (m : Nat) (f : Owned → Owned) : State :=
  { s with marks := modifyAt (MarkEntry.onOwned f) m s.marks }

/-- Changes the replica entry of one mark. -/
def State.modifyReplica (s : State) (m : Nat) (f : Replica → Replica) : State :=
  { s with marks := modifyAt (MarkEntry.onReplica f) m s.marks }

/-- The value of a usable mark: an owned entry, or a replica in FRESH (R4). -/
def State.usable (s : State) (m : Nat) : Option Nat :=
  match s.mark m with
  | .owned o => some o.value
  | .replica r => if r.state = .fresh then some r.value else none

/-- The route of a mark (R15). -/
def State.route (s : State) (m : Nat) : Route := s.routes.getD m .none

/-- Whether a mark is watched (R20). -/
def State.isWatched (s : State) (m : Nat) : Bool := s.watched.getD m false

/-- Whether a mark lies in the active window (R16). -/
def State.inWindow (s : State) (m : Nat) : Bool :=
  decide (s.winFirst ≤ m ∧ m < s.winFirst + s.winSize)

/-- The marks of the active window, in order. -/
def State.windowMarks (s : State) : List Nat := List.range' s.winFirst s.winSize

/-- The roster entry of a tile (R77). -/
def State.peer (s : State) (tile : Nat) : Option Peer := s.roster.find? (·.tile == tile)

/-- Changes the roster entry of a tile. -/
def State.modifyPeer (s : State) (tile : Nat) (f : Peer → Peer) : State :=
  { s with roster := s.roster.map fun p => if p.tile = tile then f p else p }

/-- A step of the step table; in UNWRITTEN and LOADING there are none (R49). -/
def State.step (s : State) (n : Nat) : Option Step := s.steps[n]?

/-- Changes one step. -/
def State.modifyStep (s : State) (n : Nat) (f : Step → Step) : State :=
  { s with steps := modifyAt f n s.steps }

/-! ## The engine's arrivals (R62, R63) -/

/-- An arrival of the engine queue, not of the answer hold. -/
def Arrival.isEvent : Arrival → Bool
  | .event _ _ => true
  | .answer _ _ _ => false

/-- The engine queue: the events that wait, oldest first (R62). -/
def State.engineQueue (s : State) : List Arrival := s.inbox.filter Arrival.isEvent

/-- The answer hold: the answer events that wait, oldest first (R63). -/
def State.answerHold (s : State) : List Arrival := s.inbox.filter fun a => !a.isEvent

/-- Raises an event to the engine queue: discarded where the engine takes none (R64), with LOOP beyond
depth 8 and with OVERRUN at a full queue (R62). -/
def State.raise (s : State) (what : Happening) (depth : Nat) : State :=
  if s.session.inGame then
    if Config.depthLimit < depth then s.setLoop
    else if Config.engineRoom ≤ s.engineQueue.length then s.setOverrun
    else { s with inbox := s.inbox ++ [.event what depth] }
  else s

/-- Raises a mark-change event for a watched mark (R21). -/
def State.raiseMark (s : State) (m depth : Nat) : State :=
  if s.isWatched m then s.raise (.mark m) depth else s

/-- Raises mark-change events for the watched among some marks, in order (R21). -/
def State.raiseMarks (s : State) (ms : List Nat) : State :=
  ms.foldl (fun s m => s.raiseMark m 0) s

/-! ## Queues -/

/-- The places of the answer queue in use: its answers and the places held by seals (R34, R178). -/
def State.answerPlaces (s : State) : Nat := s.answers.length + s.loader.seals.length

/-- Whether the answer queue has room for one more answer (R33). -/
def State.answerHasRoom (s : State) : Bool := decide (s.answerPlaces < Config.answerRoom)

/-- An answer joins the tail of the answer queue (R34). -/
def State.queueAnswer (s : State) (a : Answer) : State := { s with answers := s.answers ++ [a] }

/-- Offers a frame to the transmit queue; at a full queue it is dropped with OVERRUN (R119). -/
def State.offer (s : State) (q : Queued) : State :=
  if s.transmit.length < Config.transmitRoom then { s with transmit := s.transmit ++ [q] }
  else s.setOverrun

/-! ## Pending flags (R163, R168) -/

/-- Whether some owned non-sealed mark has its journal-pending flag set. -/
def State.anyPending (s : State) : Bool :=
  s.marks.any fun e => match e with
    | .owned o => o.pending.isSome && !o.sealed
    | .replica _ => false

/-- The owned non-sealed marks with journal-pending set, lowest first (R164). -/
def State.pendingMarks (s : State) : List Nat :=
  (List.range 256).filter fun m => match s.mark m with
    | .owned o => o.pending.isSome && !o.sealed
    | .replica _ => false

/-- The oldest pending time after flags have been set at the present time, given whether any was set
before (R163). -/
def State.notePending (s : State) (before : Bool) : State :=
  if before then s
  else if s.anyPending then
    { s with writer := { s.writer with oldestPending := some s.now } }
  else s

/-- The time at which the oldest of some entries' journal-pending flags was set, none when none is set
(R163). -/
def oldestSet : List MarkEntry → Option Nat
  | [] => none
  | .owned o :: rest =>
    match (if o.sealed then none else o.pending), oldestSet rest with
    | some t, some t' => some (min t t')
    | some t, none => some t
    | none, r => r
  | .replica _ :: rest => oldestSet rest

/-- An owned entry with its journal-pending flag set; a flag that was set keeps its time (R163). -/
def Owned.flag (o : Owned) (now : Nat) : Owned := { o with pending := some (o.pending.getD now) }

/-- Sets the journal-pending flag of some owned non-sealed marks (R163, R165). -/
def State.setPending (s : State) (ms : List Nat) : State :=
  let flagged := ms.foldl (fun (s : State) m => s.modifyOwned m fun o =>
    if o.sealed then o else o.flag s.now) s
  flagged.notePending s.anyPending

/-! ## The outstanding frame (R118) -/

/-- The outstanding frame's source no longer holds it: its end will change nothing there (R118). -/
def State.orphan (s : State) (which : Source → Bool) : State :=
  match s.outstanding with
  | none => s
  | some o => if which o.source then { s with outstanding := some { o with live := false } } else s

/-- A frame has ended on the line: the tile counts quiet beats from the present moment (R99). -/
def State.lineEnds (s : State) : State := { s with line := .quiet s.now }

/-- The tile stops driving the line: no frame is outstanding, and its gap counts from here (R99, R121,
R18). -/
def State.stopDriving (s : State) : State :=
  { s with outstanding := none, lineOut := [], line := .quiet s.now }

/-- While the tile drives a frame after winning it receives nothing (R103). -/
def State.driving (s : State) : Bool :=
  match s.outstanding with
  | some o => o.won
  | none => false

/-- Sets the HAIL schedule's immediate request, and marks a HAIL in flight as built before it (R115). -/
def State.requestHail (s : State) : State :=
  let out := s.outstanding.map fun o => match o.source with
    | .hail ov lp rf _ => { o with source := .hail ov lp rf true }
    | _ => o
  { s with hail := { s.hail with immediate := true }, outstanding := out }

end Sys2Proof.Machine
end

