-- ==== Sys2Proof/Machine/Operands.lean ====
section
/-! DEFINITION. The operands as bytes lay them out (chapter 10): the header page, the mark and tone
pages, step records, journal slots and frame bodies, read and built. -/

namespace Sys2Proof.Machine

/-- A byte of a page, slot or body by its offset. -/
def byteAt (bytes : List Byte) (i : Nat) : Byte := bytes.getD i erasedByte

/-- A byte as a number. -/
def numAt (bytes : List Byte) (i : Nat) : Nat := (byteAt bytes i).toNat

/-- A two-byte field, high byte first. -/
def wordAt (bytes : List Byte) (i : Nat) : Nat := wordOf (byteAt bytes i) (byteAt bytes (i + 1))

/-- The high four bits of a byte. -/
def highNibble (b : Byte) : Nat := b.toNat / 16

/-- The low four bits of a byte. -/
def lowNibble (b : Byte) : Nat := b.toNat % 16

/-! ## Mark values in the store (R2, R193) -/

/-- The greatest value of a kind (R2). -/
def MarkKind.max : MarkKind → Nat
  | .flag => 1
  | .level => 15
  | .tally => 99

/-- The kind a code of the mark page names (R197). -/
def MarkKind.ofCode : Nat → Option MarkKind
  | 1 => some .flag
  | 2 => some .level
  | 3 => some .tally
  | _ => none

/-- A value as the store holds it: TALLY as two decimal digits (R193). -/
def MarkKind.toStore (k : MarkKind) (v : Nat) : Byte :=
  match k with
  | .tally => BitVec.ofNat 8 (16 * (v / 10) + v % 10)
  | _ => BitVec.ofNat 8 v

/-- The value a stored byte gives for a kind, or none where it exceeds the kind's maximum or a TALLY
digit exceeds 9 (R6, R9, R193). -/
def MarkKind.ofStore (k : MarkKind) (b : Byte) : Option Nat :=
  match k with
  | .tally =>
    if highNibble b ≤ 9 ∧ lowNibble b ≤ 9 then some (10 * highNibble b + lowNibble b) else none
  | k => if b.toNat ≤ k.max then some b.toNat else none

/-! ## The header page (R197) -/

/-- A pad's settings byte (R197). -/
def padSetting (b : Byte) : PadSetting :=
  ⟨b.getLsbD 0, b.getLsbD 1, b.getLsbD 2, b.getLsbD 3⟩

/-- The fields of a header page (R197). -/
def parseHeader (page : List Byte) : Header :=
  { layout := byteAt page 0
    tile := numAt page 1
    first := numAt page 2
    size := numAt page 3
    sealed := numAt page 4
    padCount := numAt page 5
    emptyLimit := wordAt page 6
    debounce := numAt page 8
    faultLimit := numAt page 9
    fairLimit := wordAt page 10
    poorLimit := wordAt page 12
    pads := (List.range 6).map fun i => padSetting (byteAt page (14 + i))
    bands := (List.range 16).map fun c => (wordAt page (20 + 4 * c), wordAt page (22 + 4 * c)) }

/-- The header page's own check (R194). -/
def headerCheckOk (page : List Byte) : Bool :=
  crc16 (bytesToBits (page.take 126)) == wordAt page 126

/-- The content check the header carries (R197). -/
def contentCheckOf (page : List Byte) : Nat := wordAt page 124

/-- The tile-number field lies in 1–62 (R183). -/
def Header.tileOk (h : Header) : Bool := decide (1 ≤ h.tile ∧ h.tile ≤ 62)

/-- The window tests (R5). -/
def Header.windowOk (h : Header) : Bool :=
  decide (h.size ≤ 64 ∧ h.first + h.size ≤ 256 ∧ h.sealed ≤ h.size)

/-- The pad settings' tests (R123). -/
def Header.padsOk (h : Header) : Bool :=
  decide (h.padCount ≤ 6 ∧ 1 ≤ h.emptyLimit ∧ h.emptyLimit ≤ Config.countLimit ∧
      (h.debounce = 2 ∨ h.debounce = 4 ∨ h.debounce = 8)) &&
    (h.bands.take 15).all fun b => decide (b.1 ≤ Config.countLimit ∧ b.2 ≤ Config.countLimit)

/-- The header is not bad (R183). -/
def headerOk (page : List Byte) : Bool :=
  headerCheckOk page && (parseHeader page).tileOk && (parseHeader page).windowOk &&
    (parseHeader page).padsOk

/-- The tile number in use when STARTING ends in UNWRITTEN (R183). -/
def unwrittenTile (page : List Byte) : Nat :=
  if headerCheckOk page && (parseHeader page).tileOk then (parseHeader page).tile
  else Config.fallbackTile

/-! ## The other content pages (R194, R197) -/

/-- The bytes the content check covers (R194). -/
def contentBytes (st : Store) : List Byte :=
  st.page 0 1 ++ st.page 0 2 ++ (List.range 16).flatMap fun p => st.page 1 p

/-- The content check carried in the header page matches (R183, R194). -/
def contentCheckOk (st : Store) : Bool :=
  crc16 (bytesToBits (contentBytes st)) == contentCheckOf (st.page 0 0)

/-- The kind and initial value the mark page gives for a window offset, or none at fault (R6). -/
def markEntryOf (page : List Byte) (k : Nat) : Option (MarkKind × Nat) :=
  match MarkKind.ofCode (numAt page (2 * k)) with
  | none => none
  | some kind =>
    match kind.ofStore (byteAt page (2 * k + 1)) with
    | none => none
    | some v => some (kind, v)

/-- Every entry of the mark page inside the window passes (R6). -/
def markPageOk (page : List Byte) (size : Nat) : Bool :=
  (List.range size).all fun k => (markEntryOf page k).isSome

/-- The content does not fail (R183). -/
def contentOk (st : Store) : Bool :=
  (parseHeader (st.page 0 0)).layout == Config.layoutGeneration && contentCheckOk st &&
    markPageOk (st.page 0 1) (parseHeader (st.page 0 0)).size

/-- The tone table's 32 dividers (R148, R197). -/
def toneTableOf (page : List Byte) : List Nat := (List.range 32).map fun p => wordAt page (2 * p)

/-! ## Step records (R198, with the checks of R51) -/

/-- A class operand: 0–14, or 255 for ANY; any other names no value (R51, R198). -/
def classOf (b : Byte) : Option (Option Nat) :=
  if b.toNat ≤ 14 then some (some b.toNat) else if b.toNat = 255 then some none else none

/-- A value when a test on it passes. -/
def check {α : Type} (ok : Bool) (v : α) : Option α := if ok then some v else none

/-- A pad event's code (R198). -/
def PadEdge.ofCode : Nat → Option PadEdge
  | 1 => some .placed
  | 2 => some .lifted
  | 3 => some .misread
  | _ => none

/-- A comparison's code (R198). -/
def Comparison.ofCode : Nat → Option Comparison
  | 1 => some .eq
  | 2 => some .ne
  | 3 => some .ge
  | 4 => some .lt
  | _ => none

/-- A condition from its four bytes, or none at fault (R51, R198). The class of a MISREAD is not used
and so not judged (R55, R193). -/
def parseCondition (padCount : Nat) (c : List Byte) : Option Condition :=
  let x := numAt c 1
  match numAt c 0 with
  | 1 => match PadEdge.ofCode (numAt c 2) with
    | none => none
    | some .misread => check (x < padCount) (.padEvent x .misread none)
    | some e => match classOf (byteAt c 3) with
      | none => none
      | some cls => check (x < padCount) (.padEvent x e cls)
  | 2 => match classOf (byteAt c 2) with
    | none => none
    | some cls => check (x < padCount) (.padHolds x cls)
  | 3 => match Comparison.ofCode (numAt c 2) with
    | none => none
    | some cmp => check (numAt c 3 ≤ 99) (.markTest x cmp (numAt c 3))
  | 4 => check (x ≤ 3) (.timerExpired x)
  | 5 => check (x ≤ 63) (.cueHeard x)
  | 6 => check (x ≤ 63) (.stepDone x)
  | _ => none

/-- The operation a claim's code names (R196). -/
def ClaimOp.ofCode : Nat → Option ClaimOp
  | 1 => some .set
  | 2 => some .add
  | 3 => some .take
  | 4 => some .swap
  | _ => none

/-- The code of an operation (R196). -/
def ClaimOp.code : ClaimOp → Byte
  | .set => 1
  | .add => 2
  | .take => 3
  | .swap => 4

/-- A timer tick's code (R198). -/
def TickLength.ofCode : Nat → Option TickLength
  | 0 => some .sixtyFourth
  | 1 => some .eighth
  | 2 => some .second
  | 3 => some .fourSeconds
  | _ => none

/-- A BLINK's period by its code (R198). -/
def blinkPeriod : Nat → Option Nat
  | 0 => some 12
  | 1 => some 24
  | 2 => some 48
  | 3 => some 96
  | _ => none

/-- A BLINK's on-time for a period by its duty code: a quarter, a third, a half, all of it (R143, R198). -/
def blinkOn (period : Nat) : Nat → Option Nat
  | 0 => some (period / 4)
  | 1 => some (period / 3)
  | 2 => some (period / 2)
  | 3 => some period
  | _ => none

/-- A light pattern from its code and its operand byte (R198). -/
def parsePattern (code : Nat) (b : Byte) : Option LightPattern :=
  match code with
  | 0 => some .off
  | 1 => some .on
  | 2 => match blinkPeriod (highNibble b) with
    | none => none
    | some p => (blinkOn p (lowNibble b)).map fun n => .blink p n
  | 3 => some (.follow b.toNat)
  | _ => none

/-- A wave duty's code (R198). -/
def WaveDuty.ofCode : Nat → Option WaveDuty
  | 0 => some .quarter
  | 1 => some .third
  | 2 => some .half
  | _ => none

/-- A mode bit: 0 or 1, any other naming no value (R51, R198). -/
def modeOf : Nat → Option Bool
  | 0 => some false
  | 1 => some true
  | _ => none

/-- A digit source from its code and operand (R51, R198). -/
def parseSource (code n : Nat) : Option DigitSource :=
  match code with
  | 0 => some .none
  | 1 => check (n ≤ 99) (.fixed n)
  | 2 => some (.mark n)
  | 3 => check (n ≤ 3) (.timer n)
  | _ => none

/-- An effect from its four bytes, or none at fault (R51, R198). SET, ADD and TAKE have no operand B (R25) and
the record gives them no byte for one: their CLAIM frame carries 0 there, and byte 3 is not used (DESIGN
CHOICE, notes/assumptions/30.md). -/
def parseEffect (padCount : Nat) (e : List Byte) : Option Effect :=
  let x := numAt e 1
  match numAt e 0 with
  | 1 => some (.claim .set x (byteAt e 2) 0)
  | 2 => some (.claim .add x (byteAt e 2) 0)
  | 3 => some (.claim .take x (byteAt e 2) 0)
  | 4 => some (.claim .swap x (byteAt e 2) (byteAt e 3))
  | 5 => check (x ≤ 63) (.cue x)
  | 6 => check (x ≤ 63) (.arm x)
  | 7 => check (x ≤ 63) (.disarm x)
  | 8 => some (.disarmQuest x)
  | 9 => match TickLength.ofCode (highNibble (byteAt e 3)), modeOf (lowNibble (byteAt e 3)) with
    | some t, some r => check (x ≤ 3 && 1 ≤ numAt e 2) (.timerStart x (numAt e 2) t r)
    | _, _ => none
  | 10 => check (x ≤ 3) (.timerStop x)
  | 11 => match parsePattern (numAt e 2) (byteAt e 3) with
    | none => none
    | some p => check (x ≤ 7) (.light x p)
  | 12 => match WaveDuty.ofCode (highNibble (byteAt e 3)), modeOf (lowNibble (byteAt e 3)) with
    | some d, some cut => check (x ≤ 31 && 1 ≤ numAt e 2) (.tone ⟨x, d, numAt e 2⟩ cut)
    | _, _ => none
  | 13 => (parseSource x (numAt e 2)).map fun src => .digits ⟨src, (byteAt e 3).getLsbD 0⟩
  | 14 => check (x < padCount) (.recheck x)
  | _ => none

/-- Whether an effect is a claim (R51). -/
def Effect.isClaim : Effect → Bool
  | .claim _ _ _ _ => true
  | _ => false

/-- All of a list, or none where one is at fault. -/
def allSome {α : Type} : List (Option α) → Option (List α)
  | [] => some []
  | none :: _ => none
  | some x :: rest => (allSome rest).map (x :: ·)

/-- The on-refusal path from its code and the fallback byte (R51, R198). -/
def parseOnRefusal (code fallback : Nat) : Option OnRefusal :=
  match code with
  | 0 => some .rearm
  | 1 => some .drop
  | 2 => check (fallback ≤ 63) (.fallback fallback)
  | _ => none

/-- The four bytes of the k-th condition or effect after an offset. -/
def quad (r : List Byte) (offset k : Nat) : List Byte := (r.drop (offset + 4 * k)).take 4

/-- A step record from its 32 bytes, or none where R51 finds a fault (R198). -/
def parseStep (padCount : Nat) (r : List Byte) : Option StepRecord :=
  let b := numAt r 1
  let nc := b % 4
  let ne := numAt r 2
  if 1 ≤ nc ∧ 1 ≤ ne ∧ ne ≤ 4 then
    match modeOf (b / 64), modeOf (b / 16 % 4), parseOnRefusal (b / 4 % 4) (numAt r 3),
      allSome ((List.range nc).map fun k => parseCondition padCount (quad r 4 k)),
      allSome ((List.range ne).map fun k => parseEffect padCount (quad r 16 k)) with
    | some armed, some any, some refusal, some cs, some es =>
      check (!es.tail.any Effect.isClaim)
        { quest := highNibble (byteAt r 0), armed := armed, matchAll := !any, conditions := cs,
          effects := es, repeats := lowNibble (byteAt r 0), onRefusal := refusal }
    | _, _, _, _, _ => none
  else none

/-- Step n's record bytes: block 1, page n div 4, slot n mod 4 (R49). -/
def stepBytes (st : Store) (n : Nat) : List Byte := st.slot 1 n

/-! ## Journal slots (R159, R199) -/

/-- A record of a slot: mark, value as stored, version (R199). -/
abbrev SlotRecord := Nat × Byte × Byte

/-- What a slot carries by its kind (R159, R199). -/
inductive SlotBody
  | label (sequence : Nat) (type : LabelType)
  | session (serial : Byte)
  | batch (records : List SlotRecord)
  | snapPart (records : List SlotRecord)
  | snapEnd (serial : Byte)
  | newGame (serial : Byte)
  | retired (loading : Bool)
  deriving DecidableEq, Repr

/-- How a slot reads, its place apart (R159). -/
inductive SlotRead
  | erased
  | bad
  | valid (epoch : Byte) (body : SlotBody)
  deriving DecidableEq, Repr

/-- The kind code of a slot (R199). -/
def SlotBody.code : SlotBody → Byte
  | .label _ _ => 1
  | .session _ => 2
  | .batch _ => 3
  | .snapPart _ => 4
  | .snapEnd _ => 5
  | .newGame _ => 6
  | .retired _ => 7

/-- The count field of a slot (R159). -/
def SlotBody.count : SlotBody → Nat
  | .batch rs | .snapPart rs => rs.length
  | _ => 0

/-- The code of a label's type (R199). -/
def LabelType.code : LabelType → Byte
  | .journal => 1
  | .snapshot => 2

/-- The bytes of the records area that are used (R199). -/
def SlotBody.area : SlotBody → List Byte
  | .label q t => wordBytes q ++ [t.code]
  | .session g | .snapEnd g | .newGame g => [g]
  | .batch rs | .snapPart rs => rs.flatMap fun r => [BitVec.ofNat 8 r.1, r.2.1, r.2.2]
  | .retired loading => [if loading then 1 else erasedByte]

/-- A slot's 32 bytes: every unused byte FF hex, the check last (R193, R199). -/
def slotBytes (epoch : Byte) (body : SlotBody) : List Byte :=
  let covered := [body.code, epoch, BitVec.ofNat 8 body.count] ++ exactBytes 27 body.area
  covered ++ wordBytes (crc16 (bytesToBits covered))

/-- The records of a slot up to its count (R199). -/
def slotRecords (bytes : List Byte) : List SlotRecord :=
  (List.range (numAt bytes 2)).map fun r =>
    (numAt bytes (3 + 3 * r), byteAt bytes (4 + 3 * r), byteAt bytes (5 + 3 * r))

/-- What a slot whose check matches carries, or none where its kind or label names no value (R199). -/
def slotBodyOf (bytes : List Byte) : Option SlotBody :=
  match numAt bytes 0 with
  | 1 =>
    match numAt bytes 5 with
    | 1 => check (1 ≤ wordAt bytes 3) (.label (wordAt bytes 3) .journal)
    | 2 => check (1 ≤ wordAt bytes 3) (.label (wordAt bytes 3) .snapshot)
    | _ => none
  | 2 => some (.session (byteAt bytes 3))
  | 3 => some (.batch (slotRecords bytes))
  | 4 => some (.snapPart (slotRecords bytes))
  | 5 => some (.snapEnd (byteAt bytes 3))
  | 6 => some (.newGame (byteAt bytes 3))
  | 7 => some (.retired (byteAt bytes 3 == 1))
  | _ => none

/-- Reads a slot: erased, valid but for its place, or bad (R159). -/
def readSlot (bytes : List Byte) : SlotRead :=
  if allErased bytes then .erased
  else if crc16 (bytesToBits (bytes.take 30)) = wordAt bytes 30 ∧ numAt bytes 2 ≤ 9 then
    match slotBodyOf bytes with
    | some body => .valid (byteAt bytes 1) body
    | none => .bad
  else .bad

/-! ## Frame bodies (R196) -/

/-- The code of a refusal reason (R196). -/
def Reason.code : Reason → Byte
  | .short => 1
  | .mismatch => 2
  | .range => 3
  | .sealed => 4
  | .notOwner => 5
  | .busy => 6
  | .order => 7
  | .worn => 8
  | .check => 9

/-- The reason a code names; codes 0 and 10–255 name none (R196). -/
def Reason.ofCode : Nat → Option Reason
  | 1 => some .short
  | 2 => some .mismatch
  | 3 => some .range
  | 4 => some .sealed
  | 5 => some .notOwner
  | 6 => some .busy
  | 7 => some .order
  | 8 => some .worn
  | 9 => some .check
  | _ => none

/-- A HAIL's content (R196). -/
structure HailContent where
  epoch  : Byte
  first  : Nat
  size   : Nat
  health : Byte
  serial : Byte
  poor   : List Nat
  deriving DecidableEq, Repr

/-- The content of a HAIL's body, or none where its poor-list count exceeds 4 or differs from the body
length minus 7, in which case the content is not used (R84). -/
def parseHail (body : List Byte) : Option HailContent :=
  if numAt body 6 ≤ Config.poorRoom ∧ numAt body 6 + 7 = body.length then
    some ⟨byteAt body 0, numAt body 1, numAt body 2, byteAt body 3, byteAt body 4,
      (body.drop 7).map BitVec.toNat⟩
  else none

/-- The size of the effective window (R84). -/
def HailContent.effectiveSize (h : HailContent) : Nat :=
  if 64 < h.size ∨ 256 < h.first + h.size ∨ healthEmptiesWindow h.health = true then 0 else h.size

/-- A SNAPSHOT's items by its body, mark by mark; the count has been tested (R113, R196). -/
def snapshotItems (body : List Byte) : List (Nat × Nat × Byte) :=
  (List.range (numAt body 2)).map fun i =>
    (numAt body 1 + i, numAt body (3 + 2 * i), byteAt body (4 + 2 * i))

/-- A SNAPSHOT's count is 1–16 and is half of the body length minus 3 (R113). -/
def snapshotCountOk (body : List Byte) : Bool :=
  decide (1 ≤ numAt body 2 ∧ numAt body 2 ≤ Config.snapshotRoom ∧ 3 + 2 * numAt body 2 = body.length)

end Sys2Proof.Machine
end

