-- ==== Sys2Proof/Machine/Claims.lean ====
section
/-! DEFINITION. Claims (chapter 02): the owner's decision and grant, remote and local claims, the Claim
List and how its entries end. -/

namespace Sys2Proof.Machine

/-! ## The decision (R26 to R29) -/

/-- ADD on a TALLY, digit by digit (R29). -/
def tallyAdd (v n : Nat) : Nat :=
  let units := v % 10 + n % 10
  let carry := if 10 ≤ units then 1 else 0
  let units' := if 10 ≤ units then units - 10 else units
  let tens := v / 10 + n / 10 + carry
  if 10 ≤ tens then 99 else 10 * tens + units'

/-- TAKE on a TALLY that holds at least the amount, digit by digit (R29). -/
def tallyTake (v n : Nat) : Nat :=
  let borrow := if v % 10 < n % 10 then 1 else 0
  let units := if v % 10 < n % 10 then v % 10 + 10 - n % 10 else v % 10 - n % 10
  let tens := v / 10 - n / 10 - borrow
  10 * tens + units

/-- The sum an ADD leaves: clamped to the kind's maximum (R28, R29). -/
def addResult (k : MarkKind) (v n : Nat) : Nat :=
  match k with
  | .tally => tallyAdd v n
  | k => min (v + n) k.max

/-- The difference a granted TAKE leaves (R28, R29). -/
def takeResult (k : MarkKind) (v n : Nat) : Nat :=
  match k with
  | .tally => tallyTake v n
  | _ => v - n

/-- The operation check on a mark's kind and value: the value after the grant, or the refusal (R26).
An operation of `none` is a code that names none of the four. -/
def decideOp (k : MarkKind) (v : Nat) (op : Option ClaimOp) (a b : Nat) : Except Reason Nat :=
  match op with
  | none => .error .range
  | some .set => if a ≤ k.max then .ok a else .error .range
  | some .add => if 1 ≤ a ∧ a ≤ 99 then .ok (addResult k v a) else .error .range
  | some .take =>
    if 1 ≤ a ∧ a ≤ 99 then if a ≤ v then .ok (takeResult k v a) else .error .short
    else .error .range
  | some .swap =>
    if v = a then if b ≤ k.max then .ok b else .error .range else .error .mismatch

/-- The three checks in their order: window, sealed, operation (R26). -/
def State.decideClaim (s : State) (m : Nat) (op : Option ClaimOp) (a b : Nat) :
    Except Reason (Owned × Nat) :=
  if s.inWindow m then
    match s.owned m with
    | none => .error .notOwner
    | some o =>
      if o.sealed then .error .sealed
      else match decideOp o.kind o.value op a b with
        | .ok v => .ok (o, v)
        | .error r => .error r
  else .error .notOwner

/-! ## The grant (R30) -/

/-- An owned entry after a grant at a moment: value, version, flags and last cause; the captured flag is
cleared as the journal-pending flag is set (R30, R168). -/
def Owned.granted (o : Owned) (v : Nat) (cause : Option (Nat × Byte)) (now : Nat) : Owned :=
  { o.flag now with value := v, version := o.version + 1, announce := true, cause := cause,
                    captured := false }

/-- A grant taken in full: the entry, the oldest pending time (R163), and a mark-change event when the
value changed (R21, R30). -/
def State.applyGrant (s : State) (m : Nat) (o : Owned) (v : Nat) (cause : Option (Nat × Byte))
    (depth : Nat) : State :=
  let s1 := (s.modifyOwned m fun o' => o'.granted v cause s.now).notePending s.anyPending
  if v = o.value then s1 else s1.raiseMark m depth

/-- The version a grant leaves, for its answer (R33). -/
def Owned.nextVersion (o : Owned) : Byte := o.version + 1

/-! ## Remote claims at the owner (R32, R33) -/

/-- The sender has a roster entry that records this tile's serial (R12, R32). -/
def State.serialAgrees (s : State) (sender : Nat) : Bool :=
  match s.peer sender with
  | some p => p.serial == s.serial
  | none => false

/-- A remote claim: decided and answered at one moment, or dropped with OVERRUN for want of room
(R33). -/
def State.takeRemoteClaim (s : State) (sender : Nat) (tag : Byte) (m : Nat) (op : Option ClaimOp)
    (a b : Nat) : State :=
  if s.answerHasRoom then
    match s.decideClaim m op a b with
    | .ok (o, v) =>
      (s.applyGrant m o v (some (sender, tag)) 0).queueAnswer
        ⟨.grant v o.nextVersion, .claim, sender, tag, m⟩
    | .error r => s.queueAnswer ⟨.refuse r, .claim, sender, tag, m⟩
  else s.setOverrun

/-- A CLAIM frame (R32): addressed to the tile (the dispatcher's test), in PLAY or REST, from a sender
whose entry records the same serial. -/
def State.takeClaimFrame (s : State) (f : GoodFrame) : State :=
  if s.session.onBoard && s.serialAgrees f.sender then
    s.takeRemoteClaim f.sender (byteAt f.body 0) (numAt f.body 1)
      (ClaimOp.ofCode (numAt f.body 2)) (numAt f.body 3) (numAt f.body 4)
  else s

/-! ## Tags and issue (R39, R40, R37) -/

/-- Whether an entry of the list holds a tag (R39). -/
def State.tagHeld (s : State) (t : Byte) : Bool := s.claims.any fun e => e.tag == t

/-- The counter advanced past every value held by an entry. The list holds at most four entries, so
five tries reach a free value (R39). -/
def State.freeTag (s : State) : Nat → Byte → Byte
  | 0, t => t
  | n + 1, t => if s.tagHeld t then s.freeTag n (t + 1) else t

/-- The tag the next issued claim takes (R39). -/
def State.nextTag (s : State) : Byte := s.freeTag 5 s.tagCounter

/-- The counter after an issued claim has taken its tag (R39). -/
def State.spendTag (s : State) : State := { s with tagCounter := s.nextTag + 1 }

/-- A local claim decided at once by the Mark Unit (R37): its outcome, and the state after. The event
of a changed value is one deeper than the event being handled (R21). -/
def State.localClaim (s : State) (m : Nat) (op : ClaimOp) (a b : Byte) (depth : Nat) :
    ClaimOutcome × State :=
  match s.decideClaim m (some op) a.toNat b.toNat with
  | .ok (o, v) => (.granted, s.applyGrant m o v none (depth + 1))
  | .error r => (.refused r, s)

/-- What issuing a claim comes to: an outcome within the firing, or a remote claim with its tag. -/
inductive Issue
  | settled (outcome : ClaimOutcome)
  | issued (tag : Byte)
  deriving DecidableEq, Repr

/-- The Claim List settles a firing step's claim: route, room, local, remote, in this order (R40). -/
def State.issueClaim (s : State) (step m : Nat) (op : ClaimOp) (a b : Byte) (depth : Nat) :
    Issue × State :=
  match s.route m with
  | .none => (.settled .unrouted, s)
  | r =>
    if Config.claimRoom ≤ s.claims.length + s.answerHold.length then (.settled .noRoom, s)
    else match r with
      | .peer owner =>
        if Config.transmitRoom ≤ s.transmit.length then (.settled .noRoom, s)
        else
          (.issued s.nextTag,
            { s.spendTag with
              transmit := s.transmit ++ [.claim s.nextTag m op a b owner]
              claims := s.claims ++ [⟨s.nextTag, step, m, op, a, b, owner, .queued⟩] })
      | _ =>
        let res := s.spendTag.localClaim m op a b depth
        (.settled res.1, res.2)

/-! ## The endings of an entry (R42 to R48) -/

/-- The transmit-queue frame of a claim, by its tag. -/
def Queued.isClaim (t : Byte) : Queued → Bool
  | .claim t' _ _ _ _ _ => t' == t
  | _ => false

/-- Whether the outstanding frame was built from the CLAIM with a tag, and its source still holds it
(R118). -/
def State.claimOutstanding (s : State) (t : Byte) : Bool :=
  match s.outstanding with
  | some o => o.live && match o.source with
    | .queue q => q.isClaim t
    | _ => false
  | none => false

/-- A QUEUED entry that ends takes its CLAIM out of the transmit queue unless the frame is outstanding
(R46, R119). -/
def State.dropClaimFrame (s : State) (e : ClaimEntry) : State :=
  match e.phase with
  | .sent _ => s
  | .queued =>
    if s.claimOutstanding e.tag then s
    else { s with transmit := s.transmit.filter fun q => !q.isClaim e.tag }

/-- An entry of the list ends: its outcome goes to the answer hold and the entry is removed, at one moment;
one that has ended is found no more (R47). -/
def State.endEntry (s : State) (e : ClaimEntry) (outcome : ClaimOutcome) : State :=
  if s.claims.contains e then
    let s1 := s.dropClaimFrame e
    { s1 with
      claims := s1.claims.filter fun e' => e'.tag != e.tag
      inbox := s1.inbox ++ [.answer e.step e.tag outcome] }
  else s

/-- Ends NO_ANSWER, in order of issue, every entry that a test picks (R46). -/
def State.endEntries (s : State) (lost : ClaimEntry → Bool) : State :=
  (s.claims.filter lost).foldl (fun s e => s.endEntry e .noAnswer) s

/-- The SENT entry an answer or a cause matches: tag, mark and routed owner (R42 to R44). -/
def State.sentEntry (s : State) (tag : Byte) (m owner : Nat) : Option ClaimEntry :=
  s.claims.find? fun e =>
    e.tag == tag && e.mark == m && e.owner == owner && match e.phase with
      | .sent _ => true
      | .queued => false

/-- An outcome for the SENT entry it matches; none matched, nothing changes (R42 to R44). -/
def State.endMatching (s : State) (tag : Byte) (m owner : Nat) (outcome : ClaimOutcome) : State :=
  match s.sentEntry tag m owner with
  | some e => s.endEntry e outcome
  | none => s

/-- The states in which the Claim List matches answers: all in which it holds entries but SILENT,
where it is frozen (R38). -/
def State.matchesAnswers (s : State) : Bool := s.session.inGame

/-- A GRANT frame (R42). -/
def State.takeGrantFrame (s : State) (f : GoodFrame) : State :=
  if s.matchesAnswers then s.endMatching (byteAt f.body 0) (numAt f.body 1) f.sender .granted else s

/-- A REFUSE frame; a code that names no reason is dropped (R43). -/
def State.takeRefuseFrame (s : State) (f : GoodFrame) : State :=
  if s.matchesAnswers then
    match Reason.ofCode (numAt f.body 2) with
    | none => s
    | some r => s.endMatching (byteAt f.body 0) (numAt f.body 1) f.sender (.refused r)
  else s

/-- The cause of an UPDATE: it ends the SENT entry it names when its cause tile is this tile (R44). -/
def State.takeCause (s : State) (f : GoodFrame) : State :=
  if s.matchesAnswers && numAt f.body 4 == s.tile then
    s.endMatching (byteAt f.body 5) (numAt f.body 1) f.sender .granted
  else s

/-- A SENT entry's deadline (R45): the command is for a moment that has come when the present time has
reached the deadline. In SILENT the list is frozen (R38). -/
def State.claimDeadlinePasses (s : State) (tag : Byte) : State :=
  if s.session.inGame then
    match s.claims.find? fun e => e.tag == tag with
    | some e => match e.phase with
      | .sent deadline => if deadline ≤ s.now then s.endEntry e .noAnswer else s
      | .queued => s
    | none => s
  else s

/-- The entry of a sent CLAIM becomes SENT with its deadline 300 ms later (R41). -/
def State.claimSent (s : State) (t : Byte) : State :=
  { s with claims := s.claims.map fun e =>
      if e.tag = t ∧ e.phase = .queued then { e with phase := .sent (s.now + Config.claimTime) }
      else e }

end Sys2Proof.Machine
end

