-- ==== Sys2Proof/Machine/Roster.lean ====
section
/-! DEFINITION. The Roster (chapter 04): routing and its consequences, presence and grading, ASKs, and
the deadlines of an entry. What a HAIL sets stands in Machine/Hail.lean. -/

namespace Sys2Proof.Machine

/-! ## Routing (R15, R88, R14) -/

/-- A peer's announced window holds a mark (R15, R84). -/
def Peer.holds (p : Peer) (m : Nat) : Bool := decide (p.first ≤ m ∧ m < p.first + p.size)

/-- The lowest-numbered PRESENT entry whose announced window holds a mark; entries are kept by tile
number (R15, R77). -/
def lowestHolder (roster : List Peer) (m : Nat) : Option Peer :=
  roster.find? fun p => p.present && p.holds m

/-- The route R15 gives a mark. -/
def State.routeOf (s : State) (m : Nat) : Route :=
  if s.inWindow m then .self
  else match lowestHolder s.roster m with
    | some p => .peer p.tile
    | none => .none

/-- The whole table as R15 gives it. -/
def State.computeRoutes (s : State) : List Route := (List.range 256).map s.routeOf

/-- A replica's state after its route changes (R14): UNKNOWN under a newly created entry; STALE when a
peer was the owner, unless it is UNKNOWN; otherwise unchanged. -/
def rerouted (old new : Route) (created : Option Nat) (r : ReplicaState) : ReplicaState :=
  match created, new with
  | some t, .peer t' =>
    if t = t' then .unknown
    else match old with
      | .peer _ => if r = .unknown then .unknown else .stale
      | _ => r
  | _, _ =>
    match old with
    | .peer _ => if r = .unknown then .unknown else .stale
    | _ => r

/-- An entry after a table of routes replaces another (R14). -/
def rerouteEntry (oldRoutes newRoutes : List Route) (created : Option Nat) (m : Nat)
    (e : MarkEntry) : MarkEntry :=
  let old := oldRoutes.getD m .none
  let new := newRoutes.getD m .none
  if old = new then e
  else e.onReplica fun r => { r with state := rerouted old new created r.state }

/-- The marks whose replica state differs between two mark tables, in order (R14, R21). -/
def changedStates (before after : List MarkEntry) : List Nat :=
  (List.range 256).filter fun m =>
    match before.getD m (.replica Replica.blank), after.getD m (.replica Replica.blank) with
    | .replica r, .replica r' => r.state != r'.state
    | _, _ => false

/-- A claim entry whose mark no longer routes to its routed owner (R46). -/
def State.ownerLost (s : State) (e : ClaimEntry) : Bool := s.route e.mark != .peer e.owner

/-- Recomputes the routing table (R88): the replicas of the marks whose route changed, their
mark-change events in mark order, then the claim entries that lost their owner, in order of issue.
`created` is the entry just created, if any (R79). -/
def State.recompute (s : State) (created : Option Nat) : State :=
  let routes' := s.computeRoutes
  let marks' := mapFrom (rerouteEntry s.routes routes' created) 0 s.marks
  let s1 := { s with routes := routes', marks := marks' }
  let s2 := s1.raiseMarks (changedStates s.marks marks')
  s2.endEntries s2.ownerLost

/-! ## Presence and grading (R78, R80, R93, R94) -/

/-- The silence limit of a session state (R81). -/
def silenceLimit : Session → Nat
  | .rest => Config.silenceRestTime
  | _ => Config.silenceTime

/-- A refresh: heard at the present time, PRESENT, the removal deadline absent (R80). -/
def Peer.refresh (p : Peer) (now limit : Nat) : Peer :=
  { p with present := true, lastHeard := now, silenceAt := some (now + limit), removalAt := none }

/-- What a finished frame brings for grading: a corrected count, or a fault (R93). -/
inductive FrameGrade
  | good (corrected : Nat)
  | fault
  deriving DecidableEq, Repr

/-- The grade of a closed window under the header's limits (R94). -/
def gradeOf (h : Header) (correctedBeats faults : Nat) : Grade :=
  if h.faultLimit ≤ faults ∨ h.poorLimit < correctedBeats then .poor
  else if h.fairLimit < correctedBeats then .fair
  else .good

/-- Takes a frame into the grading window, and closes the window at sixteen (R93, R94). -/
def Peer.takeGrade (p : Peer) (h : Header) (g : FrameGrade) : Peer :=
  let beats := match g with
    | .good n => p.corrected + n
    | .fault => p.corrected + Config.faultBeats
  let faults := match g with
    | .good _ => p.faults
    | .fault => p.faults + 1
  if Config.gradeWindow ≤ p.counted + 1 then
    { p with counted := 0, corrected := 0, faults := 0, grade := gradeOf h beats faults }
  else { p with counted := p.counted + 1, corrected := beats, faults := faults }

/-- A frame of a known sender, graded and refreshing its entry; routing is not yet recomputed
(R80, R93). -/
def State.gradeAndRefresh (s : State) (sender : Nat) (g : FrameGrade) : State :=
  s.modifyPeer sender fun p => (p.takeGrade s.header g).refresh s.now (silenceLimit s.session)

/-- A finished frame shown to the Roster for presence and grading, with the routing that follows when
its sender had been SILENT; a sender with no entry changes nothing (R78, R80, R93). -/
def State.showFrame (s : State) (sender : Nat) (g : FrameGrade) : State :=
  if s.session.inGame then
    match s.peer sender with
    | none => s
    | some p =>
      if p.present then s.gradeAndRefresh sender g
      else (s.gradeAndRefresh sender g).recompute none
  else s

/-! ## ASK (R91, R92) -/

/-- A peer's effective window contains a watched mark (R91). -/
def State.watchesIn (s : State) (p : Peer) : Bool :=
  (List.range 256).any fun m => s.isWatched m && p.holds m

/-- Whether an ASK to a peer is in the transmit queue (R91). -/
def State.askQueued (s : State) (tile : Nat) : Bool := s.transmit.any fun q => q == .ask tile

/-- Offers an ASK to a peer whose window holds a watched mark, unless one is queued; at a full queue it
is dropped with OVERRUN (R91). -/
def State.offerAsk (s : State) (p : Peer) : State :=
  if s.watchesIn p then
    if s.askQueued p.tile then s else s.offer (.ask p.tile)
  else s

/-- The ASKs at entry to PLAY and at a new game, to each PRESENT entry in increasing tile number
(R92). -/
def State.offerAsks (s : State) : State :=
  (s.roster.filter (·.present)).foldl (fun s p => s.offerAsk p) s

/-! ## Entries (R77, R79, R82) -/

/-- An entry joins the roster in its place by tile number (R77). -/
def insertPeer (p : Peer) : List Peer → List Peer
  | [] => [p]
  | q :: qs => if p.tile < q.tile then p :: q :: qs else q :: insertPeer p qs

/-- Removes the entry of a tile, with its grade, accumulators and flag (R82). -/
def removePeer (tile : Nat) (roster : List Peer) : List Peer := roster.filter fun p => p.tile != tile

/-- The SILENT entry to replace in a full roster: the oldest last heard, the lower number of two
(R79). -/
def oldestSilent : List Peer → Option Peer
  | [] => none
  | p :: ps =>
    match oldestSilent ps with
    | none => if p.present then none else some p
    | some q => if p.present then some q else if p.lastHeard ≤ q.lastHeard then some p else some q

/-! ## Deadlines (R81, R82, R83) -/

/-- A PRESENT entry's silence deadline (R81). The command is for a moment that has come when the present
time has reached the deadline. -/
def State.silencePasses (s : State) (tile : Nat) : State :=
  if s.session.inGame then
    match s.peer tile with
    | none => s
    | some p =>
      match p.silenceAt with
      | none => s
      | some t =>
        if p.present ∧ t ≤ s.now then
          (s.modifyPeer tile fun p =>
            { p with present := false, silenceAt := none,
                     removalAt := if s.session = .rest then none
                       else some (s.now + Config.removalTime) }).recompute none
        else s
  else s

/-- A SILENT entry's removal deadline (R82). -/
def State.removalPasses (s : State) (tile : Nat) : State :=
  if s.session.inGame then
    match s.peer tile with
    | none => s
    | some p =>
      match p.removalAt with
      | none => s
      | some t =>
        if !p.present ∧ t ≤ s.now then
          ({ s with roster := removePeer tile s.roster }).recompute none
        else s
  else s

/-- REST entry: the limit becomes 60,000 ms from each last heard, and removal deadlines are cleared
(R83). -/
def State.restRoster (s : State) : State :=
  { s with roster := s.roster.map fun p =>
      { p with silenceAt := if p.present then some (p.lastHeard + Config.silenceRestTime) else none
               removalAt := none } }

/-- REST exit: the limit becomes 7,500 ms from the exit, and SILENT entries get a removal deadline
60,000 ms after it (R83). -/
def State.wakeRoster (s : State) : State :=
  { s with roster := s.roster.map fun p =>
      if p.present then { p with silenceAt := some (s.now + Config.silenceTime) }
      else { p with removalAt := some (s.now + Config.removalTime) } }

end Sys2Proof.Machine
end

