-- ==== Sys2Proof/Machine/StoreControl.lean ====
section
/-! DEFINITION. The Store Controller (section 8.1): starting an operation, its verify passes, what its
end does to the array, and what droop and a power-on start do to it. -/

namespace Sys2Proof.Machine

/-- The result of an operation (R156). -/
inductive Verdict
  | pass
  | fail
  deriving DecidableEq, Repr

/-- Walks the verify passes (R156): PASS at the first that finds the contents as intended, FAIL when the
last allowed one does not, and otherwise the passes used so far. -/
def verify (limit : Nat) : Nat → List Bool → Verdict ⊕ Nat
  | used, [] => .inr used
  | used, true :: rest => if used < limit then .inl .pass else verify limit used rest
  | used, false :: rest =>
    if limit ≤ used + 1 then .inl .fail else verify limit (used + 1) rest

/-- The passes an operation may use (R156). -/
def StoreOp.passLimit : StoreOp → Nat
  | .program _ _ _ => Config.programPasses
  | .erase _ => Config.erasePasses
  | .read _ _ => 1

/-- Counts what starting an operation means for the law of R155: a program attempt counts as programming
its slot. -/
def Store.begin (st : Store) : StoreOp → Store
  | .program b slot _ => st.attempt b slot
  | _ => st

/-- Starts an operation: at once when the store is free and the supply holds; otherwise the request
waits, and none starts after droop (R157, R158). -/
def State.request (s : State) (op : StoreOp) (purpose : Purpose) : State :=
  if s.op = none ∧ s.droop = false then
    { s with op := some ⟨op, purpose, 0⟩, store := s.store.begin op }
  else { s with waiting := some ⟨op, purpose, 0⟩ }

/-- Starts the request that waits, when the store is free and the supply holds (R157). -/
def State.startWaiting (s : State) : State :=
  match s.waiting with
  | none => s
  | some w =>
    if s.op = none ∧ s.droop = false then
      { s with op := some w, waiting := none, store := s.store.begin w.op }
    else s

/-- The array after a program or erase that passed (R155, R156). -/
def Store.passed (st : Store) : StoreOp → Store
  | .program b slot data => st.writeSlot b slot data
  | .erase b => (st.eraseBlock b).forget b
  | .read _ _ => st

/-- The array after a program or erase that failed, or an erase that was abandoned (R156). Where the command's list
gives nothing for a slot, a program's slot reads as intended and an erased block's slot as it was (DESIGN CHOICE,
notes/assumptions/3.md). -/
def Store.failed (st : Store) (left : List SlotLeft) : StoreOp → Store
  | .program b slot data => st.leaveProgram b slot data (left.headD .kept)
  | .erase b => (st.leaveBlock b 0 (left.take 64)).forget b
  | .read _ _ => st

/-- The array after an operation by its verdict (R156). -/
def Store.finish (st : Store) (op : StoreOp) (left : List SlotLeft) : Verdict → Store
  | .pass => st.passed op
  | .fail => st.failed left op

/-- What droop does to the operation in progress: an erase is abandoned at once, a program or a read goes
on (R158). The client is told nothing more of an abandoned erase, and a new game or a withdrawal that waited for
its end goes on waiting (DESIGN CHOICE, notes/assumptions/38.md). -/
def State.droopStore (s : State) (left : List SlotLeft) : State :=
  match s.op with
  | some o =>
    match o.op with
    | .erase _ => { s with op := none, store := s.store.failed left o.op }
    | _ => s
  | none => s

/-- An operation still in progress when the part stops or starts afresh: a program completes, the supply
holding up for it, and an erase is abandoned (R158). A program whose given passes reach no verdict ends FAIL
(DESIGN CHOICE, notes/assumptions/3.md). -/
def State.settleStore (s : State) (r : OpResult) : State :=
  match s.op with
  | some o =>
    match o.op with
    | .program _ _ _ =>
      { s with op := none
               store := s.store.finish o.op r.left (match verify o.op.passLimit o.passes r.verifies with
                 | .inl v => v
                 | .inr _ => .fail) }
    | .erase _ => { s with op := none, store := s.store.failed r.left o.op }
    | .read _ _ => { s with op := none }
  | none => s

end Sys2Proof.Machine
end

