-- ==== Sys2Proof/Machine/Journal.lean ====
section
/-! DEFINITION. The Journal Writer (sections 8.2 to 8.7): the census, labels, batches, compaction, the
NEW_GAME slot, retirement, a worn store, and what it does at a new game and a withdrawal. -/

namespace Sys2Proof.Machine

/-! ## The census (R161) -/

/-- The journal blocks, lowest first (R155). -/
def journalBlocks : List Nat := List.range' 2 14

/-- The census state of a block. -/
def State.blockState (s : State) (b : Nat) : BlockState :=
  (s.writer.census.getD (b - 2) ⟨.obsolete, 0⟩).state

/-- Changes the census entry of a block. -/
def State.modifyBlock (s : State) (b : Nat) (f : Block → Block) : State :=
  { s with writer := { s.writer with census := modifyAt f (b - 2) s.writer.census } }

/-- Puts a block in a census state. -/
def State.setBlock (s : State) (b : Nat) (st : BlockState) : State :=
  s.modifyBlock b fun k => { k with state := st }

/-- The lowest-numbered block in a census state. -/
def State.lowestBlock (s : State) (st : BlockState) : Option Nat :=
  journalBlocks.find? fun b => s.blockState b == st

/-- How many blocks are in a census state. -/
def State.countBlocks (s : State) (st : BlockState) : Nat :=
  journalBlocks.countP fun b => s.blockState b == st

/-- The retired-block set (R161). -/
def State.retiredSet (s : State) : List Nat :=
  journalBlocks.filter fun b => s.blockState b == .retired

/-- The ACTIVE block, if any (R161). -/
def State.activeBlock (s : State) : Option Nat := s.lowestBlock .active

/-- The BUILDING block, if any (R161). -/
def State.buildingBlock (s : State) : Option Nat := s.lowestBlock .building

/-! ## A worn store and retirement (R170, R161) -/

/-- The test made at each retirement: fewer than 3 journal blocks not RETIRED (R170). -/
def State.wornTest (s : State) : State :=
  if 14 - s.countBlocks .retired < Config.fewUsable then s.setWorn else s

/-- Retires a block: it enters the set, its RETIRED slot is attempted unless slot 63 has been attempted
since the block's last erasure, and then STORE_WORN is tested; with an attempt to make, the test follows
its end (R161). -/
def State.retire (s : State) (b : Nat) : State :=
  let s1 := s.setBlock b .retired
  if s1.store.attempted.getD b 0 ≤ 63 then
    s1.request (.program b 63 (slotBytes s1.epoch (.retired false))) .retired
  else s1.wornTest

/-! ## What the writer programs -/

/-- Programs a slot of the ACTIVE block at its next slot, which advances by one (R164). -/
def State.programActive (s : State) (b : Nat) (epoch : Byte) (body : SlotBody)
    (purpose : Purpose) : State :=
  { s.request (.program b s.writer.nextSlot (slotBytes epoch body)) purpose with
    writer := { s.writer with nextSlot := s.writer.nextSlot + 1 } }

/-- Programs a block's label with the next sequence, which advances by one; a sequence beyond 65,535 is
not written and the writer stops (R160, R162). -/
def State.labelBlock (s : State) (b : Nat) (type : LabelType) : State :=
  if s.writer.nextSequence ≤ Config.lastSequence then
    let q := s.writer.nextSequence
    let s1 := s.modifyBlock b fun k => { k with sequence := q }
    { s1.request (.program b 0 (slotBytes s.epoch (.label q type))) (.label type) with
      writer := { s1.writer with nextSequence := q + 1 } }
  else s.setWorn

/-- Clears every captured flag (R167, R168). -/
def State.clearCaptured (s : State) : State :=
  { s with marks := s.marks.map (MarkEntry.onOwned fun o => { o with captured := false }) }

/-- The record of a mark at this moment, its value as the store holds it (R164, R168, R193). -/
def State.recordOf (s : State) (m : Nat) : Option SlotRecord :=
  (s.owned m).map fun o => (m, o.kind.toStore o.value, o.version)

/-! ## Batches (R163, R164) -/

/-- A batch is due (R163). -/
def State.batchDue (s : State) : Bool :=
  decide (Config.batchCount ≤ s.pendingMarks.length) ||
    match s.writer.oldestPending with
    | some t => decide (t + Config.batchTime ≤ s.now)
    | none => false

/-- The oldest pending time once a batch has taken its marks: the moment of taking when some remain set, none
otherwise (R163). -/
def State.noteTaking (s : State) : State :=
  { s with writer := { s.writer with
      oldestPending := if s.anyPending then some s.now else none } }

/-- Starts a batch: up to 9 pending marks, lowest first; their flags are cleared and they are the batch
in flight (R164). -/
def State.startBatch (s : State) (active : Nat) : State :=
  let ms := s.pendingMarks.take Config.recordRoom
  let records := ms.filterMap s.recordOf
  let s1 := ms.foldl (fun (s : State) m => s.modifyOwned m fun o => { o with pending := none }) s
  let s2 := { s1 with writer := { s1.writer with inFlight := some ms } }
  s2.noteTaking.programActive active s.epoch (.batch records) .batch

/-! ## Compaction slots (R168) -/

/-- The owned non-sealed marks from an index on, in order. -/
def State.unsealedFrom (s : State) (m0 : Nat) : List Nat :=
  (List.range 256).filter fun m => decide (m0 ≤ m) && match s.mark m with
    | .owned o => !o.sealed
    | .replica _ => false

/-- Programs the next slot of the BUILDING block: a SNAP_PART of up to 9 marks whose captured flags are
set, or SNAP_END when every mark has been written (R168). -/
def State.programSnapshot (s : State) (b : Nat) : State :=
  let ms := (s.unsealedFrom s.writer.snapMark).take Config.recordRoom
  let slot := s.writer.snapSlot
  match ms.getLast? with
  | none =>
    { s.request (.program b slot (slotBytes s.epoch (.snapEnd s.serial))) .snapEnd with
      writer := { s.writer with snapSlot := slot + 1 } }
  | some last =>
    let records := ms.filterMap s.recordOf
    let s1 := ms.foldl (fun (s : State) m => s.modifyOwned m fun o => { o with captured := true }) s
    { s1.request (.program b slot (slotBytes s.epoch (.snapPart records))) .snapPart with
      writer := { s.writer with snapSlot := slot + 1, snapMark := last + 1, inFlight := some ms } }

/-! ## The order of work (R169) -/

/-- The pieces of work the writer may owe, in the order of R169. -/
inductive Work
  | newGameSlot
  | label
  | snapshotSlot
  | compaction
  | batch
  | erase
  deriving DecidableEq, Repr

/-- The work the writer takes first (R169), with the conditions of R162, R163 and R171: without an ACTIVE
block a label comes first, and where no block is ERASED the erase that will give one. A label is also the
work when there is neither: taking it sets STORE_WORN. -/
def State.firstWork (s : State) : Option Work :=
  match s.activeBlock with
  | some _ =>
    if s.writer.newGameOwed.isSome then some .newGameSlot
    else if s.buildingBlock.isSome then some .snapshotSlot
    else if s.writer.compactionOwed && (s.lowestBlock .erased).isSome then some .compaction
    else if s.batchDue then some .batch
    else if (s.lowestBlock .obsolete).isSome then some .erase
    else none
  | none =>
    if (s.lowestBlock .erased).isSome then some .label
    else if (s.lowestBlock .obsolete).isSome then some .erase
    else some .label

/-- The writer may start work: in LISTENING, PLAY or REST, with the store free, no droop, and not
stopped by a worn store (R163, R158, R170). -/
def State.writerFree (s : State) : Bool :=
  s.session.inGame && s.op.isNone && s.waiting.isNone && !s.droop && !s.health.storeWorn

/-- Labels the ERASED block with the lowest number, or finds that none can be had (R162). -/
def State.takeLabel (s : State) : State :=
  match s.lowestBlock .erased with
  | some b => s.labelBlock b .journal
  | none => s.setWorn

/-- Starts an owed compaction: the label of a SNAPSHOT block, the captured flags cleared (R167). -/
def State.takeCompaction (s : State) : State :=
  match s.lowestBlock .erased with
  | some b => s.clearCaptured.labelBlock b .snapshot
  | none => s

/-- Programs the owed NEW_GAME slot (R171). -/
def State.takeNewGameSlot (s : State) : State :=
  match s.activeBlock, s.writer.newGameOwed with
  | some b, some (serial, epoch) => s.programActive b epoch (.newGame serial) .newGame
  | _, _ => s

/-- Starts a due batch into the ACTIVE block (R164). -/
def State.takeBatch (s : State) : State :=
  match s.activeBlock with
  | some b => s.startBatch b
  | none => s

/-- Programs the BUILDING block's next slot (R168). -/
def State.takeSnapshotSlot (s : State) : State :=
  match s.buildingBlock with
  | some b => s.programSnapshot b
  | none => s

/-- Erases the lowest-numbered OBSOLETE block (R169). -/
def State.takeErase (s : State) : State :=
  match s.lowestBlock .obsolete with
  | some b => s.request (.erase b) .eraseObsolete
  | none => s

/-- Takes a piece of work if it is the one the writer takes first. -/
def State.takeWork (s : State) (w : Work) (f : State → State) : State :=
  if s.writerFree ∧ s.firstWork = some w then f s else s

/-! ## Results (R162, R164 to R169) -/

/-- A JOURNAL label passed: the block is ACTIVE with next slot 1, and with 2 or fewer ERASED blocks left
a compaction is owed, unless the tile has withdrawn (R162). -/
def State.becomeActive (s : State) (b : Nat) : State :=
  let s1 := s.setBlock b .active
  { s1 with writer := { s1.writer with
      nextSlot := 1
      compactionOwed := s1.writer.compactionOwed ||
        (decide (s1.countBlocks .erased ≤ Config.fewErased) && !s1.health.withdrawn) } }

/-- A SNAPSHOT label passed: the block is BUILDING and every captured flag is cleared (R167). -/
def State.becomeBuilding (s : State) (b : Nat) : State :=
  let s1 := (s.setBlock b .building).clearCaptured
  { s1 with writer := { s1.writer with snapSlot := 1, snapMark := 0 } }

/-- The ACTIVE block becomes FULL once slot 63 has been attempted and passed (R166). -/
def State.fillActive (s : State) (b slot : Nat) : State :=
  if slot = 63 then s.setBlock b .full else s

/-- SNAP_END passed (R168): the BUILDING block is ACTIVE, every ACTIVE and FULL block of lower sequence
OBSOLETE, captured marks lose their pending flags, and the oldest pending time is that of the oldest flag
still set (R163). -/
def State.endCompaction (s : State) (b slot : Nat) : State :=
  let q := (s.writer.census.getD (b - 2) ⟨.obsolete, 0⟩).sequence
  let census' := s.writer.census.map fun k =>
    if (k.state = .active ∨ k.state = .full) ∧ k.sequence < q then { k with state := .obsolete }
    else k
  let marks' := s.marks.map (MarkEntry.onOwned fun o =>
    { o with pending := if o.captured then none else o.pending, captured := false })
  let s1 := { s with marks := marks', writer := { s.writer with census := census' } }
  let s2 := s1.setBlock b .active
  { s2 with writer := { s2.writer with
      nextSlot := slot + 1, compactionOwed := false, inFlight := none,
      oldestPending := oldestSet marks' } }

/-- What the writer does with the result of a program of its own (R162, R164 to R168, R171). -/
def State.writerProgrammed (s : State) (b slot : Nat) (purpose : Purpose) (v : Verdict) : State :=
  match purpose, v with
  | .label .journal, .pass => s.becomeActive b
  | .label .snapshot, .pass => s.becomeBuilding b
  | .label _, .fail => s.retire b
  | .batch, .pass =>
    ({ s with writer := { s.writer with inFlight := none } }).fillActive b slot
  | .batch, .fail =>
    ({ (s.setPending (s.writer.inFlight.getD [])) with
        writer := { (s.setPending (s.writer.inFlight.getD [])).writer with inFlight := none } }).retire b
  | .newGame, .pass =>
    ({ s with writer := { s.writer with newGameOwed := none, compactionOwed := true } }).fillActive
      b slot
  | .newGame, .fail => s.retire b
  | .snapPart, .pass => { s with writer := { s.writer with inFlight := none } }
  | .snapEnd, .pass => s.endCompaction b slot
  | .snapPart, .fail | .snapEnd, .fail =>
    ({ s.clearCaptured with
        writer := { s.clearCaptured.writer with inFlight := none, compactionOwed := true } }).retire b
  | .retired, _ => s.wornTest
  | _, _ => s

/-- What the writer does with the result of an erase: ERASED, or retired (R169). -/
def State.writerErased (s : State) (b : Nat) (v : Verdict) : State :=
  match v with
  | .pass => s.modifyBlock b fun _ => ⟨.erased, 0⟩
  | .fail => s.retire b

/-! ## New game and withdrawal (R171, R167) -/

/-- A BUILDING block is abandoned and becomes OBSOLETE (R167, R171). -/
def State.abandonBuilding (s : State) : State :=
  match s.buildingBlock with
  | some b => s.setBlock b .obsolete
  | none => s

/-- The new game's part in the writer once the operation in progress has ended (R171). -/
def State.writerNewGame (s : State) (serial epoch : Byte) : State :=
  let s1 := s.abandonBuilding.clearCaptured
  { s1 with writer := { s1.writer with newGameOwed := some (serial, epoch), newGameWaits := none } }

/-- The withdrawal's part in the writer once the operation in progress has ended: a BUILDING block is
abandoned and an owed compaction dropped (R167). -/
def State.writerWithdraw (s : State) : State :=
  let s1 := s.abandonBuilding
  { s1 with writer := { s1.writer with compactionOwed := false, withdrawWaits := false } }

/-- The new game that waited for the operation in progress, if any (R171). -/
def State.takeNewGameWait (s : State) : State :=
  match s.writer.newGameWaits with
  | some (serial, epoch) => s.writerNewGame serial epoch
  | none => s

/-- The withdrawal that waited for the operation in progress, if any (R167). -/
def State.takeWithdrawWait (s : State) : State :=
  if s.writer.withdrawWaits then s.writerWithdraw else s

/-- Takes the new game and the withdrawal that waited, once no operation is in progress (R171, R167). -/
def State.takeWaits (s : State) : State :=
  if s.op = none then s.takeNewGameWait.takeWithdrawWait else s

/-- A new game reaches the writer: at once with the store free, else after the operation in progress
(R171). -/
def State.tellWriterNewGame (s : State) : State :=
  ({ s with writer := { s.writer with newGameWaits := some (s.serial, s.epoch) } }).takeWaits

/-- A withdrawal reaches the writer, in the same way (R167). -/
def State.tellWriterWithdraw (s : State) : State :=
  ({ s with writer := { s.writer with withdrawWaits := true } }).takeWaits

end Sys2Proof.Machine
end

