-- ==== Sys2Proof/Machine/Marks.lean ====
section
/-! DEFINITION. The Mark Unit beside claims (chapter 01): accepting items, the snapshot run, withdrawal,
and the mark table at a new game. -/

namespace Sys2Proof.Machine

/-! ## Replicas (R12, R13) -/

/-- Test 4 of R12 for an item's version under a frame's epoch. -/
def Replica.accepts (r : Replica) (epoch version : Byte) : Bool :=
  r.state != .fresh || r.epoch != epoch || ahead version r.version

/-- An item judged for its replica (R12, R13): the session state, the route, the sender's serial, the
value's range and the version decide; an accepted item is stored, and a watched mark whose value or
state it changed raises a mark-change event (R21). -/
def State.judgeItem (s : State) (sender : Nat) (epoch : Byte) (m value : Nat) (version : Byte) :
    State :=
  if s.session.inGame ∧ m ≤ 255 ∧ value ≤ 99 ∧ s.route m = .peer sender ∧ s.serialAgrees sender then
    match s.mark m with
    | .owned _ => s
    | .replica r =>
      if r.accepts epoch version then
        let s1 := s.modifyReplica m fun _ => ⟨value, version, epoch, .fresh⟩
        if r.value ≠ value ∨ r.state ≠ .fresh then s1.raiseMark m 0 else s1
      else s
  else s

/-- An UPDATE: its item, then its cause (R13, R44). -/
def State.takeUpdateFrame (s : State) (f : GoodFrame) : State :=
  (s.judgeItem f.sender (byteAt f.body 0) (numAt f.body 1) (numAt f.body 2)
    (byteAt f.body 3)).takeCause f

/-- A SNAPSHOT: its items one by one, in order; a count that does not fit the body drops it (R13,
R113). -/
def State.takeSnapshotFrame (s : State) (f : GoodFrame) : State :=
  if snapshotCountOk f.body then
    (snapshotItems f.body).foldl
      (fun s it => s.judgeItem f.sender (byteAt f.body 0) it.1 it.2.1 it.2.2) s
  else s

/-! ## The snapshot run (R23, R24) -/

/-- Whether a SNAPSHOT frame of the run is in contention or being sent (R24). -/
def State.snapshotOut (s : State) : Bool :=
  match s.outstanding with
  | some o => o.live && match o.source with
    | .snapshot _ => true
    | _ => false
  | none => false

/-- Starts the run, or restarts it: at once, or when the frame outstanding ends (R23, R24). An empty
window starts nothing. -/
def State.startRun (s : State) : State :=
  if s.winSize = 0 then s
  else if s.run.running then
    if s.snapshotOut then { s with run := { s.run with restart := true } }
    else { s with run := { s.run with next := s.winFirst } }
  else { s with run := { running := true, next := s.winFirst, restart := false } }

/-- An ASK addressed to the tile (R23, R24). -/
def State.takeAskFrame (s : State) : State := if s.session.onBoard then s.startRun else s

/-- Whether a source is a SNAPSHOT of the run. -/
def Source.isSnapshot : Source → Bool
  | .snapshot _ => true
  | _ => false

/-- Empties the run; a SNAPSHOT frame outstanding goes on and its end changes nothing in it (R24). -/
def State.emptyRun (s : State) : State :=
  ({ s with run := { s.run with running := false, restart := false } }).orphan Source.isSnapshot

/-- The run after a SNAPSHOT of a number of marks was sent to its last beat (R23). -/
def State.runSent (s : State) (count : Nat) : State :=
  if s.run.restart then { s with run := { s.run with next := s.winFirst, restart := false } }
  else if s.winFirst + s.winSize ≤ s.run.next + count then
    { s with run := { s.run with running := false, next := s.run.next + count } }
  else { s with run := { s.run with next := s.run.next + count } }

/-- The run after its frame lost contention or was cut: a pending restart takes effect (R23). -/
def State.runLost (s : State) : State :=
  if s.run.restart then { s with run := { s.run with next := s.winFirst, restart := false } } else s

/-! ## Withdrawal (R17, R18) -/

/-- Whether a source is an UPDATE of the slate. -/
def Source.isSlate : Source → Bool
  | .slate _ => true
  | _ => false

/-- Whether a source is an answer or an UPDATE of the slate. -/
def Source.isAnswerOrSlate : Source → Bool
  | .answer _ | .slate _ => true
  | _ => false

/-- A GRANT that answers a CLAIM: at a withdrawal those queued are for marks of the former window. -/
def Answer.isClaimGrant (a : Answer) : Bool :=
  match a.word, a.answers with
  | .grant _ _, .claim => true
  | _, _ => false

/-- A GRANT outstanding for a mark of the window stops at once and is not restored (R18). -/
def State.stopGrant (s : State) : State :=
  match s.outstanding with
  | some o => match o.source with
    | .answer a => if a.isClaimGrant && s.inWindow a.mark && o.live then s.stopDriving else s
    | _ => s
  | none => s

/-- An entry after withdrawal: an owned entry becomes a blank replica (R18). -/
def MarkEntry.withdraw : MarkEntry → MarkEntry
  | .owned _ => .replica Replica.blank
  | .replica r => .replica r

/-- The withdrawal, but for the routing recomputed after it (R18, R89); the former window's events are raised
here, before those of the routing (DESIGN CHOICE, notes/assumptions/35.md). -/
def State.withdraw (s : State) : State :=
  let former := s.windowMarks
  let s1 := (s.stopGrant.emptyRun).orphan Source.isSlate
  let s2 := { s1 with
    marks := s1.marks.map MarkEntry.withdraw
    answers := s1.answers.filter fun a => !(a.isClaimGrant && s.inWindow a.mark)
    winSize := 0
    writer := { s1.writer with oldestPending := none } }
  (s2.setWithdrawn.raiseMarks former).tellWriterWithdraw

/-- Two windows overlap when a mark lies in both; a window of size 0 overlaps nothing (R17). -/
def windowsOverlap (first size first' size' : Nat) : Bool :=
  decide (0 < size ∧ 0 < size' ∧ first < first' + size' ∧ first' < first + size)

/-! ## New game (R10, R11) -/

/-- An entry at a new game: an owned non-sealed mark returns to its initial value, version 0, pending and
neither announced nor caused; a sealed mark stays; a replica is blank (R10, R11). -/
def MarkEntry.newGame (now : Nat) : MarkEntry → MarkEntry
  | .owned o =>
    if o.sealed then .owned o
    else .owned { o.flag now with value := o.initial, version := 0, announce := false, cause := none }
  | .replica _ => .replica Replica.blank

/-- The Mark Unit's part of a new game: entries, answer queue and snapshot run (R10, R11, R34, R24). -/
def State.newGameMarks (s : State) : State :=
  let s1 := { s with marks := s.marks.map (MarkEntry.newGame s.now), answers := [] }
  ((s1.notePending s.anyPending).orphan Source.isAnswerOrSlate).emptyRun

/-! ## The update slate (R22) -/

/-- The lowest-numbered owned mark with its announce flag set (R22). -/
def State.slateMark (s : State) : Option Nat :=
  (List.range 256).find? fun m => match s.mark m with
    | .owned o => o.announce
    | .replica _ => false

/-- Sets or clears the announce flag of an owned mark (R22); a sealed mark's is never set (R7). -/
def State.setAnnounce (s : State) (m : Nat) (b : Bool) : State :=
  s.modifyOwned m fun o => if o.sealed then o else { o with announce := b }

end Sys2Proof.Machine
end

