-- ==== Sys2Proof/Machine/Pads.lean ====
section
/-! DEFINITION. The Pad Unit (chapter 06): readings, the pad state machine, enables, RECHECK and the
events held in rest. The gate's end as a command stands in Machine/Session.lean, since a pad wake is
Session Control's. -/

namespace Sys2Proof.Machine

/-- What a gate's count reads as (R124): absent, or present with a class or with none. -/
inductive Reading
  | absent
  | present (cls : Option Nat)
  deriving DecidableEq, Repr

/-- The lowest-numbered of bands 0–14 that contains a count (R124). -/
def classInBands (bands : List (Nat × Nat)) (count : Nat) : Option Nat :=
  (bands.take 15).findIdx? fun b => decide (b.1 ≤ count ∧ count ≤ b.2)

/-- The reading of a count; a counter stops at 4,095 (R122, R124). -/
def readingOf (h : Header) (count : Nat) : Reading :=
  let c := min count Config.countLimit
  if h.emptyLimit ≤ c then .absent else .present (classInBands h.bands c)

/-- One gate of the pad state machine: the next state and the events raised, in order (R126 to R129).
`d` is the debounce gates D. -/
def padStep (d : Nat) (st : PadState) (r : Reading) : PadState × List PadEventKind :=
  match st, r with
  | .empty, .absent => (.empty, [])
  | .empty, .present _ => (.arriving 1, [])
  | .arriving _, .absent => (.empty, [])
  | .arriving run, .present _ =>
    if run + 1 = d then (.reading 0 none, []) else (.arriving (run + 1), [])
  | .reading _ _, .absent => (.empty, [])
  | .reading n last, .present (some c) =>
    if last = some c then (.occupied (some c) none, [.placed c])
    else if n + 1 = Config.readingGates then (.occupied none none, [.misread])
    else (.reading (n + 1) (some c), [])
  | .reading n _, .present none =>
    if n + 1 = Config.readingGates then (.occupied none none, [.misread])
    else (.reading (n + 1) none, [])
  | .occupied held _, .absent => (.leaving held 1, [])
  | .occupied held _, .present none => (.occupied held none, [])
  | .occupied held cand, .present (some c) =>
    if held = some c then (.occupied held none, [])
    else if cand = some c then (.occupied (some c) none, [.lifted held, .placed c])
    else (.occupied held (some c), [])
  | .leaving held run, .absent =>
    if run + 1 = d then (.empty, [.lifted held]) else (.leaving held (run + 1), [])
  | .leaving held _, .present _ => (.occupied held none, [])

/-- A pad's settings; pads beyond the header's have none enabled. -/
def State.padSetting (s : State) (pad : Nat) : PadSetting :=
  s.header.pads.getD pad ⟨false, false, false, false⟩

/-- Whether an event's kind is enabled for its pad (R131). -/
def PadSetting.enables (p : PadSetting) : PadEventKind → Bool
  | .placed _ => p.placed
  | .lifted _ => p.lifted
  | .misread => p.misread

/-- A pad's record. -/
def State.pad (s : State) (pad : Nat) : Pad := s.pads.getD pad Pad.blank

/-- Changes a pad's record. -/
def State.modifyPad (s : State) (pad : Nat) (f : Pad → Pad) : State :=
  { s with pads := modifyAt f pad s.pads }

/-- An event raised by a gate, after the enable test: to the engine queue in LISTENING and PLAY, held or
discarded in REST by the pad's wake enable, discarded in SILENT (R130, R131, R134, R132). -/
def State.padEvent (s : State) (pad : Nat) (k : PadEventKind) : State :=
  if (s.padSetting pad).enables k then
    match s.session with
    | .listening | .play => s.raise (.pad pad k) 0
    | .rest =>
      if (s.padSetting pad).wake then s.modifyPad pad fun p => { p with held := some k } else s
    | _ => s
  else s

/-- A gate's reading taken into one pad's state machine, with its events (R122, R130). -/
def State.padGate (s : State) (pad count : Nat) : State :=
  let res := padStep s.header.debounce (s.pad pad).state (readingOf s.header count)
  res.2.foldl (fun s k => s.padEvent pad k) (s.modifyPad pad fun p => { p with state := res.1 })

/-- A gate's readings, every fitted pad in increasing pad number; a count not given is 0, that of a pad
whose oscillator does not run (R122, R124). -/
def State.padGates (s : State) (counts : List Nat) : State :=
  (List.range s.header.padCount).foldl (fun s pad => s.padGate pad (counts.getD pad 0)) s

/-- Whether some of a gate's events becomes the pad's held event in REST: wake enable on and the event's
kind enabled (R134). -/
def PadSetting.holdsAny (p : PadSetting) (events : List PadEventKind) : Bool :=
  p.wake && events.any p.enables

/-- Whether a gate sets any pad's held event in REST (R134). -/
def State.gateWakes (s : State) (counts : List Nat) : Bool :=
  (List.range s.header.padCount).any fun pad =>
    (s.padSetting pad).holdsAny
      (padStep s.header.debounce (s.pad pad).state (readingOf s.header (counts.getD pad 0))).2

/-- RECHECK (R133): PLACED for a pad OCCUPIED with a class, MISREAD for OCCUPIED(UNKNOWN), where enabled;
it joins the engine queue at depth 0 and is never held. -/
def State.recheck (s : State) (pad : Nat) : State :=
  let k : Option PadEventKind := match (s.pad pad).state with
    | .occupied (some c) _ => some (.placed c)
    | .occupied none _ => some .misread
    | _ => none
  match k with
  | some k => if (s.padSetting pad).enables k then s.raise (.pad pad k) 0 else s
  | none => s

/-- Every pad's held event becomes absent (R132, R134). -/
def State.clearHeld (s : State) : State :=
  { s with pads := s.pads.map fun p => { p with held := none } }

/-- A pad's held event, if any, joins the engine queue at depth 0 (R135). -/
def State.raiseHeld (s : State) (pad : Nat) : State :=
  match (s.pad pad).held with
  | some k => s.raise (.pad pad k) 0
  | none => s

/-- The held events join the engine queue at depth 0, in increasing pad number, and become absent
(R135). -/
def State.releaseHeld (s : State) : State := ((List.range 6).foldl State.raiseHeld s).clearHeld

/-- The Pad Unit's part of a new game: every record blank, and a new gate begun at once (R137). -/
def State.newGamePads (s : State) : State :=
  { s with pads := s.pads.map fun _ => Pad.blank, gateStart := s.gateStart.map fun _ => s.now }

end Sys2Proof.Machine
end

