-- ==== Sys2Proof/Machine/Outputs.lean ====
section
/-! DEFINITION. The Timer Unit and the Output Unit (chapter 07): quest timers, lights, tones and digits,
and what the output pins show. -/

namespace Sys2Proof.Machine

/-! ## Quest timers (R138 to R142) -/

/-- The base ticks of a tick (R138). -/
def TickLength.baseTicks : TickLength → Nat
  | .sixtyFourth => 1
  | .eighth => 8
  | .second => 64
  | .fourSeconds => 256

/-- A timer of the unit. -/
def State.timer (s : State) (t : Nat) : Timer := s.timers.getD t Timer.blank

/-- Changes a timer. -/
def State.modifyTimer (s : State) (t : Nat) (f : Timer → Timer) : State :=
  { s with timers := modifyAt f t s.timers }

/-- TIMER_START (R139). -/
def Timer.start (preset : Nat) (tick : TickLength) (repeats : Bool) : Timer :=
  ⟨true, preset, tick, repeats, preset, 0⟩

/-- A timer made IDLE, remaining and base count 0 (R141, R142). -/
def Timer.idle (t : Timer) : Timer := { t with running := false, remaining := 0, base := 0 }

/-- TIMER_STOP: a RUNNING timer becomes IDLE, an IDLE one is left (R141). -/
def Timer.stop (t : Timer) : Timer := if t.running then t.idle else t

/-- One base tick of a timer (R140): the base count advances, or returns to 0 as remaining decreases. A
timer whose remaining stands at 0 has its expiry before it and does not count. -/
def Timer.baseTick (t : Timer) : Timer :=
  if t.running ∧ 0 < t.remaining then
    if t.base + 1 = t.tick.baseTicks then { t with base := 0, remaining := t.remaining - 1 }
    else { t with base := t.base + 1 }
  else t

/-- A timer has reached 0 and its expiry has not been taken (R140). -/
def Timer.atZero (t : Timer) : Bool := t.running && t.remaining == 0

/-- What an expiry leaves: IDLE in ONCE, reloaded in REPEAT (R140). -/
def Timer.expire (t : Timer) : Timer :=
  if t.repeats then { t with remaining := t.preset, base := 0 } else t.idle

/-- A timer's expiry: it raises TIMER_EXPIRED at depth 0, and goes IDLE or reloads (R140). -/
def State.expireTimer (s : State) (t : Nat) : State :=
  if (s.timer t).atZero then (s.modifyTimer t Timer.expire).raise (.timer t) 0 else s

/-- REST entry: RUNNING timers freeze. A timer that has reached 0 and whose expiry has not been taken is
put back one base tick short of it (R142). -/
def Timer.freeze (t : Timer) : Timer :=
  if t.atZero then { t with remaining := 1, base := t.tick.baseTicks - 1 } else t

/-- Every timer IDLE, remaining and base count 0: as a new game has it (R142), and at SILENT entry by choice
(DESIGN CHOICE, notes/assumptions/37.md). -/
def State.idleTimers (s : State) : State := { s with timers := s.timers.map Timer.idle }

/-! ## Lights (R143 to R147) -/

/-- LIGHT: the channel's quest pattern, its phase count 0 (R144). -/
def State.setLight (s : State) (ch : Nat) (p : LightPattern) : State :=
  { s with lights := modifyAt (fun _ => ⟨p, 0⟩) ch s.lights }

/-- One base tick of a phase count of a period (R144). -/
def phaseTick (period phase : Nat) : Nat := if phase + 1 < period then phase + 1 else 0

/-- One base tick of a channel: a BLINK's phase advances (R144). -/
def Light.baseTick (l : Light) : Light :=
  match l.pattern with
  | .blink period _ => { l with phase := phaseTick period l.phase }
  | _ => l

/-- Every quest pattern OFF (R147), and every phase count 0 by choice (DESIGN CHOICE,
notes/assumptions/37.md). -/
def State.lightsOff (s : State) : State := { s with lights := s.lights.map fun _ => ⟨.off, 0⟩ }

/-- On return to PLAY each BLINK channel restarts its phase, lit (R147). -/
def State.restartBlinks (s : State) : State :=
  { s with lights := s.lights.map fun l => match l.pattern with
      | .blink _ _ => { l with phase := 0 }
      | _ => l }

/-- The session pattern of channel 0: its period and on-time, for the states that blink (R146). -/
def Session.blink : Session → Option (Nat × Nat)
  | .unwritten | .rest => some (96, 24)
  | .silent => some (24, 12)
  | _ => none

/-- Whether a channel's quest pattern is lit (R143, R145). -/
def State.questLit (s : State) (l : Light) : Bool :=
  match l.pattern with
  | .off => false
  | .on => true
  | .blink _ onTime => decide (l.phase < onTime)
  | .follow m => match s.usable m with
    | some v => decide (v ≠ 0)
    | none => false

/-- The drive line of a light channel (R146). -/
def State.lightPin (s : State) (ch : Nat) : Bool :=
  match s.session with
  | .listening | .play => s.powered && s.questLit (s.lights.getD ch ⟨.off, 0⟩)
  | .starting => false
  | .loading => s.powered && ch == 0
  | _ => match s.session.blink with
    | some (_, onTime) => s.powered && ch == 0 && decide (s.sessionPhase < onTime)
    | none => false

/-! ## Tones (R148 to R151) -/

/-- TONE: joins the queue, dropped with OVERRUN when it holds 4, or cuts it; a tone that plays at once begins
its wave at the present moment (R149). Discarded in REST, and in the other states no effect is handed over
(R150, R151). -/
def State.playTone (s : State) (t : Tone) (cut : Bool) : State :=
  match s.session with
  | .listening | .play =>
    if cut then { s with tones := [t], toneCount := 0, toneStart := s.now }
    else if s.tones = [] then { s with tones := [t], toneCount := 0, toneStart := s.now }
    else if s.tones.length < Config.toneRoom then { s with tones := s.tones ++ [t] }
    else s.setOverrun
  | _ => s

/-- The playing tone's duration in base ticks has passed (R149). -/
def State.toneOver (s : State) : Bool :=
  match s.tones with
  | [] => false
  | t :: _ => decide (t.duration ≤ s.toneCount)

/-- The playing tone ends and the next sounds at once, its wave begun afresh (R149). -/
def State.endTone (s : State) : State :=
  if s.toneOver then { s with tones := s.tones.tail, toneCount := 0, toneStart := s.now } else s

/-- The tone queue emptied (R151). -/
def State.silenceTones (s : State) : State := { s with tones := [], toneCount := 0 }

/-- The counts of the tone clock a wave is high for: the divider times the duty, rounded down (R148). -/
def WaveDuty.high (d : WaveDuty) (divider : Nat) : Nat :=
  match d with
  | .quarter => divider / 4
  | .third => divider / 3
  | .half => divider / 2

/-- The counts of the 500 kHz tone clock since the playing tone began (R148, R149). -/
def State.toneClock (s : State) : Nat := (s.now - s.toneStart) / Config.toneCountTime

/-- The tone line (R148, R149): high for the first H counts of every period of N counts of the tone clock, low
otherwise and with no tone. -/
def State.tonePin (s : State) : Bool :=
  match s.tones with
  | [] => false
  | t :: _ =>
    let divider := s.toneTable.getD t.pitch 0
    decide (s.toneClock % divider < t.duty.high divider)

/-! ## Digits (R152 to R154) -/

/-- What one digit shows (R153). -/
inductive Glyph
  | digit (n : Nat)
  | minus
  | blank
  deriving DecidableEq, Repr

/-- A value as two decimal digits, a tens digit of 0 blank under the option (R153). -/
def twoDigits (v : Nat) (blankZero : Bool) : Glyph × Glyph :=
  (if blankZero && v / 10 == 0 then .blank else .digit (v / 10), .digit (v % 10))

/-- The display's glyphs, left then right, where it is not darkened (R153). A timer at 0 whose expiry is
not yet taken shows what the expiry will leave, so that no 0 is shown before it. -/
def State.sourceGlyphs (s : State) : Glyph × Glyph :=
  match s.digits.source with
  | .none => (.blank, .blank)
  | .fixed n => twoDigits n s.digits.blankZero
  | .mark m => match s.usable m with
    | some v => twoDigits v s.digits.blankZero
    | none => (.minus, .minus)
  | .timer t =>
    let tm := if (s.timer t).atZero then (s.timer t).expire else s.timer t
    if tm.running then twoDigits (min tm.remaining 99) s.digits.blankZero else (.minus, .minus)

/-- The display (R154): shown in LISTENING and PLAY, blank otherwise. -/
def State.digitPins (s : State) : Glyph × Glyph :=
  match s.session with
  | .listening | .play => if s.powered then s.sourceGlyphs else (.blank, .blank)
  | _ => (.blank, .blank)

/-! ## The base tick (R140, R144, R149) -/

/-- Whether timers, tones and quest phases count: in LISTENING and PLAY (R142, R147, R151). -/
def Session.counts : Session → Bool
  | .listening | .play => true
  | _ => false

/-- An expiry or a tone's end that the base tick before this one brought and that has not been taken
comes first: neither waits beyond its own base tick (R140, R149). -/
def State.takeOverdue (s : State) : State :=
  ((List.range 4).foldl (fun s t => s.expireTimer t) s).endTone

/-- One base tick of the session pattern's phase (R146). -/
def State.tickSession (s : State) : State :=
  match s.session.blink with
  | some (period, _) => { s with sessionPhase := phaseTick period s.sessionPhase }
  | none => s

/-- One base tick of the timers, the BLINK phases and the playing tone (R140, R144, R149). -/
def State.tickCounts (s : State) : State :=
  { s with
    timers := s.timers.map Timer.baseTick
    lights := s.lights.map Light.baseTick
    toneCount := if s.tones = [] then s.toneCount else s.toneCount + 1 }

/-- One base tick: running timers, BLINK phases, the session pattern's phase and the playing tone
advance (R140, R144, R146, R149). -/
def State.tick (s : State) : State :=
  if s.session.counts then s.tickSession.takeOverdue.tickCounts else s.tickSession

end Sys2Proof.Machine
end

