-- ==== Sys2Proof/Machine/Engine.lean ====
section
/-! DEFINITION. The Quest Engine (chapter 03): conditions, the trigger, effects, firing, refusal paths,
arming and disarming, and taking an event or an answer event. -/

namespace Sys2Proof.Machine

/-! ## Conditions (R54 to R58, R66) -/

/-- Edges are remembered, levels are tested afresh (section 3.4). -/
def Condition.isEdge : Condition → Bool
  | .padHolds _ _ | .markTest _ _ _ => false
  | _ => true

/-- Whether a condition names an event's subject (R54). -/
def Condition.concerns (c : Condition) (e : Happening) : Bool :=
  match c, e with
  | .padEvent p _ _, .pad p' _ => p == p'
  | .padHolds p _, .pad p' _ => p == p'
  | .markTest m _ _, .mark m' => m == m'
  | .timerExpired t, .timer t' => t == t'
  | .cueHeard n, .cue n' => n == n'
  | .stepDone n, .stepDone n' => n == n'
  | _, _ => false

/-- A PAD_EVENT's kind and class test on an event of its pad (R55); a class of `none` is ANY. -/
def padEdgeMatches (e : PadEdge) (cls : Option Nat) (k : PadEventKind) : Bool :=
  match e, k with
  | .placed, .placed c => cls == none || cls == some c
  | .lifted, .lifted c => cls == none || cls == c
  | .misread, .misread => true
  | _, _ => false

/-- Whether an event matches an edge condition (R55, R58). -/
def Condition.matchesEvent (c : Condition) (e : Happening) : Bool :=
  match c, e with
  | .padEvent p k cls, .pad p' k' => p == p' && padEdgeMatches k cls k'
  | .timerExpired t, .timer t' => t == t'
  | .cueHeard n, .cue n' => n == n'
  | .stepDone n, .stepDone n' => n == n'
  | _, _ => false

/-- A comparison of a mark's value with the operand (R57). -/
def Comparison.holds (c : Comparison) (v operand : Nat) : Bool :=
  match c with
  | .eq => v == operand
  | .ne => v != operand
  | .ge => decide (operand ≤ v)
  | .lt => decide (v < operand)

/-- PAD_HOLDS: the pad is OCCUPIED or LEAVING and the class test passes (R56). -/
def State.padHolds (s : State) (pad : Nat) (cls : Option Nat) : Bool :=
  match (s.pad pad).state with
  | .occupied held _ => cls == none || cls == held
  | .leaving held _ => cls == none || cls == held
  | _ => false

/-- A level condition as the tile stands; an edge is no level (R56, R57). -/
def State.levelHolds (s : State) (c : Condition) : Bool :=
  match c with
  | .padHolds p cls => s.padHolds p cls
  | .markTest m cmp v => match s.usable m with
    | some x => cmp.holds x v
    | none => false
  | _ => false

/-- A condition under ALL: a seen edge, or a true level (R66). -/
def State.allHolds (s : State) (c : Condition) (seen : Bool) : Bool :=
  if c.isEdge then seen else s.levelHolds c

/-- A condition under ANY: an edge the event being handled matches, or a true level (R66). -/
def State.anyHolds (s : State) (e : Option Happening) (c : Condition) : Bool :=
  if c.isEdge then match e with
    | some e => c.matchesEvent e
    | none => false
  else s.levelHolds c

/-- The trigger of a step, with the event being handled or none (R66). -/
def State.trigger (s : State) (e : Option Happening) (st : Step) : Bool :=
  if st.record.matchAll then
    (List.zip st.record.conditions st.seen).all fun p => s.allHolds p.1 p.2
  else st.record.conditions.any fun c => s.anyHolds e c

/-- All seen flags clear. -/
def StepRecord.unseen (r : StepRecord) : List Bool := r.conditions.map fun _ => false

/-- Seen flags after an event (R65). -/
def Step.see (st : Step) (e : Happening) : Step :=
  { st with seen := (List.zip st.record.conditions st.seen).map fun p =>
      p.2 || (p.1.isEdge && p.1.matchesEvent e) }

/-- ARMED with seen flags cleared (R67, R68, R70). -/
def Step.arm (st : Step) : Step := { st with state := .armed, seen := st.record.unseen }

/-! ## One handling (R63, R67 to R73) -/

/-- The engine in the midst of handling an event: the part, the steps that have fired in this handling,
those firing now, those with a disarm recorded against them, and the firing depth (R62, R69, R70). -/
structure Handling where
  s      : State
  fired  : List Nat
  firing : List Nat
  disarm : List Nat
  depth  : Nat

/-- Changes the part within a handling. -/
def Handling.onState (h : Handling) (f : State → State) : Handling := { h with s := f h.s }

/-- The firing of a step ends: it is firing no more and no disarm stands against it. -/
def Handling.endFiring (h : Handling) (n : Nat) : Handling :=
  { h with firing := h.firing.filter (· != n), disarm := h.disarm.filter (· != n) }

/-- A firing completes: firings left, STEP_DONE, then SPENT, DORMANT or ARMED (R67). The seen flags are cleared
in DORMANT and kept in SPENT (DESIGN CHOICE, notes/assumptions/31.md). -/
def Handling.complete (h : Handling) (n : Nat) : Handling :=
  match h.s.step n with
  | none => h.endFiring n
  | some st =>
    let left := if st.record.repeats = 0 then st.left else st.left - 1
    let st1 := { st with left := left, tag := none }
    let st2 :=
      if st.record.repeats ≠ 0 ∧ left = 0 then { st1 with state := .spent }
      else if h.disarm.contains n then { st1 with state := .dormant, seen := st.record.unseen }
      else st1.arm
    (h.onState fun s => (s.raise (.stepDone n) (h.depth + 1)).modifyStep n fun _ => st2).endFiring n

/-- ARM naming a step (R70), with what firing a step on the spot does (R69). A step that is firing is
left as it is. -/
def Handling.arm (fire : Nat → Handling → Handling) (h : Handling) (n : Nat) : Handling :=
  if h.firing.contains n then h
  else match h.s.step n with
    | none => h
    | some st =>
      match st.state with
      | .dormant => onSpot st.arm
      | .spent => onSpot { st.arm with left := st.record.repeats }
      | .withdrawn => h.onState fun s => s.modifyStep n fun st => { st with state := .pending }
      | _ => h
where
  /-- Armed, and evaluated on the spot unless it has fired in this handling (R69). -/
  onSpot (st : Step) : Handling :=
    let h1 := h.onState fun s => s.modifyStep n fun _ => st
    if h1.fired.contains n then h1
    else if h1.s.trigger none st then fire n h1 else h1

/-- DISARM naming a step (R71). -/
def Handling.disarmStep (h : Handling) (n : Nat) : Handling :=
  if h.firing.contains n then { h with disarm := n :: h.disarm }
  else match h.s.step n with
    | none => h
    | some st =>
      match st.state with
      | .armed => h.onState fun s => s.modifyStep n fun st =>
          { st with state := .dormant, seen := st.record.unseen }
      | .pending => h.onState fun s => s.modifyStep n fun st => { st with state := .withdrawn }
      | _ => h

/-- The steps of a quest, in increasing number (R71). -/
def State.questSteps (s : State) (q : Nat) : List Nat :=
  (List.range 64).filter fun n => match s.step n with
    | some st => st.state != .quarantined && st.record.quest == q
    | none => false

/-- One effect that is not a claim (R59, R60, R61). A claim effect stands first alone and is settled by
the firing (R68). -/
def Handling.effect (fire : Nat → Handling → Handling) (h : Handling) (e : Effect) : Handling :=
  match e with
  | .claim _ _ _ _ => h
  | .cue c => h.onState fun s => (s.offer (.cue c)).raise (.cue c) (h.depth + 1)
  | .arm n => h.arm fire n
  | .disarm n => h.disarmStep n
  | .disarmQuest q => (h.s.questSteps q).foldl (fun h n => h.disarmStep n) h
  | .timerStart t preset tick repeats =>
    h.onState fun s => s.modifyTimer t fun _ => Timer.start preset tick repeats
  | .timerStop t => h.onState fun s => s.modifyTimer t Timer.stop
  | .light ch p => h.onState fun s => s.setLight ch p
  | .tone t cut => h.onState fun s => s.playTone t cut
  | .digits d => h.onState fun s => { s with digits := d }
  | .recheck p => h.onState fun s => s.recheck p

/-- Effects in list order, each complete before the next (R59). -/
def Handling.effects (fire : Nat → Handling → Handling) (h : Handling) (es : List Effect) :
    Handling := es.foldl (fun h e => h.effect fire e) h

/-- The on-refusal path (R68): a disarm recorded against the step is set aside. DROP and FALLBACK clear the
seen flags too (DESIGN CHOICE, notes/assumptions/31.md). -/
def Handling.refuse (fire : Nat → Handling → Handling) (h : Handling) (n : Nat)
    (path : OnRefusal) : Handling :=
  let h1 := h.endFiring n
  match path with
  | .rearm => h1.onState fun s => s.modifyStep n fun st => { st.arm with tag := none }
  | .drop => h1.onState fun s => s.modifyStep n fun st =>
      { st with state := .dormant, seen := st.record.unseen, tag := none }
  | .fallback f =>
    (h1.onState fun s => s.modifyStep n fun st =>
      { st with state := .dormant, seen := st.record.unseen, tag := none }).arm fire f

/-- The rest of a firing once its claim's outcome is known (R68). -/
def Handling.settle (fire : Nat → Handling → Handling) (h : Handling) (n : Nat) (r : StepRecord)
    (outcome : ClaimOutcome) : Handling :=
  match outcome with
  | .granted => (h.effects fire r.effects.tail).complete n
  | _ => h.refuse fire n r.onRefusal

/-- A step becomes PENDING with its claim's tag, and its firing stops there (R68). -/
def Handling.pend (h : Handling) (n : Nat) (tag : Byte) : Handling :=
  (h.onState fun s => s.modifyStep n fun st => { st with state := .pending, tag := some tag }).endFiring
    n

/-- A firing begins: the step has fired in this handling and is firing (R69, R70). -/
def Handling.begin (h : Handling) (n : Nat) : Handling :=
  { h with fired := n :: h.fired, firing := n :: h.firing }

/-- A firing, whole or in its first part (R67, R68), with what a nested firing does. -/
def Handling.fireStep (fire : Nat → Handling → Handling) (h : Handling) (n : Nat) : Handling :=
  match h.s.step n with
  | none => h
  | some st =>
    let h1 := h.begin n
    match st.record.effects with
    | .claim op m a b :: _ =>
      match h1.s.issueClaim n m op a b h1.depth with
      | (.issued tag, s') => (h1.onState fun _ => s').pend n tag
      | (.settled outcome, s') => (h1.onState fun _ => s').settle fire n st.record outcome
    | es => (h1.effects fire es).complete n

/-- A firing with its nested firings. Within one handling each step fires at most once (R69), so 64
levels of nesting are never exceeded. -/
def fire : Nat → Nat → Handling → Handling
  | 0, _, h => h
  | fuel + 1, n, h => h.fireStep (fire fuel) n

/-- A firing at the outermost level. -/
def fireTop (n : Nat) (h : Handling) : Handling := fire 65 n h

/-- A step visited for an event (R65): ARMED as the engine reaches it, concerned by the event, and not
yet fired in this handling. Its seen flags are set, its trigger tested, and it fires if that holds. -/
def Handling.visit (e : Happening) (h : Handling) (n : Nat) : Handling :=
  match h.s.step n with
  | none => h
  | some st =>
    if st.state = .armed ∧ st.record.conditions.any (·.concerns e) = true ∧
        h.fired.contains n = false then
      let st1 := st.see e
      let h1 := h.onState fun s => s.modifyStep n fun _ => st1
      if h1.s.trigger (some e) st1 then fireTop n h1 else h1
    else h

/-- The handling of one event of the engine queue: the ARMED steps in increasing number (R65). -/
def State.handleEvent (s : State) (e : Happening) (depth : Nat) : State :=
  ((List.range 64).foldl (fun (h : Handling) n => h.visit e n) ⟨s, [], [], [], depth⟩).s

/-- The handling of an answer event (R63, R68, R72): discarded where the step holds another tag or none;
a WITHDRAWN step becomes DORMANT, its seen flags cleared (DESIGN CHOICE, notes/assumptions/31.md); a PENDING
one goes on, at depth 0, having fired in this handling. -/
def State.handleAnswer (s : State) (n : Nat) (tag : Byte) (outcome : ClaimOutcome) : State :=
  match s.step n with
  | none => s
  | some st =>
    if st.tag = some tag then
      match st.state with
      | .withdrawn => s.modifyStep n fun st =>
          { st with state := .dormant, seen := st.record.unseen, tag := none }
      | .pending =>
        let s1 := s.modifyStep n fun st => { st with tag := none }
        ((Handling.begin ⟨s1, [], [], [], 0⟩ n).settle (fire 65) n st.record outcome).s
      | _ => s
    else s

/-- Whether an event is a pad event, which the engine discards in REST as it takes it (R64). -/
def Happening.isPad : Happening → Bool
  | .pad _ _ => true
  | _ => false

/-- The engine takes the oldest event of its queue, if that is the oldest arrival of the queue and the
hold together (R63, R64). -/
def State.takeEvent (s : State) : State :=
  if s.session.inGame then
    match s.inbox with
    | .event e depth :: rest =>
      let s1 := { s with inbox := rest }
      if s.session = .rest ∧ e.isPad = true then s1 else s1.handleEvent e depth
    | _ => s
  else s

/-- The engine takes the oldest answer event, if that is the oldest arrival (R63, R64). -/
def State.takeAnswer (s : State) : State :=
  if s.session.inGame then
    match s.inbox with
    | .answer n tag outcome :: rest => ({ s with inbox := rest }).handleAnswer n tag outcome
    | _ => s
  else s

/-! ## The engine at the starting points (R74, R75) -/

/-- A step's start state (R50). -/
def StepRecord.start (r : StepRecord) : StepState := if r.armed then .armed else .dormant

/-- What is held of a record at fault: its repeat field (R50, R198). -/
def StepRecord.faulty (bytes : List Byte) : StepRecord :=
  ⟨0, false, true, [], [], lowNibble (byteAt bytes 0), .drop⟩

/-- The condition count a record's byte 1 holds (R198). -/
def conditionCount (bytes : List Byte) : Nat := numAt bytes 1 % 4

/-- A step read from its record at power-on start (R50, R51): every step has the record's firings left and one
clear seen flag for each condition; a record at fault is QUARANTINED. -/
def stepOf (padCount : Nat) (bytes : List Byte) : Step :=
  match parseStep padCount bytes with
  | some r => ⟨r, r.start, r.unseen, r.repeats, none⟩
  | none =>
    let r := StepRecord.faulty bytes
    ⟨r, .quarantined, List.replicate (conditionCount bytes) false, r.repeats, none⟩

/-- Whether a usable step's condition tests a mark (R20). -/
def Step.watches (st : Step) (m : Nat) : Bool :=
  st.state != .quarantined && st.record.conditions.any fun c => match c with
    | .markTest m' _ _ => m' == m
    | _ => false

/-- The engine set up at power-on start: steps read and checked, QUARANTINE settled, the watched set
built (R74). -/
def State.startEngine (s : State) : State :=
  let steps := (List.range 64).map fun n => stepOf s.header.padCount (stepBytes s.store n)
  { s with
    steps := steps
    inbox := []
    health := { s.health with quarantine := steps.any fun st => st.state == .quarantined }
    watched := (List.range 256).map fun m => steps.any fun st => st.watches m }

/-- A step at a new game (R50, R75): its flags clear, its firings as recorded, no tag, and its start state
unless it is QUARANTINED. -/
def Step.newGame (st : Step) : Step :=
  { st with
    state := if st.state = .quarantined then .quarantined else st.record.start
    seen := st.seen.map fun _ => false
    left := st.record.repeats
    tag := none }

/-- The engine's part of a new game: queue and hold emptied, steps at their start states (R75). -/
def State.newGameEngine (s : State) : State :=
  { s with inbox := [], steps := s.steps.map Step.newGame }

/-- A received CUE raises its event at depth 0; a number beyond 63 is dropped (R60). -/
def State.takeCueFrame (s : State) (f : GoodFrame) : State :=
  if numAt f.body 0 ≤ 63 then s.raise (.cue (numAt f.body 0)) 0 else s

end Sys2Proof.Machine
end

