-- ==== Sys2Proof/Machine/Sending.lean ====
section
/-! DEFINITION. The sending side of the Line Unit (sections 5.3 and 5.9 to 5.13): the HAIL schedule, the
frames the send selector builds, its choice at a gap, and how a frame ends. -/

namespace Sys2Proof.Machine

/-! ## The HAIL schedule (R115) -/

/-- The interval in force: eight times as long in REST (R115). -/
def State.hailInterval (s : State) : Nat :=
  match s.session with
  | .rest => Config.restFactor * Config.hailInterval s.tile
  | _ => Config.hailInterval s.tile

/-- The HAIL is due (R115). -/
def State.hailIsDue (s : State) : Bool :=
  match s.hail.due with
  | some t => decide (t ≤ s.now)
  | none => false

/-- The HAIL is overdue (R115). -/
def State.hailIsOverdue (s : State) : Bool :=
  s.hail.immediate || match s.hail.due with
    | some t => decide (t + Config.overdueTime ≤ s.now)
    | none => false

/-- The last HAIL's end, or the present moment when none has been sent since power-on start (R115). -/
def State.lastHailEnd (s : State) : Nat := s.hail.lastEnd.getD s.now

/-- Sets the due time. -/
def State.setHailDue (s : State) (t : Nat) : State := { s with hail := { s.hail with due := some t } }

/-! ## The frames (R116, R34, R35, R22, R23, R119, R195, R196) -/

/-- The body rate: STRONG while a PRESENT entry lists this tile poor (R114). -/
def State.strongRate (s : State) : Bool := s.roster.any fun p => p.present && p.listsMePoor

/-- The poor list of a HAIL: PRESENT entries graded POOR, lowest first, up to four (R95). -/
def State.poorList (s : State) : List Nat :=
  ((s.roster.filter fun p => p.present && p.grade == .poor).take Config.poorRoom).map (·.tile)

/-- The bytes of some small numbers. -/
def numBytes (ns : List Nat) : List Byte := ns.map (BitVec.ofNat 8)

/-- A frame at the rate of the moment. -/
def State.frame (s : State) (kind : FrameKind) (addressee : Nat) (body : List Byte) : Frame :=
  ⟨kind, s.strongRate, addressee, body⟩

/-- The HAIL of the moment (R116). -/
def State.hailFrame (s : State) : Frame :=
  s.frame .hail 0 ([s.epoch, BitVec.ofNat 8 s.winFirst, BitVec.ofNat 8 s.winSize, s.health.byte,
    s.serial, Config.generation, BitVec.ofNat 8 s.poorList.length] ++ numBytes s.poorList)

/-- The reason a REFUSE frame carries: NOT_OWNER where a claim's mark has left the window (R35). -/
def State.sentReason (s : State) (a : Answer) (r : Reason) : Reason :=
  match a.answers with
  | .claim => if s.inWindow a.mark then r else .notOwner
  | _ => r

/-- The frame of an answer (R34, R35, R196). -/
def State.answerFrame (s : State) (a : Answer) : Frame :=
  match a.word with
  | .grant value version =>
    s.frame .grant a.addressee [a.tag, BitVec.ofNat 8 a.mark, BitVec.ofNat 8 value, version]
  | .refuse r =>
    s.frame .refuse a.addressee [a.tag, BitVec.ofNat 8 a.mark, (s.sentReason a r).code]

/-- The UPDATE of an owned mark (R22). -/
def State.updateFrame (s : State) (m : Nat) (o : Owned) : Frame :=
  let cause := o.cause.getD (0, 0)
  s.frame .update 0 [s.epoch, BitVec.ofNat 8 m, BitVec.ofNat 8 o.value, o.version,
    BitVec.ofNat 8 cause.1, cause.2]

/-- The number of marks of the run's next frame (R23). -/
def State.runCount (s : State) : Nat := min Config.snapshotRoom (s.winFirst + s.winSize - s.run.next)

/-- The value and version of an owned mark as a SNAPSHOT carries them. -/
def State.runItem (s : State) (m : Nat) : List Byte :=
  match s.owned m with
  | some o => [BitVec.ofNat 8 o.value, o.version]
  | none => [0, 0]

/-- The run's next SNAPSHOT (R23). -/
def State.snapshotFrame (s : State) : Frame :=
  s.frame .snapshot 0 ([s.epoch, BitVec.ofNat 8 s.run.next, BitVec.ofNat 8 s.runCount] ++
    (List.range' s.run.next s.runCount).flatMap s.runItem)

/-- The frame of a transmit-queue entry (R119). -/
def State.queuedFrame (s : State) (q : Queued) : Frame :=
  match q with
  | .claim tag m op a b owner => s.frame .claim owner [tag, BitVec.ofNat 8 m, op.code, a, b]
  | .cue c => s.frame .cue 0 [BitVec.ofNat 8 c]
  | .ask p => s.frame .ask p []
  | .wake => s.frame .wake 0 []

/-! ## The selector (R117) -/

/-- A frame chosen, with its source. -/
structure Choice where
  source : Source
  frame  : Frame
  deriving DecidableEq, Repr

/-- A HAIL chosen, with the event flags it carries. -/
def State.chooseHail (s : State) : Choice :=
  ⟨.hail s.health.overrun s.health.loop s.health.rosterFull false, s.hailFrame⟩

/-- Places 3 to 5 of the order: the slate, the run, the transmit queue. -/
def State.chooseGame (s : State) : Option Choice :=
  match s.slateMark with
  | some m => (s.owned m).map fun o => ⟨.slate m, s.updateFrame m o⟩
  | none =>
    if s.run.running then some ⟨.snapshot s.runCount, s.snapshotFrame⟩
    else match s.transmit with
      | q :: _ => some ⟨.queue q, s.queuedFrame q⟩
      | [] => none

/-- The first source of the order that has a frame to give, in the session state's table (R117). -/
def State.select (s : State) : Option Choice :=
  if s.session.onBoard || s.session.blankTile then
    if s.hailIsOverdue then some s.chooseHail
    else match s.answers with
      | a :: _ => some ⟨.answer a, s.answerFrame a⟩
      | [] =>
        match (if s.session.onBoard then s.chooseGame else none) with
        | some c => some c
        | none => if s.hailIsDue then some s.chooseHail else none
  else none

/-- The key a frame contends with: PROMOTED while the loss counter stands at 8 (R101, R102). -/
def State.keyFor (s : State) (f : Frame) : Nat :=
  contentionKey (if Config.lossLimit ≤ s.losses then .promoted else f.kind.contentionClass) s.tile

/-- Contends with a frame: its announce flag is cleared as the slate is taken (R22), it is outstanding,
and the tile drives preamble and key on a line that is idle no more. -/
def State.contend (s : State) (c : Choice) : State :=
  let s1 := match c.source with
    | .slate m => s.setAnnounce m false
    | _ => s
  { s1 with outstanding := some ⟨c.frame, s.keyFor c.frame, c.source, false, true⟩
            lineOut := preamble ++ keySymbols (s.keyFor c.frame)
            line := .busy }

/-- The line is idle and the tile may send: not from droop onward (R121), and with no frame of its own
outstanding (R99). -/
def State.maySend (s : State) : Bool :=
  s.line == .idle && s.outstanding.isNone && !s.droop

/-- The choice of the selector on an idle line (R99, R117): it is made at the gap and, where nothing was to be
sent then, at the moment at which a frame becomes ready while the line is still idle. Every command ends with
it, its effect being one moment (DESIGN CHOICE, notes/assumptions/36.md). -/
def State.onLine (s : State) : State :=
  if s.maySend then
    match s.select with
    | some c => s.contend c
    | none => s
  else s

/-- A gap (R99): the line is idle once 16 beats have been quiet since the end of the last frame. The Line Unit
receives nothing in STARTING (R182). -/
def State.takeGap (s : State) : State :=
  match s.line with
  | .quiet since =>
    if s.session ≠ .starting ∧ since + Config.gapTime ≤ s.now then { s with line := .idle } else s
  | _ => s

/-! ## How a frame ends (R118) -/

/-- A CLAIM whose entry ended while its frame was outstanding leaves the queue at the frame's end
(R46, R119). -/
def State.dropEndedClaim (s : State) (q : Queued) : State :=
  match q with
  | .claim tag _ _ _ _ _ =>
    if s.tagHeld tag then s else { s with transmit := s.transmit.filter fun q => !q.isClaim tag }
  | _ => s

/-- A lost or cut frame is given back to its source, if that still holds it (R118, R22, R23). -/
def State.giveBack (s : State) : State :=
  match s.outstanding with
  | none => s
  | some o =>
    let s1 := if o.live then
        match o.source with
        | .slate m => s.setAnnounce m true
        | .snapshot _ => s.runLost
        | .queue q => s.dropEndedClaim q
        | _ => s
      else s
    s1.stopDriving

/-- A loss counted (R102). -/
def State.countLoss (s : State) : State := { s with losses := min Config.lossLimit (s.losses + 1) }

/-- Another station's frame is on the line (R99). -/
def State.lineTaken (s : State) : State := { s with line := .busy }

/-- Contention lost, or the tile kept from beginning by the first pulse of another's preamble (`seen` none):
the line is the other station's, a frame in contention goes back to its source, and the loss is counted; a
tile that had no frame chosen loses nothing (R99, R101, R102, R117). -/
def State.loseContention (s : State) (seen : Option (List Symbol)) : State :=
  match s.outstanding with
  | none =>
    match seen with
    | none => s.lineTaken
    | some _ => s
  | some o =>
    let lost := match seen with
      | none => true
      | some line => losesKey o.key line
    if o.won = false ∧ lost = true then s.giveBack.countLoss.lineTaken else s

/-- Contention won: the loss counter is 0 and the tile drives the whole frame (R101, R102). -/
def State.winContention (s : State) (seen : List Symbol) : State :=
  match s.outstanding with
  | none => s
  | some o =>
    if o.won = false ∧ losesKey o.key seen = false then
      { s with losses := 0, outstanding := some { o with won := true }
               lineOut := frameSymbols s.tile o.key o.frame }
    else s

/-- A HAIL was sent: the event flags it carried are cleared, and the schedule moves on (R115, R116). -/
def State.hailSent (s : State) (overrun loop rosterFull requested : Bool) : State :=
  { s.clearCarried overrun loop rosterFull with
    hail := { due := some (s.now + s.hailInterval), immediate := s.hail.immediate && requested
              lastEnd := some s.now } }

/-- A frame of the transmit queue was sent: it leaves the head, and a CLAIM's entry becomes SENT
(R41, R119). -/
def State.queuedSent (s : State) (q : Queued) : State :=
  let s1 := { s with transmit := s.transmit.tail }
  match q with
  | .claim tag _ _ _ _ _ => s1.claimSent tag
  | _ => s1

/-- A source takes the completion of its frame, if it still holds it (R118). -/
def State.sourceSent (s : State) (o : Outstanding) : State :=
  match o.source with
  | .hail ov lp rf requested => s.hailSent ov lp rf requested
  | .answer _ => if o.live then { s with answers := s.answers.tail } else s
  | .slate _ => s
  | .snapshot n => if o.live then s.runSent n else s
  | .queue q => if o.live then s.queuedSent q else s

/-- Whether a source is the GRANT that answers a successful seal (R178). -/
def Source.isSealGrant : Source → Bool
  | .answer a => match a.word, a.answers with
    | .grant _ _, .seal => true
    | _, _ => false
  | _ => false

/-- The last beat of the outstanding frame, but for what the seal's GRANT starts (R118). -/
def State.endFrame (s : State) (o : Outstanding) : State := (s.sourceSent o).stopDriving

end Sys2Proof.Machine
end

