-- ==== Sys2Proof/Machine/Session.lean ====
section
/-! DEFINITION. Session Control's whole-tile events (chapter 09) but for start and loading: entry to
PLAY, new game, rest, wake and silence. -/

namespace Sys2Proof.Machine

/-! ## New game (R187, R188) -/

/-- Whether a source is an entry of the transmit queue. -/
def Source.isQueued : Source → Bool
  | .queue _ => true
  | _ => false

/-- Step 3 of R188: the Claim List emptied without outcomes, the transmit queue emptied (R48, R120). -/
def State.newGameLine (s : State) : State :=
  ({ s with claims := [], transmit := [] }).orphan Source.isQueued

/-- Step 5 of R188, but for the pads: timers, lights, tones and digits (R142, R147, R151, R154). R147 has every
pattern OFF and does not name the phase counts: they become 0 (DESIGN CHOICE, notes/assumptions/37.md). -/
def State.newGameOutputs (s : State) : State :=
  { (s.idleTimers.lightsOff.silenceTones) with digits := ⟨.none, false⟩ }

/-- Step 7 of R188: the HAIL is requested, the run started, the ASKs offered (R115, R23, R92). At a new game in
LISTENING the ASKs join the transmit queue at once and wait there for PLAY (DESIGN CHOICE,
notes/assumptions/32.md). -/
def State.announce (s : State) : State := (s.requestHail.startRun).offerAsks

/-- A new game with a serial, whole (R188). -/
def State.newGame (s : State) (serial : Byte) : State :=
  let s1 := { s with serial := serial, epoch := s.epoch + 1 }
  ((s1.newGameMarks.newGameLine.newGameEngine.newGamePads.newGameOutputs).tellWriterNewGame).announce

/-- A NEW_GAME frame: a new game where its serial differs from the tile's own (R187). -/
def State.takeNewGameFrame (s : State) (f : GoodFrame) : State :=
  if s.session.inGame ∧ byteAt f.body 0 ≠ s.serial then s.newGame (byteAt f.body 0) else s

/-! ## Rest (R189) -/

/-- REST entry (R189): the Roster's limits (R83), the HAIL's due time (R115), frozen timers (R142), the
session pattern from its start (R146), the tones (R151) and the held events (R134). -/
def State.enterRest (s : State) : State :=
  let s1 := ({ s with session := .rest }).restRoster.silenceTones.clearHeld
  let s2 := { s1 with timers := s1.timers.map Timer.freeze, sessionPhase := 0 }
  s2.setHailDue (s2.lastHailEnd + s2.hailInterval)

/-- A REST frame: REST entry in PLAY, the rest-owed flag in LISTENING (R184, R189). -/
def State.takeRestFrame (s : State) : State :=
  match s.session with
  | .play => s.enterRest
  | .listening => { s with restOwed := true }
  | _ => s

/-! ## Wake (R190) -/

/-- The return to PLAY (R190): the Roster's limits (R83), the HAIL's due time (R115), the BLINK channels
(R147) and the held events (R135). -/
def State.returnToPlay (s : State) : State :=
  let s1 := ({ s with session := .play }).wakeRoster.restartBlinks
  (s1.setHailDue (s1.lastHailEnd + s1.hailInterval)).releaseHeld

/-- A WAKE frame: the return to PLAY in REST; in LISTENING the rest-owed flag is cleared (R184, R190). -/
def State.takeWakeFrame (s : State) : State :=
  match s.session with
  | .rest => s.returnToPlay
  | .listening => { s with restOwed := false }
  | _ => s

/-- A pad wake: a WAKE frame is offered, and the tile returns to PLAY (R190). -/
def State.padWake (s : State) : State := (s.offer .wake).returnToPlay

/-! ## Entry to PLAY (R185) -/

/-- Entry to PLAY from LISTENING, and REST entry at once where rest is owed (R185). -/
def State.enterPlay (s : State) : State :=
  let s1 := ({ s with session := .play, listenAt := none }).announce
  if s1.restOwed then ({ s1 with restOwed := false }).enterRest else s1

/-- The listening deadline (R184): the command is for a moment that has come when the present time has
reached it. -/
def State.listeningPasses (s : State) : State :=
  match s.session, s.listenAt with
  | .listening, some t => if t ≤ s.now then s.enterPlay else s
  | _, _ => s

/-! ## Silence (R90, R191) -/

/-- Entry to SILENT, with no frame outstanding (R191): the run is emptied (R24), the timers are IDLE (R142), the
tones end (R151), the held events are absent (R132), the session pattern starts (R146). R142 does not say what an
IDLE timer's remaining and base count are here: they become 0 (DESIGN CHOICE, notes/assumptions/37.md). -/
def State.enterSilent (s : State) : State :=
  let s1 := (({ s with session := .silent, listenAt := none }).emptyRun).idleTimers
  { (s1.silenceTones.clearHeld) with sessionPhase := 0 }

/-- The line as a key's beats stand on it: a pulse where a 0 bit is read (R97, R98, R100). -/
def keyLine (key : List UniBeat) : List Symbol := key.map fun b => if UniBeat.bit b then .quiet else b.symbol

/-- A key with the tile's own number, in LISTENING, PLAY or REST (R90, R103). A tile does not test the key that
it drives itself: one that contends hears another's key when it has lost to it (R101), and one that drives on
notices nothing. The frame is not decoded further, and its quiet beats count from the key (R99). -/
def State.takeKey (s : State) (key : List UniBeat) : State :=
  if s.session.inGame ∧ senderOf key = s.tile then
    let s1 := s.loseContention (some (keyLine key))
    if s1.outstanding = none then s1.lineEnds.enterSilent else s
  else s

/-! ## Gates (R122, R130, R134) -/

/-- A gate's end (R122): its readings, and in REST the pad wake the first held event hands over (R134). -/
def State.endGate (s : State) (counts : List Nat) : State :=
  let s1 := s.padGates counts
  if s.session = .rest ∧ s.gateWakes counts = true then s1.padWake else s1

/-- The gates run in LISTENING, PLAY, REST and SILENT; the command is for a gate's end when 8 ms have
passed since the gate began, and the next gate follows without interval (R122). -/
def State.gateEnds (s : State) (counts : List Nat) : State :=
  match s.gateStart with
  | some t =>
    if t + Config.gateTime ≤ s.now then
      ({ s with gateStart := some (t + Config.gateTime) }).endGate counts
    else s
  | none => s

/-- A base tick: the command is for one when 1/64 s has passed since the last (chapter 07, opening). -/
def State.baseTicks (s : State) : State :=
  match s.lastTick with
  | some t =>
    if t + Config.baseTickTime ≤ s.now then
      ({ s with lastTick := some (t + Config.baseTickTime) }).tick
    else s
  | none => s

end Sys2Proof.Machine
end

