-- ==== Sys2Proof/Machine/Hail.lean ====
section
/-! DEFINITION. What a HAIL sets (sections 4.2 to 4.7), taken whole in the order of R88: grading and
refresh, content, overlap, routing, epoch consequences, ASK, new game. -/

namespace Sys2Proof.Machine

/-! ## Content (R79, R84 to R87) -/

/-- An entry with a used HAIL's content (R84 to R87); `me` is this tile's number. -/
def Peer.store (p : Peer) (h : HailContent) (me : Nat) : Peer :=
  { p with epoch := h.epoch, first := h.first, size := h.effectiveSize, serial := h.serial,
           listsMePoor := h.poor.contains me }

/-- A new entry, before its creating HAIL is graded (R79). -/
def Peer.create (sender now limit : Nat) : Peer :=
  { tile := sender, present := true, epoch := 0, first := 0, size := 0, serial := 0,
    listsMePoor := false, lastHeard := now, silenceAt := some (now + limit), removalAt := none,
    counted := 0, corrected := 0, faults := 0, grade := .good }

/-- The entry a creating HAIL leaves: its content stored and the HAIL graded as the window's first frame
(R79, R93). -/
def State.newPeer (s : State) (sender correctedBeats : Nat) (h : HailContent) : Peer :=
  ((Peer.create sender s.now (silenceLimit s.session)).store h s.tile).takeGrade s.header
    (.good correctedBeats)

/-- The roster with room for one more entry: in a full one the oldest SILENT entry goes, and with none
there is no room (R79). -/
def makeRoom (roster : List Peer) : Option (List Peer) :=
  if roster.length < Config.rosterRoom then some roster
  else (oldestSilent roster).map fun p => removePeer p.tile roster

/-! ## The steps after the content (R88) -/

/-- What a used HAIL brings to the steps after its content: whether it created the entry, reported a new
epoch, or already changed what routing depends on. -/
structure HailNews where
  created  : Bool
  newEpoch : Bool
  reroutes : Bool
  deriving DecidableEq, Repr

/-- Whether the tile withdraws on a HAIL (R17, R89). -/
def State.mustWithdraw (s : State) (sender : Nat) (h : HailContent) : Bool :=
  (s.session == .listening || s.session == .play) && decide (sender < s.tile) &&
    windowsOverlap s.winFirst s.winSize h.first h.effectiveSize

/-- A replica after its owner reports a new epoch (R14, R85). -/
def epochEntry (routes : List Route) (peer m : Nat) (e : MarkEntry) : MarkEntry :=
  if routes.getD m .none = .peer peer then e.onReplica fun r => { r with state := .unknown } else e

/-- The epoch consequences (R85): replicas and their events, then the claim entries routed to the peer. -/
def State.epochConsequences (s : State) (peer : Nat) : State :=
  let marks' := mapFrom (epochEntry s.routes peer) 0 s.marks
  (({ s with marks := marks' }).raiseMarks (changedStates s.marks marks')).endEntries fun e =>
    e.owner == peer

/-- The ASK of a created entry or a new epoch, in PLAY and REST (R91). -/
def State.askPeer (s : State) (sender : Nat) : State :=
  if s.session.onBoard then
    match s.peer sender with
    | some p => s.offerAsk p
    | none => s
  else s

/-- Steps 3 to 7 of R88 for a used HAIL. A withdrawal's events come before those of the routing recomputed after
it (DESIGN CHOICE, notes/assumptions/35.md). -/
def State.afterContent (s : State) (sender : Nat) (h : HailContent) (news : HailNews) : State :=
  let withdraws := s.mustWithdraw sender h
  let s1 := if withdraws then s.withdraw else s
  let s2 := if news.reroutes || withdraws then
      s1.recompute (if news.created then some sender else none)
    else s1
  let s3 := if news.newEpoch then s2.epochConsequences sender else s2
  let s4 := if news.created || news.newEpoch then s3.askPeer sender else s3
  if ahead h.serial s4.serial then s4.newGame h.serial else s4

/-- A used HAIL from a known sender (R80, R84 to R88). -/
def State.knownHail (s : State) (p : Peer) (correctedBeats : Nat) (h : HailContent) : State :=
  let s1 := (s.gradeAndRefresh p.tile (.good correctedBeats)).modifyPeer p.tile fun q =>
    q.store h s.tile
  s1.afterContent p.tile h
    { created := false
      newEpoch := p.epoch != h.epoch
      reroutes := !p.present || p.first != h.first || p.size != h.effectiveSize }

/-- A used HAIL from a sender with no entry (R79). -/
def State.firstHail (s : State) (sender correctedBeats : Nat) (h : HailContent) : State :=
  match makeRoom s.roster with
  | none => s.setRosterFull
  | some roster =>
    ({ s with roster := insertPeer (s.newPeer sender correctedBeats h) roster }).afterContent sender h
      { created := true, newEpoch := false, reroutes := true }

/-- A good HAIL (R84): where its poor list does not fit, it is graded and refreshes and no more. -/
def State.takeHailFrame (s : State) (f : GoodFrame) : State :=
  if s.session.inGame then
    match parseHail f.body with
    | none => s.showFrame f.sender (.good f.corrected)
    | some h =>
      match s.peer f.sender with
      | some p => s.knownHail p f.corrected h
      | none => s.firstHail f.sender f.corrected h
  else s

end Sys2Proof.Machine
end

