-- ==== Sys2Proof/Machine/Recovery.lean ====
section
/-! DEFINITION. Recovery (section 8.8): how a journal block reads, which blocks are applied, the marks,
epoch and serial they give, and the census they leave before anything is erased. -/

namespace Sys2Proof.Machine

/-! ## The places of slots (R159) -/

/-- What a slot of index 1 to 63 may be, by the block's label and what stands before it (R159). -/
inductive Zone
  | unlabelled
  | journal
  | snapshot
  | afterEnd
  deriving DecidableEq, Repr

/-- Whether a kind stands in a place the table of R159 allows, at slot index 1 to 63. -/
def Zone.allows (z : Zone) (slot : Nat) (body : SlotBody) : Bool :=
  match body with
  | .label _ _ => false
  | .retired _ => slot == 63
  | .session _ | .batch _ | .newGame _ => z == .journal || z == .afterEnd
  | .snapPart _ | .snapEnd _ => z == .snapshot

/-- The zone after a valid slot. -/
def Zone.after (z : Zone) (body : SlotBody) : Zone :=
  match body with
  | .snapEnd _ => .afterEnd
  | _ => z

/-- A valid slot: its epoch field and what it carries. -/
abbrev ValidSlot := Byte × SlotBody

/-- The valid slots of index 1 to 63, in order, each in its place (R159). -/
def judgeSlots : Zone → Nat → List SlotRead → List (Option ValidSlot)
  | _, _, [] => []
  | z, i, .valid epoch body :: rest =>
    if z.allows i body then some (epoch, body) :: judgeSlots (z.after body) (i + 1) rest
    else none :: judgeSlots z (i + 1) rest
  | z, i, _ :: rest => none :: judgeSlots z (i + 1) rest

/-! ## One block (R172) -/

/-- How a journal block reads: its valid label, its valid slots of index 0 to 63, and one more than its
highest slot that does not read erased. -/
structure BlockReading where
  block : Nat
  label : Option (Nat × LabelType)
  slots : List (Option ValidSlot)
  used  : Nat
  deriving DecidableEq, Repr

/-- The label a slot 0 carries. -/
def labelOf : SlotRead → Option (Nat × LabelType)
  | .valid _ (.label q t) => some (q, t)
  | _ => none

/-- The zone a block's label begins. -/
def zoneOf : Option (Nat × LabelType) → Zone
  | none => .unlabelled
  | some (_, .journal) => .journal
  | some (_, .snapshot) => .snapshot

/-- One more than the index of the last slot that does not read erased, 0 when every slot does. -/
def usedSlots : List SlotRead → Nat
  | [] => 0
  | r :: rest =>
    match usedSlots rest with
    | 0 => if r = .erased then 0 else 1
    | n + 1 => n + 2

/-- The slots of a block as they read. -/
def Store.slotReads (st : Store) (b : Nat) : List SlotRead :=
  (List.range 64).map fun i => readSlot (st.slot b i)

/-- Reads a block from its slots (R159, R172). -/
def readBlock (b : Nat) (reads : List SlotRead) : BlockReading :=
  let first := reads.headD .erased
  let label := labelOf first
  let slot0 : Option ValidSlot := match first with
    | .valid e (.label q t) => some (e, .label q t)
    | _ => none
  { block := b, label := label, slots := slot0 :: judgeSlots (zoneOf label) 1 reads.tail,
    used := usedSlots reads }

/-- The RETIRED slot of a block, with its loading mark (R172). -/
def BlockReading.retiredMark (r : BlockReading) : Option Bool :=
  match r.slots.getD 63 none with
  | some (_, .retired loading) => some loading
  | _ => none

/-- The block is RETIRED (R172). -/
def BlockReading.isRetired (r : BlockReading) : Bool := r.retiredMark.isSome

/-- The block's slots count in recovery: not those of a block retired with the loading mark (R172). -/
def BlockReading.counts (r : BlockReading) : Bool := r.retiredMark != some true

/-- A slot reads valid as SNAP_END. -/
def BlockReading.hasEnd (r : BlockReading) : Bool :=
  r.slots.any fun s => match s with
    | some (_, .snapEnd _) => true
    | _ => false

/-- The sequence of a labelled block, 0 for another. -/
def BlockReading.sequence (r : BlockReading) : Nat :=
  match r.label with
  | some (q, _) => q
  | none => 0

/-- A usable block: labelled, and with its SNAP_END when a SNAPSHOT block (R172). -/
def BlockReading.usable (r : BlockReading) : Bool :=
  r.counts && match r.label with
    | some (_, .journal) => true
    | some (_, .snapshot) => r.hasEnd
    | none => false

/-- A usable SNAPSHOT block. -/
def BlockReading.isSnapshot (r : BlockReading) : Bool :=
  r.usable && match r.label with
    | some (_, .snapshot) => true
    | _ => false

/-! ## All blocks (R172) -/

/-- The reading of highest sequence, the first of equals. -/
def highest : List BlockReading → Option BlockReading
  | [] => none
  | r :: rest =>
    match highest rest with
    | some q => if r.sequence < q.sequence then some q else some r
    | none => some r

/-- The base (R172). -/
def baseOf (rs : List BlockReading) : Option BlockReading := highest (rs.filter (·.isSnapshot))

/-- Whether a block is applied (R172). -/
def BlockReading.isApplied (base : Option BlockReading) (r : BlockReading) : Bool :=
  match base with
  | none => r.usable
  | some b => r.block == b.block || (r.usable && !r.isSnapshot && decide (b.sequence < r.sequence))

/-- Puts a reading in its place by sequence. -/
def insertReading (r : BlockReading) : List BlockReading → List BlockReading
  | [] => [r]
  | q :: qs => if q.sequence ≤ r.sequence then q :: insertReading r qs else r :: q :: qs

/-- The applied blocks in increasing sequence, the base first (R173). -/
def appliedBlocks (rs : List BlockReading) : List BlockReading :=
  (rs.filter (·.isApplied (baseOf rs))).foldl (fun acc r => insertReading r acc) []

/-- The block that is to be ACTIVE: of the applied blocks not RETIRED whose slot 63 reads erased, the one
of highest sequence (R174). -/
def activeReading (rs : List BlockReading) : Option BlockReading :=
  highest ((rs.filter (·.isApplied (baseOf rs))).filter fun r => !r.isRetired && decide (r.used ≤ 63))

/-- The census state recovery gives a block before its erasures (R172, R174). -/
def recoveredState (rs : List BlockReading) (r : BlockReading) : BlockState :=
  if r.isRetired then .retired
  else if r.isApplied (baseOf rs) then
    if (activeReading rs).map (·.block) = some r.block then .active else .full
  else .obsolete

/-! ## Content (R9, R173) -/

/-- A record applied to an entry, or refused (R9). -/
def MarkEntry.restore (e : MarkEntry) (value version : Byte) : MarkEntry :=
  match e with
  | .replica r => .replica r
  | .owned o =>
    if o.sealed then .owned o
    else match o.kind.ofStore value with
      | some v => .owned { o with value := v, version := version }
      | none => .owned o

/-- Records applied in order (R173). -/
def restoreRecords (marks : List MarkEntry) (rs : List SlotRecord) : List MarkEntry :=
  rs.foldl (fun ms r => modifyAt (fun e => e.restore r.2.1 r.2.2) r.1 ms) marks

/-- An entry at a NEW_GAME slot (R9, R173). -/
def MarkEntry.restart : MarkEntry → MarkEntry
  | .owned o => if o.sealed then .owned o else .owned { o with value := o.initial, version := 0 }
  | .replica r => .replica r

/-- The marks and the game serial as slots are applied (R173). -/
abbrev Restored := List MarkEntry × Byte

/-- One valid slot applied (R173). -/
def applySlot (a : Restored) (v : ValidSlot) : Restored :=
  match v.2 with
  | .batch rs | .snapPart rs => (restoreRecords a.1 rs, a.2)
  | .newGame g => (a.1.map MarkEntry.restart, g)
  | .session g | .snapEnd g => (a.1, g)
  | .label _ _ | .retired _ => a

/-- The applied blocks' valid slots, in order (R173). -/
def appliedSlots (rs : List BlockReading) : List ValidSlot :=
  (appliedBlocks rs).flatMap fun r => r.slots.filterMap id

/-- The newest valid slot's epoch field, in any block with a valid label that counts (R173). -/
def newestEpoch (rs : List BlockReading) : Option Byte :=
  match highest (rs.filter fun r => r.counts && r.label.isSome) with
  | some r => (r.slots.filterMap id).getLast?.map (·.1)
  | none => none

/-- The highest sequence of any valid label found (R160). -/
def highestSequence (rs : List BlockReading) : Nat :=
  match highest (rs.filter fun r => r.counts && r.label.isSome) with
  | some r => r.sequence
  | none => 0

/-! ## The owned entries (R9) -/

/-- The owned entry the mark page gives a window offset (R3, R6, R9). -/
def ownedOf (page : List Byte) (sealedCount k : Nat) : MarkEntry :=
  match markEntryOf page k with
  | some (kind, v) => .owned ⟨kind, v, v, 0, decide (k < sealedCount), false, none, none, false⟩
  | none => .replica Replica.blank

/-- The mark table at power-on start: owned in the header window, blank replicas elsewhere (R9, R11). -/
def initialMarks (h : Header) (page : List Byte) : List MarkEntry :=
  (List.range 256).map fun m =>
    if h.first ≤ m ∧ m < h.first + h.size then ownedOf page h.sealed (m - h.first)
    else .replica Replica.blank

/-! ## Recovery, its store operations apart -/

/-- What the journal reads as. -/
def Store.readings (st : Store) : List BlockReading :=
  journalBlocks.map fun b => readBlock b (st.slotReads b)

/-- The marks, epoch, serial, sequences and census that a reading of the journal gives; a slot that reads
erased counts from now on as not attempted (R155, R172 to R174). -/
def State.recoverFrom (s : State) (rs : List BlockReading) : State :=
  let restored := (appliedSlots rs).foldl applySlot (s.marks, 0)
  { s with
    marks := restored.1
    serial := restored.2
    epoch := match newestEpoch rs with
      | some e => e + 1
      | none => 1
    store := { s.store with attempted := s.store.attempted.take 2 ++ rs.map (·.used) }
    writer := { s.writer with
      census := rs.map fun r => ⟨recoveredState rs r, if r.counts then r.sequence else 0⟩
      nextSequence := highestSequence rs + 1
      nextSlot := match activeReading rs with
        | some r => r.used
        | none => 1 } }

/-- Recovery reads the journal and rebuilds the owned marks (R172, R173). -/
def State.recover (s : State) : State := s.recoverFrom s.store.readings

end Sys2Proof.Machine
end

