-- ==== Sys2Proof/Machine/Start.lean ====
section
/-! DEFINITION. The power-on start (R182, R183, R186, R174): its reads, recovery's erases, label and
SESSION slot, and the two states it ends in. It goes on as far as the store operations that end within
the command carry it, and otherwise waits in STARTING with its operation in progress. -/

namespace Sys2Proof.Machine

/-! ## Where it ends (R182, R186) -/

/-- Entry to UNWRITTEN (R186): the flags, the loader handling (R175), the HAIL due at once (R115) and the
session pattern from its start (R146); the roster stays empty (R78). -/
def State.enterUnwritten (s : State) : State :=
  { s with
    session := .unwritten
    roster := []
    health := { s.health with unwritten := true, loading := false }
    loader := Loader.blank
    hail := { s.hail with due := some s.now, immediate := false }
    sessionPhase := 0 }

/-- STARTING ends in UNWRITTEN (R183): epoch and serial 0, and the tile number of a header that can be
trusted, or 62. The base ticks begin, and the line's quiet beats count from here (R99). -/
def State.startUnwritten (s : State) : State :=
  ({ s with epoch := 0, serial := 0, tile := unwrittenTile (s.store.page 0 0), line := .quiet s.now
            lastTick := some s.now }).enterUnwritten

/-- Step 5 of R182: the tile number, the roster empty and the routing from the header window (R96),
LISTENING with its deadline, the first gate (R122) and the base ticks; the line's quiet beats count from
here (R99). -/
def State.enterListening (s : State) : State :=
  { s with
    tile := s.header.tile
    roster := []
    routes := ({ s with roster := [] }).computeRoutes
    session := .listening
    line := .quiet s.now
    listenAt := some (s.now + Config.listeningTime)
    gateStart := some s.now
    lastTick := some s.now }

/-- Recovery's compaction check (R174), not made when it ends worn. -/
def State.checkCompaction (s : State) : State :=
  if s.health.storeWorn then s
  else { s with writer := { s.writer with
      compactionOwed := decide (s.countBlocks .erased ≤ Config.fewErased) } }

/-- Recovery is over: the compaction check, the engine (R74), LISTENING (R182). -/
def State.finishStart (s : State) : State := s.checkCompaction.startEngine.enterListening

/-! ## The census and the SESSION slot (R174) -/

/-- Labels the lowest ERASED block JOURNAL; where none can be had or no sequence is left, the store is
worn and recovery ends (R162, R170, R174). -/
def State.startLabel (s : State) : State :=
  match s.lowestBlock .erased with
  | some b =>
    let s1 := s.labelBlock b .journal
    if s1.health.storeWorn then s1.finishStart else s1
  | none => s.setWorn.finishStart

/-- The SESSION slot into the ACTIVE block, or the label it needs first (R174, R165). -/
def State.startSession (s : State) : State :=
  match s.activeBlock with
  | some b => ({ s with stage := .session }).programActive b s.epoch (.session s.serial) .session
  | none => s.startLabel

/-- The next piece of a start whose store is free (R174): OBSOLETE erasures, the ACTIVE block, the worn
test, the SESSION slot. -/
def State.nextStart (s : State) : State :=
  if s.health.storeWorn then s.finishStart
  else match s.stage with
    | .session => s.startSession
    | _ =>
      match s.lowestBlock .obsolete with
      | some b => s.request (.erase b) .eraseObsolete
      | none =>
        match s.activeBlock with
        | none => s.startLabel
        | some _ =>
          let s1 := s.wornTest
          if s1.health.storeWorn then s1.finishStart else s1.startSession

/-- Goes on unless an operation has been asked for. -/
def State.goOn (s : State) : State :=
  if s.op = none ∧ s.waiting = none then s.nextStart else s

/-- What a program's result brings a start (R162, R165, R174). Each retirement is followed by its own worn
test (R161), which ends the start's store operations when the store is worn (R170). -/
def State.startProgrammed (s : State) (b slot : Nat) (purpose : Purpose) (v : Verdict) : State :=
  match purpose, v with
  | .label _, .pass => (s.becomeActive b).goOn
  | .label _, .fail => (s.retire b).goOn
  | .session, .pass => (s.fillActive b slot).finishStart
  | .session, .fail => (s.retire b).goOn
  | .retired, _ => s.wornTest.goOn
  | _, _ => s

/-- What an erase's result brings a start (R174). -/
def State.startErased (s : State) (b : Nat) (v : Verdict) : State :=
  match v with
  | .pass => (s.modifyBlock b fun _ => ⟨.erased, 0⟩).goOn
  | .fail => (s.retire b).goOn

/-! ## The reads (R182) -/

/-- The last read of the content. -/
def contentReads : Nat := 18

/-- The last read of the journal. -/
def journalReads : Nat := 242

/-- The page the n-th read of a start asks for: the header, mark and tone pages, block 1, the journal. -/
def startPage (n : Nat) : StoreOp :=
  if n < 3 then .read 0 n
  else if n ≤ contentReads then .read 1 (n - 3)
  else .read (2 + (n - 19) / 16) ((n - 19) % 16)

/-- Asks for the n-th page. -/
def State.startRead (s : State) (n : Nat) : State := s.request (startPage n) (.startRead n)

/-- The content's settings in force: the window is the header window (R16), and the owned entries are built
(R9). -/
def State.setContent (s : State) : State :=
  let h := parseHeader (s.store.page 0 0)
  { s with
    header := h
    winFirst := h.first
    winSize := h.size
    marks := initialMarks h (s.store.page 0 1)
    toneTable := toneTableOf (s.store.page 0 2) }

/-- The content has passed: it is in force, and routing is computed for the window it sets (R88). -/
def State.useContent (s : State) : State :=
  let s1 := s.setContent
  { s1 with routes := s1.computeRoutes }

/-- The n-th read has ended (R182): the header is judged after the first, the content after the last of
its pages, the journal after the last of all. -/
def State.startReadEnds (s : State) (n : Nat) : State :=
  if n = 0 then
    if headerOk (s.store.page 0 0) then s.startRead 1 else s.startUnwritten
  else if n = contentReads then
    if contentOk s.store then s.useContent.startRead (n + 1) else s.startUnwritten
  else if n = journalReads then ({ s.recover with stage := .census }).goOn
  else s.startRead (n + 1)

/-! ## How far a start comes within a command -/

/-- The verdict of the operation in progress on a result, or the passes used so far (R156). -/
def Operation.judge (o : Operation) (r : OpResult) : Verdict ⊕ Nat :=
  verify o.op.passLimit o.passes r.verifies

/-- The store after an operation's end: IDLE, with what the operation left (R156, R157). -/
def State.endOp (s : State) (o : Operation) (r : OpResult) (v : Verdict) : State :=
  { s with op := none, store := s.store.finish o.op r.left v }

/-- What an operation's end brings a start. -/
def State.startOpEnds (s : State) (o : Operation) (v : Verdict) : State :=
  match o.op with
  | .program b slot _ => s.startProgrammed b slot o.purpose v
  | .erase b => s.startErased b v
  | .read _ _ => match o.purpose with
    | .startRead n => s.startReadEnds n
    | _ => s

/-- The start takes the ends of its operations while they come (R182). No start has as many as 400. -/
def runStart : Nat → StartRun → State → State
  | 0, _, s => s
  | fuel + 1, run, s =>
    match s.session, s.op with
    | .starting, some o =>
      match o.op with
      | .read _ _ =>
        match run.reads with
        | some 0 => s
        | some (k + 1) =>
          runStart fuel { run with reads := some k } (({ s with op := none }).startOpEnds o .pass)
        | none => runStart fuel run (({ s with op := none }).startOpEnds o .pass)
      | _ =>
        match run.results with
        | [] => s
        | r :: rest =>
          match o.judge r with
          | .inl v => runStart fuel { run with results := rest } ((s.endOp o r v).startOpEnds o v)
          | .inr passes => { s with op := some { o with passes := passes } }
    | _, _ => s

/-- Every block at its power-on values: all but the store, the time and the commands waiting is as at
reset, with power (R182). -/
def State.fresh (s : State) : State :=
  { State.reset with pending := s.pending, now := s.now, powered := true, store := s.store }

/-- A power-on start (R182): an operation still in progress ends first (R158), every block takes its
power-on values, and the header is read. -/
def State.powerOnStart (s : State) (run : StartRun) : State :=
  runStart 400 run ((s.settleStore run.settle).fresh.startRead 0)

end Sys2Proof.Machine
end

