-- ==== Sys2Proof/Machine/Loading.lean ====
section
/-! DEFINITION. The loader handling (section 8.9): LOAD_OPEN and its erasing, LOAD_PART, the seal and its
check, and the loading timeout. -/

namespace Sys2Proof.Machine

/-! ## Answers (R175) -/

/-- A GRANT's content for a LOAD frame: mark, value and version 0 (R175, R196). -/
def loadGrant : AnswerWord := .grant 0 0

/-- An answer to a LOAD frame (R175). -/
def loadAnswer (word : AnswerWord) (what : AnswerTo) (sender : Nat) (tag : Byte) : Answer :=
  ⟨word, what, sender, tag, 0⟩

/-- Sends an answer to a LOAD frame; one that finds the queue full is not sent, and OVERRUN is set
(R175). -/
def State.answerLoad (s : State) (word : AnswerWord) (sender : Nat) (tag : Byte) : State :=
  if s.answerHasRoom then s.queueAnswer (loadAnswer word .load sender tag) else s.setOverrun

/-- Changes the loader handling. -/
def State.modifyLoader (s : State) (f : Loader → Loader) : State := { s with loader := f s.loader }

/-- The time of the last LOAD frame, kept in LOADING (R179). -/
def State.noteLoad (s : State) : State :=
  if s.session = .loading then s.modifyLoader fun l => { l with lastLoad := s.now } else s

/-! ## LOAD_OPEN (R176) -/

/-- Entry to LOADING from UNWRITTEN: the flags, and channel 0 lit (R176, R186); the roster stays empty
(R78). -/
def State.enterLoading (s : State) : State :=
  { s with session := .loading
           roster := []
           health := { s.health with unwritten := false, loading := true }
           sessionPhase := 0 }

/-- The loading begins, or begins again, with a tag and its sender: both slot marks none, the erasing at
block 0. The erase waits for the operation in progress (R176). Seals held keep their places. -/
def State.openLoading (s : State) (tag : Byte) (sender : Nat) : State :=
  (s.modifyLoader fun l =>
    { l with tag := some tag, opener := sender, progress := .next 0, slot0 := none, slot1 := none,
             lastLoad := s.now }).request (.erase 0) .loadErase

/-- A LOAD_OPEN (R175, R176); a sealed handling drops it (R178). -/
def State.takeLoadOpen (s : State) (f : GoodFrame) : State :=
  if s.loader.isSealed then s
  else match s.session with
    | .unwritten => s.enterLoading.openLoading (byteAt f.body 0) f.sender
    | .loading => s.openLoading (byteAt f.body 0) f.sender
    | _ => s

/-- The erasing goes on after a block: the next block, or done and the GRANT of the LOAD_OPEN (R176). -/
def State.eraseNext (s : State) (b : Nat) : State :=
  if b < 15 then
    (s.modifyLoader fun l => { l with progress := .next (b + 1) }).request (.erase (b + 1)) .loadErase
  else
    (s.modifyLoader fun l => { l with progress := .done }).answerLoad loadGrant s.loader.opener
      (s.loader.tag.getD 0)

/-- Whether an operation's result still belongs to the erasing under way: not one that a new LOAD_OPEN
waits to begin again, nor one that the loading timeout abandoned (R176, R179). A FAIL of the earlier loading's
erase is dropped whole when a LOAD_OPEN waits (DESIGN CHOICE, notes/assumptions/33.md). -/
def State.erasing (s : State) (b : Nat) : Bool :=
  s.session == .loading && s.waiting.isNone && s.loader.progress == .next b

/-- A loading erase's result (R176). -/
def State.loadErased (s : State) (b : Nat) (v : Verdict) : State :=
  if s.erasing b then
    match v with
    | .pass => s.eraseNext b
    | .fail =>
      if b < 2 then
        (s.modifyLoader fun l => { l with progress := .failed }).answerLoad (.refuse .worn)
          s.loader.opener (s.loader.tag.getD 0)
      else s.request (.program b 63 (slotBytes s.epoch (.retired true))) .loadRetired
  else s

/-! ## LOAD_PART (R177) -/

/-- The highest slot programmed in block 0 or 1 (R175). -/
def Loader.slotMark (l : Loader) (block : Nat) : Option Nat := if block = 0 then l.slot0 else l.slot1

/-- The loader after a slot of block 0 or 1 is programmed (R177). -/
def Loader.markSlot (l : Loader) (block slot : Nat) : Loader :=
  if block = 0 then { l with slot0 := some slot } else { l with slot1 := some slot }

/-- The last test of R177: a slot of block 0 or 1 above the highest programmed. -/
def Loader.orderOk (l : Loader) (block page slot : Nat) : Bool :=
  decide (block ≤ 1 ∧ page ≤ 15 ∧ slot ≤ 3) &&
    match l.slotMark block with
    | none => true
    | some n => decide (n < 4 * page + slot)

/-- The store is free: no operation in progress and none waiting (R157). -/
def State.storeFree (s : State) : Bool := s.op.isNone && s.waiting.isNone

/-- The refusal of a LOAD_PART, if any, by the tests of R177 in their order. -/
def State.judgePart (s : State) (tag : Byte) (block page slot : Nat) : Option Reason :=
  if s.session ≠ .loading ∨ s.loader.tag ≠ some tag then some .check
  else if s.loader.progress = .failed then some .worn
  else if s.loader.progress ≠ .done ∨ s.storeFree = false then some .busy
  else if s.loader.orderOk block page slot then none
  else some .order

/-- A LOAD_PART with its fields (R177). -/
def State.loadPart (s : State) (sender : Nat) (tag : Byte) (block page slot : Nat)
    (data : List Byte) : State :=
  match s.judgePart tag block page slot with
  | some r => s.answerLoad (.refuse r) sender tag
  | none =>
    (s.modifyLoader fun l => l.markSlot block (4 * page + slot)).request
      (.program block (4 * page + slot) data) (.loadPart tag sender)

/-- A LOAD_PART frame (R175, R177): dropped with OVERRUN at a full answer queue, dropped by a sealed
handling. -/
def State.takeLoadPart (s : State) (f : GoodFrame) : State :=
  if s.session.blankTile ∧ s.loader.isSealed = false then
    if s.noteLoad.answerHasRoom then
      s.noteLoad.loadPart f.sender (byteAt f.body 0) (numAt f.body 1) (numAt f.body 2)
        (numAt f.body 3) (f.body.drop 4)
    else s.noteLoad.setOverrun
  else s

/-- What the loader handling does with the result of a program of its own (R176, R177). -/
def State.loadProgrammed (s : State) (b : Nat) (purpose : Purpose) (v : Verdict) : State :=
  match purpose, v with
  | .loadRetired, _ => if s.erasing b then s.eraseNext b else s
  | .loadPart tag sender, .pass => s.answerLoad loadGrant sender tag
  | .loadPart tag sender, .fail => s.answerLoad (.refuse .worn) sender tag
  | _, _ => s

/-! ## The seal (R178) -/

/-- A seal with its tag: refused, or held with a place in the answer queue (R178). -/
def State.holdSeal (s : State) (sender : Nat) (tag : Byte) : State :=
  if s.session ≠ .loading ∨ s.loader.tag ≠ some tag then s.answerLoad (.refuse .check) sender tag
  else if s.loader.progress = .failed then s.answerLoad (.refuse .worn) sender tag
  else s.modifyLoader fun l => { l with seals := l.seals ++ [(tag, sender)] }

/-- A seal frame (R175, R178); one whose second byte is not 1 is dropped and sets no time (R193). -/
def State.takeSeal (s : State) (f : GoodFrame) : State :=
  if s.session.blankTile ∧ s.loader.isSealed = false ∧ numAt f.body 1 = 1 then
    if s.noteLoad.answerHasRoom then s.noteLoad.holdSeal f.sender (byteAt f.body 0)
    else s.noteLoad.setOverrun
  else s

/-- Both checks of a seal match (R178, R194). -/
def sealPasses (st : Store) : Bool := headerCheckOk (st.page 0 0) && contentCheckOk st

/-- The answer to a seal takes the place held for it (R178). -/
def State.answerSeal (s : State) (word : AnswerWord) (tag : Byte) (sender : Nat) : State :=
  (s.modifyLoader fun l => { l with seals := l.seals.tail }).queueAnswer
    (loadAnswer word .seal sender tag)

/-- The oldest seal held is decided once the store is free, the erasing done and the supply up
(R178, R158). -/
def State.checkSeal (s : State) : State :=
  match s.loader.seals with
  | [] => s
  | (tag, sender) :: _ =>
    if s.session = .loading ∧ s.loader.isSealed = false ∧ s.loader.progress = .done ∧
        s.storeFree = true ∧ s.droop = false then
      if sealPasses s.store then
        (s.answerSeal loadGrant tag sender).modifyLoader fun l => { l with isSealed := true }
      else s.answerSeal (.refuse .check) tag sender
    else s

/-! ## The timeout (R179) -/

/-- The loading timeout: the command is for a moment that has come when 10,000 ms have passed since the
last LOAD frame. The operation in progress completes; an erase that waited is abandoned (R179). -/
def State.loadingTimesOut (s : State) : State :=
  if s.session = .loading ∧ s.loader.isSealed = false ∧ s.loader.lastLoad + Config.loadingTime ≤ s.now
  then ({ s with waiting := none }).enterUnwritten
  else s

end Sys2Proof.Machine
end

