-- ==== Sys2Proof/Machine/Receiving.lean ====
section
/-! DEFINITION. The frame rows of the table: what the receiver makes of a reception is shown to the Roster
and handed to the block that owns its kind (R103, R112, R113). -/

namespace Sys2Proof.Machine

/-- What a command answers. -/
abbrev Answered := Host.Outcome State Fault Refusal

/-- The present time moves on, and a part with power acts; a frame that is ready then is chosen at once when
the line is idle (R117). -/
def State.after (s : State) (dt : Nat) (act : State → State) : Answered :=
  .next (if s.powered then (act (s.advance dt)).onLine else s.advance dt)

/-- The line as a receiver works it: nothing is received in STARTING (R182), nor while the tile drives a frame
after winning (R103). -/
def State.receives (s : State) : Bool := s.session != .starting && !s.driving

/-- A frame received to its end, or to the beat at which the receiver stopped following it: the quiet beats of
its gap count from there (R99), and the receiver acts on what it took. -/
def State.reception (s : State) (act : State → State) : State :=
  if s.receives then act s.lineEnds else s

/-- The states in which frames are handed on: not STARTING, where nothing is received, nor SILENT (R112). -/
def Session.handsOn : Session → Bool
  | .starting | .silent => false
  | _ => true

/-- A key that names the tile itself, where that is judged (R103). -/
def State.isOwn (s : State) (sender : Nat) : Bool := s.session.inGame && sender == s.tile

/-- The good frame a reception brings to the Roster and the dispatcher, if any (R103, R112). -/
def State.hears (s : State) (rx : Reception) : Option GoodFrame :=
  if s.session.handsOn && !s.isOwn (senderOf rx.key) then
    match receive rx with
    | .good f => some f
    | _ => none
  else none

/-- A good frame dispatched (R112, R113): shown to the Roster, then handed to its block unless it is of an
addressed kind and another tile's. -/
def State.dispatch (s : State) (f : GoodFrame) (take : State → GoodFrame → State) : State :=
  let s1 := s.showFrame f.sender (.good f.corrected)
  if f.kind.addressed = true ∧ f.addressee ≠ s1.tile then s1 else take s1 f

/-- A reception as a row of the table: what it does when it is a good frame of the row's kind. -/
def State.hear (s : State) (rx : Reception) (isRow : GoodFrame → Bool)
    (take : State → GoodFrame → State) : State :=
  s.reception fun s =>
    match s.hears rx with
    | some f => if isRow f then take s f else s
    | none => s

/-- A frame of a kind. -/
def ofKind (k : FrameKind) (f : GoodFrame) : Bool := f.kind == k

/-- A frame of code 12 with a body length: LOAD_OPEN has 1, the seal 2 (R193). -/
def ofCode12 (len : Nat) (f : GoodFrame) : Bool := f.kind == .loadOpen && f.body.length == len

/-- A faulty frame: shown to the Roster alone (R111, R112). -/
def State.hearFaulty (s : State) (rx : Reception) : State :=
  s.reception fun s =>
    if s.session.handsOn && !s.isOwn (senderOf rx.key) then
      match receive rx with
      | .faulty sender _ => s.showFrame sender .fault
      | _ => s
    else s

/-- DUPLICATE_KEY (R90). -/
def execDuplicateKey (dt : Nat) (key : List UniBeat) (s : State) : Answered :=
  s.after dt fun s => s.takeKey key

/-- FAULTY_FRAME (R111). -/
def execFaultyFrame (dt : Nat) (rx : Reception) (s : State) : Answered :=
  s.after dt fun s => s.hearFaulty rx

/-- HAIL (R84): the Roster takes the frame whole. -/
def execHail (dt : Nat) (rx : Reception) (s : State) : Answered :=
  s.after dt fun s => s.hear rx (ofKind .hail) State.takeHailFrame

/-- UPDATE (R13, R44). -/
def execUpdate (dt : Nat) (rx : Reception) (s : State) : Answered :=
  s.after dt fun s => s.hear rx (ofKind .update) fun s f => s.dispatch f State.takeUpdateFrame

/-- SNAPSHOT (R13, R113). -/
def execSnapshot (dt : Nat) (rx : Reception) (s : State) : Answered :=
  s.after dt fun s => s.hear rx (ofKind .snapshot) fun s f => s.dispatch f State.takeSnapshotFrame

/-- CLAIM (R32, R33). -/
def execClaim (dt : Nat) (rx : Reception) (s : State) : Answered :=
  s.after dt fun s => s.hear rx (ofKind .claim) fun s f => s.dispatch f State.takeClaimFrame

/-- GRANT (R42). -/
def execGrant (dt : Nat) (rx : Reception) (s : State) : Answered :=
  s.after dt fun s => s.hear rx (ofKind .grant) fun s f => s.dispatch f State.takeGrantFrame

/-- REFUSE (R43). -/
def execRefuse (dt : Nat) (rx : Reception) (s : State) : Answered :=
  s.after dt fun s => s.hear rx (ofKind .refuse) fun s f => s.dispatch f State.takeRefuseFrame

/-- CUE (R60). -/
def execCue (dt : Nat) (rx : Reception) (s : State) : Answered :=
  s.after dt fun s => s.hear rx (ofKind .cue) fun s f => s.dispatch f State.takeCueFrame

/-- ASK (R23, R24). -/
def execAsk (dt : Nat) (rx : Reception) (s : State) : Answered :=
  s.after dt fun s => s.hear rx (ofKind .ask) fun s f => s.dispatch f fun s _ => s.takeAskFrame

/-- NEW_GAME (R187). -/
def execNewGame (dt : Nat) (rx : Reception) (s : State) : Answered :=
  s.after dt fun s => s.hear rx (ofKind .newGame) fun s f => s.dispatch f State.takeNewGameFrame

/-- REST (R189). -/
def execRest (dt : Nat) (rx : Reception) (s : State) : Answered :=
  s.after dt fun s => s.hear rx (ofKind .rest) fun s f => s.dispatch f fun s _ => s.takeRestFrame

/-- WAKE (R190). -/
def execWake (dt : Nat) (rx : Reception) (s : State) : Answered :=
  s.after dt fun s => s.hear rx (ofKind .wake) fun s f => s.dispatch f fun s _ => s.takeWakeFrame

/-- LOAD_OPEN (R176). -/
def execLoadOpen (dt : Nat) (rx : Reception) (s : State) : Answered :=
  s.after dt fun s => s.hear rx (ofCode12 1) fun s f => s.dispatch f State.takeLoadOpen

/-- LOAD_PART (R177). -/
def execLoadPart (dt : Nat) (rx : Reception) (s : State) : Answered :=
  s.after dt fun s => s.hear rx (ofKind .loadPart) fun s f => s.dispatch f State.takeLoadPart

/-- SEAL (R178). -/
def execSeal (dt : Nat) (rx : Reception) (s : State) : Answered :=
  s.after dt fun s => s.hear rx (ofCode12 2) fun s f => s.dispatch f State.takeSeal

end Sys2Proof.Machine
end

