-- ==== Sys2Proof/Machine/Supply.lean ====
section
/-! DEFINITION. The supply rows: power, droop and its end, the loss of power (R182, R192, R158, R121). -/

namespace Sys2Proof.Machine

/-- Droop (R192): the flag is set, the frame being driven is cut and given back (R121), an erase is
abandoned (R158). A droop signalled while the flag is set changes nothing further. -/
def State.droops (s : State) (result : OpResult) : State :=
  if s.droop then s else ({ s.giveBack with droop := true }).droopStore result.left

/-- The droop sense clears: a power-on start if the flag was set (R182, R192). -/
def State.droopEnds (s : State) (run : StartRun) : State :=
  if s.droop then s.powerOnStart run else s

/-- Power is lost (R192): the operation in progress ends as R158 gives, and of the part's state the store
alone is left. -/
def State.losePower (s : State) (result : OpResult) : State :=
  { State.reset with pending := s.pending, now := s.now, store := (s.settleStore result).store }

/-- POWER_UP (R182): a power-on start, whatever went before. -/
def execPowerUp (dt : Nat) (run : StartRun) (s : State) : Answered :=
  .next ((s.advance dt).powerOnStart run).onLine

/-- DROOP (R192). -/
def execDroop (dt : Nat) (result : OpResult) (s : State) : Answered :=
  s.after dt fun s => s.droops result

/-- DROOP_CLEARS (R192). -/
def execDroopClears (dt : Nat) (run : StartRun) (s : State) : Answered :=
  s.after dt fun s => s.droopEnds run

/-- POWER_LOSS (R192). -/
def execPowerLoss (dt : Nat) (result : OpResult) (s : State) : Answered :=
  s.after dt fun s => s.losePower result

end Sys2Proof.Machine
end

