-- ==== Sys2Proof/Machine/Line.lean ====
section
/-! DEFINITION. The sending rows: a gap, contention lost and won, a frame sent (R101, R102, R117, R118). -/

namespace Sys2Proof.Machine

/-- The last beat of the frame the tile drives after winning: its source takes the completion, and the
GRANT of a seal is followed by a power-on start (R118, R178). -/
def State.frameEnds (s : State) (run : StartRun) : State :=
  match s.outstanding with
  | none => s
  | some o =>
    if o.won then
      if o.source.isSealGrant then (s.endFrame o).powerOnStart run else s.endFrame o
    else s

/-- GAP (R117). -/
def execGap (dt : Nat) (s : State) : Answered := s.after dt State.takeGap

/-- CONTENTION_LOST (R101, R102). -/
def execContentionLost (dt : Nat) (seen : Option (List Symbol)) (s : State) : Answered :=
  s.after dt fun s => s.loseContention seen

/-- CONTENTION_WON (R102). -/
def execContentionWon (dt : Nat) (seen : List Symbol) (s : State) : Answered :=
  s.after dt fun s => s.winContention seen

/-- FRAME_SENT (R118). -/
def execFrameSent (dt : Nat) (run : StartRun) (s : State) : Answered :=
  s.after dt fun s => s.frameEnds run

end Sys2Proof.Machine
end

