-- ==== Sys2Proof/Machine/Clock.lean ====
section
/-! DEFINITION. The rows of the clock and of the pads: deadlines, the HAIL's due time, gates, base ticks,
expiries. -/

namespace Sys2Proof.Machine

/-- SILENCE_DEADLINE (R81). -/
def execSilenceDeadline (dt : Nat) (peer : Nat) (s : State) : Answered :=
  s.after dt fun s => s.silencePasses peer

/-- REMOVAL_DEADLINE (R82). -/
def execRemovalDeadline (dt : Nat) (peer : Nat) (s : State) : Answered :=
  s.after dt fun s => s.removalPasses peer

/-- CLAIM_DEADLINE (R45). -/
def execClaimDeadline (dt : Nat) (tag : Byte) (s : State) : Answered :=
  s.after dt fun s => s.claimDeadlinePasses tag

/-- LISTENING_DEADLINE (R184). -/
def execListeningDeadline (dt : Nat) (s : State) : Answered := s.after dt State.listeningPasses

/-- LOADING_TIMEOUT (R179). -/
def execLoadingTimeout (dt : Nat) (s : State) : Answered := s.after dt State.loadingTimesOut

/-- HAIL_DUE (R115): whether the HAIL is due or overdue is read off the schedule and the present time
(State.hailIsDue, State.hailIsOverdue), so that the moment's coming is the time's moving on; on an idle line
the HAIL is chosen at this moment (R117). -/
def execHailDue (dt : Nat) (s : State) : Answered := s.after dt id

/-- GATE_END (R122). -/
def execGateEnd (dt : Nat) (counts : List Nat) (s : State) : Answered :=
  s.after dt fun s => s.gateEnds counts

/-- BASE_TICK (R140). -/
def execBaseTick (dt : Nat) (s : State) : Answered := s.after dt State.baseTicks

/-- A timer's expiry is taken in LISTENING and PLAY, where timers count (R140, R142). -/
def State.timerExpires (s : State) (t : Nat) : State :=
  if s.session.counts then s.expireTimer t else s

/-- TIMER_EXPIRY (R140). -/
def execTimerExpiry (dt : Nat) (timer : Nat) (s : State) : Answered :=
  s.after dt fun s => s.timerExpires timer

/-- The end of the playing tone is taken in LISTENING and PLAY, where tones play (R149, R151). -/
def State.toneEnds (s : State) : State := if s.session.counts then s.endTone else s

/-- TONE_END (R149). -/
def execToneEnd (dt : Nat) (s : State) : Answered := s.after dt State.toneEnds

/-- ENGINE_EVENT_TAKEN (R65). -/
def execEngineEventTaken (dt : Nat) (s : State) : Answered := s.after dt State.takeEvent

/-- ANSWER_EVENT_TAKEN (R68). -/
def execAnswerEventTaken (dt : Nat) (s : State) : Answered := s.after dt State.takeAnswer

end Sys2Proof.Machine
end

