-- ==== Sys2Proof/Machine/StoreEvents.lean ====
section
/-! DEFINITION. The rows of the store: the ends of its operations, the seal's check, and the pieces of
work the Journal Writer starts (chapter 08). -/

namespace Sys2Proof.Machine

/-- What the Journal Writer does with a result, a new game and a withdrawal that waited for it following
(R162, R164 to R171). -/
def State.writerTakes (s : State) (o : Operation) (v : Verdict) : State :=
  (match o.op with
    | .program b slot _ => s.writerProgrammed b slot o.purpose v
    | .erase b => s.writerErased b v
    | .read _ _ => s).takeWaits

/-- What the loader handling does with a result (R176, R177). -/
def State.loaderTakes (s : State) (o : Operation) (v : Verdict) : State :=
  match o.op with
  | .program b _ _ => s.loadProgrammed b o.purpose v
  | .erase b => s.loadErased b v
  | .read _ _ => s

/-- The client of the session state takes a result; in SILENT none does (R157). -/
def State.clientTakes (s : State) (o : Operation) (v : Verdict) : State :=
  match s.session with
  | .starting => s.startOpEnds o v
  | .listening | .play | .rest => s.writerTakes o v
  | .unwritten | .loading => s.loaderTakes o v
  | .silent => s

/-- The operation in progress, if of a kind, ends: PASS, FAIL, or some more verify passes used (R156,
R157). Its client acts on the result, and the request that waits is started. -/
def State.storeEnds (s : State) (isRow : StoreOp → Bool) (r : OpResult) : State :=
  match s.op with
  | none => s
  | some o =>
    if isRow o.op then
      match o.judge r with
      | .inl v => ((s.endOp o r v).clientTakes o v).startWaiting
      | .inr passes => { s with op := some { o with passes := passes } }
    else s

/-- A READ. -/
def StoreOp.isRead : StoreOp → Bool
  | .read _ _ => true
  | _ => false

/-- A PROGRAM. -/
def StoreOp.isProgram : StoreOp → Bool
  | .program _ _ _ => true
  | _ => false

/-- An ERASE. -/
def StoreOp.isErase : StoreOp → Bool
  | .erase _ => true
  | _ => false

/-- A READ cannot fail (R156). -/
def readResult : OpResult := ⟨[true], []⟩

/-- STORE_READ_END (R156). -/
def execStoreReadEnd (dt : Nat) (s : State) : Answered :=
  s.after dt fun s => s.storeEnds StoreOp.isRead readResult

/-- STORE_PROGRAM_END (R157). -/
def execStoreProgramEnd (dt : Nat) (result : OpResult) (s : State) : Answered :=
  s.after dt fun s => s.storeEnds StoreOp.isProgram result

/-- STORE_ERASE_END (R156). -/
def execStoreEraseEnd (dt : Nat) (result : OpResult) (s : State) : Answered :=
  s.after dt fun s => s.storeEnds StoreOp.isErase result

/-- SEAL_CHECK (R178). -/
def execSealCheck (dt : Nat) (s : State) : Answered := s.after dt State.checkSeal

/-- BATCH_START (R164). -/
def execBatchStart (dt : Nat) (s : State) : Answered :=
  s.after dt fun s => s.takeWork .batch State.takeBatch

/-- LABEL_BLOCK (R162): the JOURNAL label of a tile without an ACTIVE block, or the SNAPSHOT label that
starts an owed compaction, whichever is the writer's first work. -/
def execLabelBlock (dt : Nat) (s : State) : Answered :=
  s.after dt fun s =>
    if s.firstWork = some .label then s.takeWork .label State.takeLabel
    else s.takeWork .compaction State.takeCompaction

/-- COMPACTION_START (R167). -/
def execCompactionStart (dt : Nat) (s : State) : Answered :=
  s.after dt fun s => s.takeWork .compaction State.takeCompaction

/-- SNAPSHOT_SLOT (R168). -/
def execSnapshotSlot (dt : Nat) (s : State) : Answered :=
  s.after dt fun s => s.takeWork .snapshotSlot State.takeSnapshotSlot

/-- NEW_GAME_SLOT (R171). -/
def execNewGameSlot (dt : Nat) (s : State) : Answered :=
  s.after dt fun s => s.takeWork .newGameSlot State.takeNewGameSlot

/-- ERASE_OBSOLETE (R169). -/
def execEraseObsolete (dt : Nat) (s : State) : Answered :=
  s.after dt fun s => s.takeWork .erase State.takeErase

end Sys2Proof.Machine
end

