-- ==== Sys2Proof/Machine/Dispatch.lean ====
section
/-! DEFINITION. What each command does: one arm per constructor. -/

namespace Sys2Proof.Machine

/-- A command's effect on everything but the queue of commands waiting. -/
def exec (i : Instr) (s : State) : Host.Outcome State Fault Refusal :=
  match i with
  | .powerUp dt run => Sys2Proof.Machine.execPowerUp dt run s
  | .droop dt result => Sys2Proof.Machine.execDroop dt result s
  | .droopClears dt run => Sys2Proof.Machine.execDroopClears dt run s
  | .duplicateKey dt key => Sys2Proof.Machine.execDuplicateKey dt key s
  | .faultyFrame dt rx => Sys2Proof.Machine.execFaultyFrame dt rx s
  | .hail dt rx => Sys2Proof.Machine.execHail dt rx s
  | .update dt rx => Sys2Proof.Machine.execUpdate dt rx s
  | .snapshot dt rx => Sys2Proof.Machine.execSnapshot dt rx s
  | .claim dt rx => Sys2Proof.Machine.execClaim dt rx s
  | .grant dt rx => Sys2Proof.Machine.execGrant dt rx s
  | .refuse dt rx => Sys2Proof.Machine.execRefuse dt rx s
  | .cue dt rx => Sys2Proof.Machine.execCue dt rx s
  | .ask dt rx => Sys2Proof.Machine.execAsk dt rx s
  | .newGame dt rx => Sys2Proof.Machine.execNewGame dt rx s
  | .rest dt rx => Sys2Proof.Machine.execRest dt rx s
  | .wake dt rx => Sys2Proof.Machine.execWake dt rx s
  | .loadOpen dt rx => Sys2Proof.Machine.execLoadOpen dt rx s
  | .loadPart dt rx => Sys2Proof.Machine.execLoadPart dt rx s
  | .seal dt rx => Sys2Proof.Machine.execSeal dt rx s
  | .sealCheck dt => Sys2Proof.Machine.execSealCheck dt s
  | .gap dt => Sys2Proof.Machine.execGap dt s
  | .contentionLost dt seen => Sys2Proof.Machine.execContentionLost dt seen s
  | .frameSent dt run => Sys2Proof.Machine.execFrameSent dt run s
  | .silenceDeadline dt peer => Sys2Proof.Machine.execSilenceDeadline dt peer s
  | .removalDeadline dt peer => Sys2Proof.Machine.execRemovalDeadline dt peer s
  | .claimDeadline dt tag => Sys2Proof.Machine.execClaimDeadline dt tag s
  | .listeningDeadline dt => Sys2Proof.Machine.execListeningDeadline dt s
  | .loadingTimeout dt => Sys2Proof.Machine.execLoadingTimeout dt s
  | .hailDue dt => Sys2Proof.Machine.execHailDue dt s
  | .gateEnd dt counts => Sys2Proof.Machine.execGateEnd dt counts s
  | .baseTick dt => Sys2Proof.Machine.execBaseTick dt s
  | .timerExpiry dt timer => Sys2Proof.Machine.execTimerExpiry dt timer s
  | .toneEnd dt => Sys2Proof.Machine.execToneEnd dt s
  | .engineEventTaken dt => Sys2Proof.Machine.execEngineEventTaken dt s
  | .answerEventTaken dt => Sys2Proof.Machine.execAnswerEventTaken dt s
  | .storeReadEnd dt => Sys2Proof.Machine.execStoreReadEnd dt s
  | .storeProgramEnd dt result => Sys2Proof.Machine.execStoreProgramEnd dt result s
  | .storeEraseEnd dt result => Sys2Proof.Machine.execStoreEraseEnd dt result s
  | .batchStart dt => Sys2Proof.Machine.execBatchStart dt s
  | .labelBlock dt => Sys2Proof.Machine.execLabelBlock dt s
  | .compactionStart dt => Sys2Proof.Machine.execCompactionStart dt s
  | .snapshotSlot dt => Sys2Proof.Machine.execSnapshotSlot dt s
  | .newGameSlot dt => Sys2Proof.Machine.execNewGameSlot dt s
  | .eraseObsolete dt => Sys2Proof.Machine.execEraseObsolete dt s
  | .contentionWon dt seen => Sys2Proof.Machine.execContentionWon dt seen s
  | .powerLoss dt result => Sys2Proof.Machine.execPowerLoss dt result s

end Sys2Proof.Machine
end

