-- ==== Sys2Proof/Safety.lean ====
section
/-! DEFINITION. What a reached state satisfies: the laws the manual says the part keeps. -/

namespace Sys2Proof.Machine

/-- The store's memory has its canonical form (R155; the form is the model's). -/
def State.storeOk (s : State) : Prop := s.store.wf = true

/-- The queues keep within their room: transmit queue (R119), answer queue with the places held for seals
(R34, R178), engine queue (R62), Claim List and answer hold together (R40), tone queue (R149); and the
loss counter stops at 8 (R102). -/
def State.queuesOk (s : State) : Prop :=
  s.transmit.length ≤ 8 ∧ s.answerPlaces ≤ 8 ∧ s.engineQueue.length ≤ 32 ∧
    s.claims.length + s.answerHold.length ≤ 4 ∧ s.tones.length ≤ 4 ∧ s.losses ≤ 8

/-- The entries of the Claim List have distinct tags (R38). -/
def State.tagsOk (s : State) : Prop := (s.claims.map (·.tag)).Nodup

/-- The Roster's law (R77, R78): at most 48 entries, by tile number 1 to 62, none with the tile's own; a
silence deadline is present exactly while an entry is PRESENT; and no entry in STARTING, UNWRITTEN and
LOADING. -/
def State.rosterOk (s : State) : Prop :=
  s.roster.length ≤ 48 ∧ s.roster.Pairwise (fun p q => p.tile < q.tile) ∧
    (∀ p ∈ s.roster, 1 ≤ p.tile ∧ p.tile ≤ 62 ∧ p.tile ≠ s.tile ∧ p.present = p.silenceAt.isSome) ∧
    (s.session = .starting ∨ s.session = .unwritten ∨ s.session = .loading → s.roster = [])

/-- An entry of the mark table keeps its law: an owned value and the initial one lie in the kind's range
(R2), a sealed mark stands as the content gave it (R7), a replica's value is a number 0 to 99 (R4). -/
def MarkEntry.ok : MarkEntry → Prop
  | .owned o =>
    o.value ≤ o.kind.max ∧ o.initial ≤ o.kind.max ∧
      (o.sealed = true → o.value = o.initial ∧ o.version = 0 ∧ o.announce = false ∧
        o.pending = none ∧ o.cause = none)
  | .replica r => r.value ≤ 99

/-- The mark table's law: 256 entries, each within its range (R1, R2, R4, R7). -/
def State.marksOk (s : State) : Prop := s.marks.length = 256 ∧ ∀ e ∈ s.marks, e.ok

/-- Routing names the owners that R15 gives. -/
def State.routesOk (s : State) : Prop := ∀ m < 256, s.route m = s.routeOf m

end Sys2Proof.Machine
end

