-- ==== Sys2Proof/WellFormed.lean ====
section
/-! DEFINITION. Well-formed commands: operands that the part could meet. The meanings are total and do
not rest on it. -/

namespace Sys2Proof

/-- A reception holds no more beats than a frame has parts for: 8 of the key, 8 of the sync word, 52 of the
head, and of the body at most 16 times 40 and 36 (R100). -/
def Reception.wf (rx : Reception) : Bool :=
  decide (rx.key.length ≤ 8 ∧ rx.sync.length ≤ 8 ∧ rx.head.length ≤ 52 ∧ rx.body.length ≤ 676)

/-- Bytes of a bad slot are 32 (R155). -/
def SlotLeft.wf : SlotLeft → Bool
  | .bad bytes => bytes.length == 32
  | _ => true

/-- A result names at most 8 verify passes and 64 slots (R155, R156). -/
def OpResult.wf (r : OpResult) : Bool :=
  decide (r.verifies.length ≤ 8 ∧ r.left.length ≤ 64) && r.left.all SlotLeft.wf

/-- Every result of a start is well-formed. -/
def StartRun.wf (r : StartRun) : Bool := r.settle.wf && r.results.all OpResult.wf

/-- A tile number of a station (chapter 00, "Indices"). -/
def stationOk (n : Nat) : Bool := decide (1 ≤ n ∧ n ≤ 62)

/-- A gate gives at most six counts of 0 to 4,095 (R122). -/
def countsOk (counts : List Nat) : Bool :=
  decide (counts.length ≤ 6) && counts.all fun c => decide (c ≤ Config.countLimit)

/-- A key has 8 beats (R100). -/
def seenOk (line : List Symbol) : Bool := decide (line.length ≤ 8)

/-- The operands are such as the part could meet. -/
def Instr.wf : Instr → Bool
  | .powerUp _ run | .droopClears _ run | .frameSent _ run => run.wf
  | .droop _ r | .powerLoss _ r | .storeProgramEnd _ r | .storeEraseEnd _ r => r.wf
  | .duplicateKey _ key => decide (key.length ≤ 8)
  | .faultyFrame _ rx | .hail _ rx | .update _ rx | .snapshot _ rx | .claim _ rx | .grant _ rx
  | .refuse _ rx | .cue _ rx | .ask _ rx | .newGame _ rx | .rest _ rx | .wake _ rx
  | .loadOpen _ rx | .loadPart _ rx | .seal _ rx => rx.wf
  | .contentionLost _ none => true
  | .contentionLost _ (some line) | .contentionWon _ line => seenOk line
  | .silenceDeadline _ p | .removalDeadline _ p => stationOk p
  | .gateEnd _ counts => countsOk counts
  | .timerExpiry _ t => decide (t ≤ 3)
  | _ => true

/-- The time a command brings: microseconds since the command before. -/
def Instr.elapsed : Instr → Nat
  | .powerUp dt _ | .droop dt _ | .droopClears dt _ | .duplicateKey dt _ | .faultyFrame dt _
  | .hail dt _ | .update dt _ | .snapshot dt _ | .claim dt _ | .grant dt _ | .refuse dt _
  | .cue dt _ | .ask dt _ | .newGame dt _ | .rest dt _ | .wake dt _ | .loadOpen dt _
  | .loadPart dt _ | .seal dt _ | .sealCheck dt | .gap dt | .contentionLost dt _ | .frameSent dt _
  | .silenceDeadline dt _ | .removalDeadline dt _ | .claimDeadline dt _ | .listeningDeadline dt
  | .loadingTimeout dt | .hailDue dt | .gateEnd dt _ | .baseTick dt | .timerExpiry dt _
  | .toneEnd dt | .engineEventTaken dt | .answerEventTaken dt | .storeReadEnd dt
  | .storeProgramEnd dt _ | .storeEraseEnd dt _ | .batchStart dt | .labelBlock dt
  | .compactionStart dt | .snapshotSlot dt | .newGameSlot dt | .eraseObsolete dt
  | .contentionWon dt _ | .powerLoss dt _ => dt

/-- The same command after another time. -/
def Instr.withElapsed (dt : Nat) : Instr → Instr
  | .powerUp _ a => .powerUp dt a
  | .droop _ a => .droop dt a
  | .droopClears _ a => .droopClears dt a
  | .duplicateKey _ a => .duplicateKey dt a
  | .faultyFrame _ a => .faultyFrame dt a
  | .hail _ a => .hail dt a
  | .update _ a => .update dt a
  | .snapshot _ a => .snapshot dt a
  | .claim _ a => .claim dt a
  | .grant _ a => .grant dt a
  | .refuse _ a => .refuse dt a
  | .cue _ a => .cue dt a
  | .ask _ a => .ask dt a
  | .newGame _ a => .newGame dt a
  | .rest _ a => .rest dt a
  | .wake _ a => .wake dt a
  | .loadOpen _ a => .loadOpen dt a
  | .loadPart _ a => .loadPart dt a
  | .seal _ a => .seal dt a
  | .sealCheck _ => .sealCheck dt
  | .gap _ => .gap dt
  | .contentionLost _ a => .contentionLost dt a
  | .frameSent _ a => .frameSent dt a
  | .silenceDeadline _ a => .silenceDeadline dt a
  | .removalDeadline _ a => .removalDeadline dt a
  | .claimDeadline _ a => .claimDeadline dt a
  | .listeningDeadline _ => .listeningDeadline dt
  | .loadingTimeout _ => .loadingTimeout dt
  | .hailDue _ => .hailDue dt
  | .gateEnd _ a => .gateEnd dt a
  | .baseTick _ => .baseTick dt
  | .timerExpiry _ a => .timerExpiry dt a
  | .toneEnd _ => .toneEnd dt
  | .engineEventTaken _ => .engineEventTaken dt
  | .answerEventTaken _ => .answerEventTaken dt
  | .storeReadEnd _ => .storeReadEnd dt
  | .storeProgramEnd _ a => .storeProgramEnd dt a
  | .storeEraseEnd _ a => .storeEraseEnd dt a
  | .batchStart _ => .batchStart dt
  | .labelBlock _ => .labelBlock dt
  | .compactionStart _ => .compactionStart dt
  | .snapshotSlot _ => .snapshotSlot dt
  | .newGameSlot _ => .newGameSlot dt
  | .eraseObsolete _ => .eraseObsolete dt
  | .contentionWon _ a => .contentionWon dt a
  | .powerLoss _ a => .powerLoss dt a

end Sys2Proof
end

