-- ==== Sys2Proof/Certificates/Slice0/Obligations.lean ====
section
/-! DEFINITION. The statements for the provers, with the words they share. -/

namespace Sys2Proof.Machine

/-- In LISTENING, PLAY or REST the part hears the good frame `f`, of a sender that it has no entry for or
that is PRESENT; it is not driving a frame that it has won with (R103). -/
def State.gets (s : State) (rx : Reception) (f : GoodFrame) : Prop :=
  s.powered = true ∧ s.session.inGame = true ∧ s.driving = false ∧ receive rx = .good f ∧
    f.sender ≠ s.tile ∧ ∀ p, s.peer f.sender = some p → p.present = true

/-- The time moved on to the end of a frame, from which the quiet beats of its gap count (R99). -/
def State.hearing (s : State) (dt : Nat) : State :=
  { s with now := s.now + dt, line := .quiet (s.now + dt) }

/-- What a frame of such a sender leaves when nothing more comes of it: the time moved on, the sender's entry
graded and refreshed (R80, R93). -/
def State.heardFrom (s : State) (dt n : Nat) (g : FrameGrade) : State :=
  { s.hearing dt with
    roster := s.roster.map fun p =>
      if p.tile = n then
        { p.takeGrade s.header g with
          present := true
          lastHeard := s.now + dt
          silenceAt := some (s.now + dt + silenceLimit s.session)
          removalAt := none }
      else p }

/-- The entry of the sender, if any, records this tile's serial (R12, R32). -/
def State.sameGame (s : State) (n : Nat) : Prop := ∃ p, s.peer n = some p ∧ p.serial = s.serial

/-- A frame for the loader handling: in UNWRITTEN or LOADING, good, addressed to the tile, which is not driving
a frame that it has won with (R103). -/
def State.getsLoad (s : State) (rx : Reception) (f : GoodFrame) : Prop :=
  s.powered = true ∧ s.session.blankTile = true ∧ s.driving = false ∧ receive rx = .good f ∧
    f.addressee = s.tile

/-- A mark that the journal records: an owned non-sealed one (R163, R164). -/
def MarkEntry.journalled : MarkEntry → Bool
  | .owned o => !o.sealed
  | .replica _ => false

/-- The rows of the table that a frame's reception is. -/
def frameRows (dt : Nat) (rx : Reception) : List Instr :=
  [.faultyFrame dt rx, .hail dt rx, .update dt rx, .snapshot dt rx, .claim dt rx, .grant dt rx,
    .refuse dt rx, .cue dt rx, .ask dt rx, .newGame dt rx, .rest dt rx, .wake dt rx, .loadOpen dt rx,
    .loadPart dt rx, .seal dt rx]

/-- A beat of the other orientation: q becomes 7 − q (R104). -/
def turnBeat (b : Beat) : Beat := b.map fun q => 7 - q

/-- A reception whose bipolar beats come in the other orientation. -/
def turnReception (rx : Reception) : Reception :=
  { rx with sync := rx.sync.map turnBeat, head := rx.head.map turnBeat, body := rx.body.map turnBeat }

/-- A command at which the line is idle: a GAP whose 16 quiet beats have passed, or HAIL_DUE on a line that is
idle already (R99, R117). -/
def State.idleAt (s : State) (dt : Nat) (i : Instr) : Prop :=
  (i = .gap dt ∧ s.session ≠ .starting ∧ ∃ q, s.line = .quiet q ∧ q + 320 ≤ s.now + dt) ∨
    (i = .hailDue dt ∧ s.line = .idle)

/-- What the content of a HAIL is (R196). -/
def hailBody (h : HailContent) (generation : Byte) : List Byte :=
  [h.epoch, BitVec.ofNat 8 h.first, BitVec.ofNat 8 h.size, h.health, h.serial, generation,
    BitVec.ofNat 8 h.poor.length] ++ h.poor.map (BitVec.ofNat 8)

/-- The part hears a HAIL with a content that fits its body (R84); it is not driving a frame that it has won
with (R103). -/
def State.getsHail (s : State) (rx : Reception) (f : GoodFrame) (h : HailContent) : Prop :=
  s.powered = true ∧ s.session.inGame = true ∧ s.driving = false ∧ receive rx = .good f ∧
    f.sender ≠ s.tile ∧ f.kind = .hail ∧ h.first < 256 ∧ h.size < 256 ∧ h.poor.length ≤ 4 ∧ (∀ n ∈ h.poor, n < 256) ∧
    ∃ g, f.body = hailBody h g

/-- The effective window's size (R84). -/
def announcedSize (h : HailContent) : Nat :=
  if 64 < h.size ∨ 256 < h.first + h.size ∨
      (h.health.getLsbD 7 || h.health.getLsbD 6 || h.health.getLsbD 5) = true then 0
  else h.size

/-- A value's two decimal digits, a tens digit of 0 blank under the option (R153). -/
def decimal (v : Nat) (blankZero : Bool) : Glyph × Glyph :=
  (if blankZero = true ∧ v < 10 then .blank else .digit (v / 10), .digit (v % 10))

/-- The HAIL makes the tile withdraw (R17). -/
def State.yieldsTo (s : State) (n : Nat) (h : HailContent) : Prop :=
  (s.session = .listening ∨ s.session = .play) ∧ n < s.tile ∧
    ∃ m, s.winFirst ≤ m ∧ m < s.winFirst + s.winSize ∧ h.first ≤ m ∧ m < h.first + announcedSize h

/-- `t` is `u`, with what the source of the frame `o`, lost or cut in `s`, gets back, if it still holds it (R118): an
UPDATE's mark is announced again, a run restarts where a restart waited, a CLAIM whose entry has ended leaves the
transmit queue; a HAIL and an answer stay as they are. -/
def State.gaveBack (s u t : State) (o : Outstanding) : Prop :=
  (o.live = false ∨ (∀ m, o.source ≠ .slate m) ∧ (∀ n, o.source ≠ .snapshot n) ∧
      (∀ q, o.source ≠ .queue q) → t = u) ∧
  (∀ m, o.source = .slate m → o.live = true → t =
    { u with marks := modifyAt (MarkEntry.onOwned fun x =>
        if x.sealed = true then x else { x with announce := true }) m s.marks }) ∧
  (∀ n, o.source = .snapshot n → o.live = true → t =
    { u with run := if s.run.restart = true then { s.run with next := s.winFirst, restart := false }
                    else s.run }) ∧
  (∀ q, o.source = .queue q → o.live = true → t =
    { u with transmit := match q with
        | .claim tag _ _ _ _ _ =>
          if ∃ e ∈ s.claims, e.tag = tag then s.transmit
          else s.transmit.filter fun x => match x with
            | .claim tag' _ _ _ _ _ => tag' != tag
            | _ => true
        | _ => s.transmit })

/-- What a new game with the serial `g` makes of `u` (R188); its waiting for an operation, its ASKs in LISTENING and
the phase counts it leaves are notes/assumptions/18.md, 32.md and 37.md. -/
def State.startsGame (u t : State) (g : Byte) : Prop :=
  ∃ asks c, asks = (u.roster.filter fun p => p.present && u.watchesIn p).map (fun p => Queued.ask p.tile) ∧
    t = { u with
      serial := g
      epoch := u.epoch + 1
      marks := u.marks.map fun (e : MarkEntry) => match e with
        | .replica _ => .replica ⟨0, 0, 0, .unknown⟩
        | .owned o => .owned
            { o with
              value := if o.sealed = true then o.value else o.initial
              version := if o.sealed = true then o.version else 0
              announce := if o.sealed = true then o.announce else false
              pending := if o.sealed = true then o.pending else some (o.pending.getD u.now)
              cause := if o.sealed = true then o.cause else none
              captured := if u.op = none then false else o.captured }
      answers := []
      claims := []
      inbox := []
      transmit := asks.take 8
      health := { u.health with overrun := u.health.overrun || decide (8 < asks.length) }
      steps := u.steps.map fun (st : Step) =>
        { st with state := if st.state = .quarantined then .quarantined
                    else if st.record.armed = true then .armed else .dormant
                  seen := st.seen.map fun _ => false
                  left := st.record.repeats
                  tag := none }
      pads := u.pads.map fun _ => ⟨.empty, none⟩
      gateStart := u.gateStart.map fun _ => u.now
      timers := u.timers.map fun x => { x with running := false, remaining := 0, base := 0 }
      lights := u.lights.map fun _ => ⟨.off, 0⟩
      tones := []
      toneCount := 0
      digits := ⟨.none, false⟩
      hail := { u.hail with immediate := true }
      outstanding := u.outstanding.map fun o => match o.source with
        | .hail a b c _ => { o with source := .hail a b c true }
        | _ => { o with live := false }
      run := if u.winSize = 0 then { u.run with running := false, restart := false }
        else ⟨true, u.winFirst, false⟩
      writer := { u.writer with
        oldestPending :=
          if u.anyPending = true ∨ u.marks.any MarkEntry.journalled = false then u.writer.oldestPending
          else some u.now
        census := c
        compactionOwed := u.writer.compactionOwed && !(u.op.isNone && u.writer.withdrawWaits)
        newGameOwed := if u.op = none then some (g, u.epoch + 1) else u.writer.newGameOwed
        newGameWaits := if u.op = none then none else some (g, u.epoch + 1)
        withdrawWaits := u.writer.withdrawWaits && u.op.isSome } } ∧
    (u.op ≠ none → c = u.writer.census) ∧
    (u.op = none → u.writer.withdrawWaits = false → c = match u.buildingBlock with
      | some b => modifyAt (fun k => { k with state := .obsolete }) (b - 2) u.writer.census
      | none => u.writer.census)

/-- A HAIL's content taken and its ASK queued in `u`, the new game follows where its serial is newer than the
tile's (R86, R88, R187). -/
def State.thenGame (u t : State) (serial : Byte) : Prop :=
  (ahead serial u.serial = false → t = u) ∧ (ahead serial u.serial = true → u.startsGame t serial)

/-- A frame of a sender whose entry is SILENT, heard in LISTENING, PLAY or REST (R78, R80). -/
def State.getsSilent (s : State) (rx : Reception) (f : GoodFrame) (p : Peer) : Prop :=
  s.powered = true ∧ s.session.inGame = true ∧ s.driving = false ∧ receive rx = .good f ∧
    f.sender ≠ s.tile ∧ s.peer f.sender = some p ∧ p.present = false

/-- Going from `u` to `t` the Roster, routing, marks, arrivals, health, claims and transmit queue may have
changed, and nothing else: what a change of the roster brings with it. -/
def State.rosterFrame (u t : State) : Prop :=
  t = { u with
    roster := t.roster
    routes := t.routes
    marks := t.marks
    inbox := t.inbox
    health := { u.health with overrun := t.health.overrun }
    claims := t.claims
    transmit := t.transmit }

/-- Going from `u` to `t` only what the Journal Writer and the Store Controller hold may have changed, and
the marks; no byte of the store has. -/
def State.writerFrame (u t : State) : Prop :=
  t = { u with
    marks := t.marks
    writer := t.writer
    op := t.op
    store := { u.store with attempted := t.store.attempted } }

/-- How many events of the engine queue a list of arrivals holds. -/
def eventCount (l : List Arrival) : Nat := (l.filter Arrival.isEvent).length

/-- Some events of depth 0 join the engine queue in their order; those that find it full are discarded, and OVERRUN is
set (R62). -/
def State.raising (s : State) (es : List Arrival) : State :=
  { s with
    inbox := s.inbox ++ es.take (32 - eventCount s.inbox)
    health := { s.health with overrun := s.health.overrun || decide (32 - eventCount s.inbox < es.length) } }

/-- The mark-change events of the watched marks among some marks, in their order (R21). -/
def State.markEvents (s : State) (ms : List Nat) : List Arrival :=
  (ms.filter s.isWatched).map fun m => .event (.mark m) 0

/-- The marks whose replica has another state in `t`, in increasing order (R14, R21). -/
def State.restated (s t : State) : List Nat :=
  (List.range 256).filter fun m => match s.mark m, t.mark m with
    | .replica r, .replica r' => r.state != r'.state
    | _, _ => false

/-- The Claim List without the entries that `lost` picks: each ends NO_ANSWER, in order of issue, and the CLAIM of a
QUEUED one leaves the transmit queue unless its frame is outstanding (R46, R47). -/
def State.withoutClaims (s : State) (lost : ClaimEntry → Bool) : State :=
  { s with
    claims := s.claims.filter fun c => !lost c
    inbox := s.inbox ++ (s.claims.filter lost).map fun c => .answer c.step c.tag .noAnswer
    transmit := s.transmit.filter fun q =>
      !s.claims.any fun c => lost c && q.isClaim c.tag && c.phase == .queued && !s.claimOutstanding c.tag }

/-- What follows marks that have changed from those of `s` to those of `v`: their events, and then the ends of the
claim entries that `lost` picks (R21, R46, R88), which find themselves by their tags, these being distinct (R38). -/
def State.followed (s v u : State) (lost : ClaimEntry → Bool) : Prop :=
  (∃ as c q, (∀ a ∈ as, Arrival.isEvent a = false) ∧ u =
    { v.raising (s.markEvents (s.restated v)) with
      inbox := (v.raising (s.markEvents (s.restated v))).inbox ++ as, claims := c, transmit := q }) ∧
  (∀ q ∈ u.transmit, q ∈ s.transmit) ∧
  (s.tagsOk → u = (v.raising (s.markEvents (s.restated v))).withoutClaims lost)

/-- The state of a replica whose mark's route changes from `a` to `b`, `created` being the entry that the change
created, if it created one (R14). -/
def routedState (a b : Route) (created : Option Nat) (x : ReplicaState) : ReplicaState :=
  if a = b then x
  else if created.map Route.peer = some b then .unknown
  else match a with
    | .peer _ => if x = .unknown then .unknown else .stale
    | _ => x

/-- Routing recomputed after a change of the Roster or the window that stands in `s` (R14, R15, R88): the routes are
R15's, each replica of a mark whose route changed has its state by R14, the events of the watched ones follow in
increasing mark order, and then every claim entry whose mark no longer routes to its owner ends. -/
def State.routed (s u : State) (created : Option Nat) : Prop :=
  ∃ v : State, v = { s with routes := v.routes, marks := v.marks } ∧ v.routesOk ∧ v.marks.length = s.marks.length ∧
    (∀ m < 256, v.mark m = match s.mark m with
      | .replica r => .replica { r with state := routedState (s.route m) (v.route m) created r.state }
      | e => e) ∧
    s.followed v u fun c => decide (v.route c.mark ≠ .peer c.owner)

/-- The consequences of a new epoch of the peer `n` (R14, R46, R85, R88): every replica routed to it is UNKNOWN, with
the events of the watched ones, and every claim entry of that owner ends. -/
def State.reportsEpoch (s u : State) (n : Nat) : Prop :=
  ∃ v : State, v = { s with marks := v.marks } ∧ v.marks.length = s.marks.length ∧
    (∀ m, v.mark m = match s.mark m with
      | .replica r => .replica { r with state := if s.route m = .peer n then .unknown else r.state }
      | e => e) ∧
    s.followed v u fun c => c.owner == n

/-- The ASK to a peer whose entry a HAIL created or gave a new epoch, in PLAY and REST where its window holds a watched
mark: offered to the transmit queue unless one to it is there, and lost with OVERRUN at a full one (R91, R119). -/
def State.asks (u z : State) (n : Nat) (h : HailContent) : Prop :=
  ((u.session.onBoard = true ∧ ∃ m < 256, u.isWatched m = true ∧ h.first ≤ m ∧ m < h.first + announcedSize h) →
    .ask n ∉ u.transmit →
    (u.transmit.length < 8 → z = { u with transmit := u.transmit ++ [.ask n] }) ∧
    (8 ≤ u.transmit.length → z = { u with health := { u.health with overrun := true } })) ∧
  (.ask n ∈ u.transmit ∨ u.session.onBoard = false ∨
      (∀ m < 256, u.isWatched m = true → m < h.first ∨ h.first + announcedSize h ≤ m) → z = u)

/-- A GRANT of a claim for a mark of the window is outstanding, and its source still holds it (R18, R118). -/
def State.grantIsOut (s : State) : Bool :=
  match s.outstanding with
  | some o => match o.source with
    | .answer a => a.isClaimGrant && s.inWindow a.mark && o.live
    | _ => false
  | none => false

/-- The withdrawal, routing apart (R17, R18, R24, R89, R167): the window's entries are blank replicas, the run is idle,
the GRANTs of claims for the window's marks leave the answer queue and one outstanding stops at once, an UPDATE or
SNAPSHOT outstanding is severed from its source, WITHDRAWN is set, every watched mark of the window raises its event,
and the writer, its operation in progress ended, abandons a BUILDING block and an owed compaction. -/
def State.withdraws (s w : State) : Prop :=
  ∃ x : Writer,
    w = { ({ s with health := { s.health with withdrawn := true } }).raising
          (s.markEvents (List.range' s.winFirst s.winSize)) with
      marks := s.marks.map fun e => match e with
        | .owned _ => .replica ⟨0, 0, 0, .unknown⟩
        | .replica r => .replica r
      answers := s.answers.filter fun a => !(a.isClaimGrant && s.inWindow a.mark)
      winSize := 0
      run := { s.run with running := false, restart := false }
      outstanding := if s.grantIsOut = true then none
        else s.outstanding.map fun o => match o.source with
          | .slate _ | .snapshot _ => { o with live := false }
          | _ => o
      lineOut := if s.grantIsOut = true then [] else s.lineOut
      line := if s.grantIsOut = true then .quiet s.now else s.line
      writer := x } ∧
    (s.writer.newGameWaits = none → x = { s.writer with
      oldestPending := none
      withdrawWaits := s.op.isSome
      compactionOwed := s.writer.compactionOwed && s.op.isSome
      census := if s.op = none then match s.buildingBlock with
          | some b => modifyAt (fun k => { k with state := .obsolete }) (b - 2) s.writer.census
          | none => s.writer.census
        else s.writer.census })

/-- The entry that a HAIL creates (R79, R84 to R87, R93). -/
def State.firstEntry (s : State) (dt : Nat) (f : GoodFrame) (h : HailContent) : Peer :=
  { tile := f.sender, present := true, epoch := h.epoch, first := h.first, size := announcedSize h,
    serial := h.serial, listsMePoor := decide (s.tile ∈ h.poor), lastHeard := s.now + dt,
    silenceAt := some (s.now + dt + if s.session = .rest then 60000000 else 7500000), removalAt := none,
    counted := 1, corrected := f.corrected, faults := 0, grade := .good }

/-- The entry `q` after a HAIL of its peer: graded, PRESENT, its content the HAIL's (R80, R84 to R87, R93). -/
def State.storedEntry (s : State) (dt : Nat) (f : GoodFrame) (h : HailContent) (q : Peer) : Peer :=
  { q.takeGrade s.header (.good f.corrected) with
    present := true
    epoch := h.epoch
    first := h.first
    size := announcedSize h
    serial := h.serial
    listsMePoor := decide (s.tile ∈ h.poor)
    lastHeard := s.now + dt
    silenceAt := some (s.now + dt + if s.session = .rest then 60000000 else 7500000)
    removalAt := none }

/-- The Roster has room for one more entry: a place, or that of the SILENT entry `gone` heard last the longest ago, the
lower number of two (R79). -/
def State.givesPlace (s : State) (gone : Option Nat) : Prop :=
  (s.roster.length < 48 ∧ gone = none) ∨
  (48 ≤ s.roster.length ∧ ∃ p ∈ s.roster, p.present = false ∧ gone = some p.tile ∧
    ∀ q ∈ s.roster, q.present = false → p.lastHeard < q.lastHeard ∨
      (p.lastHeard = q.lastHeard ∧ p.tile ≤ q.tile))

/-- The Roster once the HAIL of an unknown sender has created its entry, in the place of `gone` if there is one
(R79). -/
def State.entered (s v : State) (dt : Nat) (f : GoodFrame) (h : HailContent) (gone : Option Nat) : Prop :=
  v = { s.hearing dt with roster := v.roster } ∧ v.rosterOk ∧
    v.peer f.sender = some (s.firstEntry dt f h) ∧
    (∀ n, n ≠ f.sender → gone ≠ some n → v.peer n = s.peer n) ∧
    (∀ n, n ≠ f.sender → gone = some n → v.peer n = none)

/-- The Roster once the HAIL of a known peer is stored (R80, R84 to R87). -/
def State.storing (s : State) (dt : Nat) (f : GoodFrame) (h : HailContent) : State :=
  { s.hearing dt with
    roster := s.roster.map fun q => if q.tile = f.sender then s.storedEntry dt f h q else q }

/-- What a frame of a SILENT sender does before it is taken (R32, R80, R88, R93): its entry is graded, refreshed and
PRESENT, routing is R15's, and what the routing brings with it follows. -/
def State.wakesPeer (s u : State) (dt : Nat) (f : GoodFrame) (p : Peer) : Prop :=
  u.peer f.sender = some
    { p.takeGrade s.header (.good f.corrected) with
      present := true
      lastHeard := s.now + dt
      silenceAt := some (s.now + dt + if s.session = .rest then 60000000 else 7500000)
      removalAt := none } ∧
  (∀ n, n ≠ f.sender → u.peer n = s.peer n) ∧ u.routesOk ∧ (∀ q ∈ u.transmit, q ∈ s.transmit) ∧
  (s.heardFrom dt f.sender (.good f.corrected)).routed u none ∧ (s.hearing dt).rosterFrame u

/-- What the Roster makes of a good frame before the block that owns its kind takes it (R32, R78, R80): of a sender with
no entry or a PRESENT one the entry graded and refreshed, of a SILENT one PRESENT again, with its routing. -/
def State.shows (s u : State) (dt : Nat) (rx : Reception) (f : GoodFrame) : Prop :=
  (s.gets rx f ∧ u = s.heardFrom dt f.sender (.good f.corrected)) ∨
    ∃ p, s.getsSilent rx f p ∧ s.wakesPeer u dt f p

/-- An item of an UPDATE or SNAPSHOT passes the tests of R12, its value a number 0 to 99 and its mark one of the 256
(R12, R13). -/
def State.passesItem (u : State) (sender : Nat) (epoch : Byte) (m v : Nat) (ver : Byte) : Bool :=
  decide (m ≤ 255) && decide (v ≤ 99) && decide (u.route m = .peer sender) &&
    (u.peer sender).any (fun p => p.serial == u.serial) &&
    match u.mark m with
    | .owned _ => false
    | .replica r => decide (r.state ≠ .fresh ∨ r.epoch ≠ epoch ∨
        (1 ≤ (ver - r.version).toNat ∧ (ver - r.version).toNat ≤ 127))

/-- The item changes the value or the state of its mark's replica (R13). -/
def State.changesBy (u : State) (m v : Nat) : Bool :=
  match u.mark m with
  | .owned _ => false
  | .replica r => decide (r.value ≠ v ∨ r.state ≠ .fresh)

/-- The items of a SNAPSHOT's body judged one by one (R12, R13, R21): those that pass are stored FRESH, with the events
of the watched marks they change in the order of the items; the others change nothing. -/
def State.takesItems (u t : State) (sender : Nat) (b : List Byte) : Prop :=
  t = { u.raising (u.markEvents (((List.range (numAt b 2)).filter fun i =>
          u.passesItem sender (byteAt b 0) (numAt b 1 + i) (numAt b (3 + 2 * i)) (byteAt b (4 + 2 * i)) &&
            u.changesBy (numAt b 1 + i) (numAt b (3 + 2 * i))).map (numAt b 1 + ·))) with
      marks := t.marks } ∧
    t.marks.length = u.marks.length ∧
    ∀ m, t.mark m =
      if numAt b 1 ≤ m ∧ m < numAt b 1 + numAt b 2 ∧ u.passesItem sender (byteAt b 0) m
          (numAt b (3 + 2 * (m - numAt b 1))) (byteAt b (4 + 2 * (m - numAt b 1))) = true then
        .replica ⟨numAt b (3 + 2 * (m - numAt b 1)), byteAt b (4 + 2 * (m - numAt b 1)), byteAt b 0, .fresh⟩
      else u.mark m

/-- REST entry (R83, R115, R132, R142, R146, R151, R189). -/
def State.rested (u : State) : State :=
  { u with
    session := .rest
    roster := u.roster.map fun p =>
      { p with silenceAt := if p.present = true then some (p.lastHeard + 60000000) else none
               removalAt := none }
    tones := []
    toneCount := 0
    pads := u.pads.map fun p => { p with held := none }
    timers := u.timers.map fun t =>
      if t.running = true ∧ t.remaining = 0 then
        { t with remaining := 1, base := t.tick.baseTicks - 1 }
      else t
    sessionPhase := 0
    hail := { u.hail with due := some (u.hail.lastEnd.getD u.now + 8 * (2000000 + 8000 * u.tile)) } }

/-- Every law the manual says the part keeps, as Safety.lean has them, but for the store's form. -/
def State.lawful (s : State) : Prop := s.queuesOk ∧ s.tagsOk ∧ s.rosterOk ∧ s.marksOk ∧ s.routesOk

/-- The events of a gate that a pad hands on (R130, R131). -/
def State.gateEvents (s : State) (counts : List Nat) : List Arrival :=
  (List.range s.header.padCount).flatMap fun i =>
    ((padStep s.header.debounce (s.pad i).state (readingOf s.header (counts.getD i 0))).2.filter
      (s.padSetting i).enables).map fun k => .event (.pad i k) 0

/-- A pad's record after a gate, its held event apart (R126 to R129). -/
def State.gatePad (s : State) (counts : List Nat) (i : Nat) : Pad :=
  if i < s.header.padCount then
    { s.pad i with
      state := (padStep s.header.debounce (s.pad i).state
        (readingOf s.header (counts.getD i 0))).1 }
  else s.pad i

/-- The event a pad holds after a gate in REST: the last of its enabled events where its wake is enabled, or
else the one it held (R134). -/
def State.gateHeld (s : State) (counts : List Nat) (i : Nat) : Option PadEventKind :=
  if i < s.header.padCount ∧ (s.padSetting i).wake = true then
    match ((padStep s.header.debounce (s.pad i).state (readingOf s.header (counts.getD i 0))).2.filter
      (s.padSetting i).enables).getLast? with
    | some k => some k
    | none => (s.pad i).held
  else (s.pad i).held

/-- A gate in REST sets no pad's held event (R134). -/
def State.gateHoldsNone (s : State) (counts : List Nat) : Prop :=
  ∀ i < s.header.padCount, (s.padSetting i).wake = true →
    ∀ k ∈ (padStep s.header.debounce (s.pad i).state (readingOf s.header (counts.getD i 0))).2,
      (s.padSetting i).enables k = false

/-- The held events in pad order (R135). -/
def State.heldEvents (s : State) : List Arrival :=
  (List.range 6).filterMap fun i => (s.pad i).held.map fun k => .event (.pad i k) 0

/-! ## What a step's effects do -/

/-- A step's seen flags, all clear. -/
def Step.clearFlags (x : Step) : List Bool := x.record.conditions.map fun _ => false

/-- The step as ARM makes it ARMED: flags clear, the firings of a SPENT one restored (R70). -/
def Step.rearmed (x : Step) : Step :=
  { x with state := .armed, seen := x.clearFlags,
           left := if x.state = .spent then x.record.repeats else x.left }

/-- The step after a DISARM that names it while it is not firing (R71). -/
def Step.disarmed (x : Step) : Step :=
  match x.state with
  | .armed => { x with state := .dormant, seen := x.clearFlags }
  | .pending => { x with state := .withdrawn }
  | _ => x

/-- An effect that neither claims nor arms nor disarms. -/
def Effect.isPlain : Effect → Bool
  | .claim _ _ _ _ | .arm _ | .disarm _ | .disarmQuest _ => false
  | _ => true

/-- The event that a RECHECK of a pad in a state emits where it is enabled (R133). -/
def PadState.recheckEvent : PadState → Option PadEventKind
  | .occupied (some c) _ => some (.placed c)
  | .occupied none _ => some .misread
  | _ => none

/-- What a plain effect does, in a firing at a depth (R60, R61, R133, R139, R141, R144, R150 to R152). -/
def State.afterEffect (u : State) (depth : Nat) : Effect → State
  | .cue c =>
    { u with
      transmit := if u.transmit.length < 8 then u.transmit ++ [.cue c] else u.transmit
      health := { u.health with overrun := u.health.overrun || decide (8 ≤ u.transmit.length) }
      inbox := u.inbox ++ [.event (.cue c) (depth + 1)] }
  | .timerStart i preset tick repeats =>
    { u with timers := modifyAt (fun _ => ⟨true, preset, tick, repeats, preset, 0⟩) i u.timers }
  | .timerStop i =>
    { u with timers := modifyAt (fun x =>
        if x.running = true then { x with running := false, remaining := 0, base := 0 } else x) i u.timers }
  | .light ch p => { u with lights := modifyAt (fun _ => ⟨p, 0⟩) ch u.lights }
  | .tone x cut =>
    if u.session = .rest then u
    else if cut = true ∨ u.tones = [] then { u with tones := [x], toneCount := 0, toneStart := u.now }
    else if u.tones.length < 4 then { u with tones := u.tones ++ [x] }
    else { u with health := { u.health with overrun := true } }
  | .digits d => { u with digits := d }
  | .recheck i =>
    match (u.pad i).state.recheckEvent with
    | some k =>
      if (u.padSetting i).enables k then { u with inbox := u.inbox ++ [.event (.pad i k) 0] } else u
    | none => u
  | _ => u

/-- A step's firing ends with the step so, and STEP_DONE one deeper (R67). -/
def State.stepDone (u : State) (n : Nat) (x : Step) (depth : Nat) : State :=
  { u with steps := modifyAt (fun _ => x) n u.steps
           inbox := u.inbox ++ [.event (.stepDone n) (depth + 1)] }

/-- The engine is to take an event that fires one step: the step `n` is ARMED with one condition, an edge that
the event matches, and a repeat field of 0, and no condition of another step names the event's subject. -/
def State.firesOn (s : State) (e : Happening) (depth n : Nat) (st : Step) (rest : List Arrival) : Prop :=
  s.powered = true ∧ s.session.inGame = true ∧ s.inbox = .event e depth :: rest ∧
    (s.session ≠ .rest ∨ e.isPad = false) ∧ n < 64 ∧ s.steps[n]? = some st ∧ st.state = .armed ∧
    (∃ c, st.record.conditions = [c] ∧ c.isEdge = true ∧ c.concerns e = true ∧
      c.matchesEvent e = true) ∧
    st.seen = [false] ∧ st.record.repeats = 0 ∧
    ∀ k x, k ≠ n → s.steps[k]? = some x → ∀ c ∈ x.record.conditions, c.concerns e = false

/-- How many answer events a list of arrivals holds. -/
def answerCount (l : List Arrival) : Nat := (l.filter fun a => !a.isEvent).length

/-- A firing applies plain effects in list order, then raises STEP_DONE one deeper and leaves the step ARMED
(R59, R67); where that event would be deeper than 8, LOOP is set in its place (R62). -/
def PlainEffectsAreApplied : Prop :=
  ∀ (dt : Nat) (s u : State) (e : Happening) (depth n : Nat) (st : Step) (rest : List Arrival),
    s.firesOn e depth n st rest → (∀ x ∈ st.record.effects, x.isPlain = true) →
    eventCount rest + st.record.effects.length < 32 →
    u = st.record.effects.foldl (fun u x => u.afterEffect depth x) { s.advance dt with inbox := rest } →
    (depth < 8 → exec (.engineEventTaken dt) s = .next (u.stepDone n { st with tag := none } depth).onLine) ∧
    (depth = 8 → (∀ c, Effect.cue c ∉ st.record.effects) →
      exec (.engineEventTaken dt) s = .next (State.onLine
        { u with
          steps := modifyAt (fun _ => { st with tag := none }) n s.steps
          health := { u.health with loop := true } }))

/-- ARM, DISARM and DISARM_QUEST as the one effect of a firing (R69 to R71). That the seen flags of a step left DORMANT
by a DISARM or DISARM_QUEST of its own are clear is the model's choice (notes/assumptions/31.md). -/
def ArmAndDisarmAct : Prop :=
  ∀ (dt : Nat) (s u : State) (e : Happening) (depth n : Nat) (st : Step) (rest : List Arrival),
    s.firesOn e depth n st rest → depth < 8 → eventCount rest < 31 →
    u = { s.advance dt with inbox := rest } →
    (∀ m x, st.record.effects = [.disarm m] → m ≠ n → s.steps[m]? = some x →
      exec (.engineEventTaken dt) s = .next
        (({ u with steps := modifyAt (fun _ => x.disarmed) m s.steps }).stepDone n { st with tag := none }
          depth).onLine) ∧
    (st.record.effects = [.disarm n] →
      exec (.engineEventTaken dt) s = .next
        (u.stepDone n { st with state := .dormant, tag := none } depth).onLine) ∧
    (∀ q, st.record.effects = [.disarmQuest q] → s.steps.length ≤ 64 →
      exec (.engineEventTaken dt) s = .next
        (({ u with steps := mapFrom (fun k (x : Step) =>
              if k ≠ n ∧ x.record.quest = q then x.disarmed else x) 0 s.steps }).stepDone n
          { st with state := if st.record.quest = q then .dormant else .armed, tag := none } depth).onLine) ∧
    (st.record.effects = [.arm n] →
      exec (.engineEventTaken dt) s = .next (u.stepDone n { st with tag := none } depth).onLine) ∧
    (∀ m x, st.record.effects = [.arm m] → m ≠ n → s.steps[m]? = some x →
      (x.state = .armed ∨ x.state = .pending ∨ x.state = .quarantined →
        exec (.engineEventTaken dt) s = .next (u.stepDone n { st with tag := none } depth).onLine) ∧
      (x.state = .withdrawn →
        exec (.engineEventTaken dt) s = .next
          (({ u with steps := modifyAt (fun _ => { x with state := .pending }) m s.steps }).stepDone n
            { st with tag := none } depth).onLine) ∧
      (x.state = .dormant ∨ x.state = .spent →
        (s.trigger none x.rearmed = false →
          exec (.engineEventTaken dt) s = .next
            (({ u with steps := modifyAt (fun _ => x.rearmed) m s.steps }).stepDone n
              { st with tag := none } depth).onLine) ∧
        (∀ d, s.trigger none x.rearmed = true → x.record.effects = [.digits d] → x.record.repeats = 0 →
          exec (.engineEventTaken dt) s = .next
            ((({ u with digits := d }).stepDone m { x.rearmed with tag := none } depth).stepDone n
              { st with tag := none } depth).onLine)))

/-- A firing whose first effect is a claim (R37 to R40, R68). UNROUTED, NO_ROOM and a local refusal take the
on-refusal path: REARM, DROP, or FALLBACK to another step that is DORMANT. A remote claim is issued with the next
tag, its CLAIM queued and its entry made, and the step is PENDING. A local claim that is granted is the Mark Unit's
grant without a cause, and the firing completes. That the seen flags of a step left DORMANT by DROP or FALLBACK are
clear is the model's choice (notes/assumptions/31.md). -/
def ClaimsAreIssued : Prop :=
  ∀ (dt : Nat) (s u : State) (e : Happening) (depth n m : Nat) (op : ClaimOp) (a b : Byte) (st : Step)
      (es : List Effect) (rest : List Arrival),
    s.firesOn e depth n st rest → st.record.effects = .claim op m a b :: es → depth < 8 →
    eventCount rest < 31 → u = { s.advance dt with inbox := rest } →
    (∀ v : State,
      (s.route m = .none ∧ v = u) ∨
      (s.route m ≠ .none ∧ 4 ≤ s.claims.length + answerCount rest ∧ v = u) ∨
      ((∃ p, s.route m = .peer p) ∧ s.claims.length + answerCount rest < 4 ∧ 8 ≤ s.transmit.length ∧
        v = u) ∨
      (s.route m = .self ∧ s.claims.length + answerCount rest < 4 ∧
        (∃ r, s.decideClaim m (some op) a.toNat b.toNat = .error r) ∧
        v = { u with tagCounter := s.nextTag + 1 }) →
      (st.record.onRefusal = .rearm → exec (.engineEventTaken dt) s = .next (State.onLine
        { v with steps := modifyAt (fun _ => { st with tag := none }) n s.steps })) ∧
      (st.record.onRefusal = .drop → exec (.engineEventTaken dt) s = .next (State.onLine
        { v with steps := modifyAt (fun _ => { st with state := .dormant, tag := none }) n s.steps })) ∧
      (∀ f x, st.record.onRefusal = .fallback f → f ≠ n → s.steps[f]? = some x → x.state = .dormant →
        s.trigger none x.rearmed = false →
        exec (.engineEventTaken dt) s = .next (State.onLine
          { v with steps := modifyAt (fun _ => x.rearmed) f (modifyAt (fun _ =>
              { st with state := .dormant, tag := none }) n s.steps) }))) ∧
    (∀ p, s.route m = .peer p → s.claims.length + answerCount rest < 4 → s.transmit.length < 8 →
      exec (.engineEventTaken dt) s = .next (State.onLine
        { u with
          tagCounter := s.nextTag + 1
          transmit := s.transmit ++ [.claim s.nextTag m op a b p]
          claims := s.claims ++ [⟨s.nextTag, n, m, op, a, b, p, .queued⟩]
          steps := modifyAt (fun _ => { st with state := .pending, seen := [true], tag := some s.nextTag })
            n s.steps })) ∧
    (∀ o v, s.route m = .self → s.claims.length + answerCount rest < 4 → es = [] →
      s.decideClaim m (some op) a.toNat b.toNat = .ok (o, v) →
      exec (.engineEventTaken dt) s = .next (State.onLine (State.stepDone
        { u with
          tagCounter := s.nextTag + 1
          marks := modifyAt (fun _ => MarkEntry.owned
            { o with value := v, version := o.version + 1, announce := true,
                     pending := some (o.pending.getD (s.now + dt)), cause := none, captured := false }) m s.marks
          writer := { s.writer with
            oldestPending := if s.anyPending = true then s.writer.oldestPending else some (s.now + dt) }
          inbox := if s.isWatched m = true ∧ v ≠ o.value then rest ++ [.event (.mark m) (depth + 1)] else rest }
        n { st with tag := none } depth)))

/-- What the parts of a step's trigger are (R55, R56, R58, R66). An edge condition matches an event of its kind and
subject, a PAD_EVENT one of its class too; PAD_HOLDS is true of a pad that holds a piece of its class. Under ALL every
edge condition has its flag set and every level condition is true; under ANY the event being handled, if there is
one, matches an edge condition, or a level condition is true. -/
def TriggersAreTested : Prop :=
  (∀ (p x : Nat) (cls : Option Nat) (e : Happening),
    ((Condition.padEvent p .placed cls).matchesEvent e = true ↔
      ∃ c, e = .pad p (.placed c) ∧ (cls = none ∨ cls = some c)) ∧
    ((Condition.padEvent p .lifted cls).matchesEvent e = true ↔
      ∃ held, e = .pad p (.lifted held) ∧ (cls = none ∨ cls = held)) ∧
    ((Condition.padEvent p .misread cls).matchesEvent e = true ↔ e = .pad p .misread) ∧
    ((Condition.timerExpired x).matchesEvent e = true ↔ e = .timer x) ∧
    ((Condition.cueHeard x).matchesEvent e = true ↔ e = .cue x) ∧
    ((Condition.stepDone x).matchesEvent e = true ↔ e = .stepDone x)) ∧
  (∀ (s : State) (p : Nat) (cls : Option Nat), s.levelHolds (.padHolds p cls) = true ↔
    ∃ held, ((∃ cand, (s.pad p).state = .occupied held cand) ∨ ∃ run, (s.pad p).state = .leaving held run) ∧
      (cls = none ∨ cls = held)) ∧
  (∀ c : Condition, c.isEdge = false ↔ (∃ p cls, c = .padHolds p cls) ∨ ∃ m cmp v, c = .markTest m cmp v) ∧
  (∀ (s : State) (e : Option Happening) (st : Step),
    (st.record.matchAll = true → st.seen.length = st.record.conditions.length →
      (s.trigger e st = true ↔ ∀ (k : Nat) (c : Condition), st.record.conditions[k]? = some c →
        if c.isEdge = true then st.seen[k]? = some true else s.levelHolds c = true)) ∧
    (st.record.matchAll = false →
      (s.trigger e st = true ↔ ∃ c ∈ st.record.conditions,
        if c.isEdge = true then ∃ x, e = some x ∧ c.matchesEvent x = true else s.levelHolds c = true)))

/-- The step visited for an event (R65): the flag of every edge condition that matches is set, and those set by
earlier events stay. -/
def Step.sees (x : Step) (e : Happening) : Step :=
  { x with seen := List.zipWith (fun c f => f || (c.isEdge && c.matchesEvent e)) x.record.conditions x.seen }

/-- The engine is to take an event that no ARMED step but those numbered `ns` is concerned by. -/
def State.takes (s : State) (e : Happening) (depth : Nat) (ns : List Nat) (rest : List Arrival) : Prop :=
  s.powered = true ∧ s.session.inGame = true ∧ s.inbox = .event e depth :: rest ∧
    (s.session ≠ .rest ∨ e.isPad = false) ∧
    ∀ k x, k ∉ ns → s.steps[k]? = some x → ∀ c ∈ x.record.conditions, c.concerns e = false

/-- A step concerned by the event and ARMED, at its number. -/
def State.concerned (s : State) (e : Happening) (n : Nat) (st : Step) : Prop :=
  n < 64 ∧ s.steps[n]? = some st ∧ st.state = .armed ∧ ∃ c ∈ st.record.conditions, c.concerns e = true

/-- A visited step, whatever its conditions (R65 to R67): where its trigger does not hold it keeps its flags and
waits; where it holds it fires, and, its effects applied, is ARMED with its flags clear and the firings left one fewer
where they are counted, or SPENT with none left. -/
def VisitedStepsAreTested : Prop :=
  ∀ (dt : Nat) (s u : State) (e : Happening) (depth n : Nat) (st : Step) (rest : List Arrival),
    s.takes e depth [n] rest → s.concerned e n st → u = { s.advance dt with inbox := rest } →
    (s.trigger (some e) (st.sees e) = false →
      exec (.engineEventTaken dt) s = .next (State.onLine
        { u with steps := modifyAt (fun _ => st.sees e) n s.steps })) ∧
    (s.trigger (some e) (st.sees e) = true → (∀ x ∈ st.record.effects, x.isPlain = true) →
      eventCount rest + st.record.effects.length < 32 → depth < 8 →
      ∀ v, v = st.record.effects.foldl (fun u x => u.afterEffect depth x) u →
        (st.record.repeats = 0 → exec (.engineEventTaken dt) s = .next
          (v.stepDone n { st with tag := none, seen := st.clearFlags } depth).onLine) ∧
        (st.record.repeats ≠ 0 → 2 ≤ st.left → exec (.engineEventTaken dt) s = .next
          (v.stepDone n { st with tag := none, seen := st.clearFlags, left := st.left - 1 } depth).onLine) ∧
        (st.record.repeats ≠ 0 → st.left = 1 → ∃ fl, exec (.engineEventTaken dt) s = .next
          (v.stepDone n { st with state := .spent, tag := none, seen := fl, left := 0 } depth).onLine))

/-- Two steps that one event concerns are visited in the order of their numbers, each seeing what the one before
has done (R65, R69 to R71): both fire; the second is not visited that the first has disarmed; the second is visited
that the first has armed. -/
def TwoStepsAreVisited : Prop :=
  ∀ (dt : Nat) (s u v : State) (e : Happening) (depth n m : Nat) (st x : Step) (rest : List Arrival),
    s.takes e depth [n, m] rest → s.concerned e n st → n < m → m < 64 → s.steps[m]? = some x →
    (∃ c ∈ x.record.conditions, c.concerns e = true) →
    s.trigger (some e) (st.sees e) = true → st.record.repeats = 0 → x.record.repeats = 0 → depth < 8 →
    eventCount rest + st.record.effects.length + 1 + x.record.effects.length < 32 →
    u = { s.advance dt with inbox := rest } →
    ((∀ y ∈ st.record.effects, y.isPlain = true) → x.state = .armed →
      v = (st.record.effects.foldl (fun u y => u.afterEffect depth y) u).stepDone n
        { st with tag := none, seen := st.clearFlags } depth →
      (v.trigger (some e) (x.sees e) = false → exec (.engineEventTaken dt) s = .next
        (State.onLine { v with steps := modifyAt (fun _ => x.sees e) m v.steps })) ∧
      (v.trigger (some e) (x.sees e) = true → (∀ y ∈ x.record.effects, y.isPlain = true) →
        exec (.engineEventTaken dt) s = .next
          ((x.record.effects.foldl (fun u y => u.afterEffect depth y) v).stepDone m
            { x with tag := none, seen := x.clearFlags } depth).onLine)) ∧
    (st.record.effects = [.disarm m] → x.state = .armed →
      exec (.engineEventTaken dt) s = .next
        (({ u with steps := modifyAt (fun _ => x.disarmed) m s.steps }).stepDone n
          { st with tag := none, seen := st.clearFlags } depth).onLine) ∧
    (st.record.effects = [.arm m] → x.state = .dormant → s.trigger none x.rearmed = false →
      v = ({ u with steps := modifyAt (fun _ => x.rearmed) m s.steps }).stepDone n
        { st with tag := none, seen := st.clearFlags } depth →
      (v.trigger (some e) (x.rearmed.sees e) = false → exec (.engineEventTaken dt) s = .next
        (State.onLine { v with steps := modifyAt (fun _ => x.rearmed.sees e) m v.steps })) ∧
      (v.trigger (some e) (x.rearmed.sees e) = true → (∀ y ∈ x.record.effects, y.isPlain = true) →
        exec (.engineEventTaken dt) s = .next
          ((x.record.effects.foldl (fun u y => u.afterEffect depth y) v).stepDone m
            { x.rearmed with tag := none } depth).onLine))

/-- The tag of an issued claim is held by no entry of the list, and is the counter's value when that is free
(R39). -/
def TagsAreFresh : Prop :=
  ∀ s : State, s.claims.length ≤ 4 →
    (∀ c ∈ s.claims, c.tag ≠ s.nextTag) ∧
    ((∀ c ∈ s.claims, c.tag ≠ s.tagCounter) → s.nextTag = s.tagCounter)

/-! ## What the ends of store operations bring -/

/-- The verify passes find the contents as intended at once (R156). -/
def passesAt (r : OpResult) : Prop := ∃ vs, r.verifies = true :: vs

/-- The verify passes still allowed, `n` of them, all find the contents not as intended (R156). -/
def failsAll (r : OpResult) (n : Nat) : Prop := ∃ vs, r.verifies = List.replicate n false ++ vs

/-- An operation of the Journal Writer's is in progress, and nothing waits for its end. -/
def State.writerWorks (s : State) (o : Operation) : Prop :=
  s.powered = true ∧ s.session.inGame = true ∧ s.waiting = none ∧ s.droop = false ∧
    s.writer.newGameWaits = none ∧ s.writer.withdrawWaits = false ∧ s.op = some o

/-- The census with a block in a state (R161). -/
def censusWith (b : Nat) (x : BlockState) (c : List Block) : List Block :=
  modifyAt (fun k => { k with state := x }) (b - 2) c

/-- How many blocks of a census are in a state. -/
def inState (x : BlockState) (c : List Block) : Nat := c.countP fun k => k.state == x

/-- An owned entry's captured flag set or cleared (R163). -/
def MarkEntry.capture (x : Bool) : MarkEntry → MarkEntry :=
  MarkEntry.onOwned fun o => { o with captured := x }

/-- An entry whose journal-pending flag the journal minds: owned, not sealed, and set (R163). -/
def MarkEntry.awaits : MarkEntry → Bool
  | .owned o => o.pending.isSome && !o.sealed
  | .replica _ => false

/-- STORE_WORN after the test made at a retirement (R170). -/
def wornBy (c : List Block) (old : Bool) : Bool := old || decide (14 - inState .retired c < 3)

/-- Every byte outside a slot reads as before. -/
def sameOutsideSlot (st st' : Store) (b slot : Nat) : Prop :=
  ∀ a, a < 2048 * b + 32 * slot ∨ 2048 * b + 32 * slot + 32 ≤ a →
    readByte st'.cells a = readByte st.cells a

/-- Every byte outside a block reads as before. -/
def sameOutsideBlock (st st' : Store) (b : Nat) : Prop :=
  ∀ a, a < 2048 * b ∨ 2048 * (b + 1) ≤ a → readByte st'.cells a = readByte st.cells a

/-- What the writer does when a slot of its own passes (R162, R164, R166 to R168, R171); that the oldest pending time
after SNAP_END is the earliest of the flags still set the model reads from the spec (notes/assumptions/11.md). -/
def PassedSlotsAreTaken : Prop :=
  ∀ (dt : Nat) (r : OpResult) (s u : State) (b slot k : Nat) (data : List Byte) (p : Purpose),
    s.writerWorks ⟨.program b slot data, p, k⟩ → passesAt r → k < 8 → s.writer.census.length = 14 →
    u = { s.advance dt with op := none, store := s.store.writeSlot b slot data } →
    (p = .label .journal → exec (.storeProgramEnd dt r) s = .next (State.onLine
      { u with writer := { s.writer with
          census := censusWith b .active s.writer.census
          nextSlot := 1
          compactionOwed := s.writer.compactionOwed || (!s.health.withdrawn &&
            decide (inState .erased (censusWith b .active s.writer.census) ≤ 2)) } })) ∧
    (p = .label .snapshot → exec (.storeProgramEnd dt r) s = .next (State.onLine
      { u with
        marks := s.marks.map (MarkEntry.capture false)
        writer := { s.writer with
          census := censusWith b .building s.writer.census, snapSlot := 1, snapMark := 0 } })) ∧
    (p = .batch → exec (.storeProgramEnd dt r) s = .next (State.onLine
      { u with writer := { s.writer with
          inFlight := none
          census := if slot = 63 then censusWith b .full s.writer.census else s.writer.census } })) ∧
    (p = .newGame → exec (.storeProgramEnd dt r) s = .next (State.onLine
      { u with writer := { s.writer with
          newGameOwed := none
          compactionOwed := true
          census := if slot = 63 then censusWith b .full s.writer.census else s.writer.census } })) ∧
    (p = .snapPart → exec (.storeProgramEnd dt r) s = .next (State.onLine
      { u with writer := { s.writer with inFlight := none } })) ∧
    (p = .snapEnd → ∃ ms old, exec (.storeProgramEnd dt r) s = .next (State.onLine
      { u with
        marks := ms
        writer := { s.writer with
          census := censusWith b .active (s.writer.census.map fun x =>
            if (x.state = .active ∨ x.state = .full) ∧
                x.sequence < (s.writer.census.getD (b - 2) ⟨.obsolete, 0⟩).sequence then
              { x with state := .obsolete }
            else x)
          nextSlot := slot + 1
          compactionOwed := false
          inFlight := none
          oldestPending := old } }) ∧
      ms = s.marks.map (MarkEntry.onOwned fun o =>
        { o with pending := if o.captured = true then none else o.pending, captured := false }) ∧
      (old = none ↔ ms.any MarkEntry.awaits = false) ∧
      (∀ x, old = some x →
        (∃ o, MarkEntry.owned o ∈ ms ∧ o.sealed = false ∧ o.pending = some x) ∧
        ∀ o y, MarkEntry.owned o ∈ ms → o.sealed = false → o.pending = some y → x ≤ y))

/-- What a FAIL of the writer's own leaves (R162, R165, R168, R169): its block is retired, with the marks of a
batch flagged again, the compaction owed again from the beginning; the RETIRED slot is attempted unless slot 63
has been, and STORE_WORN is tested then or when that attempt has ended (R161, R170). -/
def FailedSlotsRetire : Prop :=
  (∀ (dt : Nat) (r : OpResult) (s : State) (b slot k : Nat) (data : List Byte) (p : Purpose)
      (ms : List MarkEntry) (w : Writer),
    s.writerWorks ⟨.program b slot data, p, k⟩ → k < 8 → failsAll r (8 - k) →
    s.writer.census.length = 14 → s.storeOk →
    ((p = .label .journal ∨ p = .label .snapshot ∨ p = .newGame) ∧ ms = s.marks ∧ w = s.writer) ∨
    ((p = .snapPart ∨ p = .snapEnd) ∧ ms = s.marks.map (MarkEntry.capture false) ∧
      w = { s.writer with inFlight := none, compactionOwed := true }) ∨
    (p = .batch ∧ ∃ fl, s.writer.inFlight = some fl ∧
      ms = mapFrom (fun m e => if m ∈ fl then e.onOwned fun o => if o.sealed = true then o
        else { o with pending := some (o.pending.getD (s.now + dt)) } else e) 0 s.marks ∧
      w = { s.writer with
        inFlight := none
        oldestPending := if s.anyPending = true ∨ ms.any MarkEntry.awaits = false then
            s.writer.oldestPending
          else some (s.now + dt) }) →
    ∃ st : Store, sameOutsideSlot s.store st b slot ∧ st.attempted = s.store.attempted ∧
      (s.store.attempted.getD b 0 ≤ 63 → exec (.storeProgramEnd dt r) s = .next (State.onLine
        { s.advance dt with
          marks := ms
          writer := { w with census := censusWith b .retired s.writer.census }
          op := some ⟨.program b 63 (slotBytes s.epoch (.retired false)), .retired, 0⟩
          store := { st with attempted := s.store.attempted.set b 64 } })) ∧
      (64 ≤ s.store.attempted.getD b 0 → exec (.storeProgramEnd dt r) s = .next (State.onLine
        { s.advance dt with
          marks := ms
          writer := { w with census := censusWith b .retired s.writer.census }
          op := none
          store := st
          health := { s.health with
            storeWorn := wornBy (censusWith b .retired s.writer.census) s.health.storeWorn } }))) ∧
  (∀ (dt : Nat) (r : OpResult) (s : State) (b k : Nat), s.writerWorks ⟨.erase b, .eraseObsolete, k⟩ →
    k < 4 → failsAll r (4 - k) → s.storeOk →
    ∃ st : Store, sameOutsideBlock s.store st b ∧ st.attempted = s.store.attempted.set b 64 ∧
      exec (.storeEraseEnd dt r) s = .next (State.onLine
        { s.advance dt with
          writer := { s.writer with census := censusWith b .retired s.writer.census }
          op := some ⟨.program b 63 (slotBytes s.epoch (.retired false)), .retired, 0⟩
          store := st })) ∧
  (∀ (dt : Nat) (r : OpResult) (s : State) (b k : Nat) (data : List Byte),
    s.writerWorks ⟨.program b 63 data, .retired, k⟩ → k < 8 → passesAt r ∨ failsAll r (8 - k) →
    s.writer.census.length = 14 → s.storeOk →
    ∃ st : Store, sameOutsideSlot s.store st b 63 ∧
      exec (.storeProgramEnd dt r) s = .next (State.onLine
        { s.advance dt with
          op := none
          store := st
          health := { s.health with storeWorn := wornBy s.writer.census s.health.storeWorn } }))

/-- When a batch is due (R163). -/
def State.dueBatch (s : State) : Prop :=
  4 ≤ s.pendingMarks.length ∨ ∃ x, s.writer.oldestPending = some x ∧ x + 250000 ≤ s.now

/-- The work the writer takes first, in the order of R169, with the due test of R163 and the conditions of
R162: when the writer may start work at all, and which marks are pending. -/
def FirstWorkIsOrdered : Prop :=
  ∀ s : State,
    (s.writerFree = true ↔ s.session.inGame = true ∧ s.op = none ∧ s.waiting = none ∧ s.droop = false ∧
      s.health.storeWorn = false) ∧
    (∀ m, m ∈ s.pendingMarks ↔ m < 256 ∧ ∃ o, s.mark m = .owned o ∧ o.sealed = false ∧ o.pending ≠ none) ∧
    (∀ x b, s.lowestBlock x = some b ↔
      2 ≤ b ∧ b < 16 ∧ s.blockState b = x ∧ ∀ c, 2 ≤ c → c < b → s.blockState c ≠ x) ∧
    (s.activeBlock ≠ none →
      (s.writer.newGameOwed ≠ none → s.firstWork = some .newGameSlot) ∧
      (s.writer.newGameOwed = none → s.buildingBlock ≠ none → s.firstWork = some .snapshotSlot) ∧
      (s.writer.newGameOwed = none → s.buildingBlock = none →
        (s.writer.compactionOwed = true → s.lowestBlock .erased ≠ none →
          s.firstWork = some .compaction) ∧
        (s.writer.compactionOwed = false ∨ s.lowestBlock .erased = none →
          (s.dueBatch → s.firstWork = some .batch) ∧
          (¬ s.dueBatch → s.lowestBlock .obsolete ≠ none → s.firstWork = some .erase) ∧
          (¬ s.dueBatch → s.lowestBlock .obsolete = none → s.firstWork = none)))) ∧
    (s.activeBlock = none →
      (s.lowestBlock .erased ≠ none → s.firstWork = some .label) ∧
      (s.lowestBlock .erased = none → s.lowestBlock .obsolete ≠ none → s.firstWork = some .erase) ∧
      (s.lowestBlock .erased = none → s.lowestBlock .obsolete = none → s.firstWork = some .label))

/-- Work that is not the writer's first, or that it may not start, is not taken (R163, R169). -/
def OtherWorkWaits : Prop :=
  ∀ (dt : Nat) (s u : State), s.powered = true → u = s.advance dt →
    (∀ w i, (w, i) ∈ [(Work.batch, Instr.batchStart dt), (.compaction, .compactionStart dt),
        (.snapshotSlot, .snapshotSlot dt), (.newGameSlot, .newGameSlot dt), (.erase, .eraseObsolete dt)] →
      u.writerFree = false ∨ u.firstWork ≠ some w → exec i s = .next u.onLine) ∧
    (u.writerFree = false ∨ (u.firstWork ≠ some .label ∧ u.firstWork ≠ some .compaction) →
      exec (.labelBlock dt) s = .next u.onLine)

/-- An answer to a LOAD frame, or OVERRUN where it finds no room (R175). -/
def State.answeredLoad (u : State) (word : AnswerWord) (n : Nat) (tag : Byte) : State :=
  if u.answers.length + u.loader.seals.length < 8 then
    { u with answers := u.answers ++ [⟨word, .load, n, tag, 0⟩] }
  else { u with health := { u.health with overrun := true } }

/-- No label can be had: no block for one, or no sequence left (R160, R162, R170). -/
def MissingLabelsWearTheStore : Prop :=
  ∀ (dt : Nat) (s u : State), s.powered = true → u = s.advance dt → u.writerFree = true →
    (u.firstWork = some .label → s.lowestBlock .erased = none ∨ 65535 < s.writer.nextSequence →
      exec (.labelBlock dt) s = .next
        (State.onLine { u with health := { s.health with storeWorn := true } })) ∧
    (u.firstWork = some .compaction → 65535 < s.writer.nextSequence →
      exec (.compactionStart dt) s = .next (State.onLine
        { u with
          marks := s.marks.map (MarkEntry.capture false)
          health := { s.health with storeWorn := true } }))

/-- The reading that a gate's count gives (R122, R124): absent at or above the empty limit, otherwise present, with
the lowest-numbered of bands 0 to 14 that contains the count as its class, if one does; a counter stops at 4,095. -/
def CountsAreRead : Prop :=
  ∀ (h : Header) (count : Nat),
    (4095 ≤ count → readingOf h count = readingOf h 4095) ∧
    (count ≤ 4095 →
      (h.emptyLimit ≤ count → readingOf h count = .absent) ∧
      (count < h.emptyLimit →
        (∀ c lo hi, c < 15 → h.bands[c]? = some (lo, hi) → lo ≤ count → count ≤ hi →
          (∀ d < c, ∀ lo' hi', h.bands[d]? = some (lo', hi') → count < lo' ∨ hi' < count) →
          readingOf h count = .present (some c)) ∧
        ((∀ d < 15, ∀ lo' hi', h.bands[d]? = some (lo', hi') → count < lo' ∨ hi' < count) →
          readingOf h count = .present none)))

/-- A number of a frame's body as its byte. -/
def bodyByte (n : Nat) : Byte := BitVec.ofNat 8 n

/-- The reason that an answer's REFUSE frame carries: NOT_OWNER where the mark of a claim has left the window (R35). -/
def State.shownReason (u : State) (a : Answer) (r : Reason) : Reason :=
  if a.answers = .claim ∧ u.inWindow a.mark = false then .notOwner else r

/-- What the frames that the selector builds carry (R22, R23, R34, R35, R95, R116, R119, R195, R196). -/
def FramesCarryTheirContent : Prop :=
  ∀ u : State,
    (∃ (b : Byte) (poor : List Nat), u.hailFrame.kind = .hail ∧ u.hailFrame.addressee = 0 ∧
      u.hailFrame.body = [u.epoch, bodyByte u.winFirst, bodyByte u.winSize, b, u.serial, 3,
        bodyByte poor.length] ++ poor.map bodyByte ∧
      poor = ((u.roster.filter fun p => p.present && p.grade == .poor).take 4).map Peer.tile ∧
      (List.range 8).map b.getLsbD = [u.health.rosterFull, u.health.loop, u.health.overrun, u.health.quarantine,
        u.health.storeWorn, u.health.withdrawn, u.health.loading, u.health.unwritten]) ∧
    (∀ a v ver, a.word = .grant v ver → (u.answerFrame a).kind = .grant ∧
      (u.answerFrame a).addressee = a.addressee ∧
      (u.answerFrame a).body = [a.tag, bodyByte a.mark, bodyByte v, ver]) ∧
    (∀ a r, a.word = .refuse r → (u.answerFrame a).kind = .refuse ∧
      (u.answerFrame a).addressee = a.addressee ∧
      (u.answerFrame a).body = [a.tag, bodyByte a.mark, (u.shownReason a r).code]) ∧
    ([Reason.short, .mismatch, .range, .sealed, .notOwner, .busy, .order, .worn, .check].map Reason.code =
      [1, 2, 3, 4, 5, 6, 7, 8, 9]) ∧
    (∀ m o, (u.updateFrame m o).kind = .update ∧ (u.updateFrame m o).addressee = 0 ∧
      (o.cause = none → (u.updateFrame m o).body =
        [u.epoch, bodyByte m, bodyByte o.value, o.version, 0, 0]) ∧
      (∀ n tag, o.cause = some (n, tag) → (u.updateFrame m o).body =
        [u.epoch, bodyByte m, bodyByte o.value, o.version, bodyByte n, tag])) ∧
    (u.runCount = min 16 (u.winFirst + u.winSize - u.run.next) ∧
      u.snapshotFrame.kind = .snapshot ∧ u.snapshotFrame.addressee = 0 ∧
      u.snapshotFrame.body.length = 3 + 2 * u.runCount ∧
      u.snapshotFrame.body.take 3 = [u.epoch, bodyByte u.run.next, bodyByte u.runCount] ∧
      ∀ i o, i < u.runCount → u.mark (u.run.next + i) = .owned o →
        u.snapshotFrame.body[3 + 2 * i]? = some (bodyByte o.value) ∧
        u.snapshotFrame.body[4 + 2 * i]? = some o.version) ∧
    (∀ tag m op a b n, u.queuedFrame (.claim tag m op a b n) =
      ⟨.claim, u.strongRate, n, [tag, bodyByte m, op.code, a, b]⟩) ∧
    ([ClaimOp.set, .add, .take, .swap].map ClaimOp.code = [1, 2, 3, 4]) ∧
    (∀ c, u.queuedFrame (.cue c) = ⟨.cue, u.strongRate, 0, [bodyByte c]⟩) ∧
    (∀ n, u.queuedFrame (.ask n) = ⟨.ask, u.strongRate, n, []⟩) ∧
    u.queuedFrame .wake = ⟨.wake, u.strongRate, 0, []⟩ ∧
    (∀ m, u.slateMark = some m ↔ m < 256 ∧ (∃ o, u.mark m = .owned o ∧ o.announce = true) ∧
      ∀ n < m, ∀ o, u.mark n = .owned o → o.announce = false) ∧
    (u.slateMark = none ↔ ∀ n < 256, ∀ o, u.mark n = .owned o → o.announce = false)

/-- What the writer's slots hold (R159, R163, R164, R168, R193, R199): 30 bytes, those that no field names FF hex, and
their check; and such a slot reads back valid, with the epoch and the body it was written with. -/
def SlotsAreWrittenAndRead : Prop :=
  (∀ (e : Byte) (body : SlotBody) (head : List Byte),
    (∃ q t, body = .label q t ∧ 1 ≤ q ∧ q ≤ 65535 ∧
      head = [1, e, 0, bodyByte (q / 256), bodyByte (q % 256), if t = .journal then 1 else 2]) ∨
    (∃ g, body = .session g ∧ head = [2, e, 0, g]) ∨
    (∃ rs, body = .batch rs ∧ rs.length ≤ 9 ∧ (∀ x ∈ rs, x.1 < 256) ∧
      head = [3, e, bodyByte rs.length] ++ rs.flatMap fun x => [bodyByte x.1, x.2.1, x.2.2]) ∨
    (∃ rs, body = .snapPart rs ∧ rs.length ≤ 9 ∧ (∀ x ∈ rs, x.1 < 256) ∧
      head = [4, e, bodyByte rs.length] ++ rs.flatMap fun x => [bodyByte x.1, x.2.1, x.2.2]) ∨
    (∃ g, body = .snapEnd g ∧ head = [5, e, 0, g]) ∨
    (∃ g, body = .newGame g ∧ head = [6, e, 0, g]) ∨
    (∃ x : Bool, body = .retired x ∧ head = [7, e, 0, if x = true then 1 else 0xFF]) →
    (slotBytes e body).length = 32 ∧
      (slotBytes e body).take 30 = head ++ List.replicate (30 - head.length) 0xFF ∧
      wordAt (slotBytes e body) 30 = crc16 (bytesToBits ((slotBytes e body).take 30)) ∧
      readSlot (slotBytes e body) = .valid e body) ∧
  (∀ (s : State) (m : Nat), (∀ r, s.mark m = .replica r → s.recordOf m = none) ∧
    ∀ o, s.mark m = .owned o → s.recordOf m = some (m,
      (if o.kind = .tally then bodyByte (16 * (o.value / 10) + o.value % 10) else bodyByte o.value), o.version)) ∧
  (∀ (s : State) (n m : Nat), m ∈ s.unsealedFrom n ↔
    n ≤ m ∧ m < 256 ∧ ∃ o, s.mark m = .owned o ∧ o.sealed = false) ∧
  (∀ (s : State) (n : Nat), (s.unsealedFrom n).Pairwise (· < ·) ∧ s.pendingMarks.Pairwise (· < ·))

/-- The slots of the block up to `slot` count as attempted (R155). -/
def Store.attemptedTo (st : Store) (b slot : Nat) : List Nat :=
  st.attempted.set b (max (st.attempted.getD b 0) (slot + 1))

/-! ## The start and recovery -/

/-- Where the header page holds each field of the header (R193, R197); a two-byte field has its high byte first. -/
def HeaderIsLaidOut : Prop :=
  ∀ (page : List Byte) (h : Header) (b w : Nat → Nat), h = parseHeader page →
    b = (fun i => (page.getD i 0xFF).toNat) → w = (fun i => 256 * b i + b (i + 1)) →
    h.layout.toNat = b 0 ∧ h.tile = b 1 ∧ h.first = b 2 ∧ h.size = b 3 ∧ h.sealed = b 4 ∧ h.padCount = b 5 ∧
      h.emptyLimit = w 6 ∧ h.debounce = b 8 ∧ h.faultLimit = b 9 ∧ h.fairLimit = w 10 ∧ h.poorLimit = w 12 ∧
      h.pads.length = 6 ∧ h.bands.length = 16 ∧
      (∀ i < 6, ∃ x, h.pads[i]? = some x ∧ (x.placed = true ↔ b (14 + i) % 2 = 1) ∧
        (x.lifted = true ↔ b (14 + i) / 2 % 2 = 1) ∧ (x.misread = true ↔ b (14 + i) / 4 % 2 = 1) ∧
        (x.wake = true ↔ b (14 + i) / 8 % 2 = 1)) ∧
      (∀ c < 16, h.bands[c]? = some (w (20 + 4 * c), w (22 + 4 * c)))

/-- What makes a header good (R5, R123, R183). -/
def HeaderTests : Prop :=
  ∀ (page : List Byte) (h : Header), h = parseHeader page →
    (headerOk page = true ↔ headerCheckOk page = true ∧ (1 ≤ h.tile ∧ h.tile ≤ 62) ∧
      (h.size ≤ 64 ∧ h.first + h.size ≤ 256 ∧ h.sealed ≤ h.size) ∧
      h.padCount ≤ 6 ∧ (1 ≤ h.emptyLimit ∧ h.emptyLimit ≤ 4095) ∧
      (h.debounce = 2 ∨ h.debounce = 4 ∨ h.debounce = 8) ∧
      ∀ b ∈ h.bands.take 15, b.1 ≤ 4095 ∧ b.2 ≤ 4095)

/-- What makes the content good (R6, R183). -/
def ContentTests : Prop :=
  ∀ (st : Store) (h : Header) (page : List Byte), h = parseHeader (st.page 0 0) → page = st.page 0 1 →
    (contentOk st = true ↔ h.layout = 2 ∧ contentCheckOk st = true ∧ ∀ k < h.size,
      ∃ kind, MarkKind.ofCode (numAt page (2 * k)) = some kind ∧
        kind.ofStore (byteAt page (2 * k + 1)) ≠ none)

/-- In STARTING, with the supply up and nothing worn, an operation is in progress and nothing waits. -/
def State.startsWith (s : State) (o : Operation) : Prop :=
  s.powered = true ∧ s.session = .starting ∧ s.droop = false ∧ s.waiting = none ∧
    s.health.storeWorn = false ∧ s.op = some o

/-- The end of STARTING in UNWRITTEN (R183, R186). -/
def State.blankFrom (s : State) (dt : Nat) : State :=
  { s.advance dt with
    op := none
    session := .unwritten
    epoch := 0
    serial := 0
    tile := if headerCheckOk (s.store.page 0 0) = true ∧ 1 ≤ numAt (s.store.page 0 0) 1 ∧
        numAt (s.store.page 0 0) 1 ≤ 62 then numAt (s.store.page 0 0) 1 else 62
    roster := []
    health := { s.health with unwritten := true, loading := false }
    loader := Loader.blank
    hail := { s.hail with due := some (s.now + dt), immediate := false }
    line := .quiet (s.now + dt)
    lastTick := some (s.now + dt)
    sessionPhase := 0 }

/-- The header is judged after its page and the content after the last of its pages (R182, R183); content that
passes is in force, with an owned entry for every mark of the window, and routing is R15's for the header window
(R9, R15, R16, R88). -/
def HeaderAndContentAreJudged : Prop :=
  ∀ (dt : Nat) (s : State) (op : StoreOp) (n : Nat), s.startsWith ⟨op, .startRead n, 0⟩ →
    op.isRead = true →
    (n = 0 → headerOk (s.store.page 0 0) = false →
      exec (.storeReadEnd dt) s = .next (s.blankFrom dt)) ∧
    (n = 0 → headerOk (s.store.page 0 0) = true → exec (.storeReadEnd dt) s = .next (State.onLine
      { s.advance dt with op := some ⟨.read 0 1, .startRead 1, 0⟩ })) ∧
    (n = 18 → contentOk s.store = false → exec (.storeReadEnd dt) s = .next (s.blankFrom dt)) ∧
    (n = 18 → contentOk s.store = true → ∀ h, h = parseHeader (s.store.page 0 0) →
      ∃ ms rs, exec (.storeReadEnd dt) s = .next (State.onLine
        { s.advance dt with
          op := some ⟨.read 2 0, .startRead 19, 0⟩
          header := h
          winFirst := h.first
          winSize := h.size
          routes := rs
          marks := ms
          toneTable := (List.range 32).map fun p => wordAt (s.store.page 0 2) (2 * p) }) ∧
      rs.length = 256 ∧ (s.roster = [] → ∀ m < 256, rs[m]? =
        some (if h.first ≤ m ∧ m < h.first + h.size then .self else .none)) ∧
      ms.length = 256 ∧
      (∀ k kind v, k < h.size → h.first + k < 256 →
        MarkKind.ofCode (numAt (s.store.page 0 1) (2 * k)) = some kind →
        kind.ofStore (byteAt (s.store.page 0 1) (2 * k + 1)) = some v →
        ms[h.first + k]? = some (.owned
          { kind := kind
            initial := v
            value := v
            version := 0
            sealed := decide (k < h.sealed)
            announce := false
            pending := none
            cause := none
            captured := false })) ∧
      (∀ m < 256, m < h.first ∨ h.first + h.size ≤ m →
        ms[m]? = some (.replica Replica.blank)))

/-- Where a slot of a kind may stand (R159): at which slot index, in a block of which label, before or after
its SNAP_END. -/
def SlotBody.mayStand (label : Option LabelType) (slot : Nat) (ended : Prop) : SlotBody → Prop
  | .label _ _ => False
  | .session _ | .batch _ | .newGame _ => label = some .journal ∨ (label = some .snapshot ∧ ended)
  | .snapPart _ | .snapEnd _ => label = some .snapshot ∧ ¬ ended
  | .retired _ => slot = 63

/-- How a block reads (R159, R172): its label, its valid slots, each in its place, and one more than the
highest slot that does not read erased. -/
def BlocksAreRead : Prop :=
  ∀ (b : Nat) (reads : List SlotRead) (r : BlockReading), r = readBlock b reads → reads.length = 64 →
    (r.block = b ∧ r.slots.length = 64) ∧
    (∀ q t, r.label = some (q, t) ↔ ∃ e, reads[0]? = some (.valid e (.label q t))) ∧
    (∀ e body, r.slots[0]? = some (some (e, body)) ↔
      reads[0]? = some (.valid e body) ∧ ∃ q t, body = .label q t) ∧
    (∀ i e body, 1 ≤ i → i < 64 → (r.slots[i]? = some (some (e, body)) ↔
      reads[i]? = some (.valid e body) ∧ body.mayStand (r.label.map Prod.snd) i
        (∃ j e' g, 1 ≤ j ∧ j < i ∧ reads[j]? = some (.valid e' (.snapEnd g))))) ∧
    (∀ i, r.used ≤ i → i < 64 → reads[i]? = some .erased) ∧
    (∀ i, r.used = i + 1 → reads[i]? ≠ some .erased)

/-- Which blocks are RETIRED, count, are usable, are the base, are applied, and what the census calls them
(R172, R174). That the ACTIVE block is the highest sequence among the applied blocks that are not RETIRED and have an
unattempted slot the model reads from the spec (notes/assumptions/14.md). -/
def BlocksAreClassified : Prop :=
  ∀ (rs : List BlockReading) (r : BlockReading), r ∈ rs →
    (r.isRetired = true ↔ ∃ e x, r.slots.getD 63 none = some (e, .retired x)) ∧
    (r.counts = false ↔ ∃ e, r.slots.getD 63 none = some (e, .retired true)) ∧
    (r.usable = true ↔ r.counts = true ∧ ∃ q t, r.label = some (q, t) ∧
      (t = .snapshot → ∃ e g, some (e, SlotBody.snapEnd g) ∈ r.slots)) ∧
    (r.isSnapshot = true ↔ r.usable = true ∧ ∃ q, r.label = some (q, .snapshot)) ∧
    (∀ q t, r.label = some (q, t) → r.sequence = q) ∧
    (baseOf rs = some r → r.isSnapshot = true ∧
      ∀ x ∈ rs, x.isSnapshot = true → x.sequence ≤ r.sequence) ∧
    (r.isSnapshot = true → baseOf rs ≠ none) ∧
    (baseOf rs = none → (r.isApplied (baseOf rs) = true ↔ r.usable = true)) ∧
    (∀ k, baseOf rs = some k → (r.isApplied (baseOf rs) = true ↔ r.block = k.block ∨
      (r.usable = true ∧ r.isSnapshot = false ∧ k.sequence < r.sequence))) ∧
    (activeReading rs = some r → r.isApplied (baseOf rs) = true ∧ r.isRetired = false ∧ r.used ≤ 63 ∧
      ∀ x ∈ rs, x.isApplied (baseOf rs) = true → x.isRetired = false → x.used ≤ 63 →
        x.sequence ≤ r.sequence) ∧
    (r.isApplied (baseOf rs) = true → r.isRetired = false → r.used ≤ 63 → activeReading rs ≠ none) ∧
    (r.isRetired = true → recoveredState rs r = .retired) ∧
    (r.isRetired = false → r.isApplied (baseOf rs) = false → recoveredState rs r = .obsolete) ∧
    (∀ k, r.isRetired = false → r.isApplied (baseOf rs) = true → activeReading rs = some k →
      recoveredState rs r = if k.block = r.block then .active else .full) ∧
    (r.isRetired = false → r.isApplied (baseOf rs) = true → activeReading rs = none →
      recoveredState rs r = .full) ∧
    (∃ l, List.Perm l (rs.filter fun x => x.isApplied (baseOf rs)) ∧
      l.Pairwise (fun x y => x.sequence ≤ y.sequence) ∧
      appliedSlots rs = l.flatMap fun x => x.slots.filterMap id)

/-- What each valid slot gives as it is applied (R9, R173). -/
def SlotsAreApplied : Prop :=
  (∀ (ms : List MarkEntry) (g e x : Byte) (rs : List SlotRecord) (b : SlotBody),
    (b = .batch rs ∨ b = .snapPart rs → applySlot (ms, g) (e, b) = (restoreRecords ms rs, g)) ∧
    (b = .newGame x → applySlot (ms, g) (e, b) = (ms.map MarkEntry.restart, x)) ∧
    (b = .session x ∨ b = .snapEnd x → applySlot (ms, g) (e, b) = (ms, x))) ∧
  (∀ (ms : List MarkEntry) (m : Nat) (value version : Byte) (rs : List SlotRecord),
    restoreRecords ms [] = ms ∧ restoreRecords ms ((m, value, version) :: rs) =
      restoreRecords (modifyAt (fun e => e.restore value version) m ms) rs) ∧
  (∀ (o : Owned) (r : Replica) (value version : Byte),
    (o.sealed = true ∨ o.kind.ofStore value = none →
      (MarkEntry.owned o).restore value version = .owned o) ∧
    (∀ v, o.sealed = false → o.kind.ofStore value = some v →
      (MarkEntry.owned o).restore value version = .owned { o with value := v, version := version }) ∧
    (MarkEntry.replica r).restore value version = .replica r ∧
    (o.sealed = true → (MarkEntry.owned o).restart = .owned o) ∧
    (o.sealed = false →
      (MarkEntry.owned o).restart = .owned { o with value := o.initial, version := 0 }) ∧
    (MarkEntry.replica r).restart = .replica r) ∧
  (∀ (b : Byte),
    (MarkKind.flag.ofStore b = if b.toNat ≤ 1 then some b.toNat else none) ∧
    (MarkKind.level.ofStore b = if b.toNat ≤ 15 then some b.toNat else none) ∧
    (MarkKind.tally.ofStore b = if b.toNat / 16 ≤ 9 ∧ b.toNat % 16 ≤ 9 then
      some (10 * (b.toNat / 16) + b.toNat % 16) else none))

/-- Which block is the newest, for the epoch and the next sequence (R160, R173). -/
def NewestIsFound : Prop :=
  ∀ (rs : List BlockReading),
    ((∀ r ∈ rs, r.counts = true → r.label = none) →
      newestEpoch rs = none ∧ highestSequence rs = 0) ∧
    ((∃ r ∈ rs, r.counts = true ∧ r.label ≠ none) → ∃ r ∈ rs, r.counts = true ∧ r.label ≠ none ∧
      (∀ x ∈ rs, x.counts = true → x.label ≠ none → x.sequence ≤ r.sequence) ∧
      highestSequence rs = r.sequence ∧
      newestEpoch rs = (r.slots.filterMap id).getLast?.map Prod.fst)

/-- What is at fault in the condition that begins at byte `i` of a record's bytes `b` (R51, R198). -/
def conditionFault (pads : Nat) (b : Nat → Nat) (i : Nat) : Prop :=
  b i = 0 ∨ 6 < b i ∨
  (b i = 1 ∧ (pads ≤ b (i + 1) ∨ b (i + 2) = 0 ∨ 3 < b (i + 2) ∨
    (b (i + 2) ≠ 3 ∧ 14 < b (i + 3) ∧ b (i + 3) ≠ 255))) ∨
  (b i = 2 ∧ (pads ≤ b (i + 1) ∨ (14 < b (i + 2) ∧ b (i + 2) ≠ 255))) ∨
  (b i = 3 ∧ (b (i + 2) = 0 ∨ 4 < b (i + 2) ∨ 99 < b (i + 3))) ∨
  (b i = 4 ∧ 3 < b (i + 1)) ∨ (b i = 5 ∧ 63 < b (i + 1)) ∨ (b i = 6 ∧ 63 < b (i + 1))

/-- What is at fault in the effect that begins at byte `i` of a record's bytes `b` (R51, R198). -/
def effectFault (pads : Nat) (b : Nat → Nat) (i : Nat) : Prop :=
  b i = 0 ∨ 14 < b i ∨
  (5 ≤ b i ∧ b i ≤ 7 ∧ 63 < b (i + 1)) ∨
  (b i = 9 ∧ (3 < b (i + 1) ∨ b (i + 2) = 0 ∨ 3 < b (i + 3) / 16 ∨ 1 < b (i + 3) % 16)) ∨
  (b i = 10 ∧ 3 < b (i + 1)) ∨
  (b i = 11 ∧ (7 < b (i + 1) ∨ 3 < b (i + 2) ∨
    (b (i + 2) = 2 ∧ (3 < b (i + 3) / 16 ∨ 3 < b (i + 3) % 16)))) ∨
  (b i = 12 ∧ (31 < b (i + 1) ∨ b (i + 2) = 0 ∨ 2 < b (i + 3) / 16 ∨ 1 < b (i + 3) % 16)) ∨
  (b i = 13 ∧ (3 < b (i + 1) ∨ (b (i + 1) = 1 ∧ 99 < b (i + 2)) ∨ (b (i + 1) = 3 ∧ 3 < b (i + 2)))) ∨
  (b i = 14 ∧ pads ≤ b (i + 1))

/-- What quarantines the step of a record's bytes `b` (R51, R198): a field of its first four bytes, a condition, an
effect, or a claim that is not its first effect. -/
def recordFault (pads : Nat) (b : Nat → Nat) : Prop :=
  1 < b 1 / 64 ∨ 1 < b 1 / 16 % 4 ∨ 2 < b 1 / 4 % 4 ∨ b 1 % 4 = 0 ∨ b 2 = 0 ∨ 4 < b 2 ∨
  (b 1 / 4 % 4 = 2 ∧ 63 < b 3) ∨
  (∃ k < b 1 % 4, conditionFault pads b (4 + 4 * k)) ∨
  (∃ k < b 2, effectFault pads b (16 + 4 * k) ∨ (1 ≤ k ∧ 1 ≤ b (16 + 4 * k) ∧ b (16 + 4 * k) ≤ 4))

/-- A class operand's byte (R198): the class, or 255 for ANY. -/
def classByte (c : Option Nat) : Nat := c.getD 255

/-- The condition stands so in a record's bytes `b` from byte `i` (R198). -/
def Condition.standsAt (b : Nat → Nat) (i : Nat) : Condition → Prop
  | .padEvent p .placed c => b i = 1 ∧ b (i + 1) = p ∧ b (i + 2) = 1 ∧ b (i + 3) = classByte c
  | .padEvent p .lifted c => b i = 1 ∧ b (i + 1) = p ∧ b (i + 2) = 2 ∧ b (i + 3) = classByte c
  | .padEvent p .misread _ => b i = 1 ∧ b (i + 1) = p ∧ b (i + 2) = 3
  | .padHolds p c => b i = 2 ∧ b (i + 1) = p ∧ b (i + 2) = classByte c
  | .markTest m .eq v => b i = 3 ∧ b (i + 1) = m ∧ b (i + 2) = 1 ∧ b (i + 3) = v
  | .markTest m .ne v => b i = 3 ∧ b (i + 1) = m ∧ b (i + 2) = 2 ∧ b (i + 3) = v
  | .markTest m .ge v => b i = 3 ∧ b (i + 1) = m ∧ b (i + 2) = 3 ∧ b (i + 3) = v
  | .markTest m .lt v => b i = 3 ∧ b (i + 1) = m ∧ b (i + 2) = 4 ∧ b (i + 3) = v
  | .timerExpired t => b i = 4 ∧ b (i + 1) = t
  | .cueHeard c => b i = 5 ∧ b (i + 1) = c
  | .stepDone n => b i = 6 ∧ b (i + 1) = n

/-- A timer tick's code (R198). -/
def TickLength.digit : TickLength → Nat
  | .sixtyFourth => 0
  | .eighth => 1
  | .second => 2
  | .fourSeconds => 3

/-- The effect stands so in a record's bytes `b` from byte `i` (R198); of a claim, its operand B is said of
CLAIM_SWAP alone. -/
def Effect.standsAt (b : Nat → Nat) (i : Nat) : Effect → Prop
  | .claim .set m x _ => b i = 1 ∧ b (i + 1) = m ∧ b (i + 2) = x.toNat
  | .claim .add m x _ => b i = 2 ∧ b (i + 1) = m ∧ b (i + 2) = x.toNat
  | .claim .take m x _ => b i = 3 ∧ b (i + 1) = m ∧ b (i + 2) = x.toNat
  | .claim .swap m x y => b i = 4 ∧ b (i + 1) = m ∧ b (i + 2) = x.toNat ∧ b (i + 3) = y.toNat
  | .cue c => b i = 5 ∧ b (i + 1) = c
  | .arm n => b i = 6 ∧ b (i + 1) = n
  | .disarm n => b i = 7 ∧ b (i + 1) = n
  | .disarmQuest q => b i = 8 ∧ b (i + 1) = q
  | .timerStart n p t r => b i = 9 ∧ b (i + 1) = n ∧ b (i + 2) = p ∧
      b (i + 3) = 16 * t.digit + if r = true then 1 else 0
  | .timerStop n => b i = 10 ∧ b (i + 1) = n
  | .light ch p => b i = 11 ∧ b (i + 1) = ch ∧ match p with
      | .off => b (i + 2) = 0
      | .on => b (i + 2) = 1
      | .blink period on => b (i + 2) = 2 ∧
          (b (i + 3) / 16, period) ∈ [(0, 12), (1, 24), (2, 48), (3, 96)] ∧
          (b (i + 3) % 16, on) ∈ [(0, period / 4), (1, period / 3), (2, period / 2), (3, period)]
      | .follow m => b (i + 2) = 3 ∧ b (i + 3) = m
  | .tone t cut => b i = 12 ∧ b (i + 1) = t.pitch ∧ b (i + 2) = t.duration ∧
      b (i + 3) = 16 * (match t.duty with | .quarter => 0 | .third => 1 | .half => 2) + if cut = true then 1 else 0
  | .digits d => b i = 13 ∧ (d.blankZero = true ↔ b (i + 3) % 2 = 1) ∧ match d.source with
      | .none => b (i + 1) = 0
      | .fixed n => b (i + 1) = 1 ∧ b (i + 2) = n
      | .mark m => b (i + 1) = 2 ∧ b (i + 2) = m
      | .timer t => b (i + 1) = 3 ∧ b (i + 2) = t
  | .recheck p => b i = 14 ∧ b (i + 1) = p

/-- A step read from its record (R49 to R51, R198): QUARANTINED exactly where the record is at fault, and otherwise
with the content its bytes hold, its start state, its firings left and its seen flags clear. -/
def StepsAreChecked : Prop :=
  ∀ (pads : Nat) (r : List Byte) (x : Step) (b : Nat → Nat), x = stepOf pads r → b = numAt r →
    (x.state = .quarantined ↔ recordFault pads b) ∧
    (x.state ≠ .quarantined →
      x.state = (if b 1 / 64 = 1 then .armed else .dormant) ∧ (x.record.armed = true ↔ b 1 / 64 = 1) ∧
      x.record.quest = b 0 / 16 ∧ x.record.repeats = b 0 % 16 ∧ x.left = b 0 % 16 ∧ x.tag = none ∧
      (x.record.matchAll = true ↔ b 1 / 16 % 4 = 0) ∧
      (b 1 / 4 % 4 = 0 → x.record.onRefusal = .rearm) ∧ (b 1 / 4 % 4 = 1 → x.record.onRefusal = .drop) ∧
      (b 1 / 4 % 4 = 2 → x.record.onRefusal = .fallback (b 3)) ∧
      x.record.conditions.length = b 1 % 4 ∧ x.record.effects.length = b 2 ∧
      x.seen = List.replicate (b 1 % 4) false ∧
      (∀ (k : Nat) (c : Condition), x.record.conditions[k]? = some c → c.standsAt b (4 + 4 * k)) ∧
      (∀ (k : Nat) (e : Effect), x.record.effects[k]? = some e → e.standsAt b (16 + 4 * k)))

/-- The watched marks are those named by a MARK_TEST of a step that is not QUARANTINED (R20, R74). -/
def State.watchesItsTests (t : State) : Prop :=
  ∀ m < 256, t.isWatched m = true ↔
    ∃ x ∈ t.steps, x.state ≠ .quarantined ∧ ∃ c v, Condition.markTest m c v ∈ x.record.conditions

/-- What recovery rebuilds from the journal it has read (R160, R172 to R174): the marks, the serial, the epoch,
the sequences and the census; that a block's slots up to its highest used one count as attempted the model reads
from the spec (notes/assumptions/14.md). -/
def State.rebuilt (s : State) (dt : Nat) : State :=
  { s.advance dt with
    op := none
    stage := .census
    marks := ((appliedSlots s.store.readings).foldl applySlot (s.marks, 0)).1
    serial := ((appliedSlots s.store.readings).foldl applySlot (s.marks, 0)).2
    epoch := ((newestEpoch s.store.readings).map fun e => e + 1).getD 1
    store := { s.store with
      attempted := s.store.attempted.take 2 ++ s.store.readings.map BlockReading.used }
    writer := { s.writer with
      census := s.store.readings.map fun r =>
        ⟨recoveredState s.store.readings r, if r.counts then r.sequence else 0⟩
      nextSequence := highestSequence s.store.readings + 1
      nextSlot := ((activeReading s.store.readings).map BlockReading.used).getD 1 } }

/-- STARTING has ended in LISTENING (R20, R74, R174, R182): the steps read from their table, the watched marks set,
the compaction check made unless the store is worn, which a worn start leaves out by reading the spec
(notes/assumptions/13.md). -/
def State.endsStart (v t : State) : Prop :=
  (∀ m < 256, t.route m = if v.inWindow m = true then .self else .none) ∧
  t.steps = ((List.range 64).map fun n => stepOf v.header.padCount (v.store.slot 1 n)) ∧
  (t.health.quarantine = true ↔ ∃ x ∈ t.steps, x.state = .quarantined) ∧
  t.watchesItsTests ∧
  t = { v with
    session := .listening
    line := .quiet v.now
    listenAt := some (v.now + 4000000)
    gateStart := some v.now
    lastTick := some v.now
    tile := v.header.tile
    roster := []
    routes := t.routes
    inbox := []
    steps := t.steps
    watched := t.watched
    health := { v.health with quarantine := t.health.quarantine }
    writer := { v.writer with
      compactionOwed := if v.health.storeWorn = true then v.writer.compactionOwed
        else decide (v.countBlocks .erased ≤ 2) } }

/-- What the start begins with the SESSION slot next and an ACTIVE block, or with none of these and an ERASED
block to label (R162, R174). -/
def State.beginsSlot (v t : State) : Prop :=
  (∀ b, v.activeBlock = some b → t =
    { v with
      stage := .session
      op := some ⟨.program b v.writer.nextSlot (slotBytes v.epoch (.session v.serial)), .session, 0⟩
      store := v.store.attempt b v.writer.nextSlot
      writer := { v.writer with nextSlot := v.writer.nextSlot + 1 } }) ∧
  (∀ b, v.activeBlock = none → v.lowestBlock .erased = some b → v.writer.nextSequence ≤ 65535 → t =
    { v with
      op := some ⟨.program b 0 (slotBytes v.epoch (.label v.writer.nextSequence .journal)),
        .label .journal, 0⟩
      store := v.store.attempt b 0
      writer := { v.writer with
        census := modifyAt (fun k => { k with sequence := v.writer.nextSequence }) (b - 2)
          v.writer.census
        nextSequence := v.writer.nextSequence + 1 } }) ∧
  (v.activeBlock = none → v.lowestBlock .erased = none ∨ 65535 < v.writer.nextSequence →
    ({ v with health := { v.health with storeWorn := true } } : State).endsStart t)

/-- What the start does next, its store free (R174): the OBSOLETE erasures, lowest number first, the ACTIVE
block, the worn test, the SESSION slot. A worn store ends it, at whatever retirement it is found worn, which the
model reads from the spec (notes/assumptions/13.md). -/
def State.startsNext (v t : State) : Prop :=
  (v.health.storeWorn = true → v.endsStart t) ∧
  (v.health.storeWorn = false → v.stage = .session → v.beginsSlot t) ∧
  (v.health.storeWorn = false → v.stage ≠ .session →
    (∀ b, v.lowestBlock .obsolete = some b → t =
      { v with op := some ⟨.erase b, .eraseObsolete, 0⟩ }) ∧
    (v.lowestBlock .obsolete = none →
      (v.activeBlock = none ∨ v.countBlocks .retired ≤ 11 → v.beginsSlot t) ∧
      (v.activeBlock ≠ none → 12 ≤ v.countBlocks .retired →
        ({ v with health := { v.health with storeWorn := true } } : State).endsStart t)))

/-- The start goes on after each end of its operations (R161, R162, R165, R174): after the last read, an erase,
a label, and a retirement, whose worn test may end it, without the compaction check, as the model reads the spec
(notes/assumptions/13.md). -/
def StartGoesOn : Prop :=
  (∀ (dt : Nat) (s : State) (op : StoreOp), s.startsWith ⟨op, .startRead 242, 0⟩ → op.isRead = true →
    ∃ t : State, exec (.storeReadEnd dt) s = .next t.onLine ∧ (s.rebuilt dt).startsNext t) ∧
  (∀ (dt : Nat) (r : OpResult) (s : State) (b k : Nat), s.startsWith ⟨.erase b, .eraseObsolete, k⟩ →
    k < 4 → s.storeOk →
    (passesAt r → ∃ t : State, exec (.storeEraseEnd dt r) s = .next t.onLine ∧ State.startsNext
      { s.advance dt with
        op := none
        store := (s.store.eraseBlock b).forget b
        writer := { s.writer with
          census := modifyAt (fun _ => ⟨.erased, 0⟩) (b - 2) s.writer.census } } t) ∧
    (failsAll r (4 - k) → ∃ st : Store, sameOutsideBlock s.store st b ∧
      exec (.storeEraseEnd dt r) s = .next (State.onLine
        { s.advance dt with
          writer := { s.writer with census := censusWith b .retired s.writer.census }
          op := some ⟨.program b 63 (slotBytes s.epoch (.retired false)), .retired, 0⟩
          store := st }))) ∧
  (∀ (dt : Nat) (r : OpResult) (s : State) (b slot k : Nat) (data : List Byte) (p : Purpose),
    s.startsWith ⟨.program b slot data, p, k⟩ → k < 8 → s.storeOk → s.writer.census.length = 14 →
    (p = .label .journal → passesAt r →
      ∃ t : State, exec (.storeProgramEnd dt r) s = .next t.onLine ∧ State.startsNext
        { s.advance dt with
          op := none
          store := s.store.writeSlot b slot data
          writer := { s.writer with
            census := censusWith b .active s.writer.census
            nextSlot := 1
            compactionOwed := s.writer.compactionOwed || (!s.health.withdrawn &&
              decide (inState .erased (censusWith b .active s.writer.census) ≤ 2)) } } t) ∧
    (p = .label .journal ∨ p = .session → failsAll r (8 - k) →
      ∃ st : Store, sameOutsideSlot s.store st b slot ∧ st.attempted = s.store.attempted ∧
        (s.store.attempted.getD b 0 ≤ 63 → exec (.storeProgramEnd dt r) s = .next (State.onLine
          { s.advance dt with
            writer := { s.writer with census := censusWith b .retired s.writer.census }
            op := some ⟨.program b 63 (slotBytes s.epoch (.retired false)), .retired, 0⟩
            store := { st with attempted := s.store.attempted.set b 64 } })) ∧
        (64 ≤ s.store.attempted.getD b 0 →
          ∃ t : State, exec (.storeProgramEnd dt r) s = .next t.onLine ∧ State.startsNext
            { s.advance dt with
              writer := { s.writer with census := censusWith b .retired s.writer.census }
              op := none
              store := st
              health := { s.health with
                storeWorn := wornBy (censusWith b .retired s.writer.census) s.health.storeWorn } }
            t)) ∧
    (p = .retired → passesAt r ∨ failsAll r (8 - k) →
      ∃ st : Store, sameOutsideSlot s.store st b slot ∧
        ∃ t : State, exec (.storeProgramEnd dt r) s = .next t.onLine ∧ State.startsNext
          { s.advance dt with
            op := none
            store := st
            health := { s.health with
              storeWorn := wornBy s.writer.census s.health.storeWorn } } t))

end Sys2Proof.Machine

open Sys2Proof Sys2Proof.Machine

/-! ## The queue of commands, time and power -/

/-- A step takes the command at the front of the queue. -/
def Obligations.StepTakesTheFrontCommand : Prop :=
  ∀ (c : Instr) (rest : List Instr) (s : State),
    step { s with pending := c :: rest } = exec c { s with pending := rest }

/-- Every command answers a next state and leaves the commands waiting; that none is refused or faults is
read from the spec (notes/assumptions/24.md), and that a command moves the time on by its own operand is the
model's choice (notes/assumptions/1.md). -/
def Obligations.EveryCommandAnswersNext : Prop :=
  ∀ (i : Instr) (s : State),
    ∃ t, exec i s = .next t ∧ t.pending = s.pending ∧ t.now = s.now + i.elapsed

/-- With no command waiting the part idles, and without power no command but POWER_UP does more than move
the time on (both the model's choice, notes/assumptions/7.md and 6.md). -/
def Obligations.IdleAndUnpowered : Prop :=
  (∀ s : State, s.pending = [] → step s = .next s) ∧
  (∀ (i : Instr) (s : State), s.powered = false → (∀ dt run, i ≠ .powerUp dt run) →
    exec i s = .next (s.advance i.elapsed))

/-! ## Start and supply -/

/-- A power-on start over a bad header or content that fails ends in UNWRITTEN (R183, R186); one none of whose
reads end within the command waits in STARTING for the header. An operation in progress ends before (R158).
Every other field has its value after reset, which for those the manual gives none is the model's choice
(notes/assumptions/6.md). -/
def Obligations.BadContentStartsUnwritten : Prop :=
  ∀ (dt : Nat) (run : StartRun) (s : State) (st : Store), st = (s.settleStore run.settle).store →
    (run.reads = none → headerOk (st.page 0 0) = false ∨ contentOk st = false →
      exec (.powerUp dt run) s = .next
        { State.reset with
          pending := s.pending
          now := s.now + dt
          powered := true
          session := .unwritten
          epoch := 0
          serial := 0
          tile := if headerCheckOk (st.page 0 0) = true ∧ 1 ≤ numAt (st.page 0 0) 1 ∧
              numAt (st.page 0 0) 1 ≤ 62 then numAt (st.page 0 0) 1 else 62
          health := { Health.clear with unwritten := true }
          line := .quiet (s.now + dt)
          hail := ⟨some (s.now + dt), false, none⟩
          lastTick := some (s.now + dt)
          store := st }) ∧
    (run.reads = some 0 →
      exec (.powerUp dt run) s = .next
        { State.reset with
          pending := s.pending
          now := s.now + dt
          powered := true
          op := some ⟨.read 0 0, .startRead 0, 0⟩
          store := st }) ∧
    (s.op = none → st = s.store)

/-- A page read that ends in STARTING is followed by the next (R182). The header is judged after its page and the
content after the last of its pages (R5, R6, R123, R183), the fields standing where the page has them (R193, R197),
and passing content is in force, with its owned entries (R9) and its routing (R15). After the last read recovery
classifies the blocks, rebuilds marks, epoch, serial and census (R172 to R174), erases the OBSOLETE blocks, labels a
block where none is ACTIVE, tests for a worn store, at each retirement too (R161, R170), and writes the SESSION slot.
The SESSION slot that passes ends STARTING in LISTENING (R174, R182): the slot is in the store, its block FULL if it
is the last (R166), the tile number is the header's, the deadline 4,000 ms away, the roster empty, every mark of the
window SELF, a compaction owed with 2 or fewer ERASED blocks, the steps read and checked by R51's tests, and the
watched marks those their MARK_TESTs name (R20, R74). That the ACTIVE block is the highest among those that pass every
test, and that a block's slots up to its highest used one count as attempted (notes/assumptions/14.md), and that a
start found worn at any retirement ends there without the compaction check (notes/assumptions/13.md), the model reads
from the spec. -/
def Obligations.StartingReadsAndEnds : Prop :=
  (∀ (dt : Nat) (s : State) (op : StoreOp) (n k : Nat), s.powered = true → s.session = .starting →
      s.droop = false → s.waiting = none → s.op = some ⟨op, .startRead n, k⟩ → op.isRead = true →
      n ≠ 0 → n ≠ 18 → n ≠ 242 → k < 1 →
      exec (.storeReadEnd dt) s = .next
        { s.advance dt with op := some ⟨startPage (n + 1), .startRead (n + 1), 0⟩ }) ∧
  (∀ (dt : Nat) (r : OpResult) (s : State) (b slot k : Nat) (data : List Byte) (vs : List Bool),
      s.powered = true → s.session = .starting → s.waiting = none → s.health.storeWorn = false →
      s.op = some ⟨.program b slot data, .session, k⟩ → r.verifies = true :: vs → k < 8 →
      ∃ t, exec (.storeProgramEnd dt r) s = .next t ∧
        (∀ m < 256, t.route m = if s.inWindow m = true then .self else .none) ∧
        t.steps = ((List.range 64).map fun n =>
          stepOf s.header.padCount ((s.store.writeSlot b slot data).slot 1 n)) ∧
        (t.health.quarantine = true ↔ ∃ x ∈ t.steps, x.state = .quarantined) ∧
        t.watchesItsTests ∧
        t = { s.advance dt with
          session := .listening
          line := .quiet (s.now + dt)
          listenAt := some (s.now + dt + 4000000)
          gateStart := some (s.now + dt)
          lastTick := some (s.now + dt)
          tile := s.header.tile
          roster := []
          routes := t.routes
          inbox := []
          steps := t.steps
          watched := t.watched
          health := { s.health with quarantine := t.health.quarantine }
          op := none
          store := s.store.writeSlot b slot data
          writer := { s.writer with
            census := if slot = 63 then censusWith b .full s.writer.census else s.writer.census
            compactionOwed := t.writer.compactionOwed } } ∧
        (s.writer.census.length = 14 →
          t.writer.compactionOwed = decide (inState .erased t.writer.census ≤ 2))) ∧
  HeaderIsLaidOut ∧ HeaderTests ∧ ContentTests ∧ HeaderAndContentAreJudged ∧
  StepsAreChecked ∧ BlocksAreRead ∧ BlocksAreClassified ∧ SlotsAreApplied ∧ NewestIsFound ∧ StartGoesOn

/-- Droop (R192, R121, R158): the flag is set and the session state unchanged; a frame being driven is cut, its
source keeps or gets back what it held, and a HAIL clears no flags; an erase in progress is abandoned, no byte
outside its block changing; another operation goes on; a droop while the flag is set changes nothing further. That a
new game or withdrawal which waits for the erase abandoned goes on waiting is the model's choice
(notes/assumptions/38.md). -/
def Obligations.DroopCutsFrameAndErase : Prop :=
  ∀ (dt : Nat) (r : OpResult) (s : State), s.powered = true →
    (s.droop = true → exec (.droop dt r) s = .next (s.advance dt)) ∧
    (s.droop = false → ∃ v : State,
      (s.outstanding = none → v = { s.advance dt with droop := true }) ∧
      (∀ o, s.outstanding = some o → s.gaveBack
        { s.advance dt with droop := true, outstanding := none, lineOut := [], line := .quiet (s.now + dt) }
        v o) ∧
      ((∀ o b, s.op = some o → o.op ≠ .erase b) → exec (.droop dt r) s = .next v) ∧
      (∀ b p k, s.op = some ⟨.erase b, p, k⟩ → s.storeOk → ∃ st : Store, sameOutsideBlock s.store st b ∧
        exec (.droop dt r) s = .next { v with op := none, store := st }))

/-- A power-on start, as at power-up, is taken when the droop sense clears while the droop flag is set (R182,
R192), and at the last beat of the GRANT that answers a seal (R178, R182). That POWER_UP starts a part that has
power already as it starts one that has none, and that DROOP_CLEARS with the flag clear only moves the time on,
is the model's choice (notes/assumptions/6.md). -/
def Obligations.StartsAfreshAsAtPowerUp : Prop :=
  ∀ (dt : Nat) (run : StartRun) (s : State),
    exec (.powerUp dt run) s = .next ((s.advance dt).powerOnStart run).onLine ∧
    (s.powered = true →
      (s.droop = false → exec (.droopClears dt run) s = .next (s.advance dt).onLine) ∧
      (s.droop = true → exec (.droopClears dt run) s = exec (.powerUp dt run) s) ∧
      (∀ o a v ver, s.outstanding = some o → o.won = true → o.source = .answer a →
        a.word = .grant v ver → a.answers = .seal →
        exec (.frameSent dt run) s = exec (.powerUp dt run) s))

/-- Power lost leaves the store alone of the part's state (R192); a program in progress completes first
(R158), into its own slot, and an erase is abandoned, no byte outside its block changing. Every register takes
its value after reset, and no DROOP need go before: the model's choice (notes/assumptions/6.md). -/
def Obligations.PowerLossLeavesTheStore : Prop :=
  ∀ (dt : Nat) (r : OpResult) (s : State), s.powered = true →
    (s.op = none → exec (.powerLoss dt r) s = .next
      { State.reset with pending := s.pending, now := s.now + dt, store := s.store }) ∧
    (∀ b slot data p k vs, s.op = some ⟨.program b slot data, p, k⟩ → r.verifies = true :: vs → k < 8 →
      exec (.powerLoss dt r) s = .next
        { State.reset with pending := s.pending, now := s.now + dt,
                           store := s.store.writeSlot b slot data }) ∧
    (∀ b p k, s.op = some ⟨.erase b, p, k⟩ → s.storeOk → ∃ st : Store,
      exec (.powerLoss dt r) s = .next
        { State.reset with pending := s.pending, now := s.now + dt, store := st } ∧
      ∀ a, a < 2048 * b ∨ 2048 * (b + 1) ≤ a → readByte st.cells a = readByte s.store.cells a)

/-- A key with the tile's own number sends it to SILENT (R90, R191): the run is emptied, the timers are
IDLE, the tones end, the held events are absent, and the rest stands frozen. A tile does not test the key that it
drives: one in contention hears such a key when it has lost to it, its frame given back as a lost one's, and one
that drives the same key, or drives on, notices nothing; any other key, and any key in the other session states,
changes nothing. That a timer made IDLE holds 0 and 0 (notes/assumptions/37.md), and that a key the contender loses to
is heard as CONTENTION_LOST and the key in one (notes/assumptions/2.md), is the model's choice. -/
def Obligations.OwnKeySilences : Prop :=
  ∀ (dt : Nat) (key : List UniBeat) (s : State) (line : List Symbol), s.powered = true →
    line = key.map (fun b => if UniBeat.bit b = true then .quiet else b.symbol) →
    (∀ u : State, s.session.inGame = true → senderOf key = s.tile →
      (s.outstanding = none ∧ u = s.advance dt ∨
        ∃ o, s.outstanding = some o ∧ o.won = false ∧ losesKey o.key line = true ∧
          exec (.contentionLost dt (some line)) s = .next u) →
      exec (.duplicateKey dt key) s = .next
        { u with
          line := .quiet (s.now + dt)
          session := .silent
          listenAt := none
          run := { u.run with running := false, restart := false }
          timers := s.timers.map fun t => { t with running := false, remaining := 0, base := 0 }
          tones := []
          toneCount := 0
          pads := s.pads.map fun p => { p with held := none }
          sessionPhase := 0 }) ∧
    (s.session.inGame = false ∨ senderOf key ≠ s.tile ∨
        (∃ o, s.outstanding = some o ∧ (o.won = true ∨ losesKey o.key line = false)) →
      exec (.duplicateKey dt key) s = .next (s.advance dt).onLine)

/-! ## The line's code -/

/-- What a receiver makes of an undisturbed frame is the frame that was sent, with its sender, and nothing
corrected (R100 to R111), whatever its kind, rate, addressee and body. -/
def Obligations.FrameIsReceivedAsSent : Prop :=
  ∀ (key sender : Nat) (f : Frame), key < 256 → key % 64 = sender → 1 ≤ sender → sender ≤ 62 →
    f.addressee < 64 → f.kind.lengthOk f.body.length = true →
    receive (undisturbed key sender f) =
      .good ⟨sender, f.kind, f.strong, f.addressee, f.body, 0⟩

/-- The orientation of the couplers does not matter: a frame whose bipolar beats come the other way round is
received as the frame itself (R104). -/
def Obligations.OrientationDoesNotMatter : Prop :=
  ∀ rx : Reception, receive (turnReception rx) = receive rx

/-- In STARTING, and while the tile drives a frame that it has won with, nothing is received: a frame only lets
time pass (R103, R182). Frames of senders 0 and 63, and every frame in SILENT, do no more than end on the line
(R99, R103, R112). -/
def Obligations.IgnoredFramesChangeNothing : Prop :=
  ∀ (dt : Nat) (rx : Reception) (s : State), ∀ i ∈ frameRows dt rx,
    (s.session = .starting ∨ s.driving = true → exec i s = .next (s.advance dt)) ∧
    (s.powered = true → s.session ≠ .starting → s.driving = false →
      senderOf rx.key = 0 ∨ senderOf rx.key = 63 ∨ s.session = .silent →
      exec i s = .next (s.hearing dt))

/-- Of two keys the higher has a beat, the first in which they differ, in which it drives quiet and sees the
lower one's pulse: it loses (R101). -/
def Obligations.LowestKeyWins : Prop :=
  ∀ k l : Nat, k < l → l < 256 → losesKey l (keySymbols k) = true ∧
    ∃ i < 8, (keySymbols k).take i = (keySymbols l).take i ∧
      (keySymbols k)[i]? = some .plus ∧ (keySymbols l)[i]? = some .quiet

/-! ## The Roster -/

/-- A faulty frame of a known sender refreshes its entry and is graded as a fault (R80, R93); of an unknown
sender it changes nothing (R78); of a SILENT one it makes the entry PRESENT, and routing is R15's again. -/
def Obligations.FaultyFrameGradesAndRefreshes : Prop :=
  ∀ (dt : Nat) (rx : Reception) (s : State) (n : Nat) (flt : LineFault),
    s.powered = true → s.session.inGame = true → s.driving = false → receive rx = .faulty n flt → n ≠ s.tile →
    (s.peer n = none → exec (.faultyFrame dt rx) s = .next (s.hearing dt)) ∧
    (∀ p, s.peer n = some p → p.counted + 1 < 16 →
      ∃ t, exec (.faultyFrame dt rx) s = .next t ∧
        t.peer n = some
          { p with
            present := true
            lastHeard := s.now + dt
            silenceAt := some (s.now + dt + if s.session = .rest then 60000000 else 7500000)
            removalAt := none
            counted := p.counted + 1
            corrected := p.corrected + 64
            faults := p.faults + 1 } ∧
        (∀ q, q ≠ n → t.peer q = s.peer q) ∧
        (p.present = true → t = { s.hearing dt with roster := t.roster }) ∧
        (p.present = false → t.routesOk ∧ (s.hearing dt).rosterFrame t))

/-- The grading window (R93, R94): the sixteenth frame closes it, sets the grade from the header's limits and
clears the sums; any other adds to them and leaves the grade. -/
def Obligations.GradingWindowCloses : Prop :=
  ∀ (p : Peer) (h : Header) (g : FrameGrade) (beats faults : Nat),
    (∀ n, g = .good n → beats = p.corrected + n ∧ faults = p.faults) →
    (g = .fault → beats = p.corrected + 64 ∧ faults = p.faults + 1) →
    (p.counted = 15 → p.takeGrade h g =
      { p with
        counted := 0
        corrected := 0
        faults := 0
        grade := if h.faultLimit ≤ faults ∨ h.poorLimit < beats then .poor
          else if h.fairLimit < beats then .fair else .good }) ∧
    (p.counted < 15 → p.takeGrade h g =
      { p with counted := p.counted + 1, corrected := beats, faults := faults })

/-- A HAIL from a sender with no entry creates it, filled from the HAIL and graded by it (R79, R84 to R87); routing is
R15's, each replica of a mark that then routes to the new entry is UNKNOWN, and what the routing brings with it
follows (R14, R21, R46, R88); in PLAY and REST an ASK to it is offered when its window holds a watched mark (R91). In
a full roster it takes the place of the SILENT entry heard last the longest ago, the lower number of two; with 48
PRESENT entries it creates nothing and sets ROSTER_FULL (R79). A new game follows where its serial is newer (R86);
its waiting for an operation is the model's form (notes/assumptions/18.md), its ASKs in LISTENING and its phase counts
the model's choice (notes/assumptions/32.md and 37.md). -/
def Obligations.HailCreatesAnEntry : Prop :=
  ∀ (dt : Nat) (rx : Reception) (s : State) (f : GoodFrame) (h : HailContent), s.getsHail rx f h →
    s.peer f.sender = none →
    (∀ gone : Option Nat, ¬ s.yieldsTo f.sender h → s.givesPlace gone → s.rosterOk →
      ∃ v u z t : State, exec (.hail dt rx) s = .next t ∧ s.entered v dt f h gone ∧
        v.routed u (some f.sender) ∧ u.routesOk ∧
        (s.routesOk → ∀ m < 256, ∀ r, u.route m = .peer f.sender → s.mark m = .replica r →
          u.mark m = .replica { r with state := .unknown }) ∧
        u.asks z f.sender h ∧ z.thenGame t h.serial) ∧
    (48 ≤ s.roster.length → (∀ p ∈ s.roster, p.present = true) →
      exec (.hail dt rx) s =
        .next { s.hearing dt with health := { s.health with rosterFull := true } })

/-- A HAIL of a known peer (R80, R84, R86 to R88). Of a PRESENT one that reports the epoch and window its entry
holds it stores its content and does no more. Of a SILENT one, or with another window, the entry is PRESENT with the
content stored, routing is R15's again, a replica whose route changed away from a peer is STALE or stays UNKNOWN, no
claim entry whose mark routes elsewhere is left, and with a new epoch every replica routed to the peer is UNKNOWN
(R14, R46, R85) and an ASK to it is offered in PLAY and REST when its window holds a watched mark (R91); the events
and outcomes that this brings are those of R21 and R47. In each case a new game follows where the HAIL's serial is newer
than the tile's (R86, R187); its waiting for an operation is the model's form (notes/assumptions/18.md), its ASKs in
LISTENING and its phase counts the model's choice (notes/assumptions/32.md and 37.md). -/
def Obligations.HailOfAKnownPeer : Prop :=
  ∀ (dt : Nat) (rx : Reception) (s v : State) (f : GoodFrame) (h : HailContent) (p : Peer),
    s.getsHail rx f h → s.peer f.sender = some p → ¬ s.yieldsTo f.sender h → s.rosterOk → v = s.storing dt f h →
    v.rosterOk ∧ v.peer f.sender = some (s.storedEntry dt f h p) ∧ (∀ n, n ≠ f.sender → v.peer n = s.peer n) ∧
    (p.present = true → p.epoch = h.epoch → p.first = h.first → p.size = announcedSize h →
      ∃ t, exec (.hail dt rx) s = .next t ∧ v.thenGame t h.serial) ∧
    (p.present = false ∨ p.first ≠ h.first ∨ p.size ≠ announcedSize h →
      (p.epoch = h.epoch →
        ∃ u t : State, exec (.hail dt rx) s = .next t ∧ v.routed u none ∧ u.routesOk ∧ u.thenGame t h.serial) ∧
      (p.epoch ≠ h.epoch →
        ∃ u y z t : State, exec (.hail dt rx) s = .next t ∧ v.routed u none ∧ u.routesOk ∧
          u.reportsEpoch y f.sender ∧ y.asks z f.sender h ∧ z.thenGame t h.serial))

/-- A HAIL of a PRESENT peer with a new epoch and the window its entry holds makes every replica routed to its sender
UNKNOWN, with its mark-change events, and ends every claim entry routed to it NO_ANSWER (R14, R21, R46, R47, R85); in
PLAY and REST an ASK to it is offered when its window holds a watched mark (R91); a new game follows where its serial
is newer (R86), its waiting for an operation the model's form (notes/assumptions/18.md), its ASKs in LISTENING and its
phase counts the model's choice (notes/assumptions/32.md and 37.md). -/
def Obligations.NewEpochUnsettlesReplicas : Prop :=
  ∀ (dt : Nat) (rx : Reception) (s v : State) (f : GoodFrame) (h : HailContent) (p : Peer),
    s.getsHail rx f h → s.peer f.sender = some p → p.present = true → p.epoch ≠ h.epoch →
    p.first = h.first → p.size = announcedSize h → ¬ s.yieldsTo f.sender h → s.rosterOk → v = s.storing dt f h →
    ∃ u z t : State, exec (.hail dt rx) s = .next t ∧ v.reportsEpoch u f.sender ∧ u.asks z f.sender h ∧
      z.thenGame t h.serial ∧ v.rosterOk ∧ v.peer f.sender = some (s.storedEntry dt f h p) ∧
      (∀ n, n ≠ f.sender → v.peer n = s.peer n) ∧
      (∀ m r, s.route m = .peer f.sender → s.mark m = .replica r →
        u.mark m = .replica { r with state := .unknown }) ∧
      (∀ m, s.route m ≠ .peer f.sender → u.mark m = s.mark m) ∧
      (∀ c ∈ u.claims, c ∈ s.claims ∧ c.owner ≠ f.sender) ∧
      (s.tagsOk → ∀ c ∈ s.claims, c.owner ≠ f.sender → c ∈ u.claims)

/-- A HAIL of a lower-numbered peer whose window shares a mark with the tile's, whether its entry is PRESENT,
SILENT or first created by it, makes the tile withdraw (R17, R18, R89): its window is empty, the window's entries are
blank replicas, the run is idle, no GRANT of a claim for them is queued and one outstanding stops, WITHDRAWN is set,
and every watched mark of the window raises its event. The entry holds what the HAIL reports, routing is R15's with
what it brings, a new epoch and the ASK follow (R85, R88, R91), and a new game where the serial is newer (R86); its
waiting for an operation is the model's form (notes/assumptions/18.md), its ASKs in LISTENING and its phase counts the
model's choice (notes/assumptions/32.md and 37.md), and so is that the window's events come before those of the
routing (notes/assumptions/35.md). -/
def Obligations.OverlapWithdraws : Prop :=
  ∀ (dt : Nat) (rx : Reception) (s : State) (f : GoodFrame) (h : HailContent),
    s.getsHail rx f h → s.yieldsTo f.sender h → s.rosterOk →
    (∀ gone, s.peer f.sender = none → s.givesPlace gone →
      ∃ v w u z t : State, exec (.hail dt rx) s = .next t ∧ s.entered v dt f h gone ∧ v.withdraws w ∧
        w.routed u (some f.sender) ∧ u.routesOk ∧ u.asks z f.sender h ∧ z.thenGame t h.serial) ∧
    (∀ p, s.peer f.sender = some p →
      ∃ v w u : State, v = s.storing dt f h ∧ v.rosterOk ∧ v.peer f.sender = some (s.storedEntry dt f h p) ∧
        (∀ n, n ≠ f.sender → v.peer n = s.peer n) ∧ v.withdraws w ∧ w.routed u none ∧ u.routesOk ∧
        (p.epoch = h.epoch → ∃ t, exec (.hail dt rx) s = .next t ∧ u.thenGame t h.serial) ∧
        (p.epoch ≠ h.epoch → ∃ y z t, exec (.hail dt rx) s = .next t ∧ u.reportsEpoch y f.sender ∧
          y.asks z f.sender h ∧ z.thenGame t h.serial))

/-- A silence deadline that has come (R81): the entry is SILENT with its removal deadline set, absent in
REST; routing is R15's; the replicas routed to it are STALE or stay UNKNOWN; no claim entry routed to it is
left; the events and outcomes that this brings are those of R21 and R47. A removal deadline that has come takes the
SILENT entry away and changes no routing (R82). The removal
deadline counts from the command, which the model reads from the spec (notes/assumptions/19.md); a command
before its time only moves the time on, the model's choice (notes/assumptions/8.md). -/
def Obligations.RosterDeadlines : Prop :=
  (∀ (dt n : Nat) (s : State) (p : Peer) (d : Nat), s.powered = true → s.session.inGame = true →
      s.peer n = some p → p.present = true → p.silenceAt = some d →
      (s.now + dt < d → exec (.silenceDeadline dt n) s = .next (s.advance dt).onLine) ∧
      (d ≤ s.now + dt → s.marks.length = 256 → ∃ t : State, exec (.silenceDeadline dt n) s = .next t.onLine ∧
        t.peer n = some
          { p with
            present := false
            silenceAt := none
            removalAt := if s.session = .rest then none else some (s.now + dt + 60000000) } ∧
        (∀ q, q ≠ n → t.peer q = s.peer q) ∧ t.routesOk ∧
        (∀ m r, m < 256 → s.route m = .peer n → s.mark m = .replica r →
          t.mark m = .replica { r with state := if r.state = .unknown then .unknown else .stale }) ∧
        (∀ c ∈ t.claims, c ∈ s.claims ∧ t.route c.mark = .peer c.owner) ∧
        (s.tagsOk → ∀ c ∈ s.claims, t.route c.mark = .peer c.owner → c ∈ t.claims) ∧
        State.routed { s.advance dt with
          roster := s.roster.map fun q => if q.tile = n then
              { q with
                present := false
                silenceAt := none
                removalAt := if s.session = .rest then none else some (s.now + dt + 60000000) }
            else q } t none ∧
        (s.advance dt).rosterFrame t)) ∧
  (∀ (dt n : Nat) (s : State) (p : Peer) (d : Nat), s.powered = true → s.session.inGame = true →
      s.peer n = some p → p.present = false → p.removalAt = some d →
      (s.now + dt < d → exec (.removalDeadline dt n) s = .next (s.advance dt).onLine) ∧
      (d ≤ s.now + dt → s.rosterOk → s.routesOk → s.marksOk →
        ∃ t : State, exec (.removalDeadline dt n) s = .next t.onLine ∧ t.peer n = none ∧
          (∀ q, q ≠ n → t.peer q = s.peer q) ∧ (∀ m < 256, t.route m = s.route m) ∧
          t.marks = s.marks ∧
          State.routed { s.advance dt with roster := s.roster.filter fun q => q.tile != n } t none ∧
          (s.advance dt).rosterFrame t))

/-! ## Marks and claims -/

/-- An UPDATE item for a replica routed to its sender is accepted, with a mark-change event where the mark is watched
and the item changes its value or state, or by one of R12's tests it is dropped and changes nothing (R12, R13, R21).
Of a SILENT sender, its entry is PRESENT and routing R15's, with all that it brings, before the item is judged (R12,
R80, R88). -/
def Obligations.UpdateItemIsJudged : Prop :=
  (∀ (dt : Nat) (rx : Reception) (s : State) (f : GoodFrame) (e m v ver ct cg : Byte),
    s.gets rx f → f.kind = .update → f.body = [e, m, v, ver, ct, cg] → ct.toNat ≠ s.tile →
    (∀ r : Replica, s.route m.toNat = .peer f.sender → s.sameGame f.sender → s.mark m.toNat = .replica r →
      (v.toNat ≤ 99 → r.state ≠ .fresh ∨ r.epoch ≠ e ∨
          (1 ≤ (ver - r.version).toNat ∧ (ver - r.version).toNat ≤ 127) →
        s.engineQueue.length < 32 →
        exec (.update dt rx) s = .next
          { s.heardFrom dt f.sender (.good f.corrected) with
            marks := modifyAt (fun _ => .replica ⟨v.toNat, ver, e, .fresh⟩) m.toNat s.marks
            inbox := if s.isWatched m.toNat = true ∧ (r.value ≠ v.toNat ∨ r.state ≠ .fresh) then
                s.inbox ++ [.event (.mark m.toNat) 0]
              else s.inbox }) ∧
      (r.state = .fresh → r.epoch = e →
          ¬ (1 ≤ (ver - r.version).toNat ∧ (ver - r.version).toNat ≤ 127) →
        exec (.update dt rx) s = .next (s.heardFrom dt f.sender (.good f.corrected)))) ∧
    (s.route m.toNat ≠ .peer f.sender ∨ ¬ s.sameGame f.sender ∨ 99 < v.toNat →
      exec (.update dt rx) s = .next (s.heardFrom dt f.sender (.good f.corrected)))) ∧
  (∀ (dt : Nat) (rx : Reception) (s : State) (f : GoodFrame) (p : Peer) (e m v ver ct cg : Byte),
    s.getsSilent rx f p → f.kind = .update → f.body = [e, m, v, ver, ct, cg] → ct.toNat ≠ s.tile →
    ∃ u, s.wakesPeer u dt f p ∧
      (∀ r, u.route m.toNat = .peer f.sender → p.serial = s.serial → u.mark m.toNat = .replica r →
        (v.toNat ≤ 99 → r.state ≠ .fresh ∨ r.epoch ≠ e ∨
            (1 ≤ (ver - r.version).toNat ∧ (ver - r.version).toNat ≤ 127) →
          u.engineQueue.length < 32 →
          exec (.update dt rx) s = .next
            { u with
              marks := modifyAt (fun _ => .replica ⟨v.toNat, ver, e, .fresh⟩) m.toNat u.marks
              inbox := if s.isWatched m.toNat = true ∧ (r.value ≠ v.toNat ∨ r.state ≠ .fresh) then
                  u.inbox ++ [.event (.mark m.toNat) 0]
                else u.inbox }) ∧
        (r.state = .fresh → r.epoch = e →
            ¬ (1 ≤ (ver - r.version).toNat ∧ (ver - r.version).toNat ≤ 127) →
          exec (.update dt rx) s = .next u)) ∧
      (u.route m.toNat ≠ .peer f.sender ∨ p.serial ≠ s.serial ∨ 99 < v.toNat →
        exec (.update dt rx) s = .next u))

/-- A SNAPSHOT, of a PRESENT sender or a SILENT one (R12, R13, R21, R80, R113): each of its items that passes the
tests makes its replica FRESH at the item's value and version, whatever the replica's state was, the others are
dropped, and no other entry changes; one whose count is 0 or above 16, or does not fit its length, changes nothing. -/
def Obligations.SnapshotItemsAreAccepted : Prop :=
  ∀ (dt : Nat) (rx : Reception) (s : State) (f : GoodFrame), f.kind = .snapshot → s.marks.length = 256 →
    s.gets rx f ∨ (∃ p, s.getsSilent rx f p) →
    ∃ u t, s.shows u dt rx f ∧ exec (.snapshot dt rx) s = .next t ∧
      (numAt f.body 2 = 0 ∨ 16 < numAt f.body 2 ∨ f.body.length ≠ 3 + 2 * numAt f.body 2 → t = u) ∧
      (1 ≤ numAt f.body 2 → numAt f.body 2 ≤ 16 → f.body.length = 3 + 2 * numAt f.body 2 →
        u.takesItems t f.sender f.body)

/-- A granted remote claim (R30, R33): value, version, flags and cause at the owner, and its GRANT at the
tail of the answer queue, at one moment; of a PRESENT sender and of a SILENT one, whose entry is PRESENT and routing
R15's before the claim is taken (R32, R80, R88). -/
def Obligations.RemoteClaimIsGranted : Prop :=
  (∀ (dt : Nat) (rx : Reception) (s : State) (f : GoodFrame) (tag m op a b : Byte) (o : Owned) (v : Nat),
    s.gets rx f → f.kind = .claim → f.body = [tag, m, op, a, b] → f.addressee = s.tile →
    s.session.onBoard = true → s.sameGame f.sender → s.answers.length + s.loader.seals.length < 8 →
    s.inWindow m.toNat = true → s.mark m.toNat = .owned o → o.sealed = false →
    decideOp o.kind o.value (ClaimOp.ofCode op.toNat) a.toNat b.toNat = .ok v →
    s.engineQueue.length < 32 →
    exec (.claim dt rx) s = .next
      { s.heardFrom dt f.sender (.good f.corrected) with
        marks := modifyAt (fun _ => .owned
          { o with value := v, version := o.version + 1, announce := true,
                   pending := some (o.pending.getD (s.now + dt)),
                   cause := some (f.sender, tag), captured := false }) m.toNat s.marks
        answers := s.answers ++ [⟨.grant v (o.version + 1), .claim, f.sender, tag, m.toNat⟩]
        inbox := if s.isWatched m.toNat = true ∧ v ≠ o.value then
            s.inbox ++ [.event (.mark m.toNat) 0]
          else s.inbox
        writer := { s.writer with
          oldestPending := if s.anyPending = true then s.writer.oldestPending
            else some (s.now + dt) } }) ∧
  (∀ (dt : Nat) (rx : Reception) (s : State) (f : GoodFrame) (p : Peer) (tag m op a b : Byte) (o : Owned) (v : Nat),
    s.getsSilent rx f p → f.kind = .claim → f.body = [tag, m, op, a, b] → f.addressee = s.tile →
    ∃ u, s.wakesPeer u dt f p ∧
      (s.session = .listening ∨ p.serial ≠ s.serial → exec (.claim dt rx) s = .next u) ∧
      (s.session.onBoard = true → p.serial = s.serial → s.answers.length + s.loader.seals.length < 8 →
        s.inWindow m.toNat = true → s.mark m.toNat = .owned o → o.sealed = false → s.marks.length = 256 →
        decideOp o.kind o.value (ClaimOp.ofCode op.toNat) a.toNat b.toNat = .ok v →
        u.engineQueue.length < 32 →
        exec (.claim dt rx) s = .next
          { u with
            marks := modifyAt (fun _ => .owned
              { o with value := v, version := o.version + 1, announce := true,
                       pending := some (o.pending.getD (s.now + dt)),
                       cause := some (f.sender, tag), captured := false }) m.toNat u.marks
            answers := s.answers ++ [⟨.grant v (o.version + 1), .claim, f.sender, tag, m.toNat⟩]
            inbox := if s.isWatched m.toNat = true ∧ v ≠ o.value then
                u.inbox ++ [.event (.mark m.toNat) 0]
              else u.inbox
            writer := { s.writer with
              oldestPending := if u.anyPending = true then s.writer.oldestPending
                else some (s.now + dt) } }))

/-- A remote claim that is not granted changes no mark: refused, it queues its REFUSE with the reason of the
first check that fails (R26, R33); at a full answer queue it sets OVERRUN (R33); of a sender in another game,
in LISTENING, or addressed elsewhere, it is dropped (R32). -/
def Obligations.RemoteClaimIsTurnedAway : Prop :=
  ∀ (dt : Nat) (rx : Reception) (s : State) (f : GoodFrame) (tag m op a b : Byte) (reason : Reason),
    s.gets rx f → f.kind = .claim → f.body = [tag, m, op, a, b] →
    ((s.session = .listening ∨ ¬ s.sameGame f.sender ∨ f.addressee ≠ s.tile) →
      exec (.claim dt rx) s = .next (s.heardFrom dt f.sender (.good f.corrected))) ∧
    (f.addressee = s.tile → s.session.onBoard = true → s.sameGame f.sender →
      (8 ≤ s.answers.length + s.loader.seals.length →
        exec (.claim dt rx) s = .next
          { s.heardFrom dt f.sender (.good f.corrected) with
            health := { s.health with overrun := true } }) ∧
      (s.answers.length + s.loader.seals.length < 8 →
        (s.inWindow m.toNat = false ∧ reason = .notOwner) ∨
        (s.inWindow m.toNat = true ∧ ∃ o, s.mark m.toNat = .owned o ∧
          ((o.sealed = true ∧ reason = .sealed) ∨ (o.sealed = false ∧
            decideOp o.kind o.value (ClaimOp.ofCode op.toNat) a.toNat b.toNat = .error reason))) →
        exec (.claim dt rx) s = .next
          { s.heardFrom dt f.sender (.good f.corrected) with
            answers := s.answers ++ [⟨.refuse reason, .claim, f.sender, tag, m.toNat⟩] }))

/-- SET is granted with its operand within the kind's range; SWAP, where the value is its first operand, with
its second within the range, and otherwise refused MISMATCH; RANGE refuses the rest, an operation code that
names none of the four among it (R26, R27). -/
def Obligations.SetAndSwapReplaceTheValue : Prop :=
  ∀ (k : MarkKind) (v a b : Nat),
    (a ≤ k.max → decideOp k v (some .set) a b = .ok a) ∧
    (k.max < a → decideOp k v (some .set) a b = .error .range) ∧
    (v ≠ a → decideOp k v (some .swap) a b = .error .mismatch) ∧
    (v = a → b ≤ k.max → decideOp k v (some .swap) a b = .ok b) ∧
    (v = a → k.max < b → decideOp k v (some .swap) a b = .error .range) ∧
    decideOp k v none a b = .error .range

/-- ADD of 1 to 99 on a FLAG or LEVEL mark is granted with the sum, or the kind's maximum; TAKE is granted with
the difference when the value is at least the amount, and refused SHORT otherwise; an amount of 0 or of 100 and
above is refused RANGE (R28). -/
def Obligations.FlagAndLevelArithmetic : Prop :=
  ∀ (k : MarkKind) (v n b : Nat), k ≠ .tally → v ≤ k.max →
    (1 ≤ n → n ≤ 99 →
      (v + n ≤ k.max → decideOp k v (some .add) n b = .ok (v + n)) ∧
      (k.max < v + n → decideOp k v (some .add) n b = .ok k.max) ∧
      (n ≤ v → decideOp k v (some .take) n b = .ok (v - n)) ∧
      (v < n → decideOp k v (some .take) n b = .error .short)) ∧
    (n = 0 ∨ 100 ≤ n →
      decideOp k v (some .add) n b = .error .range ∧ decideOp k v (some .take) n b = .error .range)

/-- ADD and TAKE on a TALLY, digit by digit, come to the ordinary sum and difference clamped to 0–99; an amount
of 0 or of 100 and above is refused RANGE (R29). -/
def Obligations.TallyArithmetic : Prop :=
  ∀ v n b : Nat, v ≤ 99 →
    (1 ≤ n → n ≤ 99 →
      decideOp .tally v (some .add) n b = .ok (min (v + n) 99) ∧
      (n ≤ v → decideOp .tally v (some .take) n b = .ok (v - n)) ∧
      (v < n → decideOp .tally v (some .take) n b = .error .short)) ∧
    (n = 0 ∨ 100 ≤ n →
      decideOp .tally v (some .add) n b = .error .range ∧
      decideOp .tally v (some .take) n b = .error .range)

/-- A GRANT or REFUSE that meets a SENT entry ends it with its outcome (R42, R43, R47); one that meets none
changes nothing. An UPDATE from the routed owner that names this tile, the tag and the mark ends a SENT entry
GRANTED, whatever became of its item (R13, R44). -/
def Obligations.AnswerEndsItsEntry : Prop :=
  (∀ (dt : Nat) (rx : Reception) (s : State) (f : GoodFrame) (tag m : Byte), s.gets rx f →
      f.addressee = s.tile → s.tagsOk →
      (∀ e d, e ∈ s.claims → e.tag = tag → e.mark = m.toNat → e.owner = f.sender → e.phase = .sent d →
        (∀ v ver, f.kind = .grant → f.body = [tag, m, v, ver] →
          exec (.grant dt rx) s = .next
            { s.heardFrom dt f.sender (.good f.corrected) with
              claims := s.claims.filter fun e => e.tag != tag
              inbox := s.inbox ++ [.answer e.step tag .granted] }) ∧
        (∀ code reason, f.kind = .refuse → f.body = [tag, m, code] →
          Reason.ofCode code.toNat = some reason →
          exec (.refuse dt rx) s = .next
            { s.heardFrom dt f.sender (.good f.corrected) with
              claims := s.claims.filter fun e => e.tag != tag
              inbox := s.inbox ++ [.answer e.step tag (.refused reason)] })) ∧
      ((∀ e d, e ∈ s.claims → ¬ (e.tag = tag ∧ e.mark = m.toNat ∧ e.owner = f.sender ∧ e.phase = .sent d)) →
        (∀ v ver, f.kind = .grant → f.body = [tag, m, v, ver] →
          exec (.grant dt rx) s = .next (s.heardFrom dt f.sender (.good f.corrected))) ∧
        (∀ code, f.kind = .refuse → f.body = [tag, m, code] →
          exec (.refuse dt rx) s = .next (s.heardFrom dt f.sender (.good f.corrected))))) ∧
  (∀ (dt : Nat) (rx : Reception) (s : State) (f : GoodFrame) (e m v ver ct tag : Byte) (c : ClaimEntry)
      (d : Nat), s.gets rx f → f.kind = .update → f.body = [e, m, v, ver, ct, tag] → ct.toNat = s.tile →
      s.tagsOk → c ∈ s.claims → c.tag = tag → c.mark = m.toNat → c.owner = f.sender → c.phase = .sent d →
      ∃ t, exec (.update dt rx) s = .next t ∧ t.claims = s.claims.filter (fun e => e.tag != tag) ∧
        t.inbox.getLast? = some (.answer c.step tag .granted) ∧
        t = { s.heardFrom dt f.sender (.good f.corrected) with
          marks := t.marks
          inbox := t.inbox
          health := t.health
          claims := t.claims })

/-- A SENT entry whose deadline has come ends NO_ANSWER (R45). A command before the deadline, or for an entry
that is QUEUED and has none, only moves the time on: the model's choice (notes/assumptions/8.md). -/
def Obligations.ClaimDeadlineEndsItsEntry : Prop :=
  ∀ (dt : Nat) (s : State) (e : ClaimEntry), s.powered = true → s.session.inGame = true → s.tagsOk →
    e ∈ s.claims →
    (∀ d, e.phase = .sent d → d ≤ s.now + dt →
      exec (.claimDeadline dt e.tag) s = .next (State.onLine
        { s.advance dt with
          claims := s.claims.filter fun c => c.tag != e.tag
          inbox := s.inbox ++ [.answer e.step e.tag .noAnswer] })) ∧
    (∀ d, e.phase = .sent d → s.now + dt < d →
      exec (.claimDeadline dt e.tag) s = .next (s.advance dt).onLine) ∧
    (e.phase = .queued → exec (.claimDeadline dt e.tag) s = .next (s.advance dt).onLine)

/-- An ASK addressed to the tile starts the snapshot run at the window's first mark, or restarts it: at once,
or when the SNAPSHOT outstanding ends (R23, R24). Of a SILENT sender, its entry is PRESENT and routing R15's before
the ASK is taken (R80, R88). -/
def Obligations.AskStartsTheRun : Prop :=
  (∀ (dt : Nat) (rx : Reception) (s : State) (f : GoodFrame), s.gets rx f → f.kind = .ask →
    (f.addressee ≠ s.tile ∨ s.session = .listening ∨ s.winSize = 0 →
      exec (.ask dt rx) s = .next (s.heardFrom dt f.sender (.good f.corrected))) ∧
    (f.addressee = s.tile → s.session.onBoard = true → s.winSize ≠ 0 →
      (s.run.running = false → exec (.ask dt rx) s = .next
        { s.heardFrom dt f.sender (.good f.corrected) with
          run := { running := true, next := s.winFirst, restart := false } }) ∧
      (s.run.running = true → s.snapshotOut = true → exec (.ask dt rx) s = .next
        { s.heardFrom dt f.sender (.good f.corrected) with run := { s.run with restart := true } }) ∧
      (s.run.running = true → s.snapshotOut = false → exec (.ask dt rx) s = .next
        { s.heardFrom dt f.sender (.good f.corrected) with run := { s.run with next := s.winFirst } }))) ∧
  (∀ (dt : Nat) (rx : Reception) (s : State) (f : GoodFrame) (p : Peer), s.getsSilent rx f p → f.kind = .ask →
    ∃ u, s.wakesPeer u dt f p ∧
      (f.addressee ≠ s.tile ∨ s.session = .listening ∨ s.winSize = 0 → exec (.ask dt rx) s = .next u) ∧
      (f.addressee = s.tile → s.session.onBoard = true → s.winSize ≠ 0 → s.run.running = false →
        exec (.ask dt rx) s = .next { u with run := { running := true, next := s.winFirst, restart := false } }))

/-! ## Session Control -/

/-- A NEW_GAME with another serial is taken whole (R188): serial and epoch; every owned non-sealed mark at its
initial value and version 0, to be journalled (R10), every replica blank; the queues emptied, the transmit queue
left with the ASKs of R92 alone, in order of tile number, those beyond its 8 places lost with OVERRUN; the steps
at their start (R50); pads, timers, lights, tones and digits; the frame outstanding severed from its source
(R118, R120) and the HAIL requested (R115); the run begun anew; the NEW_GAME slot owed and every captured flag
clear once no store operation is in progress (R171); of the health flags OVERRUN alone may change (R181). One
with the tile's own serial is dropped (R187). Of a SILENT sender, its entry is PRESENT and routing R15's before the
frame is taken (R80, R88). That a new game waits in a register of its own for an operation in
progress is the model's form of R171 (notes/assumptions/18.md), and a new game in LISTENING queues its ASKs at
once (notes/assumptions/32.md), and every phase count becomes 0 (notes/assumptions/37.md), by the model's choice. -/
def Obligations.NewGameIsTakenWhole : Prop :=
  (∀ (dt : Nat) (rx : Reception) (s : State) (f : GoodFrame) (g : Byte), s.gets rx f →
    f.kind = .newGame → f.body = [g] →
    (g = s.serial → exec (.newGame dt rx) s = .next (s.heardFrom dt f.sender (.good f.corrected))) ∧
    (g ≠ s.serial → s.rosterOk → ∃ t, exec (.newGame dt rx) s = .next t ∧
      (s.heardFrom dt f.sender (.good f.corrected)).startsGame t g)) ∧
  (∀ (dt : Nat) (rx : Reception) (s : State) (f : GoodFrame) (p : Peer) (g : Byte), s.getsSilent rx f p →
    f.kind = .newGame → f.body = [g] → s.rosterOk →
    ∃ u t, s.wakesPeer u dt f p ∧ u.rosterOk ∧ exec (.newGame dt rx) s = .next t ∧
      (g = s.serial → t = u) ∧ (g ≠ s.serial → u.startsGame t g))

/-- A REST frame (R184, R189): REST entry in PLAY, the rest-owed flag in LISTENING, nothing in REST; of a PRESENT
sender and of a SILENT one, whose entry is PRESENT and routing R15's before it is taken (R80, R88). -/
def Obligations.RestFrameRests : Prop :=
  ∀ (dt : Nat) (rx : Reception) (s : State) (f : GoodFrame), f.kind = .rest →
    s.gets rx f ∨ (∃ p, s.getsSilent rx f p) →
    ∃ u, s.shows u dt rx f ∧
      (s.session = .rest → exec (.rest dt rx) s = .next u) ∧
      (s.session = .listening → exec (.rest dt rx) s = .next { u with restOwed := true }) ∧
      (s.session = .play → exec (.rest dt rx) s = .next u.rested)

/-- A WAKE frame (R184, R190): the return to PLAY in REST, with the events held on the pads released in pad
order; in LISTENING the rest-owed flag is cleared; in PLAY nothing happens; of a PRESENT sender and of a SILENT one,
whose entry is PRESENT and routing R15's before it is taken (R80, R88). -/
def Obligations.WakeFrameWakes : Prop :=
  ∀ (dt : Nat) (rx : Reception) (s : State) (f : GoodFrame), f.kind = .wake →
    s.gets rx f ∨ (∃ p, s.getsSilent rx f p) →
    ∃ u, s.shows u dt rx f ∧
      (s.session = .play → exec (.wake dt rx) s = .next u) ∧
      (s.session = .listening → exec (.wake dt rx) s = .next { u with restOwed := false }) ∧
      (s.session = .rest → u.engineQueue.length ≤ 26 → exec (.wake dt rx) s = .next
        { u with
          session := .play
          roster := u.roster.map fun p =>
            if p.present = true then { p with silenceAt := some (s.now + dt + 7500000) }
            else { p with removalAt := some (s.now + dt + 60000000) }
          lights := s.lights.map fun l => match l.pattern with
            | .blink _ _ => { l with phase := 0 }
            | _ => l
          hail := { s.hail with
            due := some (s.hail.lastEnd.getD (s.now + dt) + (2000000 + 8000 * s.tile)) }
          inbox := u.inbox ++ s.heldEvents
          pads := s.pads.map fun p => { p with held := none } })

/-- The listening deadline that has come takes the tile to PLAY (R184, R185): the HAIL requested, the run started
unless the window is empty, one that runs begun again (R23, R24), an ASK to each PRESENT owner of a watched mark that
has none queued, in order of tile number, those that find no place lost with OVERRUN; with rest owed, to REST at once
after that (R189). A command before the deadline only moves the time on: the model's choice
(notes/assumptions/8.md). -/
def Obligations.ListeningEndsInPlay : Prop :=
  ∀ (dt : Nat) (s : State) (d : Nat), s.powered = true → s.session = .listening → s.listenAt = some d →
    (s.now + dt < d → exec (.listeningDeadline dt) s = .next (s.advance dt).onLine) ∧
    (d ≤ s.now + dt → ∃ t : State, exec (.listeningDeadline dt) s = .next t.onLine ∧
      t.hail = { s.hail with
        immediate := true
        due := if s.restOwed = true then
            some (s.hail.lastEnd.getD (s.now + dt) + 8 * (2000000 + 8000 * s.tile))
          else s.hail.due } ∧
      t.run = (if s.winSize = 0 then s.run
        else if s.run.running = false then ⟨true, s.winFirst, false⟩
        else if s.snapshotOut = true then { s.run with restart := true }
        else { s.run with next := s.winFirst }) ∧
      t.outstanding = s.outstanding.map (fun o => match o.source with
        | .hail a b c _ => { o with source := .hail a b c true }
        | _ => o) ∧
      (s.rosterOk → s.transmit.length ≤ 8 → ∀ asks : List Queued,
        asks = (s.roster.filter fun p => p.present && s.watchesIn p && !s.askQueued p.tile).map
          (fun p => .ask p.tile) →
        t.transmit = s.transmit ++ asks.take (8 - s.transmit.length) ∧
        t.health.overrun = (s.health.overrun || decide (8 < s.transmit.length + asks.length))) ∧
      t = { s.advance dt with
        session := if s.restOwed = true then .rest else .play
        restOwed := false
        listenAt := none
        hail := t.hail
        run := t.run
        outstanding := t.outstanding
        transmit := t.transmit
        health := { s.health with overrun := t.health.overrun }
        roster := if s.restOwed = true then s.roster.map fun p =>
            { p with silenceAt := if p.present = true then some (p.lastHeard + 60000000) else none
                     removalAt := none }
          else s.roster
        tones := if s.restOwed = true then [] else s.tones
        toneCount := if s.restOwed = true then 0 else s.toneCount
        pads := if s.restOwed = true then s.pads.map fun p => { p with held := none } else s.pads
        timers := if s.restOwed = true then s.timers.map fun x =>
            if x.running = true ∧ x.remaining = 0 then
              { x with remaining := 1, base := x.tick.baseTicks - 1 }
            else x
          else s.timers
        sessionPhase := if s.restOwed = true then 0 else s.sessionPhase })

/-! ## Sending -/

/-- A GAP before 16 quiet beats have passed since the last frame's end, or with a frame on the line, changes nothing
(R99). On an idle line, at the gap or at the moment at which a frame becomes ready while the line is still idle, the
send selector takes the first source in the order of R117 that has a frame to give; in UNWRITTEN and LOADING the
HAIL and the answers alone, in LISTENING, STARTING, SILENT and from droop onward none. And what each frame built
carries (R22, R23, R34, R35, R95, R116, R196), and which mark and how many the slate and the run give. That a GAP
command before its time changes nothing is the model's choice (notes/assumptions/22.md). -/
def Obligations.GapServesSourcesInOrder : Prop :=
  (∀ (dt : Nat) (s : State), s.powered = true →
    (s.session = .starting ∨ s.line = .busy ∨ ∃ q, s.line = .quiet q ∧ s.now + dt < q + 320) →
    exec (.gap dt) s = .next (s.advance dt)) ∧
  (∀ (i : Instr) (dt : Nat) (s u : State), s.idleAt dt i → u = { s.advance dt with line := .idle } →
    s.powered = true →
    (s.outstanding ≠ none ∨ s.droop = true ∨ s.session = .starting ∨ s.session = .listening ∨
        s.session = .silent → exec i s = .next u) ∧
    (s.outstanding = none → s.droop = false → s.session.onBoard = true ∨ s.session.blankTile = true →
      (u.hailIsOverdue = true → ∃ t o, exec i s = .next t ∧ t.outstanding = some o ∧
        o.source = .hail s.health.overrun s.health.loop s.health.rosterFull false ∧
        o.frame = u.hailFrame) ∧
      (u.hailIsOverdue = false → ∀ a rest, s.answers = a :: rest →
        ∃ t o, exec i s = .next t ∧ t.outstanding = some o ∧ o.source = .answer a ∧
          o.frame = u.answerFrame a)) ∧
    (s.outstanding = none → s.droop = false → s.session.blankTile = true → u.hailIsOverdue = false →
      s.answers = [] →
      (u.hailIsDue = true → ∃ t o, exec i s = .next t ∧ t.outstanding = some o ∧
        o.frame = u.hailFrame) ∧
      (u.hailIsDue = false → exec i s = .next u)) ∧
    (s.outstanding = none → s.droop = false → s.session.onBoard = true → u.hailIsOverdue = false →
      s.answers = [] →
      (∀ m o', s.slateMark = some m → s.mark m = .owned o' →
        ∃ t o, exec i s = .next t ∧ t.outstanding = some o ∧ o.source = .slate m ∧
          o.frame = u.updateFrame m o') ∧
      (s.slateMark = none →
        (s.run.running = true → ∃ t o, exec i s = .next t ∧ t.outstanding = some o ∧
          o.source = .snapshot s.runCount ∧ o.frame = u.snapshotFrame) ∧
        (s.run.running = false →
          (∀ q rest, s.transmit = q :: rest → ∃ t o, exec i s = .next t ∧
            t.outstanding = some o ∧ o.source = .queue q ∧ o.frame = u.queuedFrame q) ∧
          (s.transmit = [] →
            (u.hailIsDue = true → ∃ t o, exec i s = .next t ∧ t.outstanding = some o ∧
              o.frame = u.hailFrame) ∧
              (u.hailIsDue = false → exec i s = .next u)))))) ∧
  FramesCarryTheirContent

/-- The frame chosen on an idle line (R99, R101, R102, R114): class PROMOTED while the loss counter stands at 8,
the body STRONG exactly while a PRESENT entry lists this tile poor, preamble and key on a line that is idle no
more, and nothing won yet. -/
def Obligations.ContendingFrameHasItsKeyAndRate : Prop :=
  ∀ (i : Instr) (dt : Nat) (s t : State) (o : Outstanding), s.idleAt dt i → s.powered = true →
    s.outstanding = none → exec i s = .next t → t.outstanding = some o →
    o.key = contentionKey (if 8 ≤ s.losses then .promoted else o.frame.kind.contentionClass) s.tile ∧
    (o.frame.strong = true ↔ ∃ p ∈ s.roster, p.present = true ∧ p.listsMePoor = true) ∧
    o.won = false ∧ o.live = true ∧
    ((∀ m, o.source ≠ .slate m) → t.marks = s.marks) ∧
    (∀ m, o.source = .slate m → t.marks = modifyAt (MarkEntry.onOwned fun x =>
      if x.sealed = true then x else { x with announce := false }) m s.marks) ∧
    t = { s.advance dt with
      outstanding := some o
      lineOut := preamble ++ keySymbols o.key
      line := .busy
      marks := t.marks }

/-- Contention (R99, R101, R102, R118): a contender that sees a pulse where it drives quiet has lost, and so has one
kept from beginning by another's first pulse; its frame stays with its source, if that still holds it: a HAIL or an
answer as it is, an UPDATE's mark announced again, a run restarted where a restart waited, a CLAIM whose entry has
ended taken out of the transmit queue. One that sees no pulse has won and drives its whole frame. A tile with
nothing outstanding loses nothing when another's frame takes the line (R117). That CONTENTION_LOST without a symbol
seen stands for the first pulse of another station's frame, whether or not the tile has one outstanding, the model
reads from the spec (notes/assumptions/26.md). -/
def Obligations.ContentionIsDecidedByTheKey : Prop :=
  (∀ (dt : Nat) (s u : State) (o : Outstanding) (seen : Option (List Symbol)), s.powered = true →
    s.outstanding = some o → o.won = false →
    u = { s.advance dt with
      outstanding := none
      lineOut := []
      line := .busy
      losses := min 8 (s.losses + 1) } →
    (∀ line, seen = some line → losesKey o.key line = true) →
    ∃ t, s.gaveBack u t o ∧ exec (.contentionLost dt seen) s = .next t) ∧
  (∀ (dt : Nat) (s : State) (o : Outstanding) (line : List Symbol), s.powered = true →
    s.outstanding = some o →
    (o.won = true ∨ losesKey o.key line = false →
      exec (.contentionLost dt (some line)) s = .next (s.advance dt)) ∧
    (o.won = false → losesKey o.key line = false →
      exec (.contentionWon dt line) s = .next
        { s.advance dt with
          losses := 0
          outstanding := some { o with won := true }
          lineOut := frameSymbols s.tile o.key o.frame })) ∧
  (∀ (dt : Nat) (s : State), s.powered = true → s.outstanding = none →
    exec (.contentionLost dt none) s = .next { s.advance dt with line := .busy })

/-- The last beat of a frame, from which the gap counts (R23, R24, R41, R99, R115, R116, R118, R119): a HAIL
clears the event flags it carried and sets its next due time; a CLAIM leaves the transmit queue and its entry
becomes SENT with its deadline 300 ms later; a CUE, an ASK and a WAKE leave the transmit queue; an answer leaves its
queue, the GRANT of a seal apart; an UPDATE leaves the announce flag as it stands; a SNAPSHOT advances its run,
ends it at the window's last mark, or restarts it where a restart waited. Any other frame that its source holds no
more changes nothing there. -/
def Obligations.SentFrameLeavesItsSource : Prop :=
  ∀ (dt : Nat) (run : StartRun) (s u : State) (o : Outstanding), s.powered = true →
    s.outstanding = some o → o.won = true →
    u = { s.advance dt with outstanding := none, lineOut := [], line := .quiet (s.now + dt) } →
    (∀ a b c d, o.source = .hail a b c d →
      exec (.frameSent dt run) s = .next
        { u with
          health := { s.health with
            overrun := s.health.overrun && !a
            loop := s.health.loop && !b
            rosterFull := s.health.rosterFull && !c }
          hail :=
            { due := some (s.now + dt +
                (if s.session = .rest then 8 else 1) * (2000000 + 8000 * s.tile))
              immediate := s.hail.immediate && d
              lastEnd := some (s.now + dt) } }) ∧
    (o.live = true →
      (∀ tag m op a b owner, o.source = .queue (.claim tag m op a b owner) →
        exec (.frameSent dt run) s = .next
          { u with
            transmit := s.transmit.tail
            claims := s.claims.map fun e =>
              if e.tag = tag ∧ e.phase = .queued then { e with phase := .sent (s.now + dt + 300000) }
              else e }) ∧
      (∀ q, o.source = .queue q → (∀ tag m op a b owner, q ≠ .claim tag m op a b owner) →
        exec (.frameSent dt run) s = .next { u with transmit := s.transmit.tail }) ∧
      (∀ a, o.source = .answer a → a.answers ≠ .seal ∨ (∃ r, a.word = .refuse r) →
        exec (.frameSent dt run) s = .next { u with answers := s.answers.tail }) ∧
      (∀ m, o.source = .slate m → exec (.frameSent dt run) s = .next u) ∧
      (∀ n, o.source = .snapshot n →
        exec (.frameSent dt run) s = .next
          { u with run :=
              if s.run.restart = true then { s.run with next := s.winFirst, restart := false }
              else { s.run with
                running := s.run.running && decide (s.run.next + n < s.winFirst + s.winSize)
                next := s.run.next + n } })) ∧
    (o.live = false → (∀ a b c d, o.source ≠ .hail a b c d) →
      (∀ a, o.source = .answer a → a.answers ≠ .seal) → exec (.frameSent dt run) s = .next u)

/-- The HAIL is due from its due time and overdue 1,000 ms later (R115). That the moment's coming is the time's
moving on, HAIL_DUE changing no register of the schedule, is the model's choice (notes/assumptions/8.md); on an
idle line the frame that is ready is chosen at this moment (R117). -/
def Obligations.HailFallsDueWithTime : Prop :=
  ∀ (dt : Nat) (s : State) (d : Nat), s.powered = true → s.hail.due = some d →
    exec (.hailDue dt) s = .next (s.advance dt).onLine ∧
    ((s.advance dt).hailIsDue = true ↔ d ≤ s.now + dt) ∧
    ((s.advance dt).hailIsOverdue = true ↔ s.hail.immediate = true ∨ d + 1000000 ≤ s.now + dt)

/-! ## Pads, timers and outputs -/

/-- A gate in EMPTY and ARRIVING (R126): an EMPTY pad that reads present becomes ARRIVING with run 1; in
ARRIVING presence advances the run, to READING when it equals D, and absence leads back to EMPTY. -/
def Obligations.PadWaitsForPresence : Prop :=
  ∀ (d run : Nat) (c : Option Nat),
    padStep d .empty .absent = (.empty, []) ∧
    padStep d .empty (.present c) = (.arriving 1, []) ∧
    (run + 1 ≠ d → padStep d (.arriving run) (.present c) = (.arriving (run + 1), [])) ∧
    (run + 1 = d → padStep d (.arriving run) (.present c) = (.reading 0 none, [])) ∧
    padStep d (.arriving run) .absent = (.empty, [])

/-- A gate in READING (R127): absence leads back to EMPTY; a class that repeats the last one gives PLACED,
the pair test before the count test; the eighth gate without a pair gives MISREAD; another gate goes on with
the class it read, or with none. -/
def Obligations.PadReadsTheClass : Prop :=
  ∀ (d n c : Nat) (last : Option Nat),
    padStep d (.reading n last) .absent = (.empty, []) ∧
    (last = some c →
      padStep d (.reading n last) (.present (some c)) = (.occupied (some c) none, [.placed c])) ∧
    (last ≠ some c → n + 1 = 8 →
      padStep d (.reading n last) (.present (some c)) = (.occupied none none, [.misread])) ∧
    (last ≠ some c → n + 1 ≠ 8 →
      padStep d (.reading n last) (.present (some c)) = (.reading (n + 1) (some c), [])) ∧
    (n + 1 = 8 → padStep d (.reading n last) (.present none) = (.occupied none none, [.misread])) ∧
    (n + 1 ≠ 8 → padStep d (.reading n last) (.present none) = (.reading (n + 1) none, []))

/-- A gate in OCCUPIED (R128): absence leads to LEAVING; the held class, or none, clears the change candidate;
another class twice running gives LIFTED and PLACED; once, it becomes the candidate. And a gate in LEAVING (R129):
absence for D gates gives LIFTED, presence leads back to OCCUPIED; in LEAVING the pad still holds its piece for
PAD_HOLDS, and a RECHECK emits nothing. -/
def Obligations.PadWatchesForLeaving : Prop :=
  (∀ (d run c : Nat) (held cand : Option Nat) (x : Option Nat),
    padStep d (.occupied held cand) .absent = (.leaving held 1, []) ∧
    padStep d (.occupied held cand) (.present none) = (.occupied held none, []) ∧
    (held = some c → padStep d (.occupied held cand) (.present (some c)) = (.occupied held none, [])) ∧
    (held ≠ some c → cand = some c → padStep d (.occupied held cand) (.present (some c)) =
      (.occupied (some c) none, [.lifted held, .placed c])) ∧
    (held ≠ some c → cand ≠ some c → padStep d (.occupied held cand) (.present (some c)) =
      (.occupied held (some c), [])) ∧
    (run + 1 = d → padStep d (.leaving held run) .absent = (.empty, [.lifted held])) ∧
    (run + 1 ≠ d → padStep d (.leaving held run) .absent = (.leaving held (run + 1), [])) ∧
    padStep d (.leaving held run) (.present x) = (.occupied held none, [])) ∧
  (∀ (s : State) (i run : Nat) (held cls : Option Nat), (s.pad i).state = .leaving held run →
    (s.padHolds i cls = true ↔ cls = none ∨ cls = held) ∧ s.recheck i = s)

/-- A gate's end (R122, R124, R130): each count gives its reading by the empty limit and the lowest band that contains
it, every fitted pad's machine moves by its reading, and the next gate follows without interval. In LISTENING or PLAY
the enabled events join the engine queue in pad order (R130, R131). In REST a wake-enabled pad holds its last enabled
event, and a gate that sets a held event wakes the tile: a WAKE frame is offered, the tile is in PLAY as after a WAKE
frame, and the held events join the engine queue in pad order (R134, R135, R190). In SILENT the events are discarded
(R132). With no gate begun nothing happens. That a command before the gate's 8 ms only moves the time on, and that a
late one's next gate counts from the moment due, is the model's choice (notes/assumptions/8.md), and so is a count of
0 for a pad that is given none (notes/assumptions/5.md). -/
def Obligations.GateEndMovesEveryPad : Prop :=
  (∀ (dt : Nat) (counts : List Nat) (s : State), s.powered = true →
    (s.gateStart = none → exec (.gateEnd dt counts) s = .next (s.advance dt).onLine) ∧
    (∀ g, s.gateStart = some g →
      (s.now + dt < g + 8000 → exec (.gateEnd dt counts) s = .next (s.advance dt).onLine) ∧
      (∀ u : State, g + 8000 ≤ s.now + dt → s.pads.length = 6 → s.header.padCount ≤ 6 →
        u = { s.advance dt with
          gateStart := some (g + 8000)
          pads := (List.range 6).map (s.gatePad counts) } →
        (s.session = .listening ∨ s.session = .play →
          s.engineQueue.length + (s.gateEvents counts).length ≤ 32 →
          exec (.gateEnd dt counts) s = .next
            (State.onLine { u with inbox := s.inbox ++ s.gateEvents counts })) ∧
        (s.session = .silent → exec (.gateEnd dt counts) s = .next u) ∧
        (s.session = .rest → s.gateHoldsNone counts →
          exec (.gateEnd dt counts) s = .next u.onLine) ∧
        (s.session = .rest → ¬ s.gateHoldsNone counts → s.engineQueue.length ≤ 26 →
          exec (.gateEnd dt counts) s = .next (State.onLine
            { u with
              session := .play
              transmit := if s.transmit.length < 8 then s.transmit ++ [.wake] else s.transmit
              health := { s.health with overrun := s.health.overrun || decide (8 ≤ s.transmit.length) }
              roster := s.roster.map fun p =>
                if p.present = true then { p with silenceAt := some (s.now + dt + 7500000) }
                else { p with removalAt := some (s.now + dt + 60000000) }
              lights := s.lights.map fun l => match l.pattern with
                | .blink _ _ => { l with phase := 0 }
                | _ => l
              hail := { s.hail with
                due := some (s.hail.lastEnd.getD (s.now + dt) + (2000000 + 8000 * s.tile)) }
              inbox := s.inbox ++ (List.range 6).filterMap fun i =>
                (s.gateHeld counts i).map fun k => .event (.pad i k) 0
              pads := (List.range 6).map fun i => { s.gatePad counts i with held := none } }))))) ∧
  CountsAreRead

/-- A base tick in LISTENING or PLAY with no expiry or tone's end left over (R140, R144, R149): running timers
count, BLINK phases and the playing tone advance. In REST, UNWRITTEN, LOADING and SILENT these stand frozen, and in
REST, UNWRITTEN and SILENT the session pattern's own phase moves on, in LOADING none (R142, R146). A command before
1/64 s has passed only moves the time on, and a late one's tick counts from the moment due, the model's choice
(notes/assumptions/8.md); a timer that the tick brings to 0 expires by a command of its own, which the model reads
from the spec (notes/assumptions/9.md). -/
def Obligations.BaseTickCounts : Prop :=
  ∀ (dt : Nat) (s : State) (g : Nat), s.powered = true → s.session ≠ .starting → s.lastTick = some g →
    (s.now + dt < g + 15625 → exec (.baseTick dt) s = .next (s.advance dt).onLine) ∧
    (g + 15625 ≤ s.now + dt → s.session = .listening ∨ s.session = .play → s.timers.length = 4 →
      (∀ x ∈ s.timers, ¬ (x.running = true ∧ x.remaining = 0)) →
      (∀ x rest, s.tones = x :: rest → s.toneCount < x.duration) →
      exec (.baseTick dt) s = .next (State.onLine
        { s.advance dt with
          lastTick := some (g + 15625)
          timers := s.timers.map fun x =>
            if x.running = false then x
            else if x.base + 1 = x.tick.baseTicks then { x with base := 0, remaining := x.remaining - 1 }
            else { x with base := x.base + 1 }
          lights := s.lights.map fun l => match l.pattern with
            | .blink period _ => { l with phase := if l.phase + 1 < period then l.phase + 1 else 0 }
            | _ => l
          toneCount := if s.tones = [] then s.toneCount else s.toneCount + 1 })) ∧
    (g + 15625 ≤ s.now + dt → s.session ≠ .listening → s.session ≠ .play →
      exec (.baseTick dt) s = .next (State.onLine
        { s.advance dt with
          lastTick := some (g + 15625)
          sessionPhase :=
            if s.session = .loading then s.sessionPhase
            else if s.sessionPhase + 1 < (if s.session = .silent then 24 else 96) then s.sessionPhase + 1
            else 0 }))

/-- A timer that has reached 0 expires (R140): TIMER_EXPIRED at depth 0, and IDLE in ONCE or reloaded in
REPEAT; the playing tone whose duration has passed leaves the queue, and the next one's wave begins afresh (R149).
That expiry and tone end are commands of their own after the tick the model reads from the spec
(notes/assumptions/9.md); a TONE_END before its time only moves the time on, the model's choice
(notes/assumptions/8.md). -/
def Obligations.ExpiryAndToneEnd : Prop :=
  ∀ (dt : Nat) (s : State), s.powered = true → s.session = .listening ∨ s.session = .play →
    (∀ n x, s.timers[n]? = some x → x.running = true → x.remaining = 0 → s.engineQueue.length < 32 →
      exec (.timerExpiry dt n) s = .next (State.onLine
        { s.advance dt with
          timers := modifyAt (fun _ =>
            if x.repeats = true then { x with remaining := x.preset, base := 0 }
            else { x with running := false, remaining := 0, base := 0 }) n s.timers
          inbox := s.inbox ++ [.event (.timer n) 0] })) ∧
    (∀ x rest, s.tones = x :: rest →
      (x.duration ≤ s.toneCount →
        exec (.toneEnd dt) s = .next (State.onLine
          { s.advance dt with tones := rest, toneCount := 0, toneStart := s.now + dt })) ∧
      (s.toneCount < x.duration → exec (.toneEnd dt) s = .next (s.advance dt).onLine))

/-- The outputs. The lights by session state (R143, R145, R146): the quest patterns in LISTENING and PLAY, none in
STARTING, channel 0 alone steady in LOADING, and blinking 24 of 96 base ticks in UNWRITTEN and REST, 12 of 24 in
SILENT. The digits by their source in LISTENING and PLAY, blank elsewhere (R153, R154). The tone line high for the
first counts of each period of the playing tone's wave, of 2 µs each, since the tone began, as many as the divider
times the duty gives, and low with no tone (R148, R149). That a wave's counts of the tone clock run from the
microsecond at which its tone began is the model's choice (notes/assumptions/25.md). -/
def Obligations.LightsShowTheSession : Prop :=
  (∀ (s : State) (ch : Nat) (l : Light), s.powered = true → s.lights[ch]? = some l →
    ((s.session = .listening ∨ s.session = .play) →
      (l.pattern = .off → s.lightPin ch = false) ∧ (l.pattern = .on → s.lightPin ch = true) ∧
      (∀ p n, l.pattern = .blink p n → (s.lightPin ch = true ↔ l.phase < n)) ∧
      (∀ m, l.pattern = .follow m →
        (s.lightPin ch = true ↔ ∃ v, s.usable m = some v ∧ v ≠ 0))) ∧
    (s.session = .starting → s.lightPin ch = false) ∧
    (s.session = .loading → (s.lightPin ch = true ↔ ch = 0)) ∧
    (s.session = .unwritten ∨ s.session = .rest →
      (s.lightPin ch = true ↔ ch = 0 ∧ s.sessionPhase < 24)) ∧
    (s.session = .silent → (s.lightPin ch = true ↔ ch = 0 ∧ s.sessionPhase < 12))) ∧
  (∀ s : State,
    (s.session ≠ .listening ∧ s.session ≠ .play → s.digitPins = (.blank, .blank)) ∧
    (s.powered = true → s.session = .listening ∨ s.session = .play →
      (s.digits.source = .none → s.digitPins = (.blank, .blank)) ∧
      (∀ n, s.digits.source = .fixed n → s.digitPins = decimal n s.digits.blankZero) ∧
      (∀ m, s.digits.source = .mark m →
        (s.usable m = none → s.digitPins = (.minus, .minus)) ∧
        (∀ v, s.usable m = some v → s.digitPins = decimal v s.digits.blankZero)) ∧
      (∀ n x, s.digits.source = .timer n → s.timers[n]? = some x →
        (x.running = false → s.digitPins = (.minus, .minus)) ∧
        (x.running = true → x.remaining ≠ 0 →
          s.digitPins = decimal (if 99 < x.remaining then 99 else x.remaining) s.digits.blankZero)))) ∧
  (∀ s : State,
    (s.tones = [] → s.tonePin = false) ∧
    (∀ x rest n h, s.tones = x :: rest → n = s.toneTable.getD x.pitch 0 →
      h = n / (match x.duty with | .quarter => 4 | .third => 3 | .half => 2) →
      (s.tonePin = true ↔ ((s.now - s.toneStart) / 2) % n < h)))

/-! ## The Quest Engine -/

/-- A comparison of a MARK_TEST (R57): of a usable mark as the table gives, of a mark that is not usable
false. -/
def Obligations.MarkTestComparesUsableMarks : Prop :=
  ∀ (s : State) (m operand : Nat) (c : Comparison),
    (s.usable m = none → s.levelHolds (.markTest m c operand) = false) ∧
    (∀ v, s.usable m = some v →
      (s.levelHolds (.markTest m .eq operand) = true ↔ v = operand) ∧
      (s.levelHolds (.markTest m .ne operand) = true ↔ v ≠ operand) ∧
      (s.levelHolds (.markTest m .ge operand) = true ↔ operand ≤ v) ∧
      (s.levelHolds (.markTest m .lt operand) = true ↔ v < operand))

/-- A received CUE raises its event at depth 0, whether or not its sender has an entry; a number beyond 63
is dropped, and at a full queue it sets OVERRUN (R60, R62). Of a SILENT sender, its entry is PRESENT and routing
R15's before the CUE is taken (R80, R88). -/
def Obligations.CueIsHeard : Prop :=
  (∀ (dt : Nat) (rx : Reception) (s : State) (f : GoodFrame) (c : Byte), s.gets rx f →
    f.kind = .cue → f.body = [c] →
    (63 < c.toNat → exec (.cue dt rx) s = .next (s.heardFrom dt f.sender (.good f.corrected))) ∧
    (c.toNat ≤ 63 → s.engineQueue.length < 32 → exec (.cue dt rx) s = .next
      { s.heardFrom dt f.sender (.good f.corrected) with
        inbox := s.inbox ++ [.event (.cue c.toNat) 0] }) ∧
    (c.toNat ≤ 63 → 32 ≤ s.engineQueue.length → exec (.cue dt rx) s = .next
      { s.heardFrom dt f.sender (.good f.corrected) with
        health := { s.health with overrun := true } })) ∧
  (∀ (dt : Nat) (rx : Reception) (s : State) (f : GoodFrame) (p : Peer) (c : Byte), s.getsSilent rx f p →
    f.kind = .cue → f.body = [c] →
    ∃ u, s.wakesPeer u dt f p ∧
      (63 < c.toNat → exec (.cue dt rx) s = .next u) ∧
      (c.toNat ≤ 63 → u.engineQueue.length < 32 →
        exec (.cue dt rx) s = .next { u with inbox := u.inbox ++ [.event (.cue c.toNat) 0] }) ∧
      (c.toNat ≤ 63 → 32 ≤ u.engineQueue.length →
        exec (.cue dt rx) s = .next { u with health := { u.health with overrun := true } }))

/-- The engine takes the oldest event (R63 to R67): in REST a pad event is discarded; an event that no ARMED
step names is taken and no more; where one step alone is ARMED, with one condition, an edge that the event
matches, and a DIGITS effect, it fires, applies the effect, raises STEP_DONE one deeper and is ARMED again. And
what a firing does by its effects: CUE, timers, lights, tones, digits and RECHECK in list order, LOOP beyond depth
8 (R59 to R62); ARM, DISARM and DISARM_QUEST, with the firing on the spot (R69 to R71); a claim's issue, tag, entry
and frame, and its outcome within the firing (R37 to R40, R68). And what a trigger is, under ALL and ANY, with edges
remembered and levels tested afresh (R55, R56, R58, R66), what a visit does whatever the step's conditions (R65 to
R67), and two steps visited for one event (R65). That the seen flags of a step left DORMANT, by a DISARM or
DISARM_QUEST of its own, by DROP or by FALLBACK, are clear is the model's choice (notes/assumptions/31.md). -/
def Obligations.EngineEventIsHandled : Prop :=
  (∀ (dt : Nat) (s : State) (e : Happening) (depth : Nat) (rest : List Arrival), s.powered = true →
    s.session.inGame = true → s.inbox = .event e depth :: rest →
    (s.session = .rest → e.isPad = true →
      exec (.engineEventTaken dt) s = .next (State.onLine { s.advance dt with inbox := rest })) ∧
    ((s.session ≠ .rest ∨ e.isPad = false) →
      (∀ (n : Nat) (st : Step), s.steps[n]? = some st → st.state = .armed →
        ∀ c ∈ st.record.conditions, c.concerns e = false) →
      exec (.engineEventTaken dt) s = .next (State.onLine { s.advance dt with inbox := rest })) ∧
    (∀ (n : Nat) (st : Step) c d, (s.session ≠ .rest ∨ e.isPad = false) → n < 64 → s.steps[n]? = some st →
      (∀ (k : Nat) (x : Step), k ≠ n → s.steps[k]? = some x → x.state ≠ .armed) → st.state = .armed →
      st.record.conditions = [c] → c.isEdge = true → c.concerns e = true → c.matchesEvent e = true →
      st.seen = [false] → st.record.effects = [.digits d] → st.record.repeats = 0 → depth < 8 →
      (rest.filter Arrival.isEvent).length < 32 →
      exec (.engineEventTaken dt) s = .next (State.onLine
        { s.advance dt with
          digits := d
          steps := modifyAt (fun _ => { st with tag := none }) n s.steps
          inbox := rest ++ [.event (.stepDone n) (depth + 1)] }))) ∧
  PlainEffectsAreApplied ∧ ArmAndDisarmAct ∧ ClaimsAreIssued ∧ TagsAreFresh ∧ TriggersAreTested ∧
  VisitedStepsAreTested ∧ TwoStepsAreVisited

/-- The engine takes the oldest answer event (R63, R68, R72): one whose tag is not its step's is discarded; a
WITHDRAWN step becomes DORMANT; a PENDING step whose claim was not granted takes its on-refusal path, REARM, DROP
or FALLBACK; one whose claim was granted applies its other effects at depth 0 and completes, SPENT or ARMED. That
the seen flags of a step left DORMANT are cleared, and those of one left SPENT kept, is the model's choice
(notes/assumptions/31.md). -/
def Obligations.AnswerEventIsHandled : Prop :=
  ∀ (dt : Nat) (s u : State) (n : Nat) (tag : Byte) (out : ClaimOutcome) (rest : List Arrival) (st : Step),
    s.powered = true → s.session.inGame = true → s.inbox = .answer n tag out :: rest →
    s.steps[n]? = some st → u = { s.advance dt with inbox := rest } →
    (st.tag ≠ some tag → exec (.answerEventTaken dt) s = .next u.onLine) ∧
    (st.tag = some tag → st.state = .withdrawn →
      exec (.answerEventTaken dt) s = .next (State.onLine
        { u with
          steps := modifyAt (fun _ => { st with state := .dormant, tag := none, seen := st.clearFlags })
            n s.steps })) ∧
    (st.tag = some tag → st.state = .pending → out ≠ .granted →
      (st.record.onRefusal = .drop ∨ st.record.onRefusal = .rearm →
        exec (.answerEventTaken dt) s = .next (State.onLine
          { u with
            steps := modifyAt (fun _ =>
              { st with state := if st.record.onRefusal = .drop then .dormant else .armed
                        tag := none
                        seen := st.clearFlags }) n s.steps })) ∧
      (st.record.onRefusal = .fallback n →
        exec (.answerEventTaken dt) s = .next (State.onLine
          { u with
            steps := modifyAt (fun _ =>
              { st with state := .armed, tag := none, seen := st.clearFlags }) n s.steps })) ∧
      (∀ f x, st.record.onRefusal = .fallback f → f ≠ n → s.steps[f]? = some x →
        (x.state = .quarantined →
          exec (.answerEventTaken dt) s = .next (State.onLine
            { u with
              steps := modifyAt (fun _ =>
                { st with state := .dormant, tag := none, seen := st.clearFlags }) n s.steps })) ∧
        (x.state = .dormant → s.trigger none x.rearmed = false →
          exec (.answerEventTaken dt) s = .next (State.onLine
            { u with
              steps := modifyAt (fun _ => x.rearmed) f (modifyAt (fun _ =>
                { st with state := .dormant, tag := none, seen := st.clearFlags }) n s.steps) })))) ∧
    (∀ op m a b, st.tag = some tag → st.state = .pending → out = .granted →
      st.record.effects = [.claim op m a b] → st.record.repeats = 1 → st.left = 1 →
      (rest.filter Arrival.isEvent).length < 32 →
      exec (.answerEventTaken dt) s = .next
        (u.stepDone n { st with state := .spent, left := 0, tag := none } 0).onLine) ∧
    (∀ op m a b es, st.tag = some tag → st.state = .pending → out = .granted →
      st.record.effects = .claim op m a b :: es → (∀ x ∈ es, x.isPlain = true) →
      st.record.repeats = 0 → eventCount rest + es.length < 32 →
      exec (.answerEventTaken dt) s = .next
        ((es.foldl (fun u x => u.afterEffect 0 x) u).stepDone n
          { st with state := .armed, tag := none, seen := st.clearFlags } 0).onLine)

/-! ## The store, the journal and loading -/

/-- A BATCH slot that passes is in the journal (R164): its 32 bytes stand in its slot, every other byte of the
store reads as before, and the batch in flight is none. An erase of the writer's that passes leaves the block
ERASED, every byte of it reading FF hex and every other byte of the store as before (R156, R169). And what the
writer does when each of its slots passes: a JOURNAL label's block is ACTIVE, and with 2 or fewer ERASED blocks
left a compaction is owed (R162); a SNAPSHOT label's is BUILDING (R167); slot 63 makes the block FULL (R166); a
NEW_GAME slot owes a compaction (R171); SNAP_END ends the compaction (R168). That the oldest pending time, computed
anew after SNAP_END, is the earliest of the flags still set, the model reads from the spec (notes/assumptions/11.md). -/
def Obligations.PassedOperationsStandInTheStore : Prop :=
  (∀ (dt : Nat) (r : OpResult) (s : State) (b slot k : Nat) (data : List Byte) (vs : List Bool),
      s.powered = true → s.session.inGame = true → s.waiting = none → s.writer.newGameWaits = none →
      s.writer.withdrawWaits = false → s.op = some ⟨.program b slot data, .batch, k⟩ →
      r.verifies = true :: vs → k < 8 → b < 16 → slot < 63 → data.length = 32 → s.storeOk →
      ∃ st : Store, exec (.storeProgramEnd dt r) s = .next (State.onLine
          { s.advance dt with op := none, store := st, writer := { s.writer with inFlight := none } }) ∧
        (∀ i < 32, readByte st.cells (2048 * b + 32 * slot + i) = data.getD i erasedByte) ∧
        (∀ a, a < 2048 * b + 32 * slot ∨ 2048 * b + 32 * slot + 32 ≤ a →
          readByte st.cells a = readByte s.store.cells a)) ∧
  (∀ (dt : Nat) (r : OpResult) (s : State) (b k : Nat) (vs : List Bool), s.powered = true →
      s.session.inGame = true → s.waiting = none → s.writer.newGameWaits = none →
      s.writer.withdrawWaits = false → s.op = some ⟨.erase b, .eraseObsolete, k⟩ →
      r.verifies = true :: vs → k < 4 → 2 ≤ b → b < 16 → s.writer.census.length = 14 →
      ∃ (st : Store) (w : Writer), exec (.storeEraseEnd dt r) s = .next (State.onLine
          { s.advance dt with op := none, store := st, writer := w }) ∧
        w = { s.writer with census := w.census } ∧
        (∀ i, w.census[i]? = if i = b - 2 then some ⟨.erased, 0⟩ else s.writer.census[i]?) ∧
        (∀ a, readByte st.cells a =
          if 2048 * b ≤ a ∧ a < 2048 * (b + 1) then 0xFF else readByte s.store.cells a)) ∧
  PassedSlotsAreTaken

/-- A batch (R163, R164): up to nine pending marks, lowest first, go into the ACTIVE block's next slot, their flags
cleared, and the oldest pending time is the moment of taking when some remain. What the writer's slots hold, and that
they read back so (R159, R193, R199). What a FAIL leaves, of a batch (R165) and of the writer's other slots and erases
(R162, R168, R169): the block retired, its RETIRED slot attempted, and STORE_WORN tested at each retirement (R161,
R170). -/
def Obligations.BatchTakesPendingMarks : Prop :=
  (∀ (dt : Nat) (s : State) (b : Nat), s.powered = true → (s.advance dt).writerFree = true →
    (s.advance dt).firstWork = some .batch → s.activeBlock = some b → s.marks.length = 256 →
    ∃ t : State, exec (.batchStart dt) s = .next t.onLine ∧
      t.op = some ⟨.program b s.writer.nextSlot (slotBytes s.epoch
        (.batch ((s.pendingMarks.take 9).filterMap s.recordOf))), .batch, 0⟩ ∧
      t.writer = { s.writer with
        nextSlot := s.writer.nextSlot + 1
        inFlight := some (s.pendingMarks.take 9)
        oldestPending := if s.pendingMarks.length ≤ 9 then none else some (s.now + dt) } ∧
      t.store.attempted = s.store.attemptedTo b s.writer.nextSlot ∧
      (∀ m o, s.mark m = .owned o → t.mark m = .owned
        (if m ∈ s.pendingMarks.take 9 then { o with pending := none } else o)) ∧
      (∀ m r, s.mark m = .replica r → t.mark m = .replica r) ∧ (s.advance dt).writerFrame t) ∧
  FailedSlotsRetire ∧ SlotsAreWrittenAndRead

/-- The writer's order of work, with the test of when a batch is due (R163, R169); work that is not its first is
not taken. Its other pieces of work, each when it is the first the writer owes (R162, R167 to R169, R171): the label
of a JOURNAL block, the start of a compaction by the label of a SNAPSHOT block, a SNAP_PART of up to nine marks, the
SNAP_END of a block that has every mark, the NEW_GAME slot, and the erase of the lowest OBSOLETE block. A label that
cannot be had sets STORE_WORN (R160, R162, R170). That LABEL_BLOCK starts an owed compaction too the model reads
from the spec (notes/assumptions/17.md). -/
def Obligations.WriterTakesItsFirstWork : Prop :=
  (∀ (dt : Nat) (s : State) (b : Nat), s.powered = true → (s.advance dt).writerFree = true →
    (∀ st, (s.advance dt).firstWork = some .label → s.lowestBlock .erased = some b →
      s.writer.nextSequence ≤ 65535 →
      st = .program b 0 (slotBytes s.epoch (.label s.writer.nextSequence .journal)) →
      ∃ t : State, exec (.labelBlock dt) s = .next t.onLine ∧ t.op = some ⟨st, .label .journal, 0⟩ ∧
        t.writer = { s.writer with
          census := modifyAt (fun k => { k with sequence := s.writer.nextSequence }) (b - 2) s.writer.census
          nextSequence := s.writer.nextSequence + 1 } ∧
        t.store.attempted = s.store.attemptedTo b 0 ∧ t.marks = s.marks ∧ (s.advance dt).writerFrame t) ∧
    (∀ st, (s.advance dt).firstWork = some .compaction → s.lowestBlock .erased = some b →
      s.writer.nextSequence ≤ 65535 →
      st = .program b 0 (slotBytes s.epoch (.label s.writer.nextSequence .snapshot)) →
      ∃ t : State, exec (.compactionStart dt) s = .next t.onLine ∧
        exec (.labelBlock dt) s = .next t.onLine ∧
        t.op = some ⟨st, .label .snapshot, 0⟩ ∧
        t.writer = { s.writer with
          census := modifyAt (fun k => { k with sequence := s.writer.nextSequence }) (b - 2) s.writer.census
          nextSequence := s.writer.nextSequence + 1 } ∧
        t.marks = s.marks.map (MarkEntry.capture false) ∧
        t.store.attempted = s.store.attemptedTo b 0 ∧ (s.advance dt).writerFrame t) ∧
    ((s.advance dt).firstWork = some .snapshotSlot → s.buildingBlock = some b →
      s.unsealedFrom s.writer.snapMark = [] →
      ∃ t : State, exec (.snapshotSlot dt) s = .next t.onLine ∧
        t.op = some ⟨.program b s.writer.snapSlot (slotBytes s.epoch (.snapEnd s.serial)), .snapEnd, 0⟩ ∧
        t.writer = { s.writer with snapSlot := s.writer.snapSlot + 1 } ∧
        t.store.attempted = s.store.attemptedTo b s.writer.snapSlot ∧ t.marks = s.marks ∧
        (s.advance dt).writerFrame t) ∧
    (∀ ms, (s.advance dt).firstWork = some .snapshotSlot → s.buildingBlock = some b →
      ms = (s.unsealedFrom s.writer.snapMark).take 9 → ms ≠ [] →
      ∃ t : State, exec (.snapshotSlot dt) s = .next t.onLine ∧
        t.op = some ⟨.program b s.writer.snapSlot (slotBytes s.epoch
          (.snapPart (ms.filterMap s.recordOf))), .snapPart, 0⟩ ∧
        (∀ last, ms.getLast? = some last → t.writer = { s.writer with
          snapSlot := s.writer.snapSlot + 1, snapMark := last + 1, inFlight := some ms }) ∧
        t.store.attempted = s.store.attemptedTo b s.writer.snapSlot ∧
        (∀ m r, s.mark m = .replica r → t.mark m = .replica r) ∧
        (∀ m o, s.mark m = .owned o →
          t.mark m = .owned (if m ∈ ms then { o with captured := true } else o)) ∧
        (s.advance dt).writerFrame t) ∧
    (∀ g e, (s.advance dt).firstWork = some .newGameSlot → s.activeBlock = some b →
      s.writer.newGameOwed = some (g, e) →
      ∃ t : State, exec (.newGameSlot dt) s = .next t.onLine ∧
        t.op = some ⟨.program b s.writer.nextSlot (slotBytes e (.newGame g)), .newGame, 0⟩ ∧
        t.writer = { s.writer with nextSlot := s.writer.nextSlot + 1 } ∧
        t.store.attempted = s.store.attemptedTo b s.writer.nextSlot ∧ t.marks = s.marks ∧
        (s.advance dt).writerFrame t) ∧
    ((s.advance dt).firstWork = some .erase → s.lowestBlock .obsolete = some b →
      exec (.eraseObsolete dt) s = .next (State.onLine
        { s.advance dt with op := some ⟨.erase b, .eraseObsolete, 0⟩ }))) ∧
  FirstWorkIsOrdered ∧ OtherWorkWaits ∧ MissingLabelsWearTheStore

/-- A LOAD_OPEN (R176): in UNWRITTEN the tile enters LOADING and block 0 is being erased; in LOADING the loading
begins again, at once with the store free, or when the operation in progress has ended; that the seals held keep
their places through it the model reads from the spec (notes/assumptions/15.md). Then the erasing: each block that
passes is followed by the next and block 15 by the GRANT; block 0 or 1 that fails by REFUSE WORN; a journal block
that fails by its RETIRED slot with the loading mark, and, however that ends, by the next. An answer that finds no
room sets OVERRUN (R175). A result of an earlier loading's erase is dropped while a LOAD_OPEN waits, the whole of it
by the model's choice (notes/assumptions/33.md). Once the handling is sealed every LOAD frame is dropped, unapplied
and unanswered (R178). -/
def Obligations.LoadOpenBeginsTheLoading : Prop :=
  (∀ (dt : Nat) (rx : Reception) (s : State) (f : GoodFrame) (tag : Byte), s.getsLoad rx f →
    f.kind = .loadOpen → f.body = [tag] → s.loader.isSealed = false →
    (s.session = .unwritten → s.op = none → s.droop = false →
      exec (.loadOpen dt rx) s = .next
        { s.hearing dt with
          session := .loading
          roster := []
          health := { s.health with unwritten := false, loading := true }
          sessionPhase := 0
          loader :=
            { s.loader with tag := some tag, opener := f.sender, progress := .next 0, slot0 := none,
                            slot1 := none, lastLoad := s.now + dt }
          op := some ⟨.erase 0, .loadErase, 0⟩ }) ∧
    (s.session = .loading →
      exec (.loadOpen dt rx) s = .next
        { s.hearing dt with
          loader :=
            { s.loader with tag := some tag, opener := f.sender, progress := .next 0, slot0 := none,
                            slot1 := none, lastLoad := s.now + dt }
          op := if s.op = none ∧ s.droop = false then some ⟨.erase 0, .loadErase, 0⟩ else s.op
          waiting := if s.op = none ∧ s.droop = false then s.waiting
            else some ⟨.erase 0, .loadErase, 0⟩ })) ∧
  (∀ (dt : Nat) (r : OpResult) (s : State) (b k : Nat) (tag : Byte), s.powered = true →
    s.session = .loading → s.droop = false → s.waiting = none → s.loader.progress = .next b →
    s.loader.tag = some tag → s.op = some ⟨.erase b, .loadErase, k⟩ → k < 4 → s.storeOk →
    (passesAt r → ∃ st : Store, st = (s.store.eraseBlock b).forget b ∧
      (b < 15 → exec (.storeEraseEnd dt r) s = .next (State.onLine
        { s.advance dt with
          loader := { s.loader with progress := .next (b + 1) }
          op := some ⟨.erase (b + 1), .loadErase, 0⟩
          store := st })) ∧
      (b = 15 → exec (.storeEraseEnd dt r) s = .next (State.onLine (State.answeredLoad
        { s.advance dt with
          loader := { s.loader with progress := .done }
          op := none
          store := st } (.grant 0 0) s.loader.opener tag)))) ∧
    (failsAll r (4 - k) → ∃ st : Store, sameOutsideBlock s.store st b ∧
      (b < 2 → exec (.storeEraseEnd dt r) s = .next (State.onLine (State.answeredLoad
        { s.advance dt with
          loader := { s.loader with progress := .failed }
          op := none
          store := st } (.refuse .worn) s.loader.opener tag))) ∧
      (2 ≤ b → exec (.storeEraseEnd dt r) s = .next (State.onLine
        { s.advance dt with
          op := some ⟨.program b 63 (slotBytes s.epoch (.retired true)), .loadRetired, 0⟩
          store := st })))) ∧
  (∀ (dt : Nat) (r : OpResult) (s : State) (b k : Nat) (tag : Byte) (data : List Byte), s.powered = true →
    s.session = .loading → s.droop = false → s.waiting = none → s.loader.progress = .next b →
    s.loader.tag = some tag → s.op = some ⟨.program b 63 data, .loadRetired, k⟩ → k < 8 → s.storeOk →
    passesAt r ∨ failsAll r (8 - k) → ∃ st : Store, sameOutsideSlot s.store st b 63 ∧
      (b < 15 → exec (.storeProgramEnd dt r) s = .next (State.onLine
        { s.advance dt with
          loader := { s.loader with progress := .next (b + 1) }
          op := some ⟨.erase (b + 1), .loadErase, 0⟩
          store := st })) ∧
      (b = 15 → exec (.storeProgramEnd dt r) s = .next (State.onLine (State.answeredLoad
        { s.advance dt with
          loader := { s.loader with progress := .done }
          op := none
          store := st } (.grant 0 0) s.loader.opener tag)))) ∧
  (∀ (dt : Nat) (r : OpResult) (s : State) (b b' k : Nat), s.powered = true → s.session = .loading →
    s.droop = false → s.waiting = some ⟨.erase b', .loadErase, 0⟩ →
    s.op = some ⟨.erase b, .loadErase, k⟩ → k < 4 → s.storeOk → passesAt r ∨ failsAll r (4 - k) →
    ∃ st : Store, sameOutsideBlock s.store st b ∧
      exec (.storeEraseEnd dt r) s = .next (State.onLine
        { s.advance dt with op := some ⟨.erase b', .loadErase, 0⟩, waiting := none, store := st })) ∧
  (∀ (dt : Nat) (rx : Reception) (s : State) (f : GoodFrame), s.getsLoad rx f → s.loader.isSealed = true →
    (f.kind = .loadOpen → f.body.length = 1 → exec (.loadOpen dt rx) s = .next (s.hearing dt)) ∧
    (f.kind = .loadOpen → f.body.length = 2 → exec (.seal dt rx) s = .next (s.hearing dt)) ∧
    (f.kind = .loadPart → exec (.loadPart dt rx) s = .next (s.hearing dt)))

/-- A LOAD_PART is judged by the four tests of R177 in their order, the first that fails giving the refusal; one that
passes is programmed at once, and its program's result is the answer, GRANT or REFUSE WORN (R177). At a full answer
queue the LOAD_PART is dropped with OVERRUN (R175); in UNWRITTEN it is refused CHECK (R177). That one so dropped still
sets the time of the last LOAD frame, that a program's result is answered in UNWRITTEN too, the loading timed out
meanwhile, and that an answer which finds no room sets OVERRUN, the model reads from the spec
(notes/assumptions/15.md). -/
def Obligations.LoadPartIsJudged : Prop :=
  (∀ (dt : Nat) (rx : Reception) (s : State) (f : GoodFrame) (tag b p i : Byte) (data : List Byte),
    s.getsLoad rx f → f.kind = .loadPart → f.body = [tag, b, p, i] ++ data → s.session = .loading →
    s.loader.isSealed = false → s.answers.length + s.loader.seals.length < 8 → s.droop = false →
    (∀ reason,
      (s.loader.tag ≠ some tag ∧ reason = .check) ∨
      (s.loader.tag = some tag ∧ s.loader.progress = .failed ∧ reason = .worn) ∨
      (s.loader.tag = some tag ∧ s.loader.progress ≠ .failed ∧ (s.loader.progress ≠ .done ∨ s.op ≠ none) ∧
        reason = .busy) ∨
      (s.loader.tag = some tag ∧ s.loader.progress = .done ∧ s.op = none ∧ s.waiting = none ∧
        (1 < b.toNat ∨ 15 < p.toNat ∨ 3 < i.toNat ∨
          ∃ x, (if b.toNat = 0 then s.loader.slot0 else s.loader.slot1) = some x ∧
            4 * p.toNat + i.toNat ≤ x) ∧ reason = .order) →
      exec (.loadPart dt rx) s = .next
        { s.hearing dt with
          loader := { s.loader with lastLoad := s.now + dt }
          answers := s.answers ++ [⟨.refuse reason, .load, f.sender, tag, 0⟩] }) ∧
    (s.loader.tag = some tag → s.loader.progress = .done → s.op = none → s.waiting = none →
      b.toNat ≤ 1 → p.toNat ≤ 15 → i.toNat ≤ 3 →
      (∀ x, (if b.toNat = 0 then s.loader.slot0 else s.loader.slot1) = some x →
        x < 4 * p.toNat + i.toNat) →
      exec (.loadPart dt rx) s = .next
        { s.hearing dt with
          op := some ⟨.program b.toNat (4 * p.toNat + i.toNat) data, .loadPart tag f.sender, 0⟩
          store := { s.store with attempted := s.store.attemptedTo b.toNat (4 * p.toNat + i.toNat) }
          loader := { s.loader with
            lastLoad := s.now + dt
            slot0 := if b.toNat = 0 then some (4 * p.toNat + i.toNat) else s.loader.slot0
            slot1 := if b.toNat = 0 then s.loader.slot1 else some (4 * p.toNat + i.toNat) } })) ∧
  (∀ (dt : Nat) (rx : Reception) (s : State) (f : GoodFrame), s.getsLoad rx f → f.kind = .loadPart →
    s.session = .unwritten → s.loader.isSealed = false → s.answers.length + s.loader.seals.length < 8 →
    exec (.loadPart dt rx) s = .next
      { s.hearing dt with answers := s.answers ++ [⟨.refuse .check, .load, f.sender, byteAt f.body 0, 0⟩] }) ∧
  (∀ (dt : Nat) (rx : Reception) (s : State) (f : GoodFrame), s.getsLoad rx f → f.kind = .loadPart →
    s.loader.isSealed = false → 8 ≤ s.answers.length + s.loader.seals.length →
    exec (.loadPart dt rx) s = .next
      { s.hearing dt with
        loader := { s.loader with
          lastLoad := if s.session = .loading then s.now + dt else s.loader.lastLoad }
        health := { s.health with overrun := true } }) ∧
  (∀ (dt : Nat) (r : OpResult) (s : State) (b slot k n : Nat) (tag : Byte) (data : List Byte),
    s.powered = true → s.session.blankTile = true → s.waiting = none →
    s.op = some ⟨.program b slot data, .loadPart tag n, k⟩ → k < 8 → s.storeOk →
    (passesAt r → exec (.storeProgramEnd dt r) s = .next (State.onLine (State.answeredLoad
      { s.advance dt with op := none, store := s.store.writeSlot b slot data } (.grant 0 0) n tag))) ∧
    (failsAll r (8 - k) → ∃ st : Store, sameOutsideSlot s.store st b slot ∧
      exec (.storeProgramEnd dt r) s = .next (State.onLine (State.answeredLoad
        { s.advance dt with op := none, store := st } (.refuse .worn) n tag))))

/-- A seal with the loading tag is held with a place in the answer queue, and once the store is free and the erasing
done its check gives the GRANT, from which the handling is sealed, or REFUSE CHECK; one with another tag, or in
UNWRITTEN, is refused CHECK, one after a failed erasing WORN; at a full answer queue it is dropped with OVERRUN, and
one whose second byte is not 1 is dropped (R175, R178, R193). That SEAL_CHECK makes its reads within one command
(notes/assumptions/29.md), and that seals held are checked oldest first (notes/assumptions/15.md), the model reads
from the spec. -/
def Obligations.SealIsHeldAndChecked : Prop :=
  (∀ (dt : Nat) (rx : Reception) (s : State) (f : GoodFrame) (tag x : Byte), s.getsLoad rx f →
    f.kind = .loadOpen → f.body = [tag, x] → s.loader.isSealed = false →
    (x ≠ 1 → exec (.seal dt rx) s = .next (s.hearing dt)) ∧
    (x = 1 → 8 ≤ s.answers.length + s.loader.seals.length → exec (.seal dt rx) s = .next
      { s.hearing dt with
        loader := { s.loader with
          lastLoad := if s.session = .loading then s.now + dt else s.loader.lastLoad }
        health := { s.health with overrun := true } }) ∧
    (x = 1 → s.session = .unwritten → s.answers.length + s.loader.seals.length < 8 →
      exec (.seal dt rx) s = .next
        { s.hearing dt with answers := s.answers ++ [⟨.refuse .check, .load, f.sender, tag, 0⟩] }) ∧
    (x = 1 → s.session = .loading → s.answers.length + s.loader.seals.length < 8 →
      (s.loader.tag ≠ some tag → exec (.seal dt rx) s = .next
        { s.hearing dt with
          loader := { s.loader with lastLoad := s.now + dt }
          answers := s.answers ++ [⟨.refuse .check, .load, f.sender, tag, 0⟩] }) ∧
      (s.loader.tag = some tag → s.loader.progress = .failed → exec (.seal dt rx) s = .next
        { s.hearing dt with
          loader := { s.loader with lastLoad := s.now + dt }
          answers := s.answers ++ [⟨.refuse .worn, .load, f.sender, tag, 0⟩] }) ∧
      (s.loader.tag = some tag → s.loader.progress ≠ .failed → exec (.seal dt rx) s = .next
        { s.hearing dt with
          loader := { s.loader with lastLoad := s.now + dt, seals := s.loader.seals ++ [(tag, f.sender)] } }))) ∧
  (∀ (dt : Nat) (s : State) (tag : Byte) (n : Nat) (rest : List (Byte × Nat)), s.powered = true →
    s.loader.seals = (tag, n) :: rest →
    (s.op ≠ none ∨ s.loader.progress ≠ .done →
      exec (.sealCheck dt) s = .next (s.advance dt).onLine) ∧
    (s.session = .loading → s.loader.isSealed = false → s.loader.progress = .done → s.op = none →
      s.waiting = none → s.droop = false →
      exec (.sealCheck dt) s = .next (State.onLine
        (if headerCheckOk (s.store.page 0 0) = true ∧ contentCheckOk s.store = true then
          { s.advance dt with
            loader := { s.loader with seals := rest, isSealed := true }
            answers := s.answers ++ [⟨.grant 0 0, .seal, n, tag, 0⟩] }
        else
          { s.advance dt with
            loader := { s.loader with seals := rest }
            answers := s.answers ++ [⟨.refuse .check, .seal, n, tag, 0⟩] }))))

/-- 10,000 ms without a LOAD frame return a LOADING tile that is not sealed to UNWRITTEN (R175, R179, R186). A
command before that time, or for a sealed handling, only moves the time on: the model's choice
(notes/assumptions/8.md); that the seals held are dropped with the loading the model reads from the spec
(notes/assumptions/15.md). -/
def Obligations.LoadingTimesOut : Prop :=
  ∀ (dt : Nat) (s : State), s.powered = true → s.session = .loading →
    (s.loader.isSealed = true ∨ s.now + dt < s.loader.lastLoad + 10000000 →
      exec (.loadingTimeout dt) s = .next (s.advance dt).onLine) ∧
    (s.loader.isSealed = false → s.loader.lastLoad + 10000000 ≤ s.now + dt →
      exec (.loadingTimeout dt) s = .next (State.onLine
        { s.advance dt with
          session := .unwritten
          roster := []
          waiting := none
          health := { s.health with unwritten := true, loading := false }
          loader := ⟨none, 0, .done, none, none, 0, [], false⟩
          hail := { s.hail with due := some (s.now + dt), immediate := false }
          sessionPhase := 0 }))

/-! ## Invariants -/

/-- No step undoes the canonical form of the store's memory. -/
def Obligations.StoreStaysCanonical : Prop :=
  ∀ s t : State, s.storeOk → step s = .next t → t.storeOk

/-- No step undoes the room of the queues, the distinctness of the tags, the Roster's law, the mark table's, or that
the routing table is the one R15 gives (R2, R7, R15, R34, R38, R40, R62, R77, R88, R102, R119, R149). -/
def Obligations.LawsAreKept : Prop := ∀ s t : State, s.lawful → step s = .next t → t.lawful

/-- The state after reset has the canonical form and satisfies the laws. What the registers hold there is the
model's choice where the manual gives no value (notes/assumptions/6.md). -/
def Obligations.ResetIsLawful : Prop := State.reset.storeOk ∧ State.reset.lawful
end

