-- ==== Sys2Proof/Laws/Memory.lean ====
section
/-! SUPPORT. The store's memory: what a write changes and leaves, that every operation keeps the canonical
form, and that reading many bytes reads each. -/

namespace Sys2Proof.Machine

/-! ## Reading -/

/-- Cells that begin above an address hold nothing at it. -/
theorem readByte_below {cells : List Host.Cell} {lo a : Nat} (h : cellsOk lo cells = true) (ha : a < lo) :
    readByte cells a = erasedByte := by
  induction cells generalizing lo with
  | nil => rfl
  | cons c rest ih =>
    obtain ⟨b, v⟩ := c
    simp only [cellsOk, Bool.and_eq_true, decide_eq_true_eq] at h
    simp only [readByte]
    rw [if_neg (by omega)]
    exact ih h.2 (by omega)

/-- The canonical form from an address on is that from a lower one on. -/
theorem cellsOk_mono {cells : List Host.Cell} {lo lo' : Nat} (h : cellsOk lo cells = true) (hl : lo' ≤ lo) :
    cellsOk lo' cells = true := by
  cases cells with
  | nil => rfl
  | cons c rest =>
    obtain ⟨b, v⟩ := c
    simp only [cellsOk, Bool.and_eq_true, decide_eq_true_eq] at h ⊢
    exact ⟨⟨⟨by omega, h.1.1.2⟩, h.1.2⟩, h.2⟩

/-! ## Writing one byte -/

/-- A write of a byte inside the array keeps the canonical form. -/
theorem writeByte_ok {cells : List Host.Cell} {lo a : Nat} {v : Byte} (h : cellsOk lo cells = true)
    (hl : lo ≤ a) (ha : a < storeSize) : cellsOk lo (writeByte a v cells) = true := by
  induction cells generalizing lo with
  | nil =>
    simp only [writeByte]
    split
    · rfl
    · rename_i hv; simp [cellsOk, hl, ha, hv]
  | cons c rest ih =>
    obtain ⟨b, w⟩ := c
    have h' := h
    simp only [cellsOk, Bool.and_eq_true, decide_eq_true_eq] at h
    obtain ⟨⟨⟨h1, h2⟩, h3⟩, h4⟩ := h
    simp only [writeByte]
    split
    · split
      · exact h'
      · rename_i hab hv
        simp only [cellsOk, Bool.and_eq_true, decide_eq_true_eq, bne_iff_ne]
        exact ⟨⟨⟨hl, ha⟩, hv⟩, ⟨⟨by omega, h2⟩, by simpa using h3⟩, h4⟩
    · split
      · split
        · exact cellsOk_mono h4 (by omega)
        · rename_i hab hv
          subst hab
          simp only [cellsOk, Bool.and_eq_true, decide_eq_true_eq, bne_iff_ne]
          exact ⟨⟨⟨hl, ha⟩, hv⟩, h4⟩
      · simp only [cellsOk, Bool.and_eq_true, decide_eq_true_eq]
        exact ⟨⟨⟨h1, h2⟩, h3⟩, ih h4 (by omega)⟩

/-- The byte written reads back. -/
theorem readByte_writeByte_self {cells : List Host.Cell} {lo a : Nat} {v : Byte}
    (h : cellsOk lo cells = true) : readByte (writeByte a v cells) a = v := by
  induction cells generalizing lo with
  | nil =>
    simp only [writeByte]
    split
    · rename_i hv; exact hv.symm
    · simp [readByte]
  | cons c rest ih =>
    obtain ⟨b, w⟩ := c
    have h' := h
    simp only [cellsOk, Bool.and_eq_true, decide_eq_true_eq] at h
    obtain ⟨⟨⟨h1, h2⟩, h3⟩, h4⟩ := h
    simp only [writeByte]
    split
    · rename_i hab
      split
      · rename_i hv
        rw [hv, readByte, if_neg (by omega)]
        exact readByte_below h4 (by omega)
      · simp [readByte]
    · split
      · rename_i hab
        subst hab
        split
        · rename_i hv
          rw [hv]
          exact readByte_below h4 (by omega)
        · simp [readByte]
      · rename_i h5 h6
        rw [readByte, if_neg (by omega)]
        exact ih h4

/-- Every other byte reads as before. -/
theorem readByte_writeByte_other {cells : List Host.Cell} {lo a x : Nat} {v : Byte}
    (h : cellsOk lo cells = true) (hx : x ≠ a) :
    readByte (writeByte a v cells) x = readByte cells x := by
  induction cells generalizing lo with
  | nil =>
    simp only [writeByte]
    split
    · rfl
    · simp [readByte, Ne.symm hx]
  | cons c rest ih =>
    obtain ⟨b, w⟩ := c
    simp only [cellsOk, Bool.and_eq_true, decide_eq_true_eq] at h
    obtain ⟨⟨⟨h1, h2⟩, h3⟩, h4⟩ := h
    simp only [writeByte]
    split
    · split
      · rfl
      · rw [readByte, if_neg (Ne.symm hx)]
    · split
      · rename_i hab
        subst hab
        split
        · rw [readByte, if_neg (Ne.symm hx)]
        · rw [readByte, if_neg (Ne.symm hx), readByte, if_neg (Ne.symm hx)]
      · rw [readByte, readByte, ih h4]

/-! ## Writing many bytes -/

/-- Writing bytes inside the array keeps the canonical form. -/
theorem writeBytes_ok {data : List Byte} {cells : List Host.Cell} {a : Nat}
    (h : cellsOk 0 cells = true) (ha : a + data.length ≤ storeSize) :
    cellsOk 0 (writeBytes a data cells) = true := by
  induction data generalizing a cells with
  | nil => exact h
  | cons v vs ih =>
    simp only [List.length_cons] at ha
    exact ih (writeByte_ok h (Nat.zero_le _) (by omega)) (by omega)

/-- Bytes outside those written read as before. -/
theorem readByte_writeBytes_other {data : List Byte} {cells : List Host.Cell} {a x : Nat}
    (h : cellsOk 0 cells = true) (ha : a + data.length ≤ storeSize)
    (hx : x < a ∨ a + data.length ≤ x) :
    readByte (writeBytes a data cells) x = readByte cells x := by
  induction data generalizing a cells with
  | nil => rfl
  | cons v vs ih =>
    simp only [List.length_cons] at ha hx
    rw [writeBytes, ih (writeByte_ok h (Nat.zero_le _) (by omega)) (by omega) (by omega)]
    exact readByte_writeByte_other h (by omega)

/-- The bytes written read back, each at its address. -/
theorem readByte_writeBytes {data : List Byte} {cells : List Host.Cell} {a i : Nat}
    (h : cellsOk 0 cells = true) (ha : a + data.length ≤ storeSize) (hi : i < data.length) :
    readByte (writeBytes a data cells) (a + i) = data[i] := by
  induction data generalizing a cells i with
  | nil => exact absurd hi (Nat.not_lt_zero _)
  | cons v vs ih =>
    simp only [List.length_cons] at ha hi
    have hok := writeByte_ok (v := v) h (Nat.zero_le a) (by omega)
    cases i with
    | zero =>
      rw [writeBytes, Nat.add_zero, readByte_writeBytes_other hok (by omega) (by omega)]
      exact readByte_writeByte_self h
    | succ j =>
      have := ih (a := a + 1) (i := j) hok (by omega) (by omega)
      rw [writeBytes, show a + (j + 1) = a + 1 + j from by omega, this]
      rfl

/-! ## Dropping a range -/

/-- Dropping a range keeps the canonical form. -/
theorem dropRange_ok {cells : List Host.Cell} {lo a b : Nat} (h : cellsOk lo cells = true) :
    cellsOk lo (dropRange a b cells) = true := by
  induction cells generalizing lo with
  | nil => rfl
  | cons c rest ih =>
    obtain ⟨x, v⟩ := c
    simp only [cellsOk, Bool.and_eq_true, decide_eq_true_eq] at h
    obtain ⟨⟨⟨h1, h2⟩, h3⟩, h4⟩ := h
    simp only [dropRange, List.filter_cons]
    split
    · simp only [cellsOk, Bool.and_eq_true, decide_eq_true_eq]
      exact ⟨⟨⟨h1, h2⟩, h3⟩, ih h4⟩
    · exact cellsOk_mono (ih h4) (by omega)

/-- What a dropped range leaves: erased bytes inside, every other byte as before. -/
theorem readByte_dropRange (cells : List Host.Cell) (a b x : Nat) :
    readByte (dropRange a b cells) x =
      if a ≤ x ∧ x < b then erasedByte else readByte cells x := by
  induction cells with
  | nil => simp [dropRange, readByte]
  | cons c rest ih =>
    obtain ⟨y, v⟩ := c
    simp only [dropRange, List.filter_cons] at ih ⊢
    by_cases hy : y < a ∨ b ≤ y
    · simp only [hy, decide_true, if_true, readByte]
      by_cases hx : y = x
      · subst hx
        rw [if_pos rfl, if_neg (by omega), if_pos rfl]
      · rw [if_neg hx, if_neg hx]; exact ih
    · rw [if_neg (by simpa using hy)]
      rw [ih, readByte]
      by_cases hx : y = x
      · subst hx
        rw [if_pos (by omega), if_pos (by omega)]
      · rw [if_neg hx]

/-! ## Reading many bytes -/

/-- Cells from an address on keep the canonical form from it. -/
theorem cellsFrom_ok {cells : List Host.Cell} {lo : Nat} (a : Nat) (h : cellsOk lo cells = true) :
    cellsOk a (cellsFrom a cells) = true := by
  induction cells generalizing lo with
  | nil => rfl
  | cons c rest ih =>
    obtain ⟨b, v⟩ := c
    have h' := h
    simp only [cellsOk, Bool.and_eq_true, decide_eq_true_eq] at h
    simp only [cellsFrom]
    split
    · exact ih h.2
    · simp only [cellsOk, Bool.and_eq_true, decide_eq_true_eq]
      exact ⟨⟨⟨by omega, h.1.1.2⟩, h.1.2⟩, h.2⟩

/-- Addresses at or above `a` read the same off the cells from `a` on. -/
theorem readByte_cellsFrom (cells : List Host.Cell) {a x : Nat} (hx : a ≤ x) :
    readByte (cellsFrom a cells) x = readByte cells x := by
  induction cells with
  | nil => rfl
  | cons c rest ih =>
    obtain ⟨b, v⟩ := c
    simp only [cellsFrom]
    split
    · rw [ih, readByte, if_neg (by omega)]
    · rfl

/-- Bytes read off cells that begin at or above an address. -/
theorem fillBytes_eq {cells : List Host.Cell} {a : Nat} (n : Nat) (h : cellsOk a cells = true) :
    fillBytes n a cells = (List.range' a n).map (readByte cells) := by
  induction n generalizing a cells with
  | zero => rfl
  | succ n ih =>
    cases cells with
    | nil =>
      rw [fillBytes, ih (cells := []) rfl, List.range'_succ, List.map_cons]
      rfl
    | cons c rest =>
      obtain ⟨b, v⟩ := c
      have h' := h
      simp only [cellsOk, Bool.and_eq_true, decide_eq_true_eq] at h
      obtain ⟨⟨⟨h1, h2⟩, h3⟩, h4⟩ := h
      simp only [fillBytes]
      rw [List.range'_succ, List.map_cons]
      split
      · rename_i hb
        subst hb
        rw [ih h4]
        congr 1
        · simp [readByte]
        · apply List.map_congr_left
          intro x hx
          have := List.mem_range'_1.mp hx
          rw [readByte, if_neg (by omega)]
      · rename_i hb
        have hok : cellsOk (a + 1) ((b, v) :: rest) = true := by
          simp only [cellsOk, Bool.and_eq_true, decide_eq_true_eq]
          exact ⟨⟨⟨by omega, h2⟩, h3⟩, h4⟩
        rw [ih hok]
        congr 1
        rw [readByte, if_neg hb]
        exact (readByte_below h4 (by omega)).symm

/-- Reading bytes reads each of them. -/
theorem readBytes_eq {cells : List Host.Cell} (a n : Nat) (h : cellsOk 0 cells = true) :
    readBytes cells a n = (List.range' a n).map (readByte cells) := by
  rw [readBytes, fillBytes_eq n (cellsFrom_ok a h)]
  apply List.map_congr_left
  intro x hx
  exact readByte_cellsFrom cells (List.mem_range'_1.mp hx).1

/-! ## The store -/

/-- The bytes of a slot are 32. -/
theorem exactBytes_length (n : Nat) (data : List Byte) : (exactBytes n data).length = n := by
  induction n generalizing data with
  | zero => rfl
  | succ n ih => cases data <;> simp [exactBytes, ih]

/-- Exactly as many bytes as there are stay as they are. -/
theorem exactBytes_self (data : List Byte) : exactBytes data.length data = data := by
  induction data with
  | nil => rfl
  | cons b bs ih => simp [exactBytes, ih]

/-- Writing a slot keeps the canonical form. -/
theorem writeSlot_wf {st : Store} (b i : Nat) (data : List Byte) (h : st.wf = true) :
    (st.writeSlot b i data).wf = true := by
  unfold Store.writeSlot
  split
  · rename_i hb
    exact writeBytes_ok h (by rw [exactBytes_length]; simp only [slotAddr, storeSize]; omega)
  · exact h

/-- Erasing a block keeps the canonical form. -/
theorem eraseBlock_wf {st : Store} (b : Nat) (h : st.wf = true) : (st.eraseBlock b).wf = true :=
  dropRange_ok h

/-- Leaving a slot keeps the canonical form. -/
theorem leaveSlot_wf {st : Store} (b i : Nat) (l : SlotLeft) (h : st.wf = true) :
    (st.leaveSlot b i l).wf = true := by
  unfold Store.leaveSlot
  split
  · exact h
  · exact writeSlot_wf _ _ _ h
  · split
    · exact h
    · exact writeSlot_wf _ _ _ h

/-- Leaving a block keeps the canonical form. -/
theorem leaveBlock_wf {st : Store} (b i : Nat) (ls : List SlotLeft) (h : st.wf = true) :
    (st.leaveBlock b i ls).wf = true := by
  induction ls generalizing st i with
  | nil => exact h
  | cons l ls ih => exact ih (i := i + 1) (leaveSlot_wf b i l h)

/-- Leaving a program keeps the canonical form. -/
theorem leaveProgram_wf {st : Store} (b i : Nat) (data : List Byte) (l : SlotLeft) (h : st.wf = true) :
    (st.leaveProgram b i data l).wf = true := by
  unfold Store.leaveProgram
  split <;> exact writeSlot_wf _ _ _ h

/-- The end of an operation keeps the canonical form. -/
theorem finish_wf {st : Store} (op : StoreOp) (left : List SlotLeft) (v : Verdict) (h : st.wf = true) :
    (st.finish op left v).wf = true := by
  cases v <;> cases op <;> simp only [Store.finish, Store.passed, Store.failed] <;>
    first
      | exact h
      | exact writeSlot_wf _ _ _ h
      | exact eraseBlock_wf _ h
      | exact leaveProgram_wf _ _ _ _ h
      | exact leaveBlock_wf _ _ _ h

/-- A failed or abandoned operation keeps the canonical form. -/
theorem failed_wf {st : Store} (op : StoreOp) (left : List SlotLeft) (h : st.wf = true) :
    (st.failed left op).wf = true := finish_wf op left .fail h

/-- Starting an operation changes no byte. -/
theorem begin_cells (st : Store) (op : StoreOp) : (st.begin op).cells = st.cells := by
  cases op <;> rfl

/-- The store at reset has its canonical form. -/
theorem reset_store_wf : State.reset.store.wf = true := rfl

/-! ## Bytes and checks -/

/-- Bytes brought to a length of `n`: FF hex fills what they leave (R193). -/
theorem exactBytes_eq (n : Nat) (l : List Byte) (h : l.length ≤ n) :
    exactBytes n l = l ++ List.replicate (n - l.length) erasedByte := by
  induction n generalizing l with
  | zero =>
    cases l
    · rfl
    · simp at h
  | succ n ih =>
    cases l with
    | nil => simp only [exactBytes]; rw [ih [] (by simp)]; simp [List.replicate_succ]
    | cons x xs => simp only [exactBytes]; rw [ih xs (by simpa using h)]; simp

/-- The 16-bit check is a number of two bytes (R194). -/
theorem crc16_lt (bits : List Bool) : crc16 bits < 65536 := by
  unfold crc16
  suffices h : ∀ reg < 65536, crc 65536 0x1021 reg bits < 65536 from h _ (by decide)
  induction bits with
  | nil => exact fun reg h => h
  | cons b bits ih =>
    intro reg _
    unfold crc
    have hv : ∀ (n : Nat) (f : Nat → Nat), withValue n f = f n := by intro n f; cases n <;> rfl
    have h1 : 2 * reg % 65536 < 65536 := Nat.mod_lt _ (by decide)
    split
    · rw [hv]; exact ih _ h1
    · rw [hv]; exact ih _ (Nat.xor_lt_two_pow (n := 16) h1 (by decide))

end Sys2Proof.Machine
end

