-- ==== Sys2Proof/Laws/Keeps.lean ====
section
/-! SUPPORT. What no operation undoes: `Keeps s t` says that going from `s` to `t` leaves the commands
waiting and the time, and keeps each law of Safety.lean. One lemma per operation, up to the Mark Unit. -/

namespace Sys2Proof.Machine

/-- From `s` to `t` the queue of commands and the time are left, and every law that held holds, but for the law of
routing. -/
structure KeepsUnrouted (s t : State) : Prop where
  pending : t.pending = s.pending
  now : t.now = s.now
  store : s.storeOk → t.storeOk
  queues : s.queuesOk → s.tagsOk → t.queuesOk ∧ t.tagsOk
  roster : s.rosterOk → t.rosterOk
  marks : s.marksOk → t.marksOk

/-- From `s` to `t` the queue of commands and the time are left, and every law that held holds. -/
structure Keeps (s t : State) : Prop extends KeepsUnrouted s t where
  routes : s.rosterOk → s.routesOk → t.routesOk

theorem KeepsUnrouted.trans {s t u : State} (h : KeepsUnrouted s t) (k : KeepsUnrouted t u) :
    KeepsUnrouted s u :=
  ⟨k.pending.trans h.pending, k.now.trans h.now, k.store ∘ h.store,
    fun a b => k.queues (h.queues a b).1 (h.queues a b).2, k.roster ∘ h.roster, k.marks ∘ h.marks⟩

/-- What routing follows from, with the table that holds it (R15). -/
def State.routing (s : State) := (s.routes, s.winFirst, s.winSize, s.roster)

theorem routesOk_same {s t : State} (h : t.routing = s.routing) : s.routesOk → t.routesOk := by
  simp only [State.routing, Prod.mk.injEq] at h
  obtain ⟨h1, h2, h3, h4⟩ := h
  simp only [State.routesOk, State.route, State.routeOf, State.inWindow, h1, h2, h3, h4]
  exact id

/-- A table just computed is as R15 gives it. -/
theorem routesOk_computed {s : State} (h : s.routes = s.computeRoutes) : s.routesOk := by
  intro m hm
  simp only [State.route, h, State.computeRoutes, List.getD_eq_getElem?_getD, List.getElem?_map,
    List.getElem?_range hm, Option.map_some, Option.getD_some]

/-- A change of nothing that routing follows from. -/
theorem Keeps.of {s t : State} (h : KeepsUnrouted s t) (k : t.routing = s.routing) : Keeps s t :=
  ⟨h, fun _ => routesOk_same k⟩

theorem Keeps.refl (s : State) : Keeps s s := .of ⟨rfl, rfl, id, And.intro, id, id⟩ rfl

theorem Keeps.trans {s t u : State} (h : Keeps s t) (k : Keeps t u) : Keeps s u :=
  ⟨h.toKeepsUnrouted.trans k.toKeepsUnrouted, fun a b => k.routes (h.roster a) (h.routes a b)⟩

/-- The fields the laws are about. -/
def State.vital (s : State) :=
  (s.pending, s.now, s.store.cells, (s.transmit, s.answers, s.loader.seals), (s.inbox, s.claims),
    (s.tones, s.losses), (s.roster, s.tile, s.session), s.marks)

/-- A change of no field the laws but that of routing are about. -/
theorem KeepsUnrouted.inert {s t : State} (h : t.vital = s.vital) : KeepsUnrouted s t := by
  simp only [State.vital, Prod.mk.injEq] at h
  obtain ⟨h1, h2, h3, ⟨h4, h5, h6⟩, ⟨h7, h8⟩, ⟨h9, h10⟩, ⟨h11, h12, h13⟩, h14⟩ := h
  refine ⟨h1, h2, ?_, ?_, ?_, ?_⟩
  · simp only [State.storeOk, Store.wf, h3]; exact id
  · simp only [State.queuesOk, State.tagsOk, State.answerPlaces, State.engineQueue, State.answerHold,
      h4, h5, h6, h7, h8, h9, h10]
    exact And.intro
  · simp only [State.rosterOk, h11, h12, h13]; exact id
  · simp only [State.marksOk, h14]; exact id

/-- A change of no field the laws are about. -/
theorem Keeps.inert {s t : State} (h : (t.vital, t.routing) = (s.vital, s.routing)) : Keeps s t :=
  .of (.inert (congrArg Prod.fst h)) (congrArg Prod.snd h)

/-- A chain of operations over a list. -/
theorem Keeps.foldl {α : Type} {f : State → α → State} (h : ∀ s a, Keeps s (f s a)) (l : List α)
    (s : State) : Keeps s (l.foldl f s) := by
  induction l generalizing s with
  | nil => exact .refl s
  | cons a l ih => exact (h s a).trans (ih (f s a))

/-! ## One field at a time -/

theorem keeps_transmit (s : State) (q : List Queued) (h : q.length ≤ 8 ∨ q.length ≤ s.transmit.length) :
    Keeps s { s with transmit := q } := by
  refine .of ⟨rfl, rfl, id, fun a b => ⟨?_, b⟩, id, id⟩ rfl
  obtain ⟨a1, a2⟩ := a
  exact ⟨show q.length ≤ 8 by omega, a2⟩

theorem keeps_answers (s : State) (a : List Answer)
    (h : a.length + s.loader.seals.length ≤ 8 ∨ a.length ≤ s.answers.length) :
    Keeps s { s with answers := a } := by
  refine .of ⟨rfl, rfl, id, fun k b => ⟨?_, b⟩, id, id⟩ rfl
  obtain ⟨a1, a2, a3⟩ := k
  refine ⟨a1, ?_, a3⟩
  simp only [State.answerPlaces] at a2 ⊢
  omega

theorem keeps_loader (s : State) (l : Loader) (h : l.seals.length ≤ s.loader.seals.length ∨
    s.answers.length + l.seals.length ≤ 8) : Keeps s { s with loader := l } := by
  refine .of ⟨rfl, rfl, id, fun k b => ⟨?_, b⟩, id, id⟩ rfl
  obtain ⟨a1, a2, a3⟩ := k
  refine ⟨a1, ?_, a3⟩
  simp only [State.answerPlaces] at a2 ⊢
  omega

theorem keeps_tones (s : State) (t : List Tone) (h : t.length ≤ 4 ∨ t.length ≤ s.tones.length) :
    Keeps s { s with tones := t } := by
  refine .of ⟨rfl, rfl, id, fun k b => ⟨?_, b⟩, id, id⟩ rfl
  obtain ⟨a1, a2, a3, a4, a5, a6⟩ := k
  exact ⟨a1, a2, a3, a4, show t.length ≤ 4 by omega, a6⟩

theorem keeps_losses (s : State) (n : Nat) (h : n ≤ 8) : Keeps s { s with losses := n } := by
  refine .of ⟨rfl, rfl, id, fun k b => ⟨?_, b⟩, id, id⟩ rfl
  obtain ⟨a1, a2, a3, a4, a5, _⟩ := k
  exact ⟨a1, a2, a3, a4, a5, h⟩

theorem keeps_marks (s : State) (ms : List MarkEntry)
    (h : s.marksOk → ms.length = 256 ∧ ∀ e ∈ ms, e.ok) : Keeps s { s with marks := ms } :=
  .of ⟨rfl, rfl, id, And.intro, id, h⟩ rfl

theorem keeps_store (s : State) (st : Store) (h : s.store.wf = true → st.wf = true) :
    Keeps s { s with store := st } :=
  .of ⟨rfl, rfl, h, And.intro, id, id⟩ rfl

/-- The roster's law, but for the states in which it is empty. -/
def rosterGood (tile : Nat) (r : List Peer) : Prop :=
  r.length ≤ 48 ∧ r.Pairwise (fun p q => p.tile < q.tile) ∧
    ∀ p ∈ r, 1 ≤ p.tile ∧ p.tile ≤ 62 ∧ p.tile ≠ tile ∧ p.present = p.silenceAt.isSome

theorem unrouted_roster (s : State) (r : List Peer) (h : rosterGood s.tile s.roster → rosterGood s.tile r)
    (e : s.roster = [] → r = [] ∨ s.session ≠ .starting ∧ s.session ≠ .unwritten ∧
      s.session ≠ .loading) : KeepsUnrouted s { s with roster := r } := by
  refine ⟨rfl, rfl, id, And.intro, fun k => ?_, id⟩
  obtain ⟨k1, k2, k3, k4⟩ := k
  obtain ⟨h1, h2, h3⟩ := h ⟨k1, k2, k3⟩
  refine ⟨h1, h2, h3, fun hs => ?_⟩
  rcases e (k4 hs) with he | ⟨n1, n2, n3⟩
  · exact he
  · rcases hs with hs | hs | hs
    · exact absurd hs n1
    · exact absurd hs n2
    · exact absurd hs n3

theorem keeps_session (s : State) (x : Session) (h : s.roster = [] ∨ x ≠ .starting ∧ x ≠ .unwritten ∧
    x ≠ .loading) : Keeps s { s with session := x } := by
  refine .of ⟨rfl, rfl, id, And.intro, fun k => ?_, id⟩ rfl
  obtain ⟨k1, k2, k3, k4⟩ := k
  refine ⟨k1, k2, k3, fun hs => ?_⟩
  rcases h with he | ⟨n1, n2, n3⟩
  · exact he
  · rcases hs with hs | hs | hs
    · exact absurd hs n1
    · exact absurd hs n2
    · exact absurd hs n3

/-- Events and answer events of a list of arrivals. -/
def eventsOf (b : List Arrival) : Nat := (b.filter Arrival.isEvent).length
def answersOf (b : List Arrival) : Nat := (b.filter fun a => !a.isEvent).length

theorem keeps_arrivals (s : State) (c : List ClaimEntry) (b : List Arrival)
    (h1 : eventsOf b ≤ 32 ∨ eventsOf b ≤ eventsOf s.inbox)
    (h2 : c.length + answersOf b ≤ 4 ∨ c.length + answersOf b ≤ s.claims.length + answersOf s.inbox)
    (h3 : (s.claims.map (·.tag)).Nodup → (c.map (·.tag)).Nodup) :
    Keeps s { s with claims := c, inbox := b } := by
  refine .of ⟨rfl, rfl, id, fun k t => ⟨?_, h3 t⟩, id, id⟩ rfl
  obtain ⟨a1, a2, a3, a4, a5⟩ := k
  simp only [State.engineQueue, State.answerHold] at a3 a4
  refine ⟨a1, a2, ?_, ?_, a5⟩
  · show eventsOf b ≤ 32
    simp only [eventsOf] at *; omega
  · show c.length + answersOf b ≤ 4
    simp only [answersOf] at *; omega

theorem keeps_inbox (s : State) (b : List Arrival)
    (h1 : eventsOf b ≤ 32 ∨ eventsOf b ≤ eventsOf s.inbox)
    (h2 : answersOf b ≤ answersOf s.inbox) : Keeps s { s with inbox := b } :=
  keeps_arrivals s s.claims b h1 (.inr (by omega)) id

/-! ## Tables -/

theorem modifyAt_length {α : Type} (f : α → α) (i : Nat) (l : List α) :
    (modifyAt f i l).length = l.length := by
  induction l generalizing i with
  | nil => cases i <;> rfl
  | cons x xs ih => cases i <;> simp [modifyAt, ih]

/-- An entry of a changed table is an entry of the old one, or the changed one. -/
theorem mem_modifyAt {α : Type} {f : α → α} {i : Nat} {l : List α} {y : α} (h : y ∈ modifyAt f i l) :
    y ∈ l ∨ ∃ x, l[i]? = some x ∧ y = f x := by
  induction l generalizing i with
  | nil => cases i <;> exact absurd h List.not_mem_nil
  | cons x xs ih =>
    cases i with
    | zero =>
      rcases List.mem_cons.mp h with h | h
      · exact .inr ⟨x, rfl, h⟩
      · exact .inl (List.mem_cons_of_mem _ h)
    | succ j =>
      rcases List.mem_cons.mp h with h | h
      · exact .inl (h ▸ List.mem_cons_self)
      · rcases ih h with h | ⟨z, hz, hy⟩
        · exact .inl (List.mem_cons_of_mem _ h)
        · exact .inr ⟨z, hz, hy⟩

theorem mapFrom_length {α β : Type} (f : Nat → α → β) (i : Nat) (l : List α) :
    (mapFrom f i l).length = l.length := by
  induction l generalizing i with
  | nil => rfl
  | cons x xs ih => simp [mapFrom, ih]

theorem mem_mapFrom {α β : Type} {f : Nat → α → β} {i : Nat} {l : List α} {y : β}
    (h : y ∈ mapFrom f i l) : ∃ m, ∃ x ∈ l, y = f m x := by
  induction l generalizing i with
  | nil => exact absurd h List.not_mem_nil
  | cons x xs ih =>
    rcases List.mem_cons.mp h with h | h
    · exact ⟨i, x, List.mem_cons_self, h⟩
    · obtain ⟨m, z, hz, hy⟩ := ih h
      exact ⟨m, z, List.mem_cons_of_mem _ hz, hy⟩

/-- A change of every entry of the mark table that keeps its law. -/
theorem keeps_mapMarks (s : State) (f : MarkEntry → MarkEntry) (h : ∀ e : MarkEntry, e.ok → (f e).ok) :
    Keeps s { s with marks := s.marks.map f } :=
  keeps_marks s _ fun k => ⟨by rw [List.length_map]; exact k.1, fun e he => by
    obtain ⟨x, hx, rfl⟩ := List.mem_map.mp he
    exact h x (k.2 x hx)⟩

theorem keeps_mapFromMarks (s : State) (f : Nat → MarkEntry → MarkEntry)
    (h : ∀ m (e : MarkEntry), e.ok → (f m e).ok) : Keeps s { s with marks := mapFrom f 0 s.marks } :=
  keeps_marks s _ fun k => ⟨by rw [mapFrom_length]; exact k.1, fun e he => by
    obtain ⟨m, x, hx, rfl⟩ := mem_mapFrom he
    exact h m x (k.2 x hx)⟩

theorem keeps_modifyMark (s : State) (m : Nat) (f : MarkEntry → MarkEntry)
    (h : ∀ e, s.marks[m]? = some e → e.ok → (f e).ok) :
    Keeps s { s with marks := modifyAt f m s.marks } :=
  keeps_marks s _ fun k => ⟨by rw [modifyAt_length]; exact k.1, fun e he => by
    rcases mem_modifyAt he with he | ⟨x, hx, rfl⟩
    · exact k.2 e he
    · exact h x hx (k.2 x (List.mem_of_getElem? hx))⟩

theorem onOwned_ok {f : Owned → Owned} (h : ∀ o, (MarkEntry.owned o).ok → (MarkEntry.owned (f o)).ok)
    (e : MarkEntry) (k : e.ok) : (e.onOwned f).ok := by
  cases e with
  | owned o => exact h o k
  | replica r => exact k

theorem onReplica_ok {f : Replica → Replica} (h : ∀ r, r.value ≤ 99 → (f r).value ≤ 99)
    (e : MarkEntry) (k : e.ok) : (e.onReplica f).ok := by
  cases e with
  | owned o => exact k
  | replica r => exact h r k

/-- A change of an owned entry that keeps its law, at any mark. -/
theorem keeps_modifyOwned (s : State) (m : Nat) (f : Owned → Owned)
    (h : ∀ o, (MarkEntry.owned o).ok → (MarkEntry.owned (f o)).ok) : Keeps s (s.modifyOwned m f) :=
  keeps_modifyMark s m _ fun e _ k => onOwned_ok h e k

theorem keeps_modifyReplica (s : State) (m : Nat) (f : Replica → Replica)
    (h : ∀ r, r.value ≤ 99 → (f r).value ≤ 99) : Keeps s (s.modifyReplica m f) :=
  keeps_modifyMark s m _ fun e _ k => onReplica_ok h e k

/-! ## Flags.lean and Ops.lean -/

theorem keeps_setOverrun (s : State) : Keeps s s.setOverrun := .inert rfl
theorem keeps_setLoop (s : State) : Keeps s s.setLoop := .inert rfl
theorem keeps_setRosterFull (s : State) : Keeps s s.setRosterFull := .inert rfl
theorem keeps_setWithdrawn (s : State) : Keeps s s.setWithdrawn := .inert rfl
theorem keeps_setWorn (s : State) : Keeps s s.setWorn := .inert rfl
theorem keeps_clearCarried (s : State) (a b c : Bool) : Keeps s (s.clearCarried a b c) := .inert rfl
theorem keeps_modifyStep (s : State) (n : Nat) (f : Step → Step) : Keeps s (s.modifyStep n f) :=
  .inert rfl
theorem keeps_stopDriving (s : State) : Keeps s s.stopDriving := .inert rfl
theorem keeps_requestHail (s : State) : Keeps s s.requestHail := .inert rfl
theorem keeps_noteTaking (s : State) : Keeps s s.noteTaking := .inert rfl
theorem keeps_lineEnds (s : State) : Keeps s s.lineEnds := .inert rfl

theorem keeps_notePending (s : State) (b : Bool) : Keeps s (s.notePending b) := by
  unfold State.notePending
  split
  · exact .refl s
  · split
    · exact .inert rfl
    · exact .refl s

theorem keeps_orphan (s : State) (w : Source → Bool) : Keeps s (s.orphan w) := by
  unfold State.orphan
  split
  · exact .refl s
  · split
    · exact .inert rfl
    · exact .refl s

theorem eventsOf_append (a b : List Arrival) : eventsOf (a ++ b) = eventsOf a + eventsOf b := by
  simp [eventsOf]

theorem answersOf_append (a b : List Arrival) : answersOf (a ++ b) = answersOf a + answersOf b := by
  simp [answersOf]

theorem keeps_raise (s : State) (w : Happening) (d : Nat) : Keeps s (s.raise w d) := by
  unfold State.raise
  split
  · split
    · exact keeps_setLoop s
    · split
      · exact keeps_setOverrun s
      · rename_i h
        refine keeps_inbox s _ (.inl ?_) ?_
        · rw [eventsOf_append]
          simp only [Config.engineRoom, State.engineQueue] at h
          simp only [eventsOf, List.filter_cons, Arrival.isEvent, List.filter_nil, if_true,
            List.length_singleton]
          omega
        · rw [answersOf_append]
          simp [answersOf, Arrival.isEvent]
  · exact .refl s

theorem keeps_raiseMark (s : State) (m d : Nat) : Keeps s (s.raiseMark m d) := by
  unfold State.raiseMark
  split
  · exact keeps_raise _ _ _
  · exact .refl s

theorem keeps_raiseMarks (s : State) (ms : List Nat) : Keeps s (s.raiseMarks ms) :=
  .foldl (fun s m => keeps_raiseMark s m 0) ms s

theorem keeps_queueAnswer (s : State) (a : Answer) (h : s.answerHasRoom = true) :
    Keeps s (s.queueAnswer a) := by
  refine keeps_answers s _ (.inl ?_)
  have h : s.answers.length + s.loader.seals.length < 8 := of_decide_eq_true h
  simp only [List.length_append, List.length_singleton]
  omega

theorem keeps_offer (s : State) (q : Queued) : Keeps s (s.offer q) := by
  unfold State.offer
  split
  · rename_i h
    refine keeps_transmit s _ (.inl ?_)
    simp only [Config.transmitRoom] at h
    simp only [List.length_append, List.length_singleton]
    omega
  · exact keeps_setOverrun s

theorem keeps_setPending (s : State) (ms : List Nat) : Keeps s (s.setPending ms) := by
  unfold State.setPending
  refine (Keeps.foldl (fun s m => keeps_modifyOwned s m _ ?_) ms s).trans (keeps_notePending _ _)
  intro o k
  split
  · exact k
  · rename_i hs
    exact ⟨k.1, k.2.1, fun h => absurd h hs⟩

/-! ## Claims.lean -/

theorem tallyAdd_le (v n : Nat) : tallyAdd v n ≤ 99 := by
  unfold tallyAdd
  simp only
  split <;> split <;> omega

theorem tallyTake_le {v n : Nat} (hv : v ≤ 99) : tallyTake v n ≤ 99 := by
  unfold tallyTake
  simp only
  split <;> omega

/-- A decision that grants leaves a value in the kind's range (R2, R26). -/
theorem decideOp_le {k : MarkKind} {v : Nat} {op : Option ClaimOp} {a b w : Nat}
    (h : decideOp k v op a b = .ok w) (hv : v ≤ k.max) : w ≤ k.max := by
  unfold decideOp at h
  split at h
  · exact absurd h (by simp)
  · split at h
    · simp only [Except.ok.injEq] at h; omega
    · exact absurd h (by simp)
  · split at h
    · simp only [Except.ok.injEq] at h
      subst h
      unfold addResult
      split
      · exact tallyAdd_le _ _
      · exact Nat.min_le_right _ _
    · exact absurd h (by simp)
  · split at h
    · split at h
      · simp only [Except.ok.injEq] at h
        subst h
        unfold takeResult
        split
        · exact tallyTake_le hv
        · omega
      · exact absurd h (by simp)
    · exact absurd h (by simp)
  · split at h
    · split at h
      · simp only [Except.ok.injEq] at h; omega
      · exact absurd h (by simp)
    · exact absurd h (by simp)

/-- What a granted claim was decided on (R26). -/
theorem decideClaim_ok {s : State} {m : Nat} {op : Option ClaimOp} {a b : Nat} {o : Owned} {v : Nat}
    (h : s.decideClaim m op a b = .ok (o, v)) :
    s.inWindow m = true ∧ s.owned m = some o ∧ o.sealed = false ∧
      decideOp o.kind o.value op a b = .ok v := by
  unfold State.decideClaim at h
  split at h
  · rename_i hw
    split at h
    · exact absurd h (by simp)
    · rename_i o' ho
      split at h
      · exact absurd h (by simp)
      · rename_i hs
        split at h
        · rename_i w hd
          simp only [Except.ok.injEq, Prod.mk.injEq] at h
          obtain ⟨rfl, rfl⟩ := h
          exact ⟨hw, ho, by simpa using hs, hd⟩
        · exact absurd h (by simp)
  · exact absurd h (by simp)

theorem owned_get {s : State} {m : Nat} {o : Owned} (h : s.owned m = some o) :
    s.marks[m]? = some (.owned o) := by
  unfold State.owned State.mark at h
  rw [List.getD_eq_getElem?_getD] at h
  cases hm : s.marks[m]? with
  | none => rw [hm] at h; simp at h
  | some e =>
    rw [hm] at h
    simp only [Option.getD_some] at h
    cases e with
    | owned o' => simp only [Option.some.injEq] at h; rw [h]
    | replica r => exact absurd h (by simp)

theorem keeps_applyGrant {s : State} {m : Nat} {op : Option ClaimOp} {a b : Nat} {o : Owned} {v : Nat}
    (h : s.decideClaim m op a b = .ok (o, v)) (cause : Option (Nat × Byte)) (d : Nat) :
    Keeps s (s.applyGrant m o v cause d) := by
  obtain ⟨_, ho, hs, hd⟩ := decideClaim_ok h
  have h1 : Keeps s (s.modifyOwned m fun o' => o'.granted v cause s.now) := by
    refine keeps_modifyMark s m _ fun e he k => ?_
    rw [owned_get ho, Option.some.injEq] at he
    subst he
    exact ⟨decideOp_le hd k.1, k.2.1, fun hs' => absurd (hs.symm.trans hs') (by simp)⟩
  unfold State.applyGrant
  simp only
  split
  · exact h1.trans (keeps_notePending _ _)
  · exact (h1.trans (keeps_notePending _ _)).trans (keeps_raiseMark _ _ _)

theorem answerHasRoom_raise (s : State) (w : Happening) (d : Nat) :
    (s.raise w d).answerHasRoom = s.answerHasRoom := by
  unfold State.raise; split <;> [split <;> [rfl; split <;> rfl]; rfl]

theorem answerHasRoom_applyGrant (s : State) (m : Nat) (o : Owned) (v : Nat)
    (cause : Option (Nat × Byte)) (d : Nat) :
    (s.applyGrant m o v cause d).answerHasRoom = s.answerHasRoom := by
  unfold State.applyGrant State.raiseMark
  simp only
  have h : ((s.modifyOwned m fun o' => o'.granted v cause s.now).notePending s.anyPending).answerHasRoom
      = s.answerHasRoom := by
    unfold State.notePending; split <;> [rfl; split <;> rfl]
  split
  · exact h
  · split
    · rw [answerHasRoom_raise]; exact h
    · exact h

theorem keeps_takeRemoteClaim (s : State) (sender : Nat) (tag : Byte) (m : Nat) (op : Option ClaimOp)
    (a b : Nat) : Keeps s (s.takeRemoteClaim sender tag m op a b) := by
  unfold State.takeRemoteClaim
  split
  · rename_i hr
    split
    · rename_i o v hd
      exact (keeps_applyGrant hd _ _).trans
        (keeps_queueAnswer _ _ ((answerHasRoom_applyGrant _ _ _ _ _ _).trans hr))
    · exact keeps_queueAnswer _ _ hr
  · exact keeps_setOverrun s

theorem keeps_takeClaimFrame (s : State) (f : GoodFrame) : Keeps s (s.takeClaimFrame f) := by
  unfold State.takeClaimFrame
  split
  · exact keeps_takeRemoteClaim _ _ _ _ _ _ _
  · exact .refl s

theorem keeps_spendTag (s : State) : Keeps s s.spendTag := .inert rfl

/-- What the free tag passes over is held (R39). -/
theorem freeTag_spec (s : State) (n : Nat) (t : Byte) :
    s.tagHeld (s.freeTag n t) = false ∨
      ∀ i < n, s.tagHeld (t + BitVec.ofNat 8 i) = true := by
  induction n generalizing t with
  | zero => exact .inr fun i h => absurd h (Nat.not_lt_zero _)
  | succ n ih =>
    unfold State.freeTag
    split
    · rename_i h
      rcases ih (t + 1) with k | k
      · exact .inl k
      · refine .inr fun i hi => ?_
        cases i with
        | zero => simpa using h
        | succ j =>
          have := k j (by omega)
          rw [show t + BitVec.ofNat 8 (j + 1) = t + 1 + BitVec.ofNat 8 j from by
            rw [BitVec.add_assoc, show (1 : Byte) = BitVec.ofNat 8 1 from rfl,
              ← BitVec.ofNat_add, Nat.add_comm]]
          exact this
    · rename_i h; exact .inl (by simpa using h)

/-- While the list holds fewer than four entries, the next tag is held by none (R39). -/
theorem nextTag_free (s : State) (h : s.claims.length < 4) : s.tagHeld s.nextTag = false := by
  rcases freeTag_spec s 5 s.tagCounter with k | k
  · exact k
  · exfalso
    have hn : ((List.range 5).map fun i => s.tagCounter + BitVec.ofNat 8 i).Nodup := by
      refine List.Nodup.map_on ?_ List.nodup_range
      intro x hx y hy hxy
      have hx := List.mem_range.mp hx
      have hy := List.mem_range.mp hy
      have := congrArg BitVec.toNat hxy
      simp only [BitVec.toNat_add, BitVec.toNat_ofNat] at this
      omega
    have hsub : ((List.range 5).map fun i => s.tagCounter + BitVec.ofNat 8 i) ⊆
        s.claims.map (·.tag) := by
      intro x hx
      obtain ⟨i, hi, rfl⟩ := List.mem_map.mp hx
      have := k i (List.mem_range.mp hi)
      simp only [State.tagHeld, List.any_eq_true, beq_iff_eq] at this
      obtain ⟨e, he, ht⟩ := this
      exact List.mem_map.mpr ⟨e, he, ht⟩
    have := (List.subperm_of_subset hn hsub).length_le
    simp only [List.length_map, List.length_range] at this
    omega

theorem keeps_localClaim (s : State) (m : Nat) (op : ClaimOp) (a b : Byte) (d : Nat) :
    Keeps s (s.localClaim m op a b d).2 := by
  unfold State.localClaim
  split
  · rename_i o v hd
    exact keeps_applyGrant hd _ _
  · exact .refl s

theorem keeps_issueClaim (s : State) (n m : Nat) (op : ClaimOp) (a b : Byte) (d : Nat) :
    Keeps s (s.issueClaim n m op a b d).2 := by
  unfold State.issueClaim
  split
  · exact .refl s
  · split
    · exact .refl s
    · rename_i hroom
      simp only [Config.claimRoom, State.answerHold, not_le] at hroom
      split
      · split
        · exact .refl s
        · rename_i hq
          simp only [Config.transmitRoom, not_le] at hq
          refine (keeps_spendTag s).trans ((keeps_transmit s.spendTag (s.transmit ++ [_]) (.inl ?_)).trans
            (keeps_arrivals _ (s.claims ++ [_]) s.inbox (.inr (Nat.le_refl _)) (.inl ?_) ?_))
          · simp only [List.length_append, List.length_singleton]; omega
          · simp only [List.length_append, List.length_singleton, answersOf]; omega
          · intro ht
            have hf := nextTag_free s (by omega)
            simp only [State.tagHeld, List.any_eq_false, beq_iff_eq] at hf
            rw [List.map_append, List.nodup_append]
            refine ⟨ht, by simp, ?_⟩
            intro x hx y hy
            obtain ⟨e, he, rfl⟩ := List.mem_map.mp hx
            simp only [List.map_cons, List.map_nil, List.mem_singleton] at hy
            subst hy
            exact hf e he
      · exact (keeps_spendTag s).trans (keeps_localClaim _ _ _ _ _ _)

theorem keeps_dropClaimFrame (s : State) (e : ClaimEntry) : Keeps s (s.dropClaimFrame e) := by
  unfold State.dropClaimFrame
  split
  · exact .refl s
  · split
    · exact .refl s
    · exact keeps_transmit s _ (.inr (List.length_filter_le _ _))

theorem dropClaimFrame_claims (s : State) (e : ClaimEntry) : (s.dropClaimFrame e).claims = s.claims := by
  unfold State.dropClaimFrame; split <;> [rfl; split <;> rfl]

theorem keeps_endEntry (s : State) (e : ClaimEntry) (o : ClaimOutcome) : Keeps s (s.endEntry e o) := by
  unfold State.endEntry
  split
  · rename_i hc
    refine (keeps_dropClaimFrame s e).trans (keeps_arrivals _ _ _ (.inr ?_) (.inr ?_) ?_)
    · rw [eventsOf_append]; simp [eventsOf, Arrival.isEvent]
    · rw [answersOf_append]
      have hlt : ((s.dropClaimFrame e).claims.filter fun e' => e'.tag != e.tag).length <
          (s.dropClaimFrame e).claims.length := by
        rw [dropClaimFrame_claims]
        refine List.length_filter_lt_length_iff_exists.mpr ⟨e, by simpa using hc, by simp⟩
      simp only [answersOf, List.filter_cons, Arrival.isEvent, List.filter_nil, Bool.not_false, if_true,
        List.length_singleton]
      omega
    · intro hn
      exact hn.sublist (List.filter_sublist.map _)
  · exact .refl s

theorem keeps_endEntries (s : State) (f : ClaimEntry → Bool) : Keeps s (s.endEntries f) :=
  .foldl (fun s e => keeps_endEntry s e .noAnswer) _ s

theorem keeps_endMatching (s : State) (t : Byte) (m o : Nat) (r : ClaimOutcome) :
    Keeps s (s.endMatching t m o r) := by
  unfold State.endMatching
  split
  · exact keeps_endEntry _ _ _
  · exact .refl s

theorem keeps_takeGrantFrame (s : State) (f : GoodFrame) : Keeps s (s.takeGrantFrame f) := by
  unfold State.takeGrantFrame
  split
  · exact keeps_endMatching _ _ _ _ _
  · exact .refl s

theorem keeps_takeRefuseFrame (s : State) (f : GoodFrame) : Keeps s (s.takeRefuseFrame f) := by
  unfold State.takeRefuseFrame
  split
  · split
    · exact .refl s
    · exact keeps_endMatching _ _ _ _ _
  · exact .refl s

theorem keeps_takeCause (s : State) (f : GoodFrame) : Keeps s (s.takeCause f) := by
  unfold State.takeCause
  split
  · exact keeps_endMatching _ _ _ _ _
  · exact .refl s

theorem keeps_claimDeadlinePasses (s : State) (t : Byte) : Keeps s (s.claimDeadlinePasses t) := by
  unfold State.claimDeadlinePasses
  repeat' split
  all_goals first | exact .refl s | exact keeps_endEntry _ _ _

theorem keeps_claimSent (s : State) (t : Byte) : Keeps s (s.claimSent t) := by
  refine keeps_arrivals s _ s.inbox (.inr (Nat.le_refl _)) (.inr ?_) ?_
  · rw [List.length_map]
  · intro h
    rw [List.map_map]
    refine (List.map_congr_left fun e _ => ?_) ▸ h
    simp only [Function.comp]
    split <;> rfl

end Sys2Proof.Machine
end

