-- ==== Sys2Proof/Laws/KeepsBlocks.lean ====
section
/-! SUPPORT. `Keeps` for the Roster, the store and journal, the Mark Unit, pads and outputs. -/

namespace Sys2Proof.Machine

/-! ## Roster.lean -/

/-- A change of the entries that leaves their numbers and the law of the silence deadline. -/
theorem unrouted_mapRoster (s : State) (f : Peer → Peer) (ht : ∀ p, (f p).tile = p.tile)
    (hp : ∀ p : Peer, p.present = p.silenceAt.isSome → (f p).present = (f p).silenceAt.isSome) :
    KeepsUnrouted s { s with roster := s.roster.map f } := by
  refine unrouted_roster s _ (fun ⟨h1, h2, h3⟩ => ⟨?_, ?_, ?_⟩) (fun h => .inl ?_)
  · rw [List.length_map]; exact h1
  · rw [List.pairwise_map]
    refine h2.imp fun h => ?_
    rw [ht, ht]; exact h
  · intro p hp'
    obtain ⟨q, hq, rfl⟩ := List.mem_map.mp hp'
    obtain ⟨a, b, c, d⟩ := h3 q hq
    rw [ht]
    exact ⟨a, b, c, hp q d⟩
  · rw [h]; rfl

/-- One that also leaves what routing reads of an entry. -/
theorem keeps_mapRoster (s : State) (f : Peer → Peer) (ht : ∀ p, (f p).tile = p.tile)
    (hp : ∀ p : Peer, p.present = p.silenceAt.isSome → (f p).present = (f p).silenceAt.isSome)
    (hr : s.rosterOk → ∀ p ∈ s.roster, (f p).present = p.present ∧ (f p).first = p.first ∧
      (f p).size = p.size) : Keeps s { s with roster := s.roster.map f } := by
  refine ⟨unrouted_mapRoster s f ht hp, fun a b m hm => (b m hm).trans ?_⟩
  have key : ∀ l : List Peer, (∀ p ∈ l, (f p).present = p.present ∧ (f p).first = p.first ∧
      (f p).size = p.size) → (lowestHolder (l.map f) m).map (·.tile) = (lowestHolder l m).map (·.tile) := by
    intro l h
    induction l with
    | nil => rfl
    | cons p l ih =>
      obtain ⟨h1, h2, h3⟩ := h p List.mem_cons_self
      have e : ((f p).present && (f p).holds m) = (p.present && p.holds m) := by
        simp only [Peer.holds, h1, h2, h3]
      simp only [lowestHolder, List.map_cons, List.find?_cons, e]
      cases p.present && p.holds m
      · exact ih fun q hq => h q (List.mem_cons_of_mem _ hq)
      · simp only [Option.map_some, ht]
  have k := key s.roster (hr a)
  simp only [State.routeOf, State.inWindow]
  cases h1 : lowestHolder s.roster m <;> cases h2 : lowestHolder (s.roster.map f) m <;>
    rw [h1, h2] at k <;> simp_all

/-- An entry found is the only one of its number. -/
theorem peer_only {s : State} (h : s.rosterOk) {n : Nat} {p q : Peer} (hp : s.peer n = some p)
    (hq : q ∈ s.roster) (hn : q.tile = n) : q = p := by
  have hm := List.mem_of_find?_eq_some hp
  have hpt : p.tile = n := by simpa using List.find?_some hp
  have hw := h.2.1
  clear hp h
  generalize s.roster = l at hw hq hm
  induction l with
  | nil => cases hq
  | cons x l ih =>
    rw [List.pairwise_cons] at hw
    rcases List.mem_cons.mp hq with rfl | hq' <;> rcases List.mem_cons.mp hm with rfl | hm'
    · rfl
    · have := hw.1 p hm'; omega
    · have := hw.1 q hq'; omega
    · exact ih hw.2 hq' hm'

theorem unrouted_modifyPeer (s : State) (tile : Nat) (f : Peer → Peer) (ht : ∀ p, (f p).tile = p.tile)
    (hp : ∀ p : Peer, p.present = p.silenceAt.isSome → (f p).present = (f p).silenceAt.isSome) :
    KeepsUnrouted s (s.modifyPeer tile f) := by
  refine unrouted_mapRoster s _ (fun p => ?_) (fun p h => ?_)
  · split
    · exact ht p
    · rfl
  · split
    · exact hp p h
    · exact h

theorem takeGrade_tile (p : Peer) (h : Header) (g : FrameGrade) : (p.takeGrade h g).tile = p.tile := by
  unfold Peer.takeGrade
  simp only
  split <;> rfl

theorem takeGrade_present (p : Peer) (h : Header) (g : FrameGrade) :
    (p.takeGrade h g).present = p.present ∧ (p.takeGrade h g).silenceAt = p.silenceAt := by
  unfold Peer.takeGrade
  simp only
  split <;> exact ⟨rfl, rfl⟩

theorem takeGrade_window (p : Peer) (h : Header) (g : FrameGrade) :
    (p.takeGrade h g).first = p.first ∧ (p.takeGrade h g).size = p.size := by
  unfold Peer.takeGrade
  simp only
  split <;> exact ⟨rfl, rfl⟩

theorem unrouted_gradeAndRefresh (s : State) (n : Nat) (g : FrameGrade) :
    KeepsUnrouted s (s.gradeAndRefresh n g) :=
  unrouted_modifyPeer s n _ (fun p => takeGrade_tile p s.header g) fun _ _ => rfl

/-- A refresh of a PRESENT entry leaves the routing. -/
theorem keeps_gradeAndRefresh (s : State) (n : Nat) (g : FrameGrade) {p : Peer} (hp : s.peer n = some p)
    (hpr : p.present = true) : Keeps s (s.gradeAndRefresh n g) := by
  have hw := fun q : Peer => takeGrade_window q s.header g
  refine keeps_mapRoster s _ (fun q => ?_) (fun q h => ?_) fun hr q hq => ?_
  · split
    · exact takeGrade_tile q s.header g
    · rfl
  · split
    · rfl
    · exact h
  · split
    · rename_i hn
      rw [peer_only hr hp hq hn]
      exact ⟨hpr.symm, hw p⟩
    · exact ⟨rfl, rfl, rfl⟩

theorem rerouteEntry_ok (a b : List Route) (c : Option Nat) (m : Nat) (e : MarkEntry) (k : e.ok) :
    (rerouteEntry a b c m e).ok := by
  unfold rerouteEntry
  simp only
  split
  · exact k
  · exact onReplica_ok (f := fun r => { r with state := rerouted _ _ c r.state }) (fun _ h => h) e k

/-- After a recomputation routing is as R15 gives it, whatever it was before. -/
theorem KeepsUnrouted.recompute {s t : State} (h : KeepsUnrouted s t) (c : Option Nat) :
    Keeps s (t.recompute c) := by
  let marks' := mapFrom (rerouteEntry t.routes t.computeRoutes c) 0 t.marks
  let u : State := { t with routes := t.computeRoutes, marks := marks' }
  let v := u.raiseMarks (changedStates t.marks marks')
  have k : KeepsUnrouted t u :=
    (keeps_mapFromMarks t _ fun m e k => rerouteEntry_ok t.routes t.computeRoutes c m e k).toKeepsUnrouted.trans
      (.inert rfl)
  have l : Keeps u (t.recompute c) := (keeps_raiseMarks u _).trans (keeps_endEntries v v.ownerLost)
  exact ⟨(h.trans k).trans l.toKeepsUnrouted,
    fun a _ => l.routes ((h.trans k).roster a) (routesOk_computed rfl)⟩

theorem keeps_showFrame (s : State) (n : Nat) (g : FrameGrade) : Keeps s (s.showFrame n g) := by
  unfold State.showFrame
  split
  · split
    · exact .refl s
    · split
      · exact keeps_gradeAndRefresh _ _ _ (by assumption) (by assumption)
      · exact (unrouted_gradeAndRefresh _ _ _).recompute _
  · exact .refl s

theorem keeps_offerAsk (s : State) (p : Peer) : Keeps s (s.offerAsk p) := by
  unfold State.offerAsk
  split
  · split
    · exact .refl s
    · exact keeps_offer _ _
  · exact .refl s

theorem keeps_offerAsks (s : State) : Keeps s s.offerAsks := .foldl keeps_offerAsk _ s

theorem keeps_silencePasses (s : State) (n : Nat) : Keeps s (s.silencePasses n) := by
  unfold State.silencePasses
  split
  · split
    · exact .refl s
    · split
      · exact .refl s
      · split
        · exact KeepsUnrouted.recompute (unrouted_modifyPeer s n (fun p =>
            { p with present := false, silenceAt := none, removalAt := if s.session = .rest then none
                       else some (s.now + Config.removalTime) })
            (fun _ => rfl) fun _ _ => rfl) _
        · exact .refl s
  · exact .refl s

theorem removePeer_good {tile n : Nat} {r : List Peer} (h : rosterGood tile r) :
    rosterGood tile (removePeer n r) :=
  ⟨Nat.le_trans (List.length_filter_le _ _) h.1, h.2.1.sublist List.filter_sublist,
    fun p hp => h.2.2 p (List.mem_of_mem_filter hp)⟩

theorem keeps_removalPasses (s : State) (n : Nat) : Keeps s (s.removalPasses n) := by
  unfold State.removalPasses
  split
  · split
    · exact .refl s
    · split
      · exact .refl s
      · split
        · exact (unrouted_roster s _ removePeer_good fun h => .inl (by rw [h]; rfl)).recompute _
        · exact .refl s
  · exact .refl s

theorem keeps_restRoster (s : State) : Keeps s s.restRoster := by
  refine keeps_mapRoster s _ (fun _ => rfl) (fun p _ => ?_) fun _ _ _ => ⟨rfl, rfl, rfl⟩
  show p.present = Option.isSome (if p.present then _ else none)
  cases p.present <;> rfl

theorem keeps_wakeRoster (s : State) : Keeps s s.wakeRoster := by
  refine keeps_mapRoster s _ (fun p => ?_) (fun p h => ?_) fun _ p _ => ?_
  · split <;> rfl
  · split
    · rename_i hp; exact hp
    · exact h
  · split <;> exact ⟨rfl, rfl, rfl⟩

/-! ## StoreControl.lean -/

theorem keeps_begin (s : State) (op : StoreOp) : Keeps s { s with store := s.store.begin op } :=
  keeps_store s _ fun h => by unfold Store.wf; rw [begin_cells]; exact h

theorem keeps_request (s : State) (op : StoreOp) (p : Purpose) : Keeps s (s.request op p) := by
  unfold State.request
  split
  · exact (keeps_begin s op).trans (.inert rfl)
  · exact .inert rfl

theorem keeps_startWaiting (s : State) : Keeps s s.startWaiting := by
  unfold State.startWaiting
  split
  · exact .refl s
  · split
    · exact (keeps_begin s _).trans (.inert rfl)
    · exact .refl s

theorem keeps_droopStore (s : State) (l : List SlotLeft) : Keeps s (s.droopStore l) := by
  unfold State.droopStore
  split
  · split
    · exact (keeps_store s _ fun h => failed_wf _ _ h).trans (.inert rfl)
    · exact .refl s
  · exact .refl s

theorem keeps_settleStore (s : State) (r : OpResult) : Keeps s (s.settleStore r) := by
  unfold State.settleStore
  split
  · split
    · exact (keeps_store s _ fun h => finish_wf _ _ _ h).trans (.inert rfl)
    · exact (keeps_store s _ fun h => failed_wf _ _ h).trans (.inert rfl)
    · exact .inert rfl
  · exact .refl s

/-! ## Journal.lean -/

theorem keeps_modifyBlock (s : State) (b : Nat) (f : Block → Block) : Keeps s (s.modifyBlock b f) :=
  .inert rfl
theorem keeps_setBlock (s : State) (b : Nat) (x : BlockState) : Keeps s (s.setBlock b x) := .inert rfl

theorem keeps_wornTest (s : State) : Keeps s s.wornTest := by
  unfold State.wornTest
  split
  · exact keeps_setWorn s
  · exact .refl s

theorem keeps_retire (s : State) (b : Nat) : Keeps s (s.retire b) := by
  unfold State.retire
  simp only
  split
  · exact (keeps_setBlock s b _).trans (keeps_request _ _ _)
  · exact (keeps_setBlock s b _).trans (keeps_wornTest _)

theorem keeps_programActive (s : State) (b : Nat) (e : Byte) (body : SlotBody) (p : Purpose) :
    Keeps s (s.programActive b e body p) := (keeps_request s _ _).trans (.inert rfl)

theorem keeps_labelBlock (s : State) (b : Nat) (t : LabelType) : Keeps s (s.labelBlock b t) := by
  unfold State.labelBlock
  split
  · exact ((keeps_modifyBlock s b _).trans (keeps_request _ _ _)).trans (.inert rfl)
  · exact keeps_setWorn s

theorem keeps_clearCaptured (s : State) : Keeps s s.clearCaptured :=
  keeps_mapMarks s _ (onOwned_ok fun _ k => k)

theorem keeps_clearPending (s : State) (ms : List Nat) : Keeps s
    (ms.foldl (fun (s : State) m => s.modifyOwned m fun o => { o with pending := none }) s) :=
  .foldl (fun s m => keeps_modifyOwned s m (fun o => { o with pending := none }) fun _ k => ⟨k.1, k.2.1, fun h =>
    ⟨(k.2.2 h).1, (k.2.2 h).2.1, (k.2.2 h).2.2.1, rfl, (k.2.2 h).2.2.2.2⟩⟩) _ s

theorem keeps_setCaptured (s : State) (ms : List Nat) : Keeps s
    (ms.foldl (fun (s : State) m => s.modifyOwned m fun o => { o with captured := true }) s) :=
  .foldl (fun s m => keeps_modifyOwned s m (fun o => { o with captured := true }) fun _ k => k) _ s

theorem keeps_startBatch (s : State) (b : Nat) : Keeps s (s.startBatch b) := by
  unfold State.startBatch
  simp only
  refine Keeps.trans ?_ (keeps_programActive _ _ _ _ _)
  refine Keeps.trans ?_ (keeps_noteTaking _)
  exact (keeps_clearPending s (s.pendingMarks.take Config.recordRoom)).trans (.inert rfl)

theorem keeps_programSnapshot (s : State) (b : Nat) : Keeps s (s.programSnapshot b) := by
  unfold State.programSnapshot
  simp only
  split
  · exact (keeps_request s _ _).trans (.inert rfl)
  · exact ((keeps_setCaptured s _).trans (keeps_request _ _ _)).trans (.inert rfl)

theorem keeps_takeLabel (s : State) : Keeps s s.takeLabel := by
  unfold State.takeLabel
  split
  · exact keeps_labelBlock _ _ _
  · exact keeps_setWorn s

theorem keeps_takeCompaction (s : State) : Keeps s s.takeCompaction := by
  unfold State.takeCompaction
  split
  · exact (keeps_clearCaptured s).trans (keeps_labelBlock _ _ _)
  · exact .refl s

theorem keeps_takeNewGameSlot (s : State) : Keeps s s.takeNewGameSlot := by
  unfold State.takeNewGameSlot
  split
  · exact keeps_programActive _ _ _ _ _
  · exact .refl s

theorem keeps_takeBatch (s : State) : Keeps s s.takeBatch := by
  unfold State.takeBatch
  split
  · exact keeps_startBatch _ _
  · exact .refl s

theorem keeps_takeSnapshotSlot (s : State) : Keeps s s.takeSnapshotSlot := by
  unfold State.takeSnapshotSlot
  split
  · exact keeps_programSnapshot _ _
  · exact .refl s

theorem keeps_takeErase (s : State) : Keeps s s.takeErase := by
  unfold State.takeErase
  split
  · exact keeps_request _ _ _
  · exact .refl s

theorem keeps_takeWork (s : State) (w : Work) {f : State → State} (h : ∀ s, Keeps s (f s)) :
    Keeps s (s.takeWork w f) := by
  unfold State.takeWork
  split
  · exact h s
  · exact .refl s

theorem keeps_becomeActive (s : State) (b : Nat) : Keeps s (s.becomeActive b) := .inert rfl

theorem keeps_becomeBuilding (s : State) (b : Nat) : Keeps s (s.becomeBuilding b) :=
  ((keeps_setBlock s b _).trans (keeps_clearCaptured _)).trans (.inert rfl)

theorem keeps_fillActive (s : State) (b i : Nat) : Keeps s (s.fillActive b i) := by
  unfold State.fillActive
  split
  · exact keeps_setBlock _ _ _
  · exact .refl s

theorem keeps_endCompaction (s : State) (b i : Nat) : Keeps s (s.endCompaction b i) := by
  unfold State.endCompaction
  refine (keeps_mapMarks s (MarkEntry.onOwned fun o =>
    { o with pending := if o.captured then none else o.pending, captured := false }) (onOwned_ok ?_)).trans (.inert rfl)
  exact fun o k => ⟨k.1, k.2.1, fun h => ⟨(k.2.2 h).1, (k.2.2 h).2.1, (k.2.2 h).2.2.1,
    by show (if o.captured then none else o.pending) = none; rw [(k.2.2 h).2.2.2.1, ite_self], (k.2.2 h).2.2.2.2⟩⟩

/-- Any other change of the Journal Writer. -/
theorem keeps_writer (s : State) (w : Writer) : Keeps s { s with writer := w } := .inert rfl

theorem keeps_writerProgrammed (s : State) (b i : Nat) (p : Purpose) (v : Verdict) :
    Keeps s (s.writerProgrammed b i p v) := by
  unfold State.writerProgrammed
  split
  · exact keeps_becomeActive _ _
  · exact keeps_becomeBuilding _ _
  · exact keeps_retire _ _
  · exact (keeps_writer s _).trans (keeps_fillActive _ _ _)
  · exact ((keeps_setPending s _).trans (keeps_writer _ _)).trans (keeps_retire _ _)
  · exact (keeps_writer s _).trans (keeps_fillActive _ _ _)
  · exact keeps_retire _ _
  · exact keeps_writer s _
  · exact keeps_endCompaction _ _ _
  · exact ((keeps_clearCaptured s).trans (keeps_writer _ _)).trans (keeps_retire _ _)
  · exact ((keeps_clearCaptured s).trans (keeps_writer _ _)).trans (keeps_retire _ _)
  · exact keeps_wornTest s
  · exact .refl s

theorem keeps_writerErased (s : State) (b : Nat) (v : Verdict) : Keeps s (s.writerErased b v) := by
  unfold State.writerErased
  split
  · exact keeps_modifyBlock _ _ _
  · exact keeps_retire _ _

theorem keeps_abandonBuilding (s : State) : Keeps s s.abandonBuilding := by
  unfold State.abandonBuilding
  split
  · exact keeps_setBlock _ _ _
  · exact .refl s

theorem keeps_writerNewGame (s : State) (a b : Byte) : Keeps s (s.writerNewGame a b) :=
  ((keeps_abandonBuilding s).trans (keeps_clearCaptured _)).trans (.inert rfl)

theorem keeps_writerWithdraw (s : State) : Keeps s s.writerWithdraw :=
  (keeps_abandonBuilding s).trans (.inert rfl)

theorem keeps_takeNewGameWait (s : State) : Keeps s s.takeNewGameWait := by
  unfold State.takeNewGameWait
  split
  · exact keeps_writerNewGame _ _ _
  · exact .refl s

theorem keeps_takeWithdrawWait (s : State) : Keeps s s.takeWithdrawWait := by
  unfold State.takeWithdrawWait
  split
  · exact keeps_writerWithdraw _
  · exact .refl s

theorem keeps_takeWaits (s : State) : Keeps s s.takeWaits := by
  unfold State.takeWaits
  split
  · exact (keeps_takeNewGameWait s).trans (keeps_takeWithdrawWait _)
  · exact .refl s

theorem keeps_tellWriterNewGame (s : State) : Keeps s s.tellWriterNewGame :=
  (keeps_writer s _).trans (keeps_takeWaits _)

theorem keeps_tellWriterWithdraw (s : State) : Keeps s s.tellWriterWithdraw :=
  (keeps_writer s _).trans (keeps_takeWaits _)

/-! ## Marks.lean -/

theorem keeps_judgeItem (s : State) (n : Nat) (e : Byte) (m v : Nat) (w : Byte) :
    Keeps s (s.judgeItem n e m v w) := by
  unfold State.judgeItem
  split
  · rename_i hc
    split
    · exact .refl s
    · split
      · have h1 : Keeps s (s.modifyReplica m fun _ => ⟨v, w, e, .fresh⟩) :=
          keeps_modifyReplica s m _ fun _ _ => hc.2.2.1
        simp only
        split
        · exact h1.trans (keeps_raiseMark _ _ _)
        · exact h1
      · exact .refl s
  · exact .refl s

theorem keeps_takeUpdateFrame (s : State) (f : GoodFrame) : Keeps s (s.takeUpdateFrame f) :=
  (keeps_judgeItem _ _ _ _ _ _).trans (keeps_takeCause _ _)

theorem keeps_takeSnapshotFrame (s : State) (f : GoodFrame) : Keeps s (s.takeSnapshotFrame f) := by
  unfold State.takeSnapshotFrame
  split
  · exact .foldl (fun s it => keeps_judgeItem s _ _ _ _ _) _ s
  · exact .refl s

theorem keeps_startRun (s : State) : Keeps s s.startRun := by
  unfold State.startRun
  repeat' split
  all_goals exact .inert rfl

theorem keeps_takeAskFrame (s : State) : Keeps s s.takeAskFrame := by
  unfold State.takeAskFrame
  split
  · exact keeps_startRun s
  · exact .refl s

theorem keeps_emptyRun (s : State) : Keeps s s.emptyRun :=
  Keeps.trans (t := { s with run := { s.run with running := false, restart := false } }) (.inert rfl)
    (keeps_orphan _ _)

theorem keeps_runSent (s : State) (n : Nat) : Keeps s (s.runSent n) := by
  unfold State.runSent
  repeat' split
  all_goals exact .inert rfl

theorem keeps_runLost (s : State) : Keeps s s.runLost := by
  unfold State.runLost
  split <;> exact .inert rfl

theorem keeps_stopGrant (s : State) : Keeps s s.stopGrant := by
  unfold State.stopGrant
  repeat' split
  all_goals first | exact .refl s | exact keeps_stopDriving s

theorem withdraw_ok (e : MarkEntry) (k : e.ok) : e.withdraw.ok := by
  cases e with
  | owned o => exact Nat.zero_le _
  | replica r => exact k

theorem unrouted_withdraw (s : State) : KeepsUnrouted s s.withdraw := by
  unfold State.withdraw
  simp only
  refine KeepsUnrouted.trans ?_ (keeps_tellWriterWithdraw _).toKeepsUnrouted
  refine KeepsUnrouted.trans ?_ (keeps_raiseMarks _ _).toKeepsUnrouted
  refine KeepsUnrouted.trans ?_ (keeps_setWithdrawn _).toKeepsUnrouted
  refine KeepsUnrouted.trans (((keeps_stopGrant s).trans (keeps_emptyRun _)).trans
    (keeps_orphan _ Source.isSlate)).toKeepsUnrouted ?_
  exact (keeps_mapMarks _ _ withdraw_ok).toKeepsUnrouted.trans
    ((keeps_answers _ _ (.inr (List.length_filter_le _ _))).toKeepsUnrouted.trans (.inert rfl))

theorem newGame_ok (now : Nat) (e : MarkEntry) (k : e.ok) : (e.newGame now).ok := by
  cases e with
  | owned o =>
    unfold MarkEntry.newGame
    simp only
    split
    · exact k
    · rename_i hs
      exact ⟨k.2.1, k.2.1, fun h => absurd h hs⟩
  | replica r => exact Nat.zero_le _

theorem keeps_newGameMarks (s : State) : Keeps s s.newGameMarks := by
  unfold State.newGameMarks
  simp only
  refine Keeps.trans ?_ (keeps_emptyRun _)
  refine Keeps.trans ?_ (keeps_orphan _ _)
  refine Keeps.trans ?_ (keeps_notePending _ _)
  exact (keeps_mapMarks s _ (newGame_ok s.now)).trans (keeps_answers _ _ (.inr (Nat.zero_le _)))

theorem keeps_setAnnounce (s : State) (m : Nat) (b : Bool) : Keeps s (s.setAnnounce m b) := by
  refine keeps_modifyOwned s m _ fun o k => ?_
  split
  · exact k
  · rename_i hs
    exact ⟨k.1, k.2.1, fun h => absurd h hs⟩

/-! ## Pads.lean -/

theorem keeps_modifyPad (s : State) (n : Nat) (f : Pad → Pad) : Keeps s (s.modifyPad n f) := .inert rfl

theorem keeps_padEvent (s : State) (n : Nat) (k : PadEventKind) : Keeps s (s.padEvent n k) := by
  unfold State.padEvent
  repeat' split
  all_goals first | exact keeps_raise _ _ _ | exact keeps_modifyPad _ _ _ | exact .refl s

theorem keeps_padGate (s : State) (n c : Nat) : Keeps s (s.padGate n c) :=
  (keeps_modifyPad s n _).trans (.foldl (fun s k => keeps_padEvent s n k) _ _)

theorem keeps_padGates (s : State) (cs : List Nat) : Keeps s (s.padGates cs) :=
  .foldl (fun s n => keeps_padGate s n _) _ s

theorem keeps_recheck (s : State) (n : Nat) : Keeps s (s.recheck n) := by
  unfold State.recheck
  simp only
  repeat' split
  all_goals first | exact keeps_raise _ _ _ | exact .refl s

theorem keeps_clearHeld (s : State) : Keeps s s.clearHeld := .inert rfl

theorem keeps_releaseHeld (s : State) : Keeps s s.releaseHeld := by
  refine (Keeps.foldl (fun s n => ?_) _ s).trans (keeps_clearHeld _)
  unfold State.raiseHeld
  split
  · exact keeps_raise _ _ _
  · exact .refl s

theorem keeps_newGamePads (s : State) : Keeps s s.newGamePads := .inert rfl

/-! ## Outputs.lean -/

theorem keeps_modifyTimer (s : State) (n : Nat) (f : Timer → Timer) : Keeps s (s.modifyTimer n f) :=
  .inert rfl

theorem keeps_expireTimer (s : State) (n : Nat) : Keeps s (s.expireTimer n) := by
  unfold State.expireTimer
  split
  · exact (keeps_modifyTimer s n _).trans (keeps_raise _ _ _)
  · exact .refl s

theorem keeps_idleTimers (s : State) : Keeps s s.idleTimers := .inert rfl
theorem keeps_setLight (s : State) (n : Nat) (p : LightPattern) : Keeps s (s.setLight n p) := .inert rfl
theorem keeps_lightsOff (s : State) : Keeps s s.lightsOff := .inert rfl
theorem keeps_restartBlinks (s : State) : Keeps s s.restartBlinks := .inert rfl

theorem keeps_joinTone (s : State) (l : List Tone) (n : Nat) (h : l.length ≤ 4) :
    Keeps s { s with tones := l, toneCount := n } :=
  (keeps_tones s l (.inl h)).trans (.inert rfl)

/-- A tone that plays at once. -/
theorem keeps_startTone (s : State) (t : Tone) :
    Keeps s { s with tones := [t], toneCount := 0, toneStart := s.now } :=
  (keeps_joinTone s [t] 0 (by simp)).trans (.inert rfl)

theorem keeps_playTone (s : State) (t : Tone) (c : Bool) : Keeps s (s.playTone t c) := by
  unfold State.playTone
  repeat' split
  all_goals first
    | exact keeps_startTone s t
    | exact keeps_setOverrun s
    | exact .refl s
    | rename_i h
      refine keeps_joinTone s (s.tones ++ [t]) s.toneCount ?_
      simp only [Config.toneRoom] at h
      simp only [List.length_append, List.length_singleton]
      omega

theorem keeps_endTone (s : State) : Keeps s s.endTone := by
  unfold State.endTone
  split
  · exact (keeps_tones s _ (.inr (by rw [List.length_tail]; omega))).trans (.inert rfl)
  · exact .refl s

theorem keeps_silenceTones (s : State) : Keeps s s.silenceTones :=
  (keeps_tones s [] (.inl (Nat.zero_le _))).trans (.inert rfl)

theorem keeps_takeOverdue (s : State) : Keeps s s.takeOverdue :=
  (Keeps.foldl (fun s n => keeps_expireTimer s n) _ s).trans (keeps_endTone _)

theorem keeps_tickSession (s : State) : Keeps s s.tickSession := by
  unfold State.tickSession
  split <;> exact .inert rfl

theorem keeps_tick (s : State) : Keeps s s.tick := by
  unfold State.tick
  split
  · exact ((keeps_tickSession s).trans (keeps_takeOverdue _)).trans (.inert rfl)
  · exact keeps_tickSession s

end Sys2Proof.Machine
end

