-- ==== Sys2Proof/Laws/KeepsEngine.lean ====
section
/-! SUPPORT. `Keeps` for the Quest Engine, the sending side and the whole-tile events. -/

namespace Sys2Proof.Machine

/-! ## Engine.lean -/

/-- What a nested firing must keep for the firing around it to keep it. -/
def FireKeeps (fire : Nat → Handling → Handling) : Prop := ∀ n h, Keeps h.s (fire n h).s

theorem keeps_offSteps (s : State) (n : Nat) (f : Step → Step) : Keeps s (s.modifyStep n f) := .inert rfl

theorem keeps_complete (h : Handling) (n : Nat) : Keeps h.s (h.complete n).s := by
  unfold Handling.complete
  split
  · exact .refl _
  · exact (keeps_raise _ _ _).trans (keeps_modifyStep _ _ _)

theorem keeps_onSpot {fire : Nat → Handling → Handling} (hf : FireKeeps fire) (h : Handling) (n : Nat)
    (st : Step) : Keeps h.s (Handling.arm.onSpot fire h n st).s := by
  unfold Handling.arm.onSpot
  simp only
  split
  · exact keeps_modifyStep _ _ _
  · split
    · exact Keeps.trans (keeps_modifyStep h.s n fun _ => st) (hf n (h.onState fun s => s.modifyStep n fun _ => st))
    · exact keeps_modifyStep _ _ _

theorem keeps_arm {fire : Nat → Handling → Handling} (hf : FireKeeps fire) (h : Handling) (n : Nat) :
    Keeps h.s (h.arm fire n).s := by
  unfold Handling.arm
  split
  · exact .refl _
  · split
    · exact .refl _
    · split
      · exact keeps_onSpot hf h n _
      · exact keeps_onSpot hf h n _
      · exact keeps_modifyStep _ _ _
      · exact .refl _

theorem keeps_disarmStep (h : Handling) (n : Nat) : Keeps h.s (h.disarmStep n).s := by
  unfold Handling.disarmStep
  split
  · exact .refl _
  · split
    · exact .refl _
    · split
      · exact keeps_modifyStep _ _ _
      · exact keeps_modifyStep _ _ _
      · exact .refl _

/-- A chain of changes of a handling over a list. -/
theorem keeps_handlingFold {α : Type} {f : Handling → α → Handling} (hf : ∀ h a, Keeps h.s (f h a).s)
    (l : List α) (h : Handling) : Keeps h.s (l.foldl f h).s := by
  induction l generalizing h with
  | nil => exact .refl _
  | cons a l ih => exact (hf h a).trans (ih (f h a))

theorem keeps_effect {fire : Nat → Handling → Handling} (hf : FireKeeps fire) (h : Handling)
    (e : Effect) : Keeps h.s (h.effect fire e).s := by
  cases e with
  | claim => exact .refl _
  | cue => exact (keeps_offer _ _).trans (keeps_raise _ _ _)
  | arm => exact keeps_arm hf h _
  | disarm => exact keeps_disarmStep h _
  | disarmQuest => exact keeps_handlingFold keeps_disarmStep _ h
  | timerStart => exact keeps_modifyTimer _ _ _
  | timerStop => exact keeps_modifyTimer _ _ _
  | light => exact keeps_setLight _ _ _
  | tone => exact keeps_playTone _ _ _
  | digits => exact .inert rfl
  | recheck => exact keeps_recheck _ _

theorem keeps_effects {fire : Nat → Handling → Handling} (hf : FireKeeps fire) (h : Handling)
    (es : List Effect) : Keeps h.s (h.effects fire es).s :=
  keeps_handlingFold (keeps_effect hf) es h

theorem keeps_refuse {fire : Nat → Handling → Handling} (hf : FireKeeps fire) (h : Handling) (n : Nat)
    (p : OnRefusal) : Keeps h.s (h.refuse fire n p).s := by
  cases p with
  | rearm => exact keeps_modifyStep _ _ _
  | drop => exact keeps_modifyStep _ _ _
  | fallback f =>
    exact Keeps.trans (keeps_modifyStep h.s n fun st =>
        { st with state := .dormant, seen := st.record.unseen, tag := none })
      (keeps_arm hf ((h.endFiring n).onState fun s => s.modifyStep n fun st =>
        { st with state := .dormant, seen := st.record.unseen, tag := none }) f)

theorem keeps_settle {fire : Nat → Handling → Handling} (hf : FireKeeps fire) (h : Handling) (n : Nat)
    (r : StepRecord) (o : ClaimOutcome) : Keeps h.s (h.settle fire n r o).s := by
  unfold Handling.settle
  split
  · exact (keeps_effects hf h _).trans (keeps_complete _ _)
  · exact keeps_refuse hf h n _

theorem keeps_fireStep {fire : Nat → Handling → Handling} (hf : FireKeeps fire) (h : Handling)
    (n : Nat) : Keeps h.s (h.fireStep fire n).s := by
  unfold Handling.fireStep
  split
  · exact .refl _
  · simp only
    split
    · rename_i st _ _ op m a b es _
      have hi := keeps_issueClaim (h.begin n).s n m op a b (h.begin n).depth
      split
      · rename_i tag s' he
        rw [he] at hi
        exact hi.trans (keeps_modifyStep _ _ _)
      · rename_i o s' he
        rw [he] at hi
        exact hi.trans (keeps_settle hf ((h.begin n).onState fun _ => s') n st.record o)
    · exact (keeps_effects hf (h.begin n) _).trans (keeps_complete _ _)

theorem keeps_fire (fuel : Nat) : FireKeeps (fire fuel) := by
  induction fuel with
  | zero => exact fun _ _ => .refl _
  | succ k ih => exact fun n h => keeps_fireStep ih h n

theorem keeps_visit (e : Happening) (h : Handling) (n : Nat) : Keeps h.s (h.visit e n).s := by
  unfold Handling.visit
  split
  · exact .refl _
  · rename_i st _
    split
    · simp only
      split
      · exact Keeps.trans (keeps_modifyStep h.s n fun _ => st.see e)
          (keeps_fire 65 n (h.onState fun s => s.modifyStep n fun _ => st.see e))
      · exact keeps_modifyStep _ _ _
    · exact .refl _

theorem keeps_handleEvent (s : State) (e : Happening) (d : Nat) : Keeps s (s.handleEvent e d) :=
  keeps_handlingFold (f := fun h n => h.visit e n) (fun h n => keeps_visit e h n) (List.range 64)
    ⟨s, [], [], [], d⟩

theorem keeps_handleAnswer (s : State) (n : Nat) (t : Byte) (o : ClaimOutcome) :
    Keeps s (s.handleAnswer n t o) := by
  unfold State.handleAnswer
  split
  · exact .refl _
  · rename_i st _
    split
    · split
      · exact keeps_modifyStep _ _ _
      · exact Keeps.trans (keeps_modifyStep s n fun st => { st with tag := none })
          (keeps_settle (keeps_fire 65) (Handling.begin ⟨s.modifyStep n fun st => { st with tag := none },
            [], [], [], 0⟩ n) n st.record o)
      · exact .refl _
    · exact .refl _

theorem keeps_dropArrival (s : State) (a : Arrival) (rest : List Arrival) (h : s.inbox = a :: rest) :
    Keeps s { s with inbox := rest } := by
  refine keeps_inbox s rest (.inr ?_) ?_
  · rw [h]
    simp only [eventsOf, List.filter_cons]
    split <;> simp
  · rw [h]
    simp only [answersOf, List.filter_cons]
    split <;> simp

theorem keeps_takeEvent (s : State) : Keeps s s.takeEvent := by
  unfold State.takeEvent
  split
  · split
    · rename_i e d rest h
      simp only
      split
      · exact keeps_dropArrival s _ rest h
      · exact (keeps_dropArrival s _ rest h).trans (keeps_handleEvent _ _ _)
    · exact .refl _
  · exact .refl _

theorem keeps_takeAnswer (s : State) : Keeps s s.takeAnswer := by
  unfold State.takeAnswer
  split
  · split
    · rename_i n t o rest h
      exact (keeps_dropArrival s _ rest h).trans (keeps_handleAnswer _ _ _ _)
    · exact .refl _
  · exact .refl _

theorem keeps_clearInbox (s : State) : Keeps s { s with inbox := [] } :=
  keeps_inbox s [] (.inl (Nat.zero_le _)) (Nat.zero_le _)

theorem keeps_startEngine (s : State) : Keeps s s.startEngine := (keeps_clearInbox s).trans (.inert rfl)

theorem keeps_newGameEngine (s : State) : Keeps s s.newGameEngine :=
  (keeps_clearInbox s).trans (.inert rfl)

theorem keeps_takeCueFrame (s : State) (f : GoodFrame) : Keeps s (s.takeCueFrame f) := by
  unfold State.takeCueFrame
  split
  · exact keeps_raise _ _ _
  · exact .refl _

/-! ## Sending.lean -/

theorem keeps_setHailDue (s : State) (t : Nat) : Keeps s (s.setHailDue t) := .inert rfl

theorem keeps_takeSlate (s : State) (x : Source) : Keeps s (match x with
    | .slate m => s.setAnnounce m false
    | _ => s) := by
  split
  · exact keeps_setAnnounce _ _ _
  · exact .refl _

theorem keeps_contend (s : State) (c : Choice) : Keeps s (s.contend c) :=
  (keeps_takeSlate s c.source).trans (.inert rfl)

theorem keeps_takeGap (s : State) : Keeps s s.takeGap := by
  unfold State.takeGap
  repeat' split
  all_goals exact .inert rfl

theorem keeps_onLine (s : State) : Keeps s s.onLine := by
  unfold State.onLine
  split
  · split
    · exact keeps_contend _ _
    · exact .refl _
  · exact .refl _

theorem keeps_filterTransmit (s : State) (p : Queued → Bool) :
    Keeps s { s with transmit := s.transmit.filter p } :=
  keeps_transmit s _ (.inr (List.length_filter_le _ _))

theorem keeps_dropEndedClaim (s : State) (q : Queued) : Keeps s (s.dropEndedClaim q) := by
  unfold State.dropEndedClaim
  split
  · split
    · exact .refl _
    · exact keeps_filterTransmit _ _
  · exact .refl _

theorem keeps_giveBack (s : State) : Keeps s s.giveBack := by
  unfold State.giveBack
  split
  · exact .refl _
  · refine Keeps.trans ?_ (keeps_stopDriving _)
    split
    · split
      · exact keeps_setAnnounce _ _ _
      · exact keeps_runLost _
      · exact keeps_dropEndedClaim _ _
      · exact .refl _
    · exact .refl _

theorem keeps_countLoss (s : State) : Keeps s s.countLoss := keeps_losses s _ (Nat.min_le_left _ _)

theorem keeps_lineTaken (s : State) : Keeps s s.lineTaken := .inert rfl

theorem keeps_loseContention (s : State) (x : Option (List Symbol)) : Keeps s (s.loseContention x) := by
  unfold State.loseContention
  split
  · split
    · exact keeps_lineTaken s
    · exact .refl _
  · simp only
    repeat' split
    all_goals first
      | exact .refl _
      | exact ((keeps_giveBack s).trans (keeps_countLoss _)).trans (keeps_lineTaken _)

theorem keeps_winContention (s : State) (x : List Symbol) : Keeps s (s.winContention x) := by
  unfold State.winContention
  split
  · exact .refl _
  · split
    · exact (keeps_losses s 0 (Nat.zero_le _)).trans (.inert rfl)
    · exact .refl _

theorem keeps_hailSent (s : State) (a b c d : Bool) : Keeps s (s.hailSent a b c d) :=
  (keeps_clearCarried s a b c).trans (.inert rfl)

theorem keeps_queuedSent (s : State) (q : Queued) : Keeps s (s.queuedSent q) := by
  have h1 : Keeps s { s with transmit := s.transmit.tail } :=
    keeps_transmit s _ (.inr (by rw [List.length_tail]; omega))
  unfold State.queuedSent
  simp only
  split
  · exact h1.trans (keeps_claimSent _ _)
  · exact h1

theorem keeps_sourceSent (s : State) (o : Outstanding) : Keeps s (s.sourceSent o) := by
  unfold State.sourceSent
  split
  · exact keeps_hailSent _ _ _ _ _
  · split
    · exact keeps_answers s _ (.inr (by rw [List.length_tail]; omega))
    · exact .refl _
  · exact .refl _
  · split
    · exact keeps_runSent _ _
    · exact .refl _
  · split
    · exact keeps_queuedSent _ _
    · exact .refl _

theorem keeps_endFrame (s : State) (o : Outstanding) : Keeps s (s.endFrame o) :=
  (keeps_sourceSent s o).trans (keeps_stopDriving _)

/-! ## Session.lean -/

theorem keeps_newGameLine (s : State) : Keeps s s.newGameLine := by
  unfold State.newGameLine
  refine Keeps.trans ?_ (keeps_orphan _ _)
  refine Keeps.trans (keeps_transmit s [] (.inl (Nat.zero_le _))) ?_
  refine .of ⟨rfl, rfl, id, fun a _ => ⟨⟨a.1, a.2.1, a.2.2.1, ?_, a.2.2.2.2⟩, List.nodup_nil⟩, id, id⟩ rfl
  have := a.2.2.2.1
  exact Nat.le_trans (Nat.add_le_add_right (Nat.zero_le _) _) this

theorem keeps_newGameOutputs (s : State) : Keeps s s.newGameOutputs :=
  Keeps.trans (s := s) (t := s.idleTimers.lightsOff.silenceTones) (by
    exact ((keeps_idleTimers s).trans (keeps_lightsOff _)).trans (keeps_silenceTones _)) (.inert rfl)

theorem keeps_announce (s : State) : Keeps s s.announce :=
  ((keeps_requestHail s).trans (keeps_startRun _)).trans (keeps_offerAsks _)

theorem keeps_serial (s : State) (g e : Byte) : Keeps s { s with serial := g, epoch := e } := .inert rfl

theorem keeps_newGame (s : State) (g : Byte) : Keeps s (s.newGame g) := by
  unfold State.newGame
  simp only
  refine Keeps.trans ?_ (keeps_announce _)
  refine Keeps.trans ?_ (keeps_tellWriterNewGame _)
  refine Keeps.trans ?_ (keeps_newGameOutputs _)
  refine Keeps.trans ?_ (keeps_newGamePads _)
  refine Keeps.trans ?_ (keeps_newGameEngine _)
  refine Keeps.trans ?_ (keeps_newGameLine _)
  exact (keeps_serial s g (s.epoch + 1)).trans (keeps_newGameMarks _)

theorem keeps_takeNewGameFrame (s : State) (f : GoodFrame) : Keeps s (s.takeNewGameFrame f) := by
  unfold State.takeNewGameFrame
  split
  · exact keeps_newGame _ _
  · exact .refl _

theorem keeps_toSession (s : State) (x : Session) (h : x ≠ .starting ∧ x ≠ .unwritten ∧ x ≠ .loading) :
    Keeps s { s with session := x } := keeps_session s x (.inr h)

theorem keeps_enterRest (s : State) : Keeps s s.enterRest := by
  unfold State.enterRest
  simp only
  refine Keeps.trans ?_ (keeps_setHailDue _ _)
  refine Keeps.trans (keeps_toSession s .rest (by decide)) ?_
  refine Keeps.trans (keeps_restRoster _) ?_
  refine Keeps.trans (keeps_silenceTones _) ?_
  exact (keeps_clearHeld _).trans (.inert rfl)

theorem keeps_restOwed (s : State) (b : Bool) : Keeps s { s with restOwed := b } := .inert rfl

theorem keeps_takeRestFrame (s : State) : Keeps s s.takeRestFrame := by
  unfold State.takeRestFrame
  split
  · exact keeps_enterRest s
  · exact keeps_restOwed s true
  · exact .refl _

theorem keeps_returnToPlay (s : State) : Keeps s s.returnToPlay := by
  unfold State.returnToPlay
  simp only
  refine Keeps.trans ?_ (keeps_releaseHeld _)
  refine Keeps.trans ?_ (keeps_setHailDue _ _)
  exact (keeps_toSession s .play (by decide)).trans
    ((keeps_wakeRoster _).trans (keeps_restartBlinks _))

theorem keeps_takeWakeFrame (s : State) : Keeps s s.takeWakeFrame := by
  unfold State.takeWakeFrame
  split
  · exact keeps_returnToPlay s
  · exact keeps_restOwed s false
  · exact .refl _

theorem keeps_padWake (s : State) : Keeps s s.padWake :=
  (keeps_offer s _).trans (keeps_returnToPlay _)

theorem keeps_enterPlay (s : State) : Keeps s s.enterPlay := by
  have h1 : Keeps s { s with session := .play, listenAt := none } :=
    (keeps_toSession s .play (by decide)).trans (.inert rfl)
  unfold State.enterPlay
  simp only
  split
  · exact ((h1.trans (keeps_announce _)).trans (keeps_restOwed _ false)).trans (keeps_enterRest _)
  · exact h1.trans (keeps_announce _)

theorem keeps_listeningPasses (s : State) : Keeps s s.listeningPasses := by
  unfold State.listeningPasses
  split
  · split
    · exact keeps_enterPlay s
    · exact .refl _
  · exact .refl _

theorem keeps_enterSilent (s : State) : Keeps s s.enterSilent := by
  unfold State.enterSilent
  simp only
  refine Keeps.trans (keeps_toSession s .silent (by decide)) ?_
  refine Keeps.trans (t := { s with session := .silent, listenAt := none }) (.inert rfl) ?_
  refine Keeps.trans (keeps_emptyRun _) ?_
  refine Keeps.trans (keeps_idleTimers _) ?_
  refine Keeps.trans (keeps_silenceTones _) ?_
  exact (keeps_clearHeld _).trans (.inert rfl)

theorem keeps_takeKey (s : State) (k : List UniBeat) : Keeps s (s.takeKey k) := by
  unfold State.takeKey
  split
  · simp only
    split
    · exact ((keeps_loseContention s _).trans (keeps_lineEnds _)).trans (keeps_enterSilent _)
    · exact .refl _
  · exact .refl _

theorem keeps_endGate (s : State) (c : List Nat) : Keeps s (s.endGate c) := by
  unfold State.endGate
  simp only
  split
  · exact (keeps_padGates s c).trans (keeps_padWake _)
  · exact keeps_padGates s c

theorem keeps_gateEnds (s : State) (c : List Nat) : Keeps s (s.gateEnds c) := by
  unfold State.gateEnds
  split
  · rename_i t _
    split
    · exact Keeps.trans (t := { s with gateStart := some (t + Config.gateTime) }) (.inert rfl)
        (keeps_endGate _ _)
    · exact .refl _
  · exact .refl _

theorem keeps_baseTicks (s : State) : Keeps s s.baseTicks := by
  unfold State.baseTicks
  split
  · rename_i t _
    split
    · exact Keeps.trans (t := { s with lastTick := some (t + Config.baseTickTime) }) (.inert rfl)
        (keeps_tick _)
    · exact .refl _
  · exact .refl _

end Sys2Proof.Machine
end

