-- ==== Sys2Proof/Laws/KeepsStart.lean ====
section
/-! SUPPORT. `Keeps` for the Roster's HAIL, recovery, the power-on start, loading, receiving, the supply
and the store's ends: what every command does once the time has moved on. -/

namespace Sys2Proof.Machine

/-! ## Hail.lean -/

theorem keeps_epochConsequences (s : State) (n : Nat) : Keeps s (s.epochConsequences n) := by
  unfold State.epochConsequences
  simp only
  refine Keeps.trans ?_ (keeps_endEntries _ _)
  refine Keeps.trans ?_ (keeps_raiseMarks _ _)
  refine keeps_mapFromMarks s _ fun m e k => ?_
  unfold epochEntry
  split
  · exact onReplica_ok (f := fun r => { r with state := .unknown }) (fun _ h => h) e k
  · exact k

theorem keeps_askPeer (s : State) (n : Nat) : Keeps s (s.askPeer n) := by
  unfold State.askPeer
  split
  · split
    · exact keeps_offerAsk _ _
    · exact .refl _
  · exact .refl _

theorem keeps_ite {s a b : State} {p : Prop} [Decidable p] (ha : Keeps s a) (hb : Keeps s b) :
    Keeps s (if p then a else b) := by
  split
  · exact ha
  · exact hb

/-- The content stored, with what follows: routing is recomputed where it changed what routing follows from. -/
theorem keeps_afterContent {r s : State} (n : Nat) (h : HailContent) (x : HailNews)
    (hs : KeepsUnrouted r s) (hr : x.reroutes = false → Keeps r s) : Keeps r (s.afterContent n h x) := by
  unfold State.afterContent
  simp only
  refine Keeps.trans (t := if (x.reroutes || s.mustWithdraw n h) = true then
    (if s.mustWithdraw n h = true then s.withdraw else s).recompute (if x.created = true then some n else none)
    else if s.mustWithdraw n h = true then s.withdraw else s) ?_ ?_
  · cases hw : s.mustWithdraw n h
    · cases hx : x.reroutes
      · exact hr hx
      · exact hs.recompute _
    · rw [Bool.or_true]
      exact (hs.trans (unrouted_withdraw s)).recompute _
  generalize (if (x.reroutes || s.mustWithdraw n h) = true then
    (if s.mustWithdraw n h = true then s.withdraw else s).recompute (if x.created = true then some n else none)
    else if s.mustWithdraw n h = true then s.withdraw else s) = s2
  refine Keeps.trans (t := if x.newEpoch = true then s2.epochConsequences n else s2)
    (keeps_ite (keeps_epochConsequences s2 n) (.refl s2)) ?_
  generalize (if x.newEpoch = true then s2.epochConsequences n else s2) = s3
  refine Keeps.trans (t := if (x.created || x.newEpoch) = true then s3.askPeer n else s3)
    (keeps_ite (keeps_askPeer s3 n) (.refl s3)) ?_
  exact keeps_ite (keeps_newGame _ _) (.refl _)

theorem keeps_knownHail (s : State) (p : Peer) (c : Nat) (h : HailContent) (hp : s.peer p.tile = some p) :
    Keeps s (s.knownHail p c h) := by
  refine keeps_afterContent _ _ _ ((unrouted_gradeAndRefresh s p.tile _).trans
    (unrouted_modifyPeer _ _ _ (fun _ => rfl) fun _ k => k)) fun hx => ?_
  simp only [Bool.or_eq_false_iff, Bool.not_eq_false', bne_eq_false_iff_eq] at hx
  obtain ⟨⟨h1, h2⟩, h3⟩ := hx
  have kt := keeps_gradeAndRefresh s p.tile (.good c) hp h1
  refine ⟨kt.toKeepsUnrouted.trans (unrouted_modifyPeer _ _ _ (fun _ => rfl) fun _ k => k), fun a b => ?_⟩
  refine (keeps_mapRoster (s.gradeAndRefresh p.tile (.good c)) _ (fun q => ?_) (fun q k => ?_) fun _ q hq => ?_).routes
    (kt.roster a) (kt.routes a b)
  · split <;> rfl
  · split <;> exact k
  · split
    · rename_i hn
      obtain ⟨q', hq', rfl⟩ := List.mem_map.mp hq
      have ht : q'.tile = p.tile := by
        split at hn
        · assumption
        · exact hn
      obtain rfl := peer_only a hp hq' ht
      rw [if_pos rfl]
      have hw := takeGrade_window q' s.header (.good c)
      exact ⟨rfl, h2.symm.trans hw.1.symm, h3.symm.trans hw.2.symm⟩
    · exact ⟨rfl, rfl, rfl⟩

theorem insertPeer_length (p : Peer) (l : List Peer) : (insertPeer p l).length = l.length + 1 := by
  induction l with
  | nil => rfl
  | cons q qs ih =>
    unfold insertPeer
    split
    · rfl
    · simp [ih]

theorem mem_insertPeer {p q : Peer} {l : List Peer} (h : q ∈ insertPeer p l) : q = p ∨ q ∈ l := by
  induction l with
  | nil => exact .inl (List.mem_singleton.mp h)
  | cons r rs ih =>
    unfold insertPeer at h
    split at h
    · exact List.mem_cons.mp h
    · rcases List.mem_cons.mp h with h | h
      · exact .inr (h ▸ List.mem_cons_self)
      · rcases ih h with h | h
        · exact .inl h
        · exact .inr (List.mem_cons_of_mem _ h)

theorem insertPeer_sorted {p : Peer} {l : List Peer} (h : l.Pairwise fun a b => a.tile < b.tile)
    (hn : ∀ q ∈ l, q.tile ≠ p.tile) : (insertPeer p l).Pairwise fun a b => a.tile < b.tile := by
  induction l with
  | nil => exact List.pairwise_singleton _ _
  | cons q qs ih =>
    obtain ⟨h1, h2⟩ := List.pairwise_cons.mp h
    unfold insertPeer
    split
    · rename_i hlt
      refine List.pairwise_cons.mpr ⟨fun r hr => ?_, h⟩
      rcases List.mem_cons.mp hr with hr | hr
      · rw [hr]; exact hlt
      · exact Nat.lt_trans hlt (h1 r hr)
    · rename_i hge
      refine List.pairwise_cons.mpr ⟨fun r hr => ?_, ih h2 fun r hr => hn r (List.mem_cons_of_mem _ hr)⟩
      rcases mem_insertPeer hr with hr | hr
      · rw [hr]
        have := hn q List.mem_cons_self
        omega
      · exact h1 r hr

/-- A sender of a frame that the Roster is shown is a station's number and not the tile's own. -/
def State.foreign (s : State) (sender : Nat) : Prop := 1 ≤ sender ∧ sender ≤ 62 ∧ sender ≠ s.tile

theorem oldestSilent_mem {l : List Peer} {p : Peer} (h : oldestSilent l = some p) : p ∈ l := by
  induction l generalizing p with
  | nil => exact absurd h (by simp [oldestSilent])
  | cons q qs ih =>
    unfold oldestSilent at h
    cases hq : oldestSilent qs with
    | none =>
      rw [hq] at h
      simp only at h
      split at h
      · cases h
      · cases h; exact List.mem_cons_self
    | some r =>
      rw [hq] at h
      simp only at h
      split at h
      · cases h; exact List.mem_cons_of_mem _ (ih hq)
      · split at h
        · cases h; exact List.mem_cons_self
        · cases h; exact List.mem_cons_of_mem _ (ih hq)

theorem makeRoom_good {tile : Nat} {r r' : List Peer} (h : makeRoom r = some r') (hg : rosterGood tile r) :
    rosterGood tile r' ∧ r'.length < 48 ∧ ∀ q ∈ r', q ∈ r := by
  unfold makeRoom at h
  split at h
  · rename_i hl
    cases h
    exact ⟨hg, hl, fun _ => id⟩
  · obtain ⟨p, hp, rfl⟩ := Option.map_eq_some_iff.mp h
    refine ⟨removePeer_good hg, ?_, fun q hq => List.mem_of_mem_filter hq⟩
    have hm := oldestSilent_mem hp
    have hlt : (removePeer p.tile r).length < r.length := by
      unfold removePeer
      refine List.length_filter_lt_length_iff_exists.mpr ⟨p, hm, by simp⟩
    exact Nat.lt_of_lt_of_le hlt hg.1

theorem newPeer_good (s : State) (n c : Nat) (h : HailContent) :
    (s.newPeer n c h).tile = n ∧ (s.newPeer n c h).present = (s.newPeer n c h).silenceAt.isSome := by
  unfold State.newPeer
  refine ⟨by rw [takeGrade_tile]; rfl, ?_⟩
  rw [(takeGrade_present _ _ _).1, (takeGrade_present _ _ _).2]
  rfl

theorem keeps_firstHail (s : State) (n c : Nat) (h : HailContent) (hf : s.foreign n)
    (hp : s.peer n = none) (hs : s.session.inGame = true) : Keeps s (s.firstHail n c h) := by
  unfold State.firstHail
  split
  · exact keeps_setRosterFull s
  · rename_i r hr
    refine keeps_afterContent _ _ _ (unrouted_roster s (insertPeer (s.newPeer n c h) r) (fun hg => ?_) fun _ =>
      .inr ?_) fun hx => by cases hx
    · obtain ⟨⟨g1, g2, g3⟩, hl, hm⟩ := makeRoom_good hr hg
      obtain ⟨t1, t2⟩ := newPeer_good s n c h
      refine ⟨by rw [insertPeer_length]; omega, insertPeer_sorted g2 fun q hq hqt => ?_, fun q hq => ?_⟩
      · have h0 := List.find?_eq_none.mp hp q (hm q hq)
        rw [t1] at hqt
        simp [hqt] at h0
      · rcases mem_insertPeer hq with rfl | hq
        · rw [t1]
          exact ⟨hf.1, hf.2.1, hf.2.2, t2⟩
        · exact g3 q hq
    · cases hx : s.session <;> rw [hx] at hs <;> first | exact absurd hs (by decide) | decide

theorem keeps_takeHailFrame (s : State) (f : GoodFrame) (hf : s.session.inGame = true → s.foreign f.sender) :
    Keeps s (s.takeHailFrame f) := by
  unfold State.takeHailFrame
  split
  · rename_i hs
    split
    · exact keeps_showFrame _ _ _
    · split
      · rename_i hp
        have ht := by simpa using List.find?_some hp
        exact keeps_knownHail _ _ _ _ (ht.symm ▸ hp)
      · rename_i hp
        exact keeps_firstHail s _ _ _ (hf hs) hp hs
  · exact .refl _

/-! ## Recovery.lean -/

theorem ofStore_le {k : MarkKind} {b : Byte} {v : Nat} (h : k.ofStore b = some v) : v ≤ k.max := by
  cases k <;> simp only [MarkKind.ofStore] at h <;> split at h <;> cases h
  · assumption
  · assumption
  · rename_i hn
    show _ ≤ 99
    omega

theorem restore_ok (e : MarkEntry) (v w : Byte) (k : e.ok) : (e.restore v w).ok := by
  cases e with
  | replica r => exact k
  | owned o =>
    unfold MarkEntry.restore
    simp only
    split
    · exact k
    · rename_i hs
      split
      · rename_i x hx
        exact ⟨ofStore_le hx, k.2.1, fun h => absurd h hs⟩
      · exact k

theorem restart_ok (e : MarkEntry) (k : e.ok) : e.restart.ok := by
  cases e with
  | replica r => exact k
  | owned o =>
    unfold MarkEntry.restart
    simp only
    split
    · exact k
    · rename_i hs
      exact ⟨k.2.1, k.2.1, fun h => absurd h hs⟩

/-- The mark table's law, of a table. -/
def tableOk (ms : List MarkEntry) : Prop := ms.length = 256 ∧ ∀ e ∈ ms, e.ok

theorem restoreRecords_ok (rs : List SlotRecord) (ms : List MarkEntry) (h : tableOk ms) :
    tableOk (restoreRecords ms rs) := by
  unfold restoreRecords
  induction rs generalizing ms with
  | nil => exact h
  | cons r rs ih =>
    refine ih _ ⟨by rw [modifyAt_length]; exact h.1, fun e he => ?_⟩
    rcases mem_modifyAt he with he | ⟨x, hx, rfl⟩
    · exact h.2 e he
    · exact restore_ok x _ _ (h.2 x (List.mem_of_getElem? hx))

theorem applySlot_ok (a : Restored) (v : ValidSlot) (h : tableOk a.1) : tableOk (applySlot a v).1 := by
  unfold applySlot
  split
  · exact restoreRecords_ok _ _ h
  · exact restoreRecords_ok _ _ h
  · refine ⟨by rw [List.length_map]; exact h.1, fun e he => ?_⟩
    obtain ⟨x, hx, rfl⟩ := List.mem_map.mp he
    exact restart_ok x (h.2 x hx)
  all_goals exact h

theorem applySlots_ok (vs : List ValidSlot) (a : Restored) (h : tableOk a.1) :
    tableOk (vs.foldl applySlot a).1 := by
  induction vs generalizing a with
  | nil => exact h
  | cons v vs ih => exact ih _ (applySlot_ok a v h)

theorem keeps_recover (s : State) : Keeps s s.recover := by
  refine Keeps.trans (keeps_marks s ((appliedSlots s.store.readings).foldl applySlot (s.marks, 0)).1
    fun h => applySlots_ok _ _ h) (.inert rfl)

theorem ownedOf_ok (page : List Byte) (c k : Nat) : (ownedOf page c k).ok := by
  unfold ownedOf
  split
  · rename_i kind v h
    unfold markEntryOf at h
    split at h
    · cases h
    · split at h
      · cases h
      · rename_i hv
        cases h
        exact ⟨ofStore_le hv, ofStore_le hv, fun _ => ⟨rfl, rfl, rfl, rfl, rfl⟩⟩
  · exact Nat.zero_le _

theorem initialMarks_ok (h : Header) (page : List Byte) : tableOk (initialMarks h page) := by
  refine ⟨by simp [initialMarks], fun e he => ?_⟩
  obtain ⟨m, _, rfl⟩ := List.mem_map.mp he
  split
  · exact ownedOf_ok _ _ _
  · exact Nat.zero_le _

/-! ## Start.lean -/

/-- A change of the roster to none, with the session and the tile number free to change. -/
theorem unrouted_emptyRoster (s : State) (x : Session) (n : Nat) :
    KeepsUnrouted s { s with roster := [], session := x, tile := n } :=
  ⟨rfl, rfl, id, And.intro, fun _ => ⟨Nat.zero_le _, List.Pairwise.nil, fun _ h => absurd h List.not_mem_nil,
    fun _ => rfl⟩, id⟩

/-- The same in a state that has no entry (R78). -/
theorem keeps_emptyRoster (s : State) (x : Session) (n : Nat)
    (h : s.session = .starting ∨ s.session = .unwritten ∨ s.session = .loading) :
    Keeps s { s with roster := [], session := x, tile := n } :=
  ⟨unrouted_emptyRoster s x n, fun a b => routesOk_same (by simp only [State.routing, a.2.2.2 h]) b⟩

theorem keeps_blankLoader (s : State) : Keeps s { s with loader := Loader.blank } :=
  keeps_loader s _ (.inl (Nat.zero_le _))

theorem keeps_enterUnwritten (s : State) (h : s.session = .starting ∨ s.session = .unwritten ∨
    s.session = .loading) : Keeps s s.enterUnwritten :=
  (keeps_emptyRoster s .unwritten s.tile h).trans ((keeps_blankLoader _).trans (.inert rfl))

theorem keeps_startUnwritten (s : State) (h : s.session = .starting) : Keeps s s.startUnwritten :=
  (keeps_emptyRoster s .unwritten (unwrittenTile (s.store.page 0 0)) (.inl h)).trans
    ((keeps_blankLoader _).trans (.inert rfl))

theorem keeps_enterListening (s : State) : Keeps s s.enterListening :=
  ⟨(unrouted_emptyRoster s .listening s.header.tile).trans (.inert rfl), fun _ _ => routesOk_computed rfl⟩

theorem keeps_checkCompaction (s : State) : Keeps s s.checkCompaction := by
  unfold State.checkCompaction
  split
  · exact .refl _
  · exact .inert rfl

theorem keeps_finishStart (s : State) : Keeps s s.finishStart :=
  ((keeps_checkCompaction s).trans (keeps_startEngine _)).trans (keeps_enterListening _)

theorem keeps_startLabel (s : State) : Keeps s s.startLabel := by
  unfold State.startLabel
  split
  · exact keeps_ite ((keeps_labelBlock s _ _).trans (keeps_finishStart _)) (keeps_labelBlock s _ _)
  · exact (keeps_setWorn s).trans (keeps_finishStart _)

theorem keeps_startSession (s : State) : Keeps s s.startSession := by
  unfold State.startSession
  split
  · exact Keeps.trans (t := { s with stage := .session }) (.inert rfl) (keeps_programActive _ _ _ _ _)
  · exact keeps_startLabel s

theorem keeps_nextStart (s : State) : Keeps s s.nextStart := by
  unfold State.nextStart
  split
  · exact keeps_finishStart s
  · split
    · exact keeps_startSession s
    · split
      · exact keeps_request _ _ _
      · split
        · exact keeps_startLabel s
        · exact keeps_ite ((keeps_wornTest s).trans (keeps_finishStart _))
            ((keeps_wornTest s).trans (keeps_startSession _))

theorem keeps_goOn (s : State) : Keeps s s.goOn := keeps_ite (keeps_nextStart s) (.refl s)

theorem keeps_startProgrammed (s : State) (b i : Nat) (p : Purpose) (v : Verdict) :
    Keeps s (s.startProgrammed b i p v) := by
  unfold State.startProgrammed
  split
  · exact (keeps_becomeActive s b).trans (keeps_goOn _)
  · exact (keeps_retire s b).trans (keeps_goOn _)
  · exact (keeps_fillActive s b i).trans (keeps_finishStart _)
  · exact (keeps_retire s b).trans (keeps_goOn _)
  · exact (keeps_wornTest s).trans (keeps_goOn _)
  · exact .refl _

theorem keeps_startErased (s : State) (b : Nat) (v : Verdict) : Keeps s (s.startErased b v) := by
  unfold State.startErased
  split
  · exact (keeps_modifyBlock s b _).trans (keeps_goOn _)
  · exact (keeps_retire s b).trans (keeps_goOn _)

theorem keeps_startRead (s : State) (n : Nat) : Keeps s (s.startRead n) := keeps_request _ _ _

theorem keeps_useContent (s : State) : Keeps s s.useContent :=
  ⟨(keeps_marks s (initialMarks (parseHeader (s.store.page 0 0)) (s.store.page 0 1))
    fun _ => initialMarks_ok _ _).toKeepsUnrouted.trans (.inert rfl), fun _ _ => routesOk_computed rfl⟩

theorem keeps_startReadEnds (s : State) (n : Nat) (h : s.session = .starting) : Keeps s (s.startReadEnds n) := by
  unfold State.startReadEnds
  refine keeps_ite (keeps_ite (keeps_startRead s 1) (keeps_startUnwritten s h)) (keeps_ite (keeps_ite ?_
    (keeps_startUnwritten s h)) (keeps_ite ?_ (keeps_startRead s _)))
  · exact (keeps_useContent s).trans (keeps_startRead _ _)
  · exact (keeps_recover s).trans (Keeps.trans (t := { s.recover with stage := .census }) (.inert rfl)
      (keeps_goOn _))

theorem keeps_endOp (s : State) (o : Operation) (r : OpResult) (v : Verdict) :
    Keeps s (s.endOp o r v) :=
  (keeps_store s _ fun h => finish_wf _ _ _ h).trans (.inert rfl)

theorem keeps_startOpEnds (s : State) (o : Operation) (v : Verdict) (h : s.session = .starting) :
    Keeps s (s.startOpEnds o v) := by
  unfold State.startOpEnds
  split
  · exact keeps_startProgrammed _ _ _ _ _
  · exact keeps_startErased _ _ _
  · split
    · exact keeps_startReadEnds _ _ h
    · exact .refl _

theorem keeps_op (s : State) (o : Option Operation) : Keeps s { s with op := o } := .inert rfl

theorem keeps_runStart (fuel : Nat) (run : StartRun) (s : State) : Keeps s (runStart fuel run s) := by
  induction fuel generalizing run s with
  | zero => exact .refl _
  | succ k ih =>
    unfold runStart
    split
    · split
      · split
        · exact .refl _
        · exact ((keeps_op s none).trans (keeps_startOpEnds _ _ _ (by assumption))).trans (ih _ _)
        · exact ((keeps_op s none).trans (keeps_startOpEnds _ _ _ (by assumption))).trans (ih _ _)
      · split
        · exact .refl _
        · split
          · exact ((keeps_endOp s _ _ _).trans (keeps_startOpEnds _ _ _ (by assumption))).trans (ih _ _)
          · exact keeps_op s _
    · exact .refl _

theorem blankTable_ok : tableOk (List.replicate 256 (.replica Replica.blank)) :=
  ⟨List.length_replicate, fun _ he => by rw [List.eq_of_mem_replicate he]; exact Nat.zero_le _⟩

theorem reset_queuesOk : State.reset.queuesOk := by unfold State.queuesOk; decide

theorem reset_rosterOk : State.reset.rosterOk :=
  ⟨Nat.zero_le _, List.Pairwise.nil, fun _ h => absurd h List.not_mem_nil, fun _ => rfl⟩

theorem reset_routesOk : State.reset.routesOk := by
  intro m hm
  have h1 : State.reset.route m = .none := by
    show (List.replicate 256 Route.none).getD m .none = .none
    rw [List.getD_eq_getElem?_getD, List.getElem?_replicate]
    split <;> rfl
  have h2 : State.reset.routeOf m = .none := by
    unfold State.routeOf
    rw [if_neg (by simp only [State.inWindow, State.reset]; simp)]
    rfl
  rw [h1, h2]

/-- Every law holds of the power-on values, whatever the store. -/
theorem keeps_fresh (s : State) (p : Bool) : Keeps s
    { State.reset with pending := s.pending, now := s.now, powered := p, store := s.store } :=
  ⟨⟨rfl, rfl, id, fun _ _ => ⟨reset_queuesOk, List.nodup_nil⟩, fun _ => reset_rosterOk,
    fun _ => blankTable_ok⟩, fun _ _ => routesOk_same rfl reset_routesOk⟩

theorem keeps_powerOnStart (s : State) (run : StartRun) : Keeps s (s.powerOnStart run) :=
  (((keeps_settleStore s _).trans (keeps_fresh _ true)).trans (keeps_startRead _ 0)).trans
    (keeps_runStart _ _ _)

/-! ## Loading.lean -/

theorem keeps_answerLoad (s : State) (w : AnswerWord) (n : Nat) (t : Byte) :
    Keeps s (s.answerLoad w n t) := by
  unfold State.answerLoad
  split
  · rename_i h
    exact keeps_queueAnswer s _ h
  · exact keeps_setOverrun s

/-- A change of the loader handling that leaves the seals. -/
theorem keeps_modifyLoader (s : State) (f : Loader → Loader) (h : (f s.loader).seals = s.loader.seals) :
    Keeps s (s.modifyLoader f) := keeps_loader s _ (.inl (by rw [h]))

theorem keeps_noteLoad (s : State) : Keeps s s.noteLoad :=
  keeps_ite (keeps_modifyLoader s _ rfl) (.refl s)

theorem keeps_enterLoading (s : State) (h : s.session = .unwritten) : Keeps s s.enterLoading :=
  (keeps_emptyRoster s .loading s.tile (.inr (.inl h))).trans (.inert rfl)

theorem keeps_openLoading (s : State) (t : Byte) (n : Nat) : Keeps s (s.openLoading t n) :=
  (keeps_modifyLoader s (fun l =>
    { l with tag := some t, opener := n, progress := .next 0, slot0 := none, slot1 := none,
             lastLoad := s.now }) rfl).trans (keeps_request _ _ _)

theorem keeps_takeLoadOpen (s : State) (f : GoodFrame) : Keeps s (s.takeLoadOpen f) := by
  unfold State.takeLoadOpen
  split
  · exact .refl _
  · split
    · exact (keeps_enterLoading s (by assumption)).trans (keeps_openLoading _ _ _)
    · exact keeps_openLoading _ _ _
    · exact .refl _

theorem keeps_eraseNext (s : State) (b : Nat) : Keeps s (s.eraseNext b) :=
  keeps_ite ((keeps_modifyLoader s (fun l => { l with progress := .next (b + 1) }) rfl).trans
      (keeps_request _ _ _))
    ((keeps_modifyLoader s (fun l => { l with progress := .done }) rfl).trans (keeps_answerLoad _ _ _ _))

theorem keeps_loadErased (s : State) (b : Nat) (v : Verdict) : Keeps s (s.loadErased b v) := by
  unfold State.loadErased
  refine keeps_ite ?_ (.refl s)
  split
  · exact keeps_eraseNext _ _
  · exact keeps_ite ((keeps_modifyLoader s (fun l => { l with progress := .failed }) rfl).trans
      (keeps_answerLoad _ _ _ _)) (keeps_request _ _ _)

theorem markSlot_seals (l : Loader) (b i : Nat) : (l.markSlot b i).seals = l.seals := by
  unfold Loader.markSlot
  split <;> rfl

theorem keeps_loadPart (s : State) (n : Nat) (t : Byte) (b p i : Nat) (d : List Byte) :
    Keeps s (s.loadPart n t b p i d) := by
  unfold State.loadPart
  split
  · exact keeps_answerLoad _ _ _ _
  · exact (keeps_modifyLoader s (fun l => l.markSlot b (4 * p + i)) (markSlot_seals _ _ _)).trans
      (keeps_request _ _ _)

theorem keeps_takeLoadPart (s : State) (f : GoodFrame) : Keeps s (s.takeLoadPart f) :=
  keeps_ite (keeps_ite ((keeps_noteLoad s).trans (keeps_loadPart _ _ _ _ _ _ _))
    ((keeps_noteLoad s).trans (keeps_setOverrun _))) (.refl s)

theorem keeps_loadProgrammed (s : State) (b : Nat) (p : Purpose) (v : Verdict) :
    Keeps s (s.loadProgrammed b p v) := by
  unfold State.loadProgrammed
  split
  · exact keeps_ite (keeps_eraseNext _ _) (.refl s)
  · exact keeps_answerLoad _ _ _ _
  · exact keeps_answerLoad _ _ _ _
  · exact .refl _

theorem keeps_holdSeal (s : State) (n : Nat) (t : Byte) (h : s.answerHasRoom = true) :
    Keeps s (s.holdSeal n t) := by
  unfold State.holdSeal
  refine keeps_ite (keeps_answerLoad _ _ _ _) (keeps_ite (keeps_answerLoad _ _ _ _) ?_)
  refine keeps_loader s _ (.inr ?_)
  have h : s.answers.length + s.loader.seals.length < 8 := of_decide_eq_true h
  show s.answers.length + (s.loader.seals ++ [(t, n)]).length ≤ 8
  rw [List.length_append, List.length_singleton]
  omega

theorem keeps_takeSeal (s : State) (f : GoodFrame) : Keeps s (s.takeSeal f) := by
  unfold State.takeSeal
  split
  · split
    · rename_i h
      exact (keeps_noteLoad s).trans (keeps_holdSeal _ _ _ h)
    · exact (keeps_noteLoad s).trans (keeps_setOverrun _)
  · exact .refl _

theorem keeps_answerSeal (s : State) (w : AnswerWord) (t : Byte) (n : Nat)
    (h : s.loader.seals ≠ []) : Keeps s (s.answerSeal w t n) := by
  refine .of ⟨rfl, rfl, id, fun k b => ⟨?_, b⟩, id, id⟩ rfl
  obtain ⟨a1, a2, a3⟩ := k
  refine ⟨a1, ?_, a3⟩
  simp only [State.answerPlaces] at a2
  show (s.answers ++ [loadAnswer w .seal n t]).length + s.loader.seals.tail.length ≤ 8
  have := List.length_pos_iff.mpr h
  rw [List.length_append, List.length_singleton, List.length_tail]
  omega

theorem keeps_checkSeal (s : State) : Keeps s s.checkSeal := by
  unfold State.checkSeal
  split
  · exact .refl _
  · rename_i t n rest h
    have hs : s.loader.seals ≠ [] := by rw [h]; exact List.cons_ne_nil _ _
    exact keeps_ite (keeps_ite ((keeps_answerSeal s _ t n hs).trans
      (keeps_modifyLoader _ (fun l => { l with isSealed := true }) rfl))
      (keeps_answerSeal s _ t n hs)) (.refl s)

theorem keeps_loadingTimesOut (s : State) : Keeps s s.loadingTimesOut := by
  unfold State.loadingTimesOut
  split
  · rename_i h
    exact Keeps.trans (t := { s with waiting := none }) (.inert rfl) (keeps_enterUnwritten _ (.inr (.inr h.1)))
  · exact .refl s

/-! ## Receiving.lean -/

theorem receiveBody_sender {sender : Nat} {k : FrameKind} {strong : Bool} {len a : Nat} {fs : List Bool}
    {c : Nat} {bs : List Beat} {f : GoodFrame} (h : receiveBody sender k strong len a fs c bs = .good f) :
    f.sender = sender := by
  unfold receiveBody at h
  simp only at h
  generalize (if strong = true then strongPositions (8 * len + 18) bs
    else lightPositions (4 * len + 9) bs) = ps at h
  split at h
  · cases h; rfl
  · cases h

theorem receiveHead_sender {sender : Nat} {sn : Sense} {hb bb : List Beat} {f : GoodFrame}
    (h : receiveHead sender sn hb bb = .good f) : f.sender = sender := by
  unfold receiveHead at h
  simp only at h
  split at h
  · split at h
    · cases h
    · split at h
      · exact receiveBody_sender h
      · cases h
  · cases h

/-- A good frame's sender is the key's, and a station's number. -/
theorem receive_sender {rx : Reception} {f : GoodFrame} (h : receive rx = .good f) :
    f.sender = senderOf rx.key ∧ 1 ≤ f.sender ∧ f.sender ≤ 62 := by
  unfold receive at h
  simp only at h
  split at h
  · cases h
  · split at h
    · cases h
    · have hs := receiveHead_sender h
      have : senderOf rx.key < 64 := Nat.mod_lt _ (by decide)
      refine ⟨hs, ?_, ?_⟩ <;> rw [hs] <;> omega

/-- A frame the part hears in LISTENING, PLAY or REST is another station's. -/
theorem hears_foreign {s : State} {rx : Reception} {f : GoodFrame} (h : s.hears rx = some f) :
    s.session.inGame = true → s.foreign f.sender := by
  intro hs
  unfold State.hears at h
  split at h
  · rename_i hc
    split at h
    · rename_i g hg
      cases h
      obtain ⟨e, l, u⟩ := receive_sender hg
      refine ⟨l, u, ?_⟩
      rw [e]
      simp only [State.isOwn, hs, Bool.true_and, Bool.and_eq_true, Bool.not_eq_true', beq_eq_false_iff_ne] at hc
      exact hc.2
    · cases h
  · cases h

theorem keeps_reception (s : State) {act : State → State} (h : Keeps s.lineEnds (act s.lineEnds)) :
    Keeps s (s.reception act) :=
  keeps_ite ((keeps_lineEnds s).trans h) (.refl s)

theorem keeps_hear (s : State) (rx : Reception) (p : GoodFrame → Bool) (take : State → GoodFrame → State)
    (h : ∀ f, (s.session.inGame = true → s.foreign f.sender) → Keeps s.lineEnds (take s.lineEnds f)) :
    Keeps s (s.hear rx p take) := by
  refine keeps_reception s ?_
  split
  · rename_i f hf
    exact keeps_ite (h f (hears_foreign hf)) (.refl _)
  · exact .refl _

theorem keeps_dispatch (s : State) (f : GoodFrame) (take : State → GoodFrame → State)
    (h : ∀ s, Keeps s (take s f)) : Keeps s (s.dispatch f take) :=
  keeps_ite (keeps_showFrame _ _ _) ((keeps_showFrame _ _ _).trans (h _))

/-- A row whose frame goes through the dispatcher. -/
theorem keeps_hearDispatch (s : State) (rx : Reception) (p : GoodFrame → Bool)
    (take : State → GoodFrame → State) (h : ∀ s f, Keeps s (take s f)) :
    Keeps s (s.hear rx p fun s f => s.dispatch f take) :=
  keeps_hear s rx p _ fun f _ => keeps_dispatch _ f take fun s => h s f

theorem keeps_hearFaulty (s : State) (rx : Reception) : Keeps s (s.hearFaulty rx) := by
  refine keeps_reception s (keeps_ite ?_ (.refl _))
  split
  · exact keeps_showFrame _ _ _
  · exact .refl _

/-! ## Supply.lean, Line.lean, Clock.lean, StoreEvents.lean -/

theorem keeps_droops (s : State) (r : OpResult) : Keeps s (s.droops r) := by
  unfold State.droops
  refine keeps_ite (.refl s) ?_
  exact Keeps.trans (keeps_giveBack s) (Keeps.trans (t := { s.giveBack with droop := true }) (.inert rfl)
    (keeps_droopStore _ _))

theorem keeps_droopEnds (s : State) (run : StartRun) : Keeps s (s.droopEnds run) :=
  keeps_ite (keeps_powerOnStart s run) (.refl s)

theorem keeps_losePower (s : State) (r : OpResult) : Keeps s (s.losePower r) := by
  have h := keeps_settleStore s r
  have k := keeps_fresh (s.settleStore r) false
  exact ⟨⟨rfl, rfl, fun a => k.store (h.store a), fun a b => k.queues (h.queues a b).1 (h.queues a b).2,
    fun a => k.roster (h.roster a), fun a => k.marks (h.marks a)⟩, fun a b => k.routes (h.roster a) (h.routes a b)⟩

theorem keeps_frameEnds (s : State) (run : StartRun) : Keeps s (s.frameEnds run) := by
  unfold State.frameEnds
  split
  · exact .refl _
  · exact keeps_ite (keeps_ite ((keeps_endFrame _ _).trans (keeps_powerOnStart _ _)) (keeps_endFrame _ _))
      (.refl s)

theorem keeps_timerExpires (s : State) (t : Nat) : Keeps s (s.timerExpires t) :=
  keeps_ite (keeps_expireTimer s t) (.refl s)

theorem keeps_toneEnds (s : State) : Keeps s s.toneEnds := keeps_ite (keeps_endTone s) (.refl s)

theorem keeps_writerTakes (s : State) (o : Operation) (v : Verdict) : Keeps s (s.writerTakes o v) := by
  unfold State.writerTakes
  refine Keeps.trans ?_ (keeps_takeWaits _)
  split
  · exact keeps_writerProgrammed _ _ _ _ _
  · exact keeps_writerErased _ _ _
  · exact .refl _

theorem keeps_loaderTakes (s : State) (o : Operation) (v : Verdict) : Keeps s (s.loaderTakes o v) := by
  unfold State.loaderTakes
  split
  · exact keeps_loadProgrammed _ _ _ _
  · exact keeps_loadErased _ _ _
  · exact .refl _

theorem keeps_clientTakes (s : State) (o : Operation) (v : Verdict) : Keeps s (s.clientTakes o v) := by
  unfold State.clientTakes
  split
  · exact keeps_startOpEnds _ _ _ (by assumption)
  all_goals first | exact keeps_writerTakes _ _ _ | exact keeps_loaderTakes _ _ _ | exact .refl _

theorem keeps_storeEnds (s : State) (p : StoreOp → Bool) (r : OpResult) : Keeps s (s.storeEnds p r) := by
  unfold State.storeEnds
  split
  · exact .refl _
  · refine keeps_ite ?_ (.refl s)
    split
    · exact ((keeps_endOp s _ _ _).trans (keeps_clientTakes _ _ _)).trans (keeps_startWaiting _)
    · exact keeps_op s _

end Sys2Proof.Machine
end

