-- ==== Sys2Proof/Laws/State.lean ====
section
/-! SUPPORT. What each named update leaves of each field of State: one lemma per field and update. -/

namespace Sys2Proof.Machine

@[simp] theorem advance_pending (s : State) (dt : Nat) : (s.advance dt).pending = s.pending := rfl
@[simp] theorem advance_now (s : State) (dt : Nat) : (s.advance dt).now = s.now + dt := rfl
@[simp] theorem advance_powered (s : State) (dt : Nat) : (s.advance dt).powered = s.powered := rfl
@[simp] theorem advance_session (s : State) (dt : Nat) : (s.advance dt).session = s.session := rfl
@[simp] theorem advance_stage (s : State) (dt : Nat) : (s.advance dt).stage = s.stage := rfl
@[simp] theorem advance_epoch (s : State) (dt : Nat) : (s.advance dt).epoch = s.epoch := rfl
@[simp] theorem advance_serial (s : State) (dt : Nat) : (s.advance dt).serial = s.serial := rfl
@[simp] theorem advance_tile (s : State) (dt : Nat) : (s.advance dt).tile = s.tile := rfl
@[simp] theorem advance_listenAt (s : State) (dt : Nat) : (s.advance dt).listenAt = s.listenAt := rfl
@[simp] theorem advance_restOwed (s : State) (dt : Nat) : (s.advance dt).restOwed = s.restOwed := rfl
@[simp] theorem advance_droop (s : State) (dt : Nat) : (s.advance dt).droop = s.droop := rfl
@[simp] theorem advance_health (s : State) (dt : Nat) : (s.advance dt).health = s.health := rfl
@[simp] theorem advance_header (s : State) (dt : Nat) : (s.advance dt).header = s.header := rfl
@[simp] theorem advance_marks (s : State) (dt : Nat) : (s.advance dt).marks = s.marks := rfl
@[simp] theorem advance_winFirst (s : State) (dt : Nat) : (s.advance dt).winFirst = s.winFirst := rfl
@[simp] theorem advance_winSize (s : State) (dt : Nat) : (s.advance dt).winSize = s.winSize := rfl
@[simp] theorem advance_watched (s : State) (dt : Nat) : (s.advance dt).watched = s.watched := rfl
@[simp] theorem advance_answers (s : State) (dt : Nat) : (s.advance dt).answers = s.answers := rfl
@[simp] theorem advance_run (s : State) (dt : Nat) : (s.advance dt).run = s.run := rfl
@[simp] theorem advance_roster (s : State) (dt : Nat) : (s.advance dt).roster = s.roster := rfl
@[simp] theorem advance_routes (s : State) (dt : Nat) : (s.advance dt).routes = s.routes := rfl
@[simp] theorem advance_claims (s : State) (dt : Nat) : (s.advance dt).claims = s.claims := rfl
@[simp] theorem advance_tagCounter (s : State) (dt : Nat) : (s.advance dt).tagCounter = s.tagCounter := rfl
@[simp] theorem advance_steps (s : State) (dt : Nat) : (s.advance dt).steps = s.steps := rfl
@[simp] theorem advance_inbox (s : State) (dt : Nat) : (s.advance dt).inbox = s.inbox := rfl
@[simp] theorem advance_line (s : State) (dt : Nat) : (s.advance dt).line = s.line := rfl
@[simp] theorem advance_transmit (s : State) (dt : Nat) : (s.advance dt).transmit = s.transmit := rfl
@[simp] theorem advance_losses (s : State) (dt : Nat) : (s.advance dt).losses = s.losses := rfl
@[simp] theorem advance_hail (s : State) (dt : Nat) : (s.advance dt).hail = s.hail := rfl
@[simp] theorem advance_outstanding (s : State) (dt : Nat) : (s.advance dt).outstanding = s.outstanding := rfl
@[simp] theorem advance_lineOut (s : State) (dt : Nat) : (s.advance dt).lineOut = s.lineOut := rfl
@[simp] theorem advance_pads (s : State) (dt : Nat) : (s.advance dt).pads = s.pads := rfl
@[simp] theorem advance_gateStart (s : State) (dt : Nat) : (s.advance dt).gateStart = s.gateStart := rfl
@[simp] theorem advance_timers (s : State) (dt : Nat) : (s.advance dt).timers = s.timers := rfl
@[simp] theorem advance_lastTick (s : State) (dt : Nat) : (s.advance dt).lastTick = s.lastTick := rfl
@[simp] theorem advance_lights (s : State) (dt : Nat) : (s.advance dt).lights = s.lights := rfl
@[simp] theorem advance_sessionPhase (s : State) (dt : Nat) : (s.advance dt).sessionPhase = s.sessionPhase := rfl
@[simp] theorem advance_tones (s : State) (dt : Nat) : (s.advance dt).tones = s.tones := rfl
@[simp] theorem advance_toneCount (s : State) (dt : Nat) : (s.advance dt).toneCount = s.toneCount := rfl
@[simp] theorem advance_toneStart (s : State) (dt : Nat) : (s.advance dt).toneStart = s.toneStart := rfl
@[simp] theorem advance_toneTable (s : State) (dt : Nat) : (s.advance dt).toneTable = s.toneTable := rfl
@[simp] theorem advance_digits (s : State) (dt : Nat) : (s.advance dt).digits = s.digits := rfl
@[simp] theorem advance_store (s : State) (dt : Nat) : (s.advance dt).store = s.store := rfl
@[simp] theorem advance_op (s : State) (dt : Nat) : (s.advance dt).op = s.op := rfl
@[simp] theorem advance_waiting (s : State) (dt : Nat) : (s.advance dt).waiting = s.waiting := rfl
@[simp] theorem advance_writer (s : State) (dt : Nat) : (s.advance dt).writer = s.writer := rfl
@[simp] theorem advance_loader (s : State) (dt : Nat) : (s.advance dt).loader = s.loader := rfl

@[simp] theorem setOverrun_pending (s : State) : s.setOverrun.pending = s.pending := rfl
@[simp] theorem setOverrun_now (s : State) : s.setOverrun.now = s.now := rfl
@[simp] theorem setOverrun_powered (s : State) : s.setOverrun.powered = s.powered := rfl
@[simp] theorem setOverrun_session (s : State) : s.setOverrun.session = s.session := rfl
@[simp] theorem setOverrun_stage (s : State) : s.setOverrun.stage = s.stage := rfl
@[simp] theorem setOverrun_epoch (s : State) : s.setOverrun.epoch = s.epoch := rfl
@[simp] theorem setOverrun_serial (s : State) : s.setOverrun.serial = s.serial := rfl
@[simp] theorem setOverrun_tile (s : State) : s.setOverrun.tile = s.tile := rfl
@[simp] theorem setOverrun_listenAt (s : State) : s.setOverrun.listenAt = s.listenAt := rfl
@[simp] theorem setOverrun_restOwed (s : State) : s.setOverrun.restOwed = s.restOwed := rfl
@[simp] theorem setOverrun_droop (s : State) : s.setOverrun.droop = s.droop := rfl
@[simp] theorem setOverrun_health (s : State) : s.setOverrun.health = { s.health with overrun := true } := rfl
@[simp] theorem setOverrun_header (s : State) : s.setOverrun.header = s.header := rfl
@[simp] theorem setOverrun_marks (s : State) : s.setOverrun.marks = s.marks := rfl
@[simp] theorem setOverrun_winFirst (s : State) : s.setOverrun.winFirst = s.winFirst := rfl
@[simp] theorem setOverrun_winSize (s : State) : s.setOverrun.winSize = s.winSize := rfl
@[simp] theorem setOverrun_watched (s : State) : s.setOverrun.watched = s.watched := rfl
@[simp] theorem setOverrun_answers (s : State) : s.setOverrun.answers = s.answers := rfl
@[simp] theorem setOverrun_run (s : State) : s.setOverrun.run = s.run := rfl
@[simp] theorem setOverrun_roster (s : State) : s.setOverrun.roster = s.roster := rfl
@[simp] theorem setOverrun_routes (s : State) : s.setOverrun.routes = s.routes := rfl
@[simp] theorem setOverrun_claims (s : State) : s.setOverrun.claims = s.claims := rfl
@[simp] theorem setOverrun_tagCounter (s : State) : s.setOverrun.tagCounter = s.tagCounter := rfl
@[simp] theorem setOverrun_steps (s : State) : s.setOverrun.steps = s.steps := rfl
@[simp] theorem setOverrun_inbox (s : State) : s.setOverrun.inbox = s.inbox := rfl
@[simp] theorem setOverrun_line (s : State) : s.setOverrun.line = s.line := rfl
@[simp] theorem setOverrun_transmit (s : State) : s.setOverrun.transmit = s.transmit := rfl
@[simp] theorem setOverrun_losses (s : State) : s.setOverrun.losses = s.losses := rfl
@[simp] theorem setOverrun_hail (s : State) : s.setOverrun.hail = s.hail := rfl
@[simp] theorem setOverrun_outstanding (s : State) : s.setOverrun.outstanding = s.outstanding := rfl
@[simp] theorem setOverrun_lineOut (s : State) : s.setOverrun.lineOut = s.lineOut := rfl
@[simp] theorem setOverrun_pads (s : State) : s.setOverrun.pads = s.pads := rfl
@[simp] theorem setOverrun_gateStart (s : State) : s.setOverrun.gateStart = s.gateStart := rfl
@[simp] theorem setOverrun_timers (s : State) : s.setOverrun.timers = s.timers := rfl
@[simp] theorem setOverrun_lastTick (s : State) : s.setOverrun.lastTick = s.lastTick := rfl
@[simp] theorem setOverrun_lights (s : State) : s.setOverrun.lights = s.lights := rfl
@[simp] theorem setOverrun_sessionPhase (s : State) : s.setOverrun.sessionPhase = s.sessionPhase := rfl
@[simp] theorem setOverrun_tones (s : State) : s.setOverrun.tones = s.tones := rfl
@[simp] theorem setOverrun_toneCount (s : State) : s.setOverrun.toneCount = s.toneCount := rfl
@[simp] theorem setOverrun_toneStart (s : State) : s.setOverrun.toneStart = s.toneStart := rfl
@[simp] theorem setOverrun_toneTable (s : State) : s.setOverrun.toneTable = s.toneTable := rfl
@[simp] theorem setOverrun_digits (s : State) : s.setOverrun.digits = s.digits := rfl
@[simp] theorem setOverrun_store (s : State) : s.setOverrun.store = s.store := rfl
@[simp] theorem setOverrun_op (s : State) : s.setOverrun.op = s.op := rfl
@[simp] theorem setOverrun_waiting (s : State) : s.setOverrun.waiting = s.waiting := rfl
@[simp] theorem setOverrun_writer (s : State) : s.setOverrun.writer = s.writer := rfl
@[simp] theorem setOverrun_loader (s : State) : s.setOverrun.loader = s.loader := rfl

@[simp] theorem setLoop_pending (s : State) : s.setLoop.pending = s.pending := rfl
@[simp] theorem setLoop_now (s : State) : s.setLoop.now = s.now := rfl
@[simp] theorem setLoop_powered (s : State) : s.setLoop.powered = s.powered := rfl
@[simp] theorem setLoop_session (s : State) : s.setLoop.session = s.session := rfl
@[simp] theorem setLoop_stage (s : State) : s.setLoop.stage = s.stage := rfl
@[simp] theorem setLoop_epoch (s : State) : s.setLoop.epoch = s.epoch := rfl
@[simp] theorem setLoop_serial (s : State) : s.setLoop.serial = s.serial := rfl
@[simp] theorem setLoop_tile (s : State) : s.setLoop.tile = s.tile := rfl
@[simp] theorem setLoop_listenAt (s : State) : s.setLoop.listenAt = s.listenAt := rfl
@[simp] theorem setLoop_restOwed (s : State) : s.setLoop.restOwed = s.restOwed := rfl
@[simp] theorem setLoop_droop (s : State) : s.setLoop.droop = s.droop := rfl
@[simp] theorem setLoop_health (s : State) : s.setLoop.health = { s.health with loop := true } := rfl
@[simp] theorem setLoop_header (s : State) : s.setLoop.header = s.header := rfl
@[simp] theorem setLoop_marks (s : State) : s.setLoop.marks = s.marks := rfl
@[simp] theorem setLoop_winFirst (s : State) : s.setLoop.winFirst = s.winFirst := rfl
@[simp] theorem setLoop_winSize (s : State) : s.setLoop.winSize = s.winSize := rfl
@[simp] theorem setLoop_watched (s : State) : s.setLoop.watched = s.watched := rfl
@[simp] theorem setLoop_answers (s : State) : s.setLoop.answers = s.answers := rfl
@[simp] theorem setLoop_run (s : State) : s.setLoop.run = s.run := rfl
@[simp] theorem setLoop_roster (s : State) : s.setLoop.roster = s.roster := rfl
@[simp] theorem setLoop_routes (s : State) : s.setLoop.routes = s.routes := rfl
@[simp] theorem setLoop_claims (s : State) : s.setLoop.claims = s.claims := rfl
@[simp] theorem setLoop_tagCounter (s : State) : s.setLoop.tagCounter = s.tagCounter := rfl
@[simp] theorem setLoop_steps (s : State) : s.setLoop.steps = s.steps := rfl
@[simp] theorem setLoop_inbox (s : State) : s.setLoop.inbox = s.inbox := rfl
@[simp] theorem setLoop_line (s : State) : s.setLoop.line = s.line := rfl
@[simp] theorem setLoop_transmit (s : State) : s.setLoop.transmit = s.transmit := rfl
@[simp] theorem setLoop_losses (s : State) : s.setLoop.losses = s.losses := rfl
@[simp] theorem setLoop_hail (s : State) : s.setLoop.hail = s.hail := rfl
@[simp] theorem setLoop_outstanding (s : State) : s.setLoop.outstanding = s.outstanding := rfl
@[simp] theorem setLoop_lineOut (s : State) : s.setLoop.lineOut = s.lineOut := rfl
@[simp] theorem setLoop_pads (s : State) : s.setLoop.pads = s.pads := rfl
@[simp] theorem setLoop_gateStart (s : State) : s.setLoop.gateStart = s.gateStart := rfl
@[simp] theorem setLoop_timers (s : State) : s.setLoop.timers = s.timers := rfl
@[simp] theorem setLoop_lastTick (s : State) : s.setLoop.lastTick = s.lastTick := rfl
@[simp] theorem setLoop_lights (s : State) : s.setLoop.lights = s.lights := rfl
@[simp] theorem setLoop_sessionPhase (s : State) : s.setLoop.sessionPhase = s.sessionPhase := rfl
@[simp] theorem setLoop_tones (s : State) : s.setLoop.tones = s.tones := rfl
@[simp] theorem setLoop_toneCount (s : State) : s.setLoop.toneCount = s.toneCount := rfl
@[simp] theorem setLoop_toneStart (s : State) : s.setLoop.toneStart = s.toneStart := rfl
@[simp] theorem setLoop_toneTable (s : State) : s.setLoop.toneTable = s.toneTable := rfl
@[simp] theorem setLoop_digits (s : State) : s.setLoop.digits = s.digits := rfl
@[simp] theorem setLoop_store (s : State) : s.setLoop.store = s.store := rfl
@[simp] theorem setLoop_op (s : State) : s.setLoop.op = s.op := rfl
@[simp] theorem setLoop_waiting (s : State) : s.setLoop.waiting = s.waiting := rfl
@[simp] theorem setLoop_writer (s : State) : s.setLoop.writer = s.writer := rfl
@[simp] theorem setLoop_loader (s : State) : s.setLoop.loader = s.loader := rfl

@[simp] theorem setRosterFull_pending (s : State) : s.setRosterFull.pending = s.pending := rfl
@[simp] theorem setRosterFull_now (s : State) : s.setRosterFull.now = s.now := rfl
@[simp] theorem setRosterFull_powered (s : State) : s.setRosterFull.powered = s.powered := rfl
@[simp] theorem setRosterFull_session (s : State) : s.setRosterFull.session = s.session := rfl
@[simp] theorem setRosterFull_stage (s : State) : s.setRosterFull.stage = s.stage := rfl
@[simp] theorem setRosterFull_epoch (s : State) : s.setRosterFull.epoch = s.epoch := rfl
@[simp] theorem setRosterFull_serial (s : State) : s.setRosterFull.serial = s.serial := rfl
@[simp] theorem setRosterFull_tile (s : State) : s.setRosterFull.tile = s.tile := rfl
@[simp] theorem setRosterFull_listenAt (s : State) : s.setRosterFull.listenAt = s.listenAt := rfl
@[simp] theorem setRosterFull_restOwed (s : State) : s.setRosterFull.restOwed = s.restOwed := rfl
@[simp] theorem setRosterFull_droop (s : State) : s.setRosterFull.droop = s.droop := rfl
@[simp] theorem setRosterFull_health (s : State) : s.setRosterFull.health = { s.health with rosterFull := true } := rfl
@[simp] theorem setRosterFull_header (s : State) : s.setRosterFull.header = s.header := rfl
@[simp] theorem setRosterFull_marks (s : State) : s.setRosterFull.marks = s.marks := rfl
@[simp] theorem setRosterFull_winFirst (s : State) : s.setRosterFull.winFirst = s.winFirst := rfl
@[simp] theorem setRosterFull_winSize (s : State) : s.setRosterFull.winSize = s.winSize := rfl
@[simp] theorem setRosterFull_watched (s : State) : s.setRosterFull.watched = s.watched := rfl
@[simp] theorem setRosterFull_answers (s : State) : s.setRosterFull.answers = s.answers := rfl
@[simp] theorem setRosterFull_run (s : State) : s.setRosterFull.run = s.run := rfl
@[simp] theorem setRosterFull_roster (s : State) : s.setRosterFull.roster = s.roster := rfl
@[simp] theorem setRosterFull_routes (s : State) : s.setRosterFull.routes = s.routes := rfl
@[simp] theorem setRosterFull_claims (s : State) : s.setRosterFull.claims = s.claims := rfl
@[simp] theorem setRosterFull_tagCounter (s : State) : s.setRosterFull.tagCounter = s.tagCounter := rfl
@[simp] theorem setRosterFull_steps (s : State) : s.setRosterFull.steps = s.steps := rfl
@[simp] theorem setRosterFull_inbox (s : State) : s.setRosterFull.inbox = s.inbox := rfl
@[simp] theorem setRosterFull_line (s : State) : s.setRosterFull.line = s.line := rfl
@[simp] theorem setRosterFull_transmit (s : State) : s.setRosterFull.transmit = s.transmit := rfl
@[simp] theorem setRosterFull_losses (s : State) : s.setRosterFull.losses = s.losses := rfl
@[simp] theorem setRosterFull_hail (s : State) : s.setRosterFull.hail = s.hail := rfl
@[simp] theorem setRosterFull_outstanding (s : State) : s.setRosterFull.outstanding = s.outstanding := rfl
@[simp] theorem setRosterFull_lineOut (s : State) : s.setRosterFull.lineOut = s.lineOut := rfl
@[simp] theorem setRosterFull_pads (s : State) : s.setRosterFull.pads = s.pads := rfl
@[simp] theorem setRosterFull_gateStart (s : State) : s.setRosterFull.gateStart = s.gateStart := rfl
@[simp] theorem setRosterFull_timers (s : State) : s.setRosterFull.timers = s.timers := rfl
@[simp] theorem setRosterFull_lastTick (s : State) : s.setRosterFull.lastTick = s.lastTick := rfl
@[simp] theorem setRosterFull_lights (s : State) : s.setRosterFull.lights = s.lights := rfl
@[simp] theorem setRosterFull_sessionPhase (s : State) : s.setRosterFull.sessionPhase = s.sessionPhase := rfl
@[simp] theorem setRosterFull_tones (s : State) : s.setRosterFull.tones = s.tones := rfl
@[simp] theorem setRosterFull_toneCount (s : State) : s.setRosterFull.toneCount = s.toneCount := rfl
@[simp] theorem setRosterFull_toneStart (s : State) : s.setRosterFull.toneStart = s.toneStart := rfl
@[simp] theorem setRosterFull_toneTable (s : State) : s.setRosterFull.toneTable = s.toneTable := rfl
@[simp] theorem setRosterFull_digits (s : State) : s.setRosterFull.digits = s.digits := rfl
@[simp] theorem setRosterFull_store (s : State) : s.setRosterFull.store = s.store := rfl
@[simp] theorem setRosterFull_op (s : State) : s.setRosterFull.op = s.op := rfl
@[simp] theorem setRosterFull_waiting (s : State) : s.setRosterFull.waiting = s.waiting := rfl
@[simp] theorem setRosterFull_writer (s : State) : s.setRosterFull.writer = s.writer := rfl
@[simp] theorem setRosterFull_loader (s : State) : s.setRosterFull.loader = s.loader := rfl

@[simp] theorem setWithdrawn_pending (s : State) : s.setWithdrawn.pending = s.pending := rfl
@[simp] theorem setWithdrawn_now (s : State) : s.setWithdrawn.now = s.now := rfl
@[simp] theorem setWithdrawn_powered (s : State) : s.setWithdrawn.powered = s.powered := rfl
@[simp] theorem setWithdrawn_session (s : State) : s.setWithdrawn.session = s.session := rfl
@[simp] theorem setWithdrawn_stage (s : State) : s.setWithdrawn.stage = s.stage := rfl
@[simp] theorem setWithdrawn_epoch (s : State) : s.setWithdrawn.epoch = s.epoch := rfl
@[simp] theorem setWithdrawn_serial (s : State) : s.setWithdrawn.serial = s.serial := rfl
@[simp] theorem setWithdrawn_tile (s : State) : s.setWithdrawn.tile = s.tile := rfl
@[simp] theorem setWithdrawn_listenAt (s : State) : s.setWithdrawn.listenAt = s.listenAt := rfl
@[simp] theorem setWithdrawn_restOwed (s : State) : s.setWithdrawn.restOwed = s.restOwed := rfl
@[simp] theorem setWithdrawn_droop (s : State) : s.setWithdrawn.droop = s.droop := rfl
@[simp] theorem setWithdrawn_health (s : State) : s.setWithdrawn.health = { s.health with withdrawn := true } := rfl
@[simp] theorem setWithdrawn_header (s : State) : s.setWithdrawn.header = s.header := rfl
@[simp] theorem setWithdrawn_marks (s : State) : s.setWithdrawn.marks = s.marks := rfl
@[simp] theorem setWithdrawn_winFirst (s : State) : s.setWithdrawn.winFirst = s.winFirst := rfl
@[simp] theorem setWithdrawn_winSize (s : State) : s.setWithdrawn.winSize = s.winSize := rfl
@[simp] theorem setWithdrawn_watched (s : State) : s.setWithdrawn.watched = s.watched := rfl
@[simp] theorem setWithdrawn_answers (s : State) : s.setWithdrawn.answers = s.answers := rfl
@[simp] theorem setWithdrawn_run (s : State) : s.setWithdrawn.run = s.run := rfl
@[simp] theorem setWithdrawn_roster (s : State) : s.setWithdrawn.roster = s.roster := rfl
@[simp] theorem setWithdrawn_routes (s : State) : s.setWithdrawn.routes = s.routes := rfl
@[simp] theorem setWithdrawn_claims (s : State) : s.setWithdrawn.claims = s.claims := rfl
@[simp] theorem setWithdrawn_tagCounter (s : State) : s.setWithdrawn.tagCounter = s.tagCounter := rfl
@[simp] theorem setWithdrawn_steps (s : State) : s.setWithdrawn.steps = s.steps := rfl
@[simp] theorem setWithdrawn_inbox (s : State) : s.setWithdrawn.inbox = s.inbox := rfl
@[simp] theorem setWithdrawn_line (s : State) : s.setWithdrawn.line = s.line := rfl
@[simp] theorem setWithdrawn_transmit (s : State) : s.setWithdrawn.transmit = s.transmit := rfl
@[simp] theorem setWithdrawn_losses (s : State) : s.setWithdrawn.losses = s.losses := rfl
@[simp] theorem setWithdrawn_hail (s : State) : s.setWithdrawn.hail = s.hail := rfl
@[simp] theorem setWithdrawn_outstanding (s : State) : s.setWithdrawn.outstanding = s.outstanding := rfl
@[simp] theorem setWithdrawn_lineOut (s : State) : s.setWithdrawn.lineOut = s.lineOut := rfl
@[simp] theorem setWithdrawn_pads (s : State) : s.setWithdrawn.pads = s.pads := rfl
@[simp] theorem setWithdrawn_gateStart (s : State) : s.setWithdrawn.gateStart = s.gateStart := rfl
@[simp] theorem setWithdrawn_timers (s : State) : s.setWithdrawn.timers = s.timers := rfl
@[simp] theorem setWithdrawn_lastTick (s : State) : s.setWithdrawn.lastTick = s.lastTick := rfl
@[simp] theorem setWithdrawn_lights (s : State) : s.setWithdrawn.lights = s.lights := rfl
@[simp] theorem setWithdrawn_sessionPhase (s : State) : s.setWithdrawn.sessionPhase = s.sessionPhase := rfl
@[simp] theorem setWithdrawn_tones (s : State) : s.setWithdrawn.tones = s.tones := rfl
@[simp] theorem setWithdrawn_toneCount (s : State) : s.setWithdrawn.toneCount = s.toneCount := rfl
@[simp] theorem setWithdrawn_toneStart (s : State) : s.setWithdrawn.toneStart = s.toneStart := rfl
@[simp] theorem setWithdrawn_toneTable (s : State) : s.setWithdrawn.toneTable = s.toneTable := rfl
@[simp] theorem setWithdrawn_digits (s : State) : s.setWithdrawn.digits = s.digits := rfl
@[simp] theorem setWithdrawn_store (s : State) : s.setWithdrawn.store = s.store := rfl
@[simp] theorem setWithdrawn_op (s : State) : s.setWithdrawn.op = s.op := rfl
@[simp] theorem setWithdrawn_waiting (s : State) : s.setWithdrawn.waiting = s.waiting := rfl
@[simp] theorem setWithdrawn_writer (s : State) : s.setWithdrawn.writer = s.writer := rfl
@[simp] theorem setWithdrawn_loader (s : State) : s.setWithdrawn.loader = s.loader := rfl

@[simp] theorem setWorn_pending (s : State) : s.setWorn.pending = s.pending := rfl
@[simp] theorem setWorn_now (s : State) : s.setWorn.now = s.now := rfl
@[simp] theorem setWorn_powered (s : State) : s.setWorn.powered = s.powered := rfl
@[simp] theorem setWorn_session (s : State) : s.setWorn.session = s.session := rfl
@[simp] theorem setWorn_stage (s : State) : s.setWorn.stage = s.stage := rfl
@[simp] theorem setWorn_epoch (s : State) : s.setWorn.epoch = s.epoch := rfl
@[simp] theorem setWorn_serial (s : State) : s.setWorn.serial = s.serial := rfl
@[simp] theorem setWorn_tile (s : State) : s.setWorn.tile = s.tile := rfl
@[simp] theorem setWorn_listenAt (s : State) : s.setWorn.listenAt = s.listenAt := rfl
@[simp] theorem setWorn_restOwed (s : State) : s.setWorn.restOwed = s.restOwed := rfl
@[simp] theorem setWorn_droop (s : State) : s.setWorn.droop = s.droop := rfl
@[simp] theorem setWorn_health (s : State) : s.setWorn.health = { s.health with storeWorn := true } := rfl
@[simp] theorem setWorn_header (s : State) : s.setWorn.header = s.header := rfl
@[simp] theorem setWorn_marks (s : State) : s.setWorn.marks = s.marks := rfl
@[simp] theorem setWorn_winFirst (s : State) : s.setWorn.winFirst = s.winFirst := rfl
@[simp] theorem setWorn_winSize (s : State) : s.setWorn.winSize = s.winSize := rfl
@[simp] theorem setWorn_watched (s : State) : s.setWorn.watched = s.watched := rfl
@[simp] theorem setWorn_answers (s : State) : s.setWorn.answers = s.answers := rfl
@[simp] theorem setWorn_run (s : State) : s.setWorn.run = s.run := rfl
@[simp] theorem setWorn_roster (s : State) : s.setWorn.roster = s.roster := rfl
@[simp] theorem setWorn_routes (s : State) : s.setWorn.routes = s.routes := rfl
@[simp] theorem setWorn_claims (s : State) : s.setWorn.claims = s.claims := rfl
@[simp] theorem setWorn_tagCounter (s : State) : s.setWorn.tagCounter = s.tagCounter := rfl
@[simp] theorem setWorn_steps (s : State) : s.setWorn.steps = s.steps := rfl
@[simp] theorem setWorn_inbox (s : State) : s.setWorn.inbox = s.inbox := rfl
@[simp] theorem setWorn_line (s : State) : s.setWorn.line = s.line := rfl
@[simp] theorem setWorn_transmit (s : State) : s.setWorn.transmit = s.transmit := rfl
@[simp] theorem setWorn_losses (s : State) : s.setWorn.losses = s.losses := rfl
@[simp] theorem setWorn_hail (s : State) : s.setWorn.hail = s.hail := rfl
@[simp] theorem setWorn_outstanding (s : State) : s.setWorn.outstanding = s.outstanding := rfl
@[simp] theorem setWorn_lineOut (s : State) : s.setWorn.lineOut = s.lineOut := rfl
@[simp] theorem setWorn_pads (s : State) : s.setWorn.pads = s.pads := rfl
@[simp] theorem setWorn_gateStart (s : State) : s.setWorn.gateStart = s.gateStart := rfl
@[simp] theorem setWorn_timers (s : State) : s.setWorn.timers = s.timers := rfl
@[simp] theorem setWorn_lastTick (s : State) : s.setWorn.lastTick = s.lastTick := rfl
@[simp] theorem setWorn_lights (s : State) : s.setWorn.lights = s.lights := rfl
@[simp] theorem setWorn_sessionPhase (s : State) : s.setWorn.sessionPhase = s.sessionPhase := rfl
@[simp] theorem setWorn_tones (s : State) : s.setWorn.tones = s.tones := rfl
@[simp] theorem setWorn_toneCount (s : State) : s.setWorn.toneCount = s.toneCount := rfl
@[simp] theorem setWorn_toneStart (s : State) : s.setWorn.toneStart = s.toneStart := rfl
@[simp] theorem setWorn_toneTable (s : State) : s.setWorn.toneTable = s.toneTable := rfl
@[simp] theorem setWorn_digits (s : State) : s.setWorn.digits = s.digits := rfl
@[simp] theorem setWorn_store (s : State) : s.setWorn.store = s.store := rfl
@[simp] theorem setWorn_op (s : State) : s.setWorn.op = s.op := rfl
@[simp] theorem setWorn_waiting (s : State) : s.setWorn.waiting = s.waiting := rfl
@[simp] theorem setWorn_writer (s : State) : s.setWorn.writer = s.writer := rfl
@[simp] theorem setWorn_loader (s : State) : s.setWorn.loader = s.loader := rfl

@[simp] theorem modifyOwned_pending (s : State) (m : Nat) (f : Owned → Owned) : (s.modifyOwned m f).pending = s.pending := rfl
@[simp] theorem modifyOwned_now (s : State) (m : Nat) (f : Owned → Owned) : (s.modifyOwned m f).now = s.now := rfl
@[simp] theorem modifyOwned_powered (s : State) (m : Nat) (f : Owned → Owned) : (s.modifyOwned m f).powered = s.powered := rfl
@[simp] theorem modifyOwned_session (s : State) (m : Nat) (f : Owned → Owned) : (s.modifyOwned m f).session = s.session := rfl
@[simp] theorem modifyOwned_stage (s : State) (m : Nat) (f : Owned → Owned) : (s.modifyOwned m f).stage = s.stage := rfl
@[simp] theorem modifyOwned_epoch (s : State) (m : Nat) (f : Owned → Owned) : (s.modifyOwned m f).epoch = s.epoch := rfl
@[simp] theorem modifyOwned_serial (s : State) (m : Nat) (f : Owned → Owned) : (s.modifyOwned m f).serial = s.serial := rfl
@[simp] theorem modifyOwned_tile (s : State) (m : Nat) (f : Owned → Owned) : (s.modifyOwned m f).tile = s.tile := rfl
@[simp] theorem modifyOwned_listenAt (s : State) (m : Nat) (f : Owned → Owned) : (s.modifyOwned m f).listenAt = s.listenAt := rfl
@[simp] theorem modifyOwned_restOwed (s : State) (m : Nat) (f : Owned → Owned) : (s.modifyOwned m f).restOwed = s.restOwed := rfl
@[simp] theorem modifyOwned_droop (s : State) (m : Nat) (f : Owned → Owned) : (s.modifyOwned m f).droop = s.droop := rfl
@[simp] theorem modifyOwned_health (s : State) (m : Nat) (f : Owned → Owned) : (s.modifyOwned m f).health = s.health := rfl
@[simp] theorem modifyOwned_header (s : State) (m : Nat) (f : Owned → Owned) : (s.modifyOwned m f).header = s.header := rfl
@[simp] theorem modifyOwned_marks (s : State) (m : Nat) (f : Owned → Owned) : (s.modifyOwned m f).marks = modifyAt (MarkEntry.onOwned f) m s.marks := rfl
@[simp] theorem modifyOwned_winFirst (s : State) (m : Nat) (f : Owned → Owned) : (s.modifyOwned m f).winFirst = s.winFirst := rfl
@[simp] theorem modifyOwned_winSize (s : State) (m : Nat) (f : Owned → Owned) : (s.modifyOwned m f).winSize = s.winSize := rfl
@[simp] theorem modifyOwned_watched (s : State) (m : Nat) (f : Owned → Owned) : (s.modifyOwned m f).watched = s.watched := rfl
@[simp] theorem modifyOwned_answers (s : State) (m : Nat) (f : Owned → Owned) : (s.modifyOwned m f).answers = s.answers := rfl
@[simp] theorem modifyOwned_run (s : State) (m : Nat) (f : Owned → Owned) : (s.modifyOwned m f).run = s.run := rfl
@[simp] theorem modifyOwned_roster (s : State) (m : Nat) (f : Owned → Owned) : (s.modifyOwned m f).roster = s.roster := rfl
@[simp] theorem modifyOwned_routes (s : State) (m : Nat) (f : Owned → Owned) : (s.modifyOwned m f).routes = s.routes := rfl
@[simp] theorem modifyOwned_claims (s : State) (m : Nat) (f : Owned → Owned) : (s.modifyOwned m f).claims = s.claims := rfl
@[simp] theorem modifyOwned_tagCounter (s : State) (m : Nat) (f : Owned → Owned) : (s.modifyOwned m f).tagCounter = s.tagCounter := rfl
@[simp] theorem modifyOwned_steps (s : State) (m : Nat) (f : Owned → Owned) : (s.modifyOwned m f).steps = s.steps := rfl
@[simp] theorem modifyOwned_inbox (s : State) (m : Nat) (f : Owned → Owned) : (s.modifyOwned m f).inbox = s.inbox := rfl
@[simp] theorem modifyOwned_line (s : State) (m : Nat) (f : Owned → Owned) : (s.modifyOwned m f).line = s.line := rfl
@[simp] theorem modifyOwned_transmit (s : State) (m : Nat) (f : Owned → Owned) : (s.modifyOwned m f).transmit = s.transmit := rfl
@[simp] theorem modifyOwned_losses (s : State) (m : Nat) (f : Owned → Owned) : (s.modifyOwned m f).losses = s.losses := rfl
@[simp] theorem modifyOwned_hail (s : State) (m : Nat) (f : Owned → Owned) : (s.modifyOwned m f).hail = s.hail := rfl
@[simp] theorem modifyOwned_outstanding (s : State) (m : Nat) (f : Owned → Owned) : (s.modifyOwned m f).outstanding = s.outstanding := rfl
@[simp] theorem modifyOwned_lineOut (s : State) (m : Nat) (f : Owned → Owned) : (s.modifyOwned m f).lineOut = s.lineOut := rfl
@[simp] theorem modifyOwned_pads (s : State) (m : Nat) (f : Owned → Owned) : (s.modifyOwned m f).pads = s.pads := rfl
@[simp] theorem modifyOwned_gateStart (s : State) (m : Nat) (f : Owned → Owned) : (s.modifyOwned m f).gateStart = s.gateStart := rfl
@[simp] theorem modifyOwned_timers (s : State) (m : Nat) (f : Owned → Owned) : (s.modifyOwned m f).timers = s.timers := rfl
@[simp] theorem modifyOwned_lastTick (s : State) (m : Nat) (f : Owned → Owned) : (s.modifyOwned m f).lastTick = s.lastTick := rfl
@[simp] theorem modifyOwned_lights (s : State) (m : Nat) (f : Owned → Owned) : (s.modifyOwned m f).lights = s.lights := rfl
@[simp] theorem modifyOwned_sessionPhase (s : State) (m : Nat) (f : Owned → Owned) : (s.modifyOwned m f).sessionPhase = s.sessionPhase := rfl
@[simp] theorem modifyOwned_tones (s : State) (m : Nat) (f : Owned → Owned) : (s.modifyOwned m f).tones = s.tones := rfl
@[simp] theorem modifyOwned_toneCount (s : State) (m : Nat) (f : Owned → Owned) : (s.modifyOwned m f).toneCount = s.toneCount := rfl
@[simp] theorem modifyOwned_toneStart (s : State) (m : Nat) (f : Owned → Owned) : (s.modifyOwned m f).toneStart = s.toneStart := rfl
@[simp] theorem modifyOwned_toneTable (s : State) (m : Nat) (f : Owned → Owned) : (s.modifyOwned m f).toneTable = s.toneTable := rfl
@[simp] theorem modifyOwned_digits (s : State) (m : Nat) (f : Owned → Owned) : (s.modifyOwned m f).digits = s.digits := rfl
@[simp] theorem modifyOwned_store (s : State) (m : Nat) (f : Owned → Owned) : (s.modifyOwned m f).store = s.store := rfl
@[simp] theorem modifyOwned_op (s : State) (m : Nat) (f : Owned → Owned) : (s.modifyOwned m f).op = s.op := rfl
@[simp] theorem modifyOwned_waiting (s : State) (m : Nat) (f : Owned → Owned) : (s.modifyOwned m f).waiting = s.waiting := rfl
@[simp] theorem modifyOwned_writer (s : State) (m : Nat) (f : Owned → Owned) : (s.modifyOwned m f).writer = s.writer := rfl
@[simp] theorem modifyOwned_loader (s : State) (m : Nat) (f : Owned → Owned) : (s.modifyOwned m f).loader = s.loader := rfl

@[simp] theorem modifyReplica_pending (s : State) (m : Nat) (f : Replica → Replica) : (s.modifyReplica m f).pending = s.pending := rfl
@[simp] theorem modifyReplica_now (s : State) (m : Nat) (f : Replica → Replica) : (s.modifyReplica m f).now = s.now := rfl
@[simp] theorem modifyReplica_powered (s : State) (m : Nat) (f : Replica → Replica) : (s.modifyReplica m f).powered = s.powered := rfl
@[simp] theorem modifyReplica_session (s : State) (m : Nat) (f : Replica → Replica) : (s.modifyReplica m f).session = s.session := rfl
@[simp] theorem modifyReplica_stage (s : State) (m : Nat) (f : Replica → Replica) : (s.modifyReplica m f).stage = s.stage := rfl
@[simp] theorem modifyReplica_epoch (s : State) (m : Nat) (f : Replica → Replica) : (s.modifyReplica m f).epoch = s.epoch := rfl
@[simp] theorem modifyReplica_serial (s : State) (m : Nat) (f : Replica → Replica) : (s.modifyReplica m f).serial = s.serial := rfl
@[simp] theorem modifyReplica_tile (s : State) (m : Nat) (f : Replica → Replica) : (s.modifyReplica m f).tile = s.tile := rfl
@[simp] theorem modifyReplica_listenAt (s : State) (m : Nat) (f : Replica → Replica) : (s.modifyReplica m f).listenAt = s.listenAt := rfl
@[simp] theorem modifyReplica_restOwed (s : State) (m : Nat) (f : Replica → Replica) : (s.modifyReplica m f).restOwed = s.restOwed := rfl
@[simp] theorem modifyReplica_droop (s : State) (m : Nat) (f : Replica → Replica) : (s.modifyReplica m f).droop = s.droop := rfl
@[simp] theorem modifyReplica_health (s : State) (m : Nat) (f : Replica → Replica) : (s.modifyReplica m f).health = s.health := rfl
@[simp] theorem modifyReplica_header (s : State) (m : Nat) (f : Replica → Replica) : (s.modifyReplica m f).header = s.header := rfl
@[simp] theorem modifyReplica_marks (s : State) (m : Nat) (f : Replica → Replica) : (s.modifyReplica m f).marks = modifyAt (MarkEntry.onReplica f) m s.marks := rfl
@[simp] theorem modifyReplica_winFirst (s : State) (m : Nat) (f : Replica → Replica) : (s.modifyReplica m f).winFirst = s.winFirst := rfl
@[simp] theorem modifyReplica_winSize (s : State) (m : Nat) (f : Replica → Replica) : (s.modifyReplica m f).winSize = s.winSize := rfl
@[simp] theorem modifyReplica_watched (s : State) (m : Nat) (f : Replica → Replica) : (s.modifyReplica m f).watched = s.watched := rfl
@[simp] theorem modifyReplica_answers (s : State) (m : Nat) (f : Replica → Replica) : (s.modifyReplica m f).answers = s.answers := rfl
@[simp] theorem modifyReplica_run (s : State) (m : Nat) (f : Replica → Replica) : (s.modifyReplica m f).run = s.run := rfl
@[simp] theorem modifyReplica_roster (s : State) (m : Nat) (f : Replica → Replica) : (s.modifyReplica m f).roster = s.roster := rfl
@[simp] theorem modifyReplica_routes (s : State) (m : Nat) (f : Replica → Replica) : (s.modifyReplica m f).routes = s.routes := rfl
@[simp] theorem modifyReplica_claims (s : State) (m : Nat) (f : Replica → Replica) : (s.modifyReplica m f).claims = s.claims := rfl
@[simp] theorem modifyReplica_tagCounter (s : State) (m : Nat) (f : Replica → Replica) : (s.modifyReplica m f).tagCounter = s.tagCounter := rfl
@[simp] theorem modifyReplica_steps (s : State) (m : Nat) (f : Replica → Replica) : (s.modifyReplica m f).steps = s.steps := rfl
@[simp] theorem modifyReplica_inbox (s : State) (m : Nat) (f : Replica → Replica) : (s.modifyReplica m f).inbox = s.inbox := rfl
@[simp] theorem modifyReplica_line (s : State) (m : Nat) (f : Replica → Replica) : (s.modifyReplica m f).line = s.line := rfl
@[simp] theorem modifyReplica_transmit (s : State) (m : Nat) (f : Replica → Replica) : (s.modifyReplica m f).transmit = s.transmit := rfl
@[simp] theorem modifyReplica_losses (s : State) (m : Nat) (f : Replica → Replica) : (s.modifyReplica m f).losses = s.losses := rfl
@[simp] theorem modifyReplica_hail (s : State) (m : Nat) (f : Replica → Replica) : (s.modifyReplica m f).hail = s.hail := rfl
@[simp] theorem modifyReplica_outstanding (s : State) (m : Nat) (f : Replica → Replica) : (s.modifyReplica m f).outstanding = s.outstanding := rfl
@[simp] theorem modifyReplica_lineOut (s : State) (m : Nat) (f : Replica → Replica) : (s.modifyReplica m f).lineOut = s.lineOut := rfl
@[simp] theorem modifyReplica_pads (s : State) (m : Nat) (f : Replica → Replica) : (s.modifyReplica m f).pads = s.pads := rfl
@[simp] theorem modifyReplica_gateStart (s : State) (m : Nat) (f : Replica → Replica) : (s.modifyReplica m f).gateStart = s.gateStart := rfl
@[simp] theorem modifyReplica_timers (s : State) (m : Nat) (f : Replica → Replica) : (s.modifyReplica m f).timers = s.timers := rfl
@[simp] theorem modifyReplica_lastTick (s : State) (m : Nat) (f : Replica → Replica) : (s.modifyReplica m f).lastTick = s.lastTick := rfl
@[simp] theorem modifyReplica_lights (s : State) (m : Nat) (f : Replica → Replica) : (s.modifyReplica m f).lights = s.lights := rfl
@[simp] theorem modifyReplica_sessionPhase (s : State) (m : Nat) (f : Replica → Replica) : (s.modifyReplica m f).sessionPhase = s.sessionPhase := rfl
@[simp] theorem modifyReplica_tones (s : State) (m : Nat) (f : Replica → Replica) : (s.modifyReplica m f).tones = s.tones := rfl
@[simp] theorem modifyReplica_toneCount (s : State) (m : Nat) (f : Replica → Replica) : (s.modifyReplica m f).toneCount = s.toneCount := rfl
@[simp] theorem modifyReplica_toneStart (s : State) (m : Nat) (f : Replica → Replica) : (s.modifyReplica m f).toneStart = s.toneStart := rfl
@[simp] theorem modifyReplica_toneTable (s : State) (m : Nat) (f : Replica → Replica) : (s.modifyReplica m f).toneTable = s.toneTable := rfl
@[simp] theorem modifyReplica_digits (s : State) (m : Nat) (f : Replica → Replica) : (s.modifyReplica m f).digits = s.digits := rfl
@[simp] theorem modifyReplica_store (s : State) (m : Nat) (f : Replica → Replica) : (s.modifyReplica m f).store = s.store := rfl
@[simp] theorem modifyReplica_op (s : State) (m : Nat) (f : Replica → Replica) : (s.modifyReplica m f).op = s.op := rfl
@[simp] theorem modifyReplica_waiting (s : State) (m : Nat) (f : Replica → Replica) : (s.modifyReplica m f).waiting = s.waiting := rfl
@[simp] theorem modifyReplica_writer (s : State) (m : Nat) (f : Replica → Replica) : (s.modifyReplica m f).writer = s.writer := rfl
@[simp] theorem modifyReplica_loader (s : State) (m : Nat) (f : Replica → Replica) : (s.modifyReplica m f).loader = s.loader := rfl

@[simp] theorem modifyPeer_pending (s : State) (n : Nat) (f : Peer → Peer) : (s.modifyPeer n f).pending = s.pending := rfl
@[simp] theorem modifyPeer_now (s : State) (n : Nat) (f : Peer → Peer) : (s.modifyPeer n f).now = s.now := rfl
@[simp] theorem modifyPeer_powered (s : State) (n : Nat) (f : Peer → Peer) : (s.modifyPeer n f).powered = s.powered := rfl
@[simp] theorem modifyPeer_session (s : State) (n : Nat) (f : Peer → Peer) : (s.modifyPeer n f).session = s.session := rfl
@[simp] theorem modifyPeer_stage (s : State) (n : Nat) (f : Peer → Peer) : (s.modifyPeer n f).stage = s.stage := rfl
@[simp] theorem modifyPeer_epoch (s : State) (n : Nat) (f : Peer → Peer) : (s.modifyPeer n f).epoch = s.epoch := rfl
@[simp] theorem modifyPeer_serial (s : State) (n : Nat) (f : Peer → Peer) : (s.modifyPeer n f).serial = s.serial := rfl
@[simp] theorem modifyPeer_tile (s : State) (n : Nat) (f : Peer → Peer) : (s.modifyPeer n f).tile = s.tile := rfl
@[simp] theorem modifyPeer_listenAt (s : State) (n : Nat) (f : Peer → Peer) : (s.modifyPeer n f).listenAt = s.listenAt := rfl
@[simp] theorem modifyPeer_restOwed (s : State) (n : Nat) (f : Peer → Peer) : (s.modifyPeer n f).restOwed = s.restOwed := rfl
@[simp] theorem modifyPeer_droop (s : State) (n : Nat) (f : Peer → Peer) : (s.modifyPeer n f).droop = s.droop := rfl
@[simp] theorem modifyPeer_health (s : State) (n : Nat) (f : Peer → Peer) : (s.modifyPeer n f).health = s.health := rfl
@[simp] theorem modifyPeer_header (s : State) (n : Nat) (f : Peer → Peer) : (s.modifyPeer n f).header = s.header := rfl
@[simp] theorem modifyPeer_marks (s : State) (n : Nat) (f : Peer → Peer) : (s.modifyPeer n f).marks = s.marks := rfl
@[simp] theorem modifyPeer_winFirst (s : State) (n : Nat) (f : Peer → Peer) : (s.modifyPeer n f).winFirst = s.winFirst := rfl
@[simp] theorem modifyPeer_winSize (s : State) (n : Nat) (f : Peer → Peer) : (s.modifyPeer n f).winSize = s.winSize := rfl
@[simp] theorem modifyPeer_watched (s : State) (n : Nat) (f : Peer → Peer) : (s.modifyPeer n f).watched = s.watched := rfl
@[simp] theorem modifyPeer_answers (s : State) (n : Nat) (f : Peer → Peer) : (s.modifyPeer n f).answers = s.answers := rfl
@[simp] theorem modifyPeer_run (s : State) (n : Nat) (f : Peer → Peer) : (s.modifyPeer n f).run = s.run := rfl
@[simp] theorem modifyPeer_roster (s : State) (n : Nat) (f : Peer → Peer) : (s.modifyPeer n f).roster = s.roster.map fun p => if p.tile = n then f p else p := rfl
@[simp] theorem modifyPeer_routes (s : State) (n : Nat) (f : Peer → Peer) : (s.modifyPeer n f).routes = s.routes := rfl
@[simp] theorem modifyPeer_claims (s : State) (n : Nat) (f : Peer → Peer) : (s.modifyPeer n f).claims = s.claims := rfl
@[simp] theorem modifyPeer_tagCounter (s : State) (n : Nat) (f : Peer → Peer) : (s.modifyPeer n f).tagCounter = s.tagCounter := rfl
@[simp] theorem modifyPeer_steps (s : State) (n : Nat) (f : Peer → Peer) : (s.modifyPeer n f).steps = s.steps := rfl
@[simp] theorem modifyPeer_inbox (s : State) (n : Nat) (f : Peer → Peer) : (s.modifyPeer n f).inbox = s.inbox := rfl
@[simp] theorem modifyPeer_line (s : State) (n : Nat) (f : Peer → Peer) : (s.modifyPeer n f).line = s.line := rfl
@[simp] theorem modifyPeer_transmit (s : State) (n : Nat) (f : Peer → Peer) : (s.modifyPeer n f).transmit = s.transmit := rfl
@[simp] theorem modifyPeer_losses (s : State) (n : Nat) (f : Peer → Peer) : (s.modifyPeer n f).losses = s.losses := rfl
@[simp] theorem modifyPeer_hail (s : State) (n : Nat) (f : Peer → Peer) : (s.modifyPeer n f).hail = s.hail := rfl
@[simp] theorem modifyPeer_outstanding (s : State) (n : Nat) (f : Peer → Peer) : (s.modifyPeer n f).outstanding = s.outstanding := rfl
@[simp] theorem modifyPeer_lineOut (s : State) (n : Nat) (f : Peer → Peer) : (s.modifyPeer n f).lineOut = s.lineOut := rfl
@[simp] theorem modifyPeer_pads (s : State) (n : Nat) (f : Peer → Peer) : (s.modifyPeer n f).pads = s.pads := rfl
@[simp] theorem modifyPeer_gateStart (s : State) (n : Nat) (f : Peer → Peer) : (s.modifyPeer n f).gateStart = s.gateStart := rfl
@[simp] theorem modifyPeer_timers (s : State) (n : Nat) (f : Peer → Peer) : (s.modifyPeer n f).timers = s.timers := rfl
@[simp] theorem modifyPeer_lastTick (s : State) (n : Nat) (f : Peer → Peer) : (s.modifyPeer n f).lastTick = s.lastTick := rfl
@[simp] theorem modifyPeer_lights (s : State) (n : Nat) (f : Peer → Peer) : (s.modifyPeer n f).lights = s.lights := rfl
@[simp] theorem modifyPeer_sessionPhase (s : State) (n : Nat) (f : Peer → Peer) : (s.modifyPeer n f).sessionPhase = s.sessionPhase := rfl
@[simp] theorem modifyPeer_tones (s : State) (n : Nat) (f : Peer → Peer) : (s.modifyPeer n f).tones = s.tones := rfl
@[simp] theorem modifyPeer_toneCount (s : State) (n : Nat) (f : Peer → Peer) : (s.modifyPeer n f).toneCount = s.toneCount := rfl
@[simp] theorem modifyPeer_toneStart (s : State) (n : Nat) (f : Peer → Peer) : (s.modifyPeer n f).toneStart = s.toneStart := rfl
@[simp] theorem modifyPeer_toneTable (s : State) (n : Nat) (f : Peer → Peer) : (s.modifyPeer n f).toneTable = s.toneTable := rfl
@[simp] theorem modifyPeer_digits (s : State) (n : Nat) (f : Peer → Peer) : (s.modifyPeer n f).digits = s.digits := rfl
@[simp] theorem modifyPeer_store (s : State) (n : Nat) (f : Peer → Peer) : (s.modifyPeer n f).store = s.store := rfl
@[simp] theorem modifyPeer_op (s : State) (n : Nat) (f : Peer → Peer) : (s.modifyPeer n f).op = s.op := rfl
@[simp] theorem modifyPeer_waiting (s : State) (n : Nat) (f : Peer → Peer) : (s.modifyPeer n f).waiting = s.waiting := rfl
@[simp] theorem modifyPeer_writer (s : State) (n : Nat) (f : Peer → Peer) : (s.modifyPeer n f).writer = s.writer := rfl
@[simp] theorem modifyPeer_loader (s : State) (n : Nat) (f : Peer → Peer) : (s.modifyPeer n f).loader = s.loader := rfl

@[simp] theorem modifyStep_pending (s : State) (n : Nat) (f : Step → Step) : (s.modifyStep n f).pending = s.pending := rfl
@[simp] theorem modifyStep_now (s : State) (n : Nat) (f : Step → Step) : (s.modifyStep n f).now = s.now := rfl
@[simp] theorem modifyStep_powered (s : State) (n : Nat) (f : Step → Step) : (s.modifyStep n f).powered = s.powered := rfl
@[simp] theorem modifyStep_session (s : State) (n : Nat) (f : Step → Step) : (s.modifyStep n f).session = s.session := rfl
@[simp] theorem modifyStep_stage (s : State) (n : Nat) (f : Step → Step) : (s.modifyStep n f).stage = s.stage := rfl
@[simp] theorem modifyStep_epoch (s : State) (n : Nat) (f : Step → Step) : (s.modifyStep n f).epoch = s.epoch := rfl
@[simp] theorem modifyStep_serial (s : State) (n : Nat) (f : Step → Step) : (s.modifyStep n f).serial = s.serial := rfl
@[simp] theorem modifyStep_tile (s : State) (n : Nat) (f : Step → Step) : (s.modifyStep n f).tile = s.tile := rfl
@[simp] theorem modifyStep_listenAt (s : State) (n : Nat) (f : Step → Step) : (s.modifyStep n f).listenAt = s.listenAt := rfl
@[simp] theorem modifyStep_restOwed (s : State) (n : Nat) (f : Step → Step) : (s.modifyStep n f).restOwed = s.restOwed := rfl
@[simp] theorem modifyStep_droop (s : State) (n : Nat) (f : Step → Step) : (s.modifyStep n f).droop = s.droop := rfl
@[simp] theorem modifyStep_health (s : State) (n : Nat) (f : Step → Step) : (s.modifyStep n f).health = s.health := rfl
@[simp] theorem modifyStep_header (s : State) (n : Nat) (f : Step → Step) : (s.modifyStep n f).header = s.header := rfl
@[simp] theorem modifyStep_marks (s : State) (n : Nat) (f : Step → Step) : (s.modifyStep n f).marks = s.marks := rfl
@[simp] theorem modifyStep_winFirst (s : State) (n : Nat) (f : Step → Step) : (s.modifyStep n f).winFirst = s.winFirst := rfl
@[simp] theorem modifyStep_winSize (s : State) (n : Nat) (f : Step → Step) : (s.modifyStep n f).winSize = s.winSize := rfl
@[simp] theorem modifyStep_watched (s : State) (n : Nat) (f : Step → Step) : (s.modifyStep n f).watched = s.watched := rfl
@[simp] theorem modifyStep_answers (s : State) (n : Nat) (f : Step → Step) : (s.modifyStep n f).answers = s.answers := rfl
@[simp] theorem modifyStep_run (s : State) (n : Nat) (f : Step → Step) : (s.modifyStep n f).run = s.run := rfl
@[simp] theorem modifyStep_roster (s : State) (n : Nat) (f : Step → Step) : (s.modifyStep n f).roster = s.roster := rfl
@[simp] theorem modifyStep_routes (s : State) (n : Nat) (f : Step → Step) : (s.modifyStep n f).routes = s.routes := rfl
@[simp] theorem modifyStep_claims (s : State) (n : Nat) (f : Step → Step) : (s.modifyStep n f).claims = s.claims := rfl
@[simp] theorem modifyStep_tagCounter (s : State) (n : Nat) (f : Step → Step) : (s.modifyStep n f).tagCounter = s.tagCounter := rfl
@[simp] theorem modifyStep_steps (s : State) (n : Nat) (f : Step → Step) : (s.modifyStep n f).steps = modifyAt f n s.steps := rfl
@[simp] theorem modifyStep_inbox (s : State) (n : Nat) (f : Step → Step) : (s.modifyStep n f).inbox = s.inbox := rfl
@[simp] theorem modifyStep_line (s : State) (n : Nat) (f : Step → Step) : (s.modifyStep n f).line = s.line := rfl
@[simp] theorem modifyStep_transmit (s : State) (n : Nat) (f : Step → Step) : (s.modifyStep n f).transmit = s.transmit := rfl
@[simp] theorem modifyStep_losses (s : State) (n : Nat) (f : Step → Step) : (s.modifyStep n f).losses = s.losses := rfl
@[simp] theorem modifyStep_hail (s : State) (n : Nat) (f : Step → Step) : (s.modifyStep n f).hail = s.hail := rfl
@[simp] theorem modifyStep_outstanding (s : State) (n : Nat) (f : Step → Step) : (s.modifyStep n f).outstanding = s.outstanding := rfl
@[simp] theorem modifyStep_lineOut (s : State) (n : Nat) (f : Step → Step) : (s.modifyStep n f).lineOut = s.lineOut := rfl
@[simp] theorem modifyStep_pads (s : State) (n : Nat) (f : Step → Step) : (s.modifyStep n f).pads = s.pads := rfl
@[simp] theorem modifyStep_gateStart (s : State) (n : Nat) (f : Step → Step) : (s.modifyStep n f).gateStart = s.gateStart := rfl
@[simp] theorem modifyStep_timers (s : State) (n : Nat) (f : Step → Step) : (s.modifyStep n f).timers = s.timers := rfl
@[simp] theorem modifyStep_lastTick (s : State) (n : Nat) (f : Step → Step) : (s.modifyStep n f).lastTick = s.lastTick := rfl
@[simp] theorem modifyStep_lights (s : State) (n : Nat) (f : Step → Step) : (s.modifyStep n f).lights = s.lights := rfl
@[simp] theorem modifyStep_sessionPhase (s : State) (n : Nat) (f : Step → Step) : (s.modifyStep n f).sessionPhase = s.sessionPhase := rfl
@[simp] theorem modifyStep_tones (s : State) (n : Nat) (f : Step → Step) : (s.modifyStep n f).tones = s.tones := rfl
@[simp] theorem modifyStep_toneCount (s : State) (n : Nat) (f : Step → Step) : (s.modifyStep n f).toneCount = s.toneCount := rfl
@[simp] theorem modifyStep_toneStart (s : State) (n : Nat) (f : Step → Step) : (s.modifyStep n f).toneStart = s.toneStart := rfl
@[simp] theorem modifyStep_toneTable (s : State) (n : Nat) (f : Step → Step) : (s.modifyStep n f).toneTable = s.toneTable := rfl
@[simp] theorem modifyStep_digits (s : State) (n : Nat) (f : Step → Step) : (s.modifyStep n f).digits = s.digits := rfl
@[simp] theorem modifyStep_store (s : State) (n : Nat) (f : Step → Step) : (s.modifyStep n f).store = s.store := rfl
@[simp] theorem modifyStep_op (s : State) (n : Nat) (f : Step → Step) : (s.modifyStep n f).op = s.op := rfl
@[simp] theorem modifyStep_waiting (s : State) (n : Nat) (f : Step → Step) : (s.modifyStep n f).waiting = s.waiting := rfl
@[simp] theorem modifyStep_writer (s : State) (n : Nat) (f : Step → Step) : (s.modifyStep n f).writer = s.writer := rfl
@[simp] theorem modifyStep_loader (s : State) (n : Nat) (f : Step → Step) : (s.modifyStep n f).loader = s.loader := rfl

@[simp] theorem queueAnswer_pending (s : State) (a : Answer) : (s.queueAnswer a).pending = s.pending := rfl
@[simp] theorem queueAnswer_now (s : State) (a : Answer) : (s.queueAnswer a).now = s.now := rfl
@[simp] theorem queueAnswer_powered (s : State) (a : Answer) : (s.queueAnswer a).powered = s.powered := rfl
@[simp] theorem queueAnswer_session (s : State) (a : Answer) : (s.queueAnswer a).session = s.session := rfl
@[simp] theorem queueAnswer_stage (s : State) (a : Answer) : (s.queueAnswer a).stage = s.stage := rfl
@[simp] theorem queueAnswer_epoch (s : State) (a : Answer) : (s.queueAnswer a).epoch = s.epoch := rfl
@[simp] theorem queueAnswer_serial (s : State) (a : Answer) : (s.queueAnswer a).serial = s.serial := rfl
@[simp] theorem queueAnswer_tile (s : State) (a : Answer) : (s.queueAnswer a).tile = s.tile := rfl
@[simp] theorem queueAnswer_listenAt (s : State) (a : Answer) : (s.queueAnswer a).listenAt = s.listenAt := rfl
@[simp] theorem queueAnswer_restOwed (s : State) (a : Answer) : (s.queueAnswer a).restOwed = s.restOwed := rfl
@[simp] theorem queueAnswer_droop (s : State) (a : Answer) : (s.queueAnswer a).droop = s.droop := rfl
@[simp] theorem queueAnswer_health (s : State) (a : Answer) : (s.queueAnswer a).health = s.health := rfl
@[simp] theorem queueAnswer_header (s : State) (a : Answer) : (s.queueAnswer a).header = s.header := rfl
@[simp] theorem queueAnswer_marks (s : State) (a : Answer) : (s.queueAnswer a).marks = s.marks := rfl
@[simp] theorem queueAnswer_winFirst (s : State) (a : Answer) : (s.queueAnswer a).winFirst = s.winFirst := rfl
@[simp] theorem queueAnswer_winSize (s : State) (a : Answer) : (s.queueAnswer a).winSize = s.winSize := rfl
@[simp] theorem queueAnswer_watched (s : State) (a : Answer) : (s.queueAnswer a).watched = s.watched := rfl
@[simp] theorem queueAnswer_answers (s : State) (a : Answer) : (s.queueAnswer a).answers = s.answers ++ [a] := rfl
@[simp] theorem queueAnswer_run (s : State) (a : Answer) : (s.queueAnswer a).run = s.run := rfl
@[simp] theorem queueAnswer_roster (s : State) (a : Answer) : (s.queueAnswer a).roster = s.roster := rfl
@[simp] theorem queueAnswer_routes (s : State) (a : Answer) : (s.queueAnswer a).routes = s.routes := rfl
@[simp] theorem queueAnswer_claims (s : State) (a : Answer) : (s.queueAnswer a).claims = s.claims := rfl
@[simp] theorem queueAnswer_tagCounter (s : State) (a : Answer) : (s.queueAnswer a).tagCounter = s.tagCounter := rfl
@[simp] theorem queueAnswer_steps (s : State) (a : Answer) : (s.queueAnswer a).steps = s.steps := rfl
@[simp] theorem queueAnswer_inbox (s : State) (a : Answer) : (s.queueAnswer a).inbox = s.inbox := rfl
@[simp] theorem queueAnswer_line (s : State) (a : Answer) : (s.queueAnswer a).line = s.line := rfl
@[simp] theorem queueAnswer_transmit (s : State) (a : Answer) : (s.queueAnswer a).transmit = s.transmit := rfl
@[simp] theorem queueAnswer_losses (s : State) (a : Answer) : (s.queueAnswer a).losses = s.losses := rfl
@[simp] theorem queueAnswer_hail (s : State) (a : Answer) : (s.queueAnswer a).hail = s.hail := rfl
@[simp] theorem queueAnswer_outstanding (s : State) (a : Answer) : (s.queueAnswer a).outstanding = s.outstanding := rfl
@[simp] theorem queueAnswer_lineOut (s : State) (a : Answer) : (s.queueAnswer a).lineOut = s.lineOut := rfl
@[simp] theorem queueAnswer_pads (s : State) (a : Answer) : (s.queueAnswer a).pads = s.pads := rfl
@[simp] theorem queueAnswer_gateStart (s : State) (a : Answer) : (s.queueAnswer a).gateStart = s.gateStart := rfl
@[simp] theorem queueAnswer_timers (s : State) (a : Answer) : (s.queueAnswer a).timers = s.timers := rfl
@[simp] theorem queueAnswer_lastTick (s : State) (a : Answer) : (s.queueAnswer a).lastTick = s.lastTick := rfl
@[simp] theorem queueAnswer_lights (s : State) (a : Answer) : (s.queueAnswer a).lights = s.lights := rfl
@[simp] theorem queueAnswer_sessionPhase (s : State) (a : Answer) : (s.queueAnswer a).sessionPhase = s.sessionPhase := rfl
@[simp] theorem queueAnswer_tones (s : State) (a : Answer) : (s.queueAnswer a).tones = s.tones := rfl
@[simp] theorem queueAnswer_toneCount (s : State) (a : Answer) : (s.queueAnswer a).toneCount = s.toneCount := rfl
@[simp] theorem queueAnswer_toneStart (s : State) (a : Answer) : (s.queueAnswer a).toneStart = s.toneStart := rfl
@[simp] theorem queueAnswer_toneTable (s : State) (a : Answer) : (s.queueAnswer a).toneTable = s.toneTable := rfl
@[simp] theorem queueAnswer_digits (s : State) (a : Answer) : (s.queueAnswer a).digits = s.digits := rfl
@[simp] theorem queueAnswer_store (s : State) (a : Answer) : (s.queueAnswer a).store = s.store := rfl
@[simp] theorem queueAnswer_op (s : State) (a : Answer) : (s.queueAnswer a).op = s.op := rfl
@[simp] theorem queueAnswer_waiting (s : State) (a : Answer) : (s.queueAnswer a).waiting = s.waiting := rfl
@[simp] theorem queueAnswer_writer (s : State) (a : Answer) : (s.queueAnswer a).writer = s.writer := rfl
@[simp] theorem queueAnswer_loader (s : State) (a : Answer) : (s.queueAnswer a).loader = s.loader := rfl

@[simp] theorem stopDriving_pending (s : State) : s.stopDriving.pending = s.pending := rfl
@[simp] theorem stopDriving_now (s : State) : s.stopDriving.now = s.now := rfl
@[simp] theorem stopDriving_powered (s : State) : s.stopDriving.powered = s.powered := rfl
@[simp] theorem stopDriving_session (s : State) : s.stopDriving.session = s.session := rfl
@[simp] theorem stopDriving_stage (s : State) : s.stopDriving.stage = s.stage := rfl
@[simp] theorem stopDriving_epoch (s : State) : s.stopDriving.epoch = s.epoch := rfl
@[simp] theorem stopDriving_serial (s : State) : s.stopDriving.serial = s.serial := rfl
@[simp] theorem stopDriving_tile (s : State) : s.stopDriving.tile = s.tile := rfl
@[simp] theorem stopDriving_listenAt (s : State) : s.stopDriving.listenAt = s.listenAt := rfl
@[simp] theorem stopDriving_restOwed (s : State) : s.stopDriving.restOwed = s.restOwed := rfl
@[simp] theorem stopDriving_droop (s : State) : s.stopDriving.droop = s.droop := rfl
@[simp] theorem stopDriving_health (s : State) : s.stopDriving.health = s.health := rfl
@[simp] theorem stopDriving_header (s : State) : s.stopDriving.header = s.header := rfl
@[simp] theorem stopDriving_marks (s : State) : s.stopDriving.marks = s.marks := rfl
@[simp] theorem stopDriving_winFirst (s : State) : s.stopDriving.winFirst = s.winFirst := rfl
@[simp] theorem stopDriving_winSize (s : State) : s.stopDriving.winSize = s.winSize := rfl
@[simp] theorem stopDriving_watched (s : State) : s.stopDriving.watched = s.watched := rfl
@[simp] theorem stopDriving_answers (s : State) : s.stopDriving.answers = s.answers := rfl
@[simp] theorem stopDriving_run (s : State) : s.stopDriving.run = s.run := rfl
@[simp] theorem stopDriving_roster (s : State) : s.stopDriving.roster = s.roster := rfl
@[simp] theorem stopDriving_routes (s : State) : s.stopDriving.routes = s.routes := rfl
@[simp] theorem stopDriving_claims (s : State) : s.stopDriving.claims = s.claims := rfl
@[simp] theorem stopDriving_tagCounter (s : State) : s.stopDriving.tagCounter = s.tagCounter := rfl
@[simp] theorem stopDriving_steps (s : State) : s.stopDriving.steps = s.steps := rfl
@[simp] theorem stopDriving_inbox (s : State) : s.stopDriving.inbox = s.inbox := rfl
@[simp] theorem stopDriving_line (s : State) : s.stopDriving.line = .quiet s.now := rfl
@[simp] theorem stopDriving_transmit (s : State) : s.stopDriving.transmit = s.transmit := rfl
@[simp] theorem stopDriving_losses (s : State) : s.stopDriving.losses = s.losses := rfl
@[simp] theorem stopDriving_hail (s : State) : s.stopDriving.hail = s.hail := rfl
@[simp] theorem stopDriving_outstanding (s : State) : s.stopDriving.outstanding = none := rfl
@[simp] theorem stopDriving_lineOut (s : State) : s.stopDriving.lineOut = [] := rfl
@[simp] theorem stopDriving_pads (s : State) : s.stopDriving.pads = s.pads := rfl
@[simp] theorem stopDriving_gateStart (s : State) : s.stopDriving.gateStart = s.gateStart := rfl
@[simp] theorem stopDriving_timers (s : State) : s.stopDriving.timers = s.timers := rfl
@[simp] theorem stopDriving_lastTick (s : State) : s.stopDriving.lastTick = s.lastTick := rfl
@[simp] theorem stopDriving_lights (s : State) : s.stopDriving.lights = s.lights := rfl
@[simp] theorem stopDriving_sessionPhase (s : State) : s.stopDriving.sessionPhase = s.sessionPhase := rfl
@[simp] theorem stopDriving_tones (s : State) : s.stopDriving.tones = s.tones := rfl
@[simp] theorem stopDriving_toneCount (s : State) : s.stopDriving.toneCount = s.toneCount := rfl
@[simp] theorem stopDriving_toneStart (s : State) : s.stopDriving.toneStart = s.toneStart := rfl
@[simp] theorem stopDriving_toneTable (s : State) : s.stopDriving.toneTable = s.toneTable := rfl
@[simp] theorem stopDriving_digits (s : State) : s.stopDriving.digits = s.digits := rfl
@[simp] theorem stopDriving_store (s : State) : s.stopDriving.store = s.store := rfl
@[simp] theorem stopDriving_op (s : State) : s.stopDriving.op = s.op := rfl
@[simp] theorem stopDriving_waiting (s : State) : s.stopDriving.waiting = s.waiting := rfl
@[simp] theorem stopDriving_writer (s : State) : s.stopDriving.writer = s.writer := rfl
@[simp] theorem stopDriving_loader (s : State) : s.stopDriving.loader = s.loader := rfl

@[simp] theorem setHailDue_pending (s : State) (t : Nat) : (s.setHailDue t).pending = s.pending := rfl
@[simp] theorem setHailDue_now (s : State) (t : Nat) : (s.setHailDue t).now = s.now := rfl
@[simp] theorem setHailDue_powered (s : State) (t : Nat) : (s.setHailDue t).powered = s.powered := rfl
@[simp] theorem setHailDue_session (s : State) (t : Nat) : (s.setHailDue t).session = s.session := rfl
@[simp] theorem setHailDue_stage (s : State) (t : Nat) : (s.setHailDue t).stage = s.stage := rfl
@[simp] theorem setHailDue_epoch (s : State) (t : Nat) : (s.setHailDue t).epoch = s.epoch := rfl
@[simp] theorem setHailDue_serial (s : State) (t : Nat) : (s.setHailDue t).serial = s.serial := rfl
@[simp] theorem setHailDue_tile (s : State) (t : Nat) : (s.setHailDue t).tile = s.tile := rfl
@[simp] theorem setHailDue_listenAt (s : State) (t : Nat) : (s.setHailDue t).listenAt = s.listenAt := rfl
@[simp] theorem setHailDue_restOwed (s : State) (t : Nat) : (s.setHailDue t).restOwed = s.restOwed := rfl
@[simp] theorem setHailDue_droop (s : State) (t : Nat) : (s.setHailDue t).droop = s.droop := rfl
@[simp] theorem setHailDue_health (s : State) (t : Nat) : (s.setHailDue t).health = s.health := rfl
@[simp] theorem setHailDue_header (s : State) (t : Nat) : (s.setHailDue t).header = s.header := rfl
@[simp] theorem setHailDue_marks (s : State) (t : Nat) : (s.setHailDue t).marks = s.marks := rfl
@[simp] theorem setHailDue_winFirst (s : State) (t : Nat) : (s.setHailDue t).winFirst = s.winFirst := rfl
@[simp] theorem setHailDue_winSize (s : State) (t : Nat) : (s.setHailDue t).winSize = s.winSize := rfl
@[simp] theorem setHailDue_watched (s : State) (t : Nat) : (s.setHailDue t).watched = s.watched := rfl
@[simp] theorem setHailDue_answers (s : State) (t : Nat) : (s.setHailDue t).answers = s.answers := rfl
@[simp] theorem setHailDue_run (s : State) (t : Nat) : (s.setHailDue t).run = s.run := rfl
@[simp] theorem setHailDue_roster (s : State) (t : Nat) : (s.setHailDue t).roster = s.roster := rfl
@[simp] theorem setHailDue_routes (s : State) (t : Nat) : (s.setHailDue t).routes = s.routes := rfl
@[simp] theorem setHailDue_claims (s : State) (t : Nat) : (s.setHailDue t).claims = s.claims := rfl
@[simp] theorem setHailDue_tagCounter (s : State) (t : Nat) : (s.setHailDue t).tagCounter = s.tagCounter := rfl
@[simp] theorem setHailDue_steps (s : State) (t : Nat) : (s.setHailDue t).steps = s.steps := rfl
@[simp] theorem setHailDue_inbox (s : State) (t : Nat) : (s.setHailDue t).inbox = s.inbox := rfl
@[simp] theorem setHailDue_line (s : State) (t : Nat) : (s.setHailDue t).line = s.line := rfl
@[simp] theorem setHailDue_transmit (s : State) (t : Nat) : (s.setHailDue t).transmit = s.transmit := rfl
@[simp] theorem setHailDue_losses (s : State) (t : Nat) : (s.setHailDue t).losses = s.losses := rfl
@[simp] theorem setHailDue_hail (s : State) (t : Nat) : (s.setHailDue t).hail = { s.hail with due := some t } := rfl
@[simp] theorem setHailDue_outstanding (s : State) (t : Nat) : (s.setHailDue t).outstanding = s.outstanding := rfl
@[simp] theorem setHailDue_lineOut (s : State) (t : Nat) : (s.setHailDue t).lineOut = s.lineOut := rfl
@[simp] theorem setHailDue_pads (s : State) (t : Nat) : (s.setHailDue t).pads = s.pads := rfl
@[simp] theorem setHailDue_gateStart (s : State) (t : Nat) : (s.setHailDue t).gateStart = s.gateStart := rfl
@[simp] theorem setHailDue_timers (s : State) (t : Nat) : (s.setHailDue t).timers = s.timers := rfl
@[simp] theorem setHailDue_lastTick (s : State) (t : Nat) : (s.setHailDue t).lastTick = s.lastTick := rfl
@[simp] theorem setHailDue_lights (s : State) (t : Nat) : (s.setHailDue t).lights = s.lights := rfl
@[simp] theorem setHailDue_sessionPhase (s : State) (t : Nat) : (s.setHailDue t).sessionPhase = s.sessionPhase := rfl
@[simp] theorem setHailDue_tones (s : State) (t : Nat) : (s.setHailDue t).tones = s.tones := rfl
@[simp] theorem setHailDue_toneCount (s : State) (t : Nat) : (s.setHailDue t).toneCount = s.toneCount := rfl
@[simp] theorem setHailDue_toneStart (s : State) (t : Nat) : (s.setHailDue t).toneStart = s.toneStart := rfl
@[simp] theorem setHailDue_toneTable (s : State) (t : Nat) : (s.setHailDue t).toneTable = s.toneTable := rfl
@[simp] theorem setHailDue_digits (s : State) (t : Nat) : (s.setHailDue t).digits = s.digits := rfl
@[simp] theorem setHailDue_store (s : State) (t : Nat) : (s.setHailDue t).store = s.store := rfl
@[simp] theorem setHailDue_op (s : State) (t : Nat) : (s.setHailDue t).op = s.op := rfl
@[simp] theorem setHailDue_waiting (s : State) (t : Nat) : (s.setHailDue t).waiting = s.waiting := rfl
@[simp] theorem setHailDue_writer (s : State) (t : Nat) : (s.setHailDue t).writer = s.writer := rfl
@[simp] theorem setHailDue_loader (s : State) (t : Nat) : (s.setHailDue t).loader = s.loader := rfl

@[simp] theorem modifyPad_pending (s : State) (n : Nat) (f : Pad → Pad) : (s.modifyPad n f).pending = s.pending := rfl
@[simp] theorem modifyPad_now (s : State) (n : Nat) (f : Pad → Pad) : (s.modifyPad n f).now = s.now := rfl
@[simp] theorem modifyPad_powered (s : State) (n : Nat) (f : Pad → Pad) : (s.modifyPad n f).powered = s.powered := rfl
@[simp] theorem modifyPad_session (s : State) (n : Nat) (f : Pad → Pad) : (s.modifyPad n f).session = s.session := rfl
@[simp] theorem modifyPad_stage (s : State) (n : Nat) (f : Pad → Pad) : (s.modifyPad n f).stage = s.stage := rfl
@[simp] theorem modifyPad_epoch (s : State) (n : Nat) (f : Pad → Pad) : (s.modifyPad n f).epoch = s.epoch := rfl
@[simp] theorem modifyPad_serial (s : State) (n : Nat) (f : Pad → Pad) : (s.modifyPad n f).serial = s.serial := rfl
@[simp] theorem modifyPad_tile (s : State) (n : Nat) (f : Pad → Pad) : (s.modifyPad n f).tile = s.tile := rfl
@[simp] theorem modifyPad_listenAt (s : State) (n : Nat) (f : Pad → Pad) : (s.modifyPad n f).listenAt = s.listenAt := rfl
@[simp] theorem modifyPad_restOwed (s : State) (n : Nat) (f : Pad → Pad) : (s.modifyPad n f).restOwed = s.restOwed := rfl
@[simp] theorem modifyPad_droop (s : State) (n : Nat) (f : Pad → Pad) : (s.modifyPad n f).droop = s.droop := rfl
@[simp] theorem modifyPad_health (s : State) (n : Nat) (f : Pad → Pad) : (s.modifyPad n f).health = s.health := rfl
@[simp] theorem modifyPad_header (s : State) (n : Nat) (f : Pad → Pad) : (s.modifyPad n f).header = s.header := rfl
@[simp] theorem modifyPad_marks (s : State) (n : Nat) (f : Pad → Pad) : (s.modifyPad n f).marks = s.marks := rfl
@[simp] theorem modifyPad_winFirst (s : State) (n : Nat) (f : Pad → Pad) : (s.modifyPad n f).winFirst = s.winFirst := rfl
@[simp] theorem modifyPad_winSize (s : State) (n : Nat) (f : Pad → Pad) : (s.modifyPad n f).winSize = s.winSize := rfl
@[simp] theorem modifyPad_watched (s : State) (n : Nat) (f : Pad → Pad) : (s.modifyPad n f).watched = s.watched := rfl
@[simp] theorem modifyPad_answers (s : State) (n : Nat) (f : Pad → Pad) : (s.modifyPad n f).answers = s.answers := rfl
@[simp] theorem modifyPad_run (s : State) (n : Nat) (f : Pad → Pad) : (s.modifyPad n f).run = s.run := rfl
@[simp] theorem modifyPad_roster (s : State) (n : Nat) (f : Pad → Pad) : (s.modifyPad n f).roster = s.roster := rfl
@[simp] theorem modifyPad_routes (s : State) (n : Nat) (f : Pad → Pad) : (s.modifyPad n f).routes = s.routes := rfl
@[simp] theorem modifyPad_claims (s : State) (n : Nat) (f : Pad → Pad) : (s.modifyPad n f).claims = s.claims := rfl
@[simp] theorem modifyPad_tagCounter (s : State) (n : Nat) (f : Pad → Pad) : (s.modifyPad n f).tagCounter = s.tagCounter := rfl
@[simp] theorem modifyPad_steps (s : State) (n : Nat) (f : Pad → Pad) : (s.modifyPad n f).steps = s.steps := rfl
@[simp] theorem modifyPad_inbox (s : State) (n : Nat) (f : Pad → Pad) : (s.modifyPad n f).inbox = s.inbox := rfl
@[simp] theorem modifyPad_line (s : State) (n : Nat) (f : Pad → Pad) : (s.modifyPad n f).line = s.line := rfl
@[simp] theorem modifyPad_transmit (s : State) (n : Nat) (f : Pad → Pad) : (s.modifyPad n f).transmit = s.transmit := rfl
@[simp] theorem modifyPad_losses (s : State) (n : Nat) (f : Pad → Pad) : (s.modifyPad n f).losses = s.losses := rfl
@[simp] theorem modifyPad_hail (s : State) (n : Nat) (f : Pad → Pad) : (s.modifyPad n f).hail = s.hail := rfl
@[simp] theorem modifyPad_outstanding (s : State) (n : Nat) (f : Pad → Pad) : (s.modifyPad n f).outstanding = s.outstanding := rfl
@[simp] theorem modifyPad_lineOut (s : State) (n : Nat) (f : Pad → Pad) : (s.modifyPad n f).lineOut = s.lineOut := rfl
@[simp] theorem modifyPad_pads (s : State) (n : Nat) (f : Pad → Pad) : (s.modifyPad n f).pads = modifyAt f n s.pads := rfl
@[simp] theorem modifyPad_gateStart (s : State) (n : Nat) (f : Pad → Pad) : (s.modifyPad n f).gateStart = s.gateStart := rfl
@[simp] theorem modifyPad_timers (s : State) (n : Nat) (f : Pad → Pad) : (s.modifyPad n f).timers = s.timers := rfl
@[simp] theorem modifyPad_lastTick (s : State) (n : Nat) (f : Pad → Pad) : (s.modifyPad n f).lastTick = s.lastTick := rfl
@[simp] theorem modifyPad_lights (s : State) (n : Nat) (f : Pad → Pad) : (s.modifyPad n f).lights = s.lights := rfl
@[simp] theorem modifyPad_sessionPhase (s : State) (n : Nat) (f : Pad → Pad) : (s.modifyPad n f).sessionPhase = s.sessionPhase := rfl
@[simp] theorem modifyPad_tones (s : State) (n : Nat) (f : Pad → Pad) : (s.modifyPad n f).tones = s.tones := rfl
@[simp] theorem modifyPad_toneCount (s : State) (n : Nat) (f : Pad → Pad) : (s.modifyPad n f).toneCount = s.toneCount := rfl
@[simp] theorem modifyPad_toneStart (s : State) (n : Nat) (f : Pad → Pad) : (s.modifyPad n f).toneStart = s.toneStart := rfl
@[simp] theorem modifyPad_toneTable (s : State) (n : Nat) (f : Pad → Pad) : (s.modifyPad n f).toneTable = s.toneTable := rfl
@[simp] theorem modifyPad_digits (s : State) (n : Nat) (f : Pad → Pad) : (s.modifyPad n f).digits = s.digits := rfl
@[simp] theorem modifyPad_store (s : State) (n : Nat) (f : Pad → Pad) : (s.modifyPad n f).store = s.store := rfl
@[simp] theorem modifyPad_op (s : State) (n : Nat) (f : Pad → Pad) : (s.modifyPad n f).op = s.op := rfl
@[simp] theorem modifyPad_waiting (s : State) (n : Nat) (f : Pad → Pad) : (s.modifyPad n f).waiting = s.waiting := rfl
@[simp] theorem modifyPad_writer (s : State) (n : Nat) (f : Pad → Pad) : (s.modifyPad n f).writer = s.writer := rfl
@[simp] theorem modifyPad_loader (s : State) (n : Nat) (f : Pad → Pad) : (s.modifyPad n f).loader = s.loader := rfl

@[simp] theorem modifyTimer_pending (s : State) (n : Nat) (f : Timer → Timer) : (s.modifyTimer n f).pending = s.pending := rfl
@[simp] theorem modifyTimer_now (s : State) (n : Nat) (f : Timer → Timer) : (s.modifyTimer n f).now = s.now := rfl
@[simp] theorem modifyTimer_powered (s : State) (n : Nat) (f : Timer → Timer) : (s.modifyTimer n f).powered = s.powered := rfl
@[simp] theorem modifyTimer_session (s : State) (n : Nat) (f : Timer → Timer) : (s.modifyTimer n f).session = s.session := rfl
@[simp] theorem modifyTimer_stage (s : State) (n : Nat) (f : Timer → Timer) : (s.modifyTimer n f).stage = s.stage := rfl
@[simp] theorem modifyTimer_epoch (s : State) (n : Nat) (f : Timer → Timer) : (s.modifyTimer n f).epoch = s.epoch := rfl
@[simp] theorem modifyTimer_serial (s : State) (n : Nat) (f : Timer → Timer) : (s.modifyTimer n f).serial = s.serial := rfl
@[simp] theorem modifyTimer_tile (s : State) (n : Nat) (f : Timer → Timer) : (s.modifyTimer n f).tile = s.tile := rfl
@[simp] theorem modifyTimer_listenAt (s : State) (n : Nat) (f : Timer → Timer) : (s.modifyTimer n f).listenAt = s.listenAt := rfl
@[simp] theorem modifyTimer_restOwed (s : State) (n : Nat) (f : Timer → Timer) : (s.modifyTimer n f).restOwed = s.restOwed := rfl
@[simp] theorem modifyTimer_droop (s : State) (n : Nat) (f : Timer → Timer) : (s.modifyTimer n f).droop = s.droop := rfl
@[simp] theorem modifyTimer_health (s : State) (n : Nat) (f : Timer → Timer) : (s.modifyTimer n f).health = s.health := rfl
@[simp] theorem modifyTimer_header (s : State) (n : Nat) (f : Timer → Timer) : (s.modifyTimer n f).header = s.header := rfl
@[simp] theorem modifyTimer_marks (s : State) (n : Nat) (f : Timer → Timer) : (s.modifyTimer n f).marks = s.marks := rfl
@[simp] theorem modifyTimer_winFirst (s : State) (n : Nat) (f : Timer → Timer) : (s.modifyTimer n f).winFirst = s.winFirst := rfl
@[simp] theorem modifyTimer_winSize (s : State) (n : Nat) (f : Timer → Timer) : (s.modifyTimer n f).winSize = s.winSize := rfl
@[simp] theorem modifyTimer_watched (s : State) (n : Nat) (f : Timer → Timer) : (s.modifyTimer n f).watched = s.watched := rfl
@[simp] theorem modifyTimer_answers (s : State) (n : Nat) (f : Timer → Timer) : (s.modifyTimer n f).answers = s.answers := rfl
@[simp] theorem modifyTimer_run (s : State) (n : Nat) (f : Timer → Timer) : (s.modifyTimer n f).run = s.run := rfl
@[simp] theorem modifyTimer_roster (s : State) (n : Nat) (f : Timer → Timer) : (s.modifyTimer n f).roster = s.roster := rfl
@[simp] theorem modifyTimer_routes (s : State) (n : Nat) (f : Timer → Timer) : (s.modifyTimer n f).routes = s.routes := rfl
@[simp] theorem modifyTimer_claims (s : State) (n : Nat) (f : Timer → Timer) : (s.modifyTimer n f).claims = s.claims := rfl
@[simp] theorem modifyTimer_tagCounter (s : State) (n : Nat) (f : Timer → Timer) : (s.modifyTimer n f).tagCounter = s.tagCounter := rfl
@[simp] theorem modifyTimer_steps (s : State) (n : Nat) (f : Timer → Timer) : (s.modifyTimer n f).steps = s.steps := rfl
@[simp] theorem modifyTimer_inbox (s : State) (n : Nat) (f : Timer → Timer) : (s.modifyTimer n f).inbox = s.inbox := rfl
@[simp] theorem modifyTimer_line (s : State) (n : Nat) (f : Timer → Timer) : (s.modifyTimer n f).line = s.line := rfl
@[simp] theorem modifyTimer_transmit (s : State) (n : Nat) (f : Timer → Timer) : (s.modifyTimer n f).transmit = s.transmit := rfl
@[simp] theorem modifyTimer_losses (s : State) (n : Nat) (f : Timer → Timer) : (s.modifyTimer n f).losses = s.losses := rfl
@[simp] theorem modifyTimer_hail (s : State) (n : Nat) (f : Timer → Timer) : (s.modifyTimer n f).hail = s.hail := rfl
@[simp] theorem modifyTimer_outstanding (s : State) (n : Nat) (f : Timer → Timer) : (s.modifyTimer n f).outstanding = s.outstanding := rfl
@[simp] theorem modifyTimer_lineOut (s : State) (n : Nat) (f : Timer → Timer) : (s.modifyTimer n f).lineOut = s.lineOut := rfl
@[simp] theorem modifyTimer_pads (s : State) (n : Nat) (f : Timer → Timer) : (s.modifyTimer n f).pads = s.pads := rfl
@[simp] theorem modifyTimer_gateStart (s : State) (n : Nat) (f : Timer → Timer) : (s.modifyTimer n f).gateStart = s.gateStart := rfl
@[simp] theorem modifyTimer_timers (s : State) (n : Nat) (f : Timer → Timer) : (s.modifyTimer n f).timers = modifyAt f n s.timers := rfl
@[simp] theorem modifyTimer_lastTick (s : State) (n : Nat) (f : Timer → Timer) : (s.modifyTimer n f).lastTick = s.lastTick := rfl
@[simp] theorem modifyTimer_lights (s : State) (n : Nat) (f : Timer → Timer) : (s.modifyTimer n f).lights = s.lights := rfl
@[simp] theorem modifyTimer_sessionPhase (s : State) (n : Nat) (f : Timer → Timer) : (s.modifyTimer n f).sessionPhase = s.sessionPhase := rfl
@[simp] theorem modifyTimer_tones (s : State) (n : Nat) (f : Timer → Timer) : (s.modifyTimer n f).tones = s.tones := rfl
@[simp] theorem modifyTimer_toneCount (s : State) (n : Nat) (f : Timer → Timer) : (s.modifyTimer n f).toneCount = s.toneCount := rfl
@[simp] theorem modifyTimer_toneStart (s : State) (n : Nat) (f : Timer → Timer) : (s.modifyTimer n f).toneStart = s.toneStart := rfl
@[simp] theorem modifyTimer_toneTable (s : State) (n : Nat) (f : Timer → Timer) : (s.modifyTimer n f).toneTable = s.toneTable := rfl
@[simp] theorem modifyTimer_digits (s : State) (n : Nat) (f : Timer → Timer) : (s.modifyTimer n f).digits = s.digits := rfl
@[simp] theorem modifyTimer_store (s : State) (n : Nat) (f : Timer → Timer) : (s.modifyTimer n f).store = s.store := rfl
@[simp] theorem modifyTimer_op (s : State) (n : Nat) (f : Timer → Timer) : (s.modifyTimer n f).op = s.op := rfl
@[simp] theorem modifyTimer_waiting (s : State) (n : Nat) (f : Timer → Timer) : (s.modifyTimer n f).waiting = s.waiting := rfl
@[simp] theorem modifyTimer_writer (s : State) (n : Nat) (f : Timer → Timer) : (s.modifyTimer n f).writer = s.writer := rfl
@[simp] theorem modifyTimer_loader (s : State) (n : Nat) (f : Timer → Timer) : (s.modifyTimer n f).loader = s.loader := rfl

@[simp] theorem modifyLoader_pending (s : State) (f : Loader → Loader) : (s.modifyLoader f).pending = s.pending := rfl
@[simp] theorem modifyLoader_now (s : State) (f : Loader → Loader) : (s.modifyLoader f).now = s.now := rfl
@[simp] theorem modifyLoader_powered (s : State) (f : Loader → Loader) : (s.modifyLoader f).powered = s.powered := rfl
@[simp] theorem modifyLoader_session (s : State) (f : Loader → Loader) : (s.modifyLoader f).session = s.session := rfl
@[simp] theorem modifyLoader_stage (s : State) (f : Loader → Loader) : (s.modifyLoader f).stage = s.stage := rfl
@[simp] theorem modifyLoader_epoch (s : State) (f : Loader → Loader) : (s.modifyLoader f).epoch = s.epoch := rfl
@[simp] theorem modifyLoader_serial (s : State) (f : Loader → Loader) : (s.modifyLoader f).serial = s.serial := rfl
@[simp] theorem modifyLoader_tile (s : State) (f : Loader → Loader) : (s.modifyLoader f).tile = s.tile := rfl
@[simp] theorem modifyLoader_listenAt (s : State) (f : Loader → Loader) : (s.modifyLoader f).listenAt = s.listenAt := rfl
@[simp] theorem modifyLoader_restOwed (s : State) (f : Loader → Loader) : (s.modifyLoader f).restOwed = s.restOwed := rfl
@[simp] theorem modifyLoader_droop (s : State) (f : Loader → Loader) : (s.modifyLoader f).droop = s.droop := rfl
@[simp] theorem modifyLoader_health (s : State) (f : Loader → Loader) : (s.modifyLoader f).health = s.health := rfl
@[simp] theorem modifyLoader_header (s : State) (f : Loader → Loader) : (s.modifyLoader f).header = s.header := rfl
@[simp] theorem modifyLoader_marks (s : State) (f : Loader → Loader) : (s.modifyLoader f).marks = s.marks := rfl
@[simp] theorem modifyLoader_winFirst (s : State) (f : Loader → Loader) : (s.modifyLoader f).winFirst = s.winFirst := rfl
@[simp] theorem modifyLoader_winSize (s : State) (f : Loader → Loader) : (s.modifyLoader f).winSize = s.winSize := rfl
@[simp] theorem modifyLoader_watched (s : State) (f : Loader → Loader) : (s.modifyLoader f).watched = s.watched := rfl
@[simp] theorem modifyLoader_answers (s : State) (f : Loader → Loader) : (s.modifyLoader f).answers = s.answers := rfl
@[simp] theorem modifyLoader_run (s : State) (f : Loader → Loader) : (s.modifyLoader f).run = s.run := rfl
@[simp] theorem modifyLoader_roster (s : State) (f : Loader → Loader) : (s.modifyLoader f).roster = s.roster := rfl
@[simp] theorem modifyLoader_routes (s : State) (f : Loader → Loader) : (s.modifyLoader f).routes = s.routes := rfl
@[simp] theorem modifyLoader_claims (s : State) (f : Loader → Loader) : (s.modifyLoader f).claims = s.claims := rfl
@[simp] theorem modifyLoader_tagCounter (s : State) (f : Loader → Loader) : (s.modifyLoader f).tagCounter = s.tagCounter := rfl
@[simp] theorem modifyLoader_steps (s : State) (f : Loader → Loader) : (s.modifyLoader f).steps = s.steps := rfl
@[simp] theorem modifyLoader_inbox (s : State) (f : Loader → Loader) : (s.modifyLoader f).inbox = s.inbox := rfl
@[simp] theorem modifyLoader_line (s : State) (f : Loader → Loader) : (s.modifyLoader f).line = s.line := rfl
@[simp] theorem modifyLoader_transmit (s : State) (f : Loader → Loader) : (s.modifyLoader f).transmit = s.transmit := rfl
@[simp] theorem modifyLoader_losses (s : State) (f : Loader → Loader) : (s.modifyLoader f).losses = s.losses := rfl
@[simp] theorem modifyLoader_hail (s : State) (f : Loader → Loader) : (s.modifyLoader f).hail = s.hail := rfl
@[simp] theorem modifyLoader_outstanding (s : State) (f : Loader → Loader) : (s.modifyLoader f).outstanding = s.outstanding := rfl
@[simp] theorem modifyLoader_lineOut (s : State) (f : Loader → Loader) : (s.modifyLoader f).lineOut = s.lineOut := rfl
@[simp] theorem modifyLoader_pads (s : State) (f : Loader → Loader) : (s.modifyLoader f).pads = s.pads := rfl
@[simp] theorem modifyLoader_gateStart (s : State) (f : Loader → Loader) : (s.modifyLoader f).gateStart = s.gateStart := rfl
@[simp] theorem modifyLoader_timers (s : State) (f : Loader → Loader) : (s.modifyLoader f).timers = s.timers := rfl
@[simp] theorem modifyLoader_lastTick (s : State) (f : Loader → Loader) : (s.modifyLoader f).lastTick = s.lastTick := rfl
@[simp] theorem modifyLoader_lights (s : State) (f : Loader → Loader) : (s.modifyLoader f).lights = s.lights := rfl
@[simp] theorem modifyLoader_sessionPhase (s : State) (f : Loader → Loader) : (s.modifyLoader f).sessionPhase = s.sessionPhase := rfl
@[simp] theorem modifyLoader_tones (s : State) (f : Loader → Loader) : (s.modifyLoader f).tones = s.tones := rfl
@[simp] theorem modifyLoader_toneCount (s : State) (f : Loader → Loader) : (s.modifyLoader f).toneCount = s.toneCount := rfl
@[simp] theorem modifyLoader_toneStart (s : State) (f : Loader → Loader) : (s.modifyLoader f).toneStart = s.toneStart := rfl
@[simp] theorem modifyLoader_toneTable (s : State) (f : Loader → Loader) : (s.modifyLoader f).toneTable = s.toneTable := rfl
@[simp] theorem modifyLoader_digits (s : State) (f : Loader → Loader) : (s.modifyLoader f).digits = s.digits := rfl
@[simp] theorem modifyLoader_store (s : State) (f : Loader → Loader) : (s.modifyLoader f).store = s.store := rfl
@[simp] theorem modifyLoader_op (s : State) (f : Loader → Loader) : (s.modifyLoader f).op = s.op := rfl
@[simp] theorem modifyLoader_waiting (s : State) (f : Loader → Loader) : (s.modifyLoader f).waiting = s.waiting := rfl
@[simp] theorem modifyLoader_writer (s : State) (f : Loader → Loader) : (s.modifyLoader f).writer = s.writer := rfl
@[simp] theorem modifyLoader_loader (s : State) (f : Loader → Loader) : (s.modifyLoader f).loader = f s.loader := rfl

@[simp] theorem silenceTones_pending (s : State) : s.silenceTones.pending = s.pending := rfl
@[simp] theorem silenceTones_now (s : State) : s.silenceTones.now = s.now := rfl
@[simp] theorem silenceTones_powered (s : State) : s.silenceTones.powered = s.powered := rfl
@[simp] theorem silenceTones_session (s : State) : s.silenceTones.session = s.session := rfl
@[simp] theorem silenceTones_stage (s : State) : s.silenceTones.stage = s.stage := rfl
@[simp] theorem silenceTones_epoch (s : State) : s.silenceTones.epoch = s.epoch := rfl
@[simp] theorem silenceTones_serial (s : State) : s.silenceTones.serial = s.serial := rfl
@[simp] theorem silenceTones_tile (s : State) : s.silenceTones.tile = s.tile := rfl
@[simp] theorem silenceTones_listenAt (s : State) : s.silenceTones.listenAt = s.listenAt := rfl
@[simp] theorem silenceTones_restOwed (s : State) : s.silenceTones.restOwed = s.restOwed := rfl
@[simp] theorem silenceTones_droop (s : State) : s.silenceTones.droop = s.droop := rfl
@[simp] theorem silenceTones_health (s : State) : s.silenceTones.health = s.health := rfl
@[simp] theorem silenceTones_header (s : State) : s.silenceTones.header = s.header := rfl
@[simp] theorem silenceTones_marks (s : State) : s.silenceTones.marks = s.marks := rfl
@[simp] theorem silenceTones_winFirst (s : State) : s.silenceTones.winFirst = s.winFirst := rfl
@[simp] theorem silenceTones_winSize (s : State) : s.silenceTones.winSize = s.winSize := rfl
@[simp] theorem silenceTones_watched (s : State) : s.silenceTones.watched = s.watched := rfl
@[simp] theorem silenceTones_answers (s : State) : s.silenceTones.answers = s.answers := rfl
@[simp] theorem silenceTones_run (s : State) : s.silenceTones.run = s.run := rfl
@[simp] theorem silenceTones_roster (s : State) : s.silenceTones.roster = s.roster := rfl
@[simp] theorem silenceTones_routes (s : State) : s.silenceTones.routes = s.routes := rfl
@[simp] theorem silenceTones_claims (s : State) : s.silenceTones.claims = s.claims := rfl
@[simp] theorem silenceTones_tagCounter (s : State) : s.silenceTones.tagCounter = s.tagCounter := rfl
@[simp] theorem silenceTones_steps (s : State) : s.silenceTones.steps = s.steps := rfl
@[simp] theorem silenceTones_inbox (s : State) : s.silenceTones.inbox = s.inbox := rfl
@[simp] theorem silenceTones_line (s : State) : s.silenceTones.line = s.line := rfl
@[simp] theorem silenceTones_transmit (s : State) : s.silenceTones.transmit = s.transmit := rfl
@[simp] theorem silenceTones_losses (s : State) : s.silenceTones.losses = s.losses := rfl
@[simp] theorem silenceTones_hail (s : State) : s.silenceTones.hail = s.hail := rfl
@[simp] theorem silenceTones_outstanding (s : State) : s.silenceTones.outstanding = s.outstanding := rfl
@[simp] theorem silenceTones_lineOut (s : State) : s.silenceTones.lineOut = s.lineOut := rfl
@[simp] theorem silenceTones_pads (s : State) : s.silenceTones.pads = s.pads := rfl
@[simp] theorem silenceTones_gateStart (s : State) : s.silenceTones.gateStart = s.gateStart := rfl
@[simp] theorem silenceTones_timers (s : State) : s.silenceTones.timers = s.timers := rfl
@[simp] theorem silenceTones_lastTick (s : State) : s.silenceTones.lastTick = s.lastTick := rfl
@[simp] theorem silenceTones_lights (s : State) : s.silenceTones.lights = s.lights := rfl
@[simp] theorem silenceTones_sessionPhase (s : State) : s.silenceTones.sessionPhase = s.sessionPhase := rfl
@[simp] theorem silenceTones_tones (s : State) : s.silenceTones.tones = [] := rfl
@[simp] theorem silenceTones_toneCount (s : State) : s.silenceTones.toneCount = 0 := rfl
@[simp] theorem silenceTones_toneStart (s : State) : s.silenceTones.toneStart = s.toneStart := rfl
@[simp] theorem silenceTones_toneTable (s : State) : s.silenceTones.toneTable = s.toneTable := rfl
@[simp] theorem silenceTones_digits (s : State) : s.silenceTones.digits = s.digits := rfl
@[simp] theorem silenceTones_store (s : State) : s.silenceTones.store = s.store := rfl
@[simp] theorem silenceTones_op (s : State) : s.silenceTones.op = s.op := rfl
@[simp] theorem silenceTones_waiting (s : State) : s.silenceTones.waiting = s.waiting := rfl
@[simp] theorem silenceTones_writer (s : State) : s.silenceTones.writer = s.writer := rfl
@[simp] theorem silenceTones_loader (s : State) : s.silenceTones.loader = s.loader := rfl

@[simp] theorem lineEnds_pending (s : State) : s.lineEnds.pending = s.pending := rfl
@[simp] theorem lineEnds_now (s : State) : s.lineEnds.now = s.now := rfl
@[simp] theorem lineEnds_powered (s : State) : s.lineEnds.powered = s.powered := rfl
@[simp] theorem lineEnds_session (s : State) : s.lineEnds.session = s.session := rfl
@[simp] theorem lineEnds_stage (s : State) : s.lineEnds.stage = s.stage := rfl
@[simp] theorem lineEnds_epoch (s : State) : s.lineEnds.epoch = s.epoch := rfl
@[simp] theorem lineEnds_serial (s : State) : s.lineEnds.serial = s.serial := rfl
@[simp] theorem lineEnds_tile (s : State) : s.lineEnds.tile = s.tile := rfl
@[simp] theorem lineEnds_listenAt (s : State) : s.lineEnds.listenAt = s.listenAt := rfl
@[simp] theorem lineEnds_restOwed (s : State) : s.lineEnds.restOwed = s.restOwed := rfl
@[simp] theorem lineEnds_droop (s : State) : s.lineEnds.droop = s.droop := rfl
@[simp] theorem lineEnds_health (s : State) : s.lineEnds.health = s.health := rfl
@[simp] theorem lineEnds_header (s : State) : s.lineEnds.header = s.header := rfl
@[simp] theorem lineEnds_marks (s : State) : s.lineEnds.marks = s.marks := rfl
@[simp] theorem lineEnds_winFirst (s : State) : s.lineEnds.winFirst = s.winFirst := rfl
@[simp] theorem lineEnds_winSize (s : State) : s.lineEnds.winSize = s.winSize := rfl
@[simp] theorem lineEnds_watched (s : State) : s.lineEnds.watched = s.watched := rfl
@[simp] theorem lineEnds_answers (s : State) : s.lineEnds.answers = s.answers := rfl
@[simp] theorem lineEnds_run (s : State) : s.lineEnds.run = s.run := rfl
@[simp] theorem lineEnds_roster (s : State) : s.lineEnds.roster = s.roster := rfl
@[simp] theorem lineEnds_routes (s : State) : s.lineEnds.routes = s.routes := rfl
@[simp] theorem lineEnds_claims (s : State) : s.lineEnds.claims = s.claims := rfl
@[simp] theorem lineEnds_tagCounter (s : State) : s.lineEnds.tagCounter = s.tagCounter := rfl
@[simp] theorem lineEnds_steps (s : State) : s.lineEnds.steps = s.steps := rfl
@[simp] theorem lineEnds_inbox (s : State) : s.lineEnds.inbox = s.inbox := rfl
@[simp] theorem lineEnds_line (s : State) : s.lineEnds.line = .quiet s.now := rfl
@[simp] theorem lineEnds_transmit (s : State) : s.lineEnds.transmit = s.transmit := rfl
@[simp] theorem lineEnds_losses (s : State) : s.lineEnds.losses = s.losses := rfl
@[simp] theorem lineEnds_hail (s : State) : s.lineEnds.hail = s.hail := rfl
@[simp] theorem lineEnds_outstanding (s : State) : s.lineEnds.outstanding = s.outstanding := rfl
@[simp] theorem lineEnds_lineOut (s : State) : s.lineEnds.lineOut = s.lineOut := rfl
@[simp] theorem lineEnds_pads (s : State) : s.lineEnds.pads = s.pads := rfl
@[simp] theorem lineEnds_gateStart (s : State) : s.lineEnds.gateStart = s.gateStart := rfl
@[simp] theorem lineEnds_timers (s : State) : s.lineEnds.timers = s.timers := rfl
@[simp] theorem lineEnds_lastTick (s : State) : s.lineEnds.lastTick = s.lastTick := rfl
@[simp] theorem lineEnds_lights (s : State) : s.lineEnds.lights = s.lights := rfl
@[simp] theorem lineEnds_sessionPhase (s : State) : s.lineEnds.sessionPhase = s.sessionPhase := rfl
@[simp] theorem lineEnds_tones (s : State) : s.lineEnds.tones = s.tones := rfl
@[simp] theorem lineEnds_toneCount (s : State) : s.lineEnds.toneCount = s.toneCount := rfl
@[simp] theorem lineEnds_toneStart (s : State) : s.lineEnds.toneStart = s.toneStart := rfl
@[simp] theorem lineEnds_toneTable (s : State) : s.lineEnds.toneTable = s.toneTable := rfl
@[simp] theorem lineEnds_digits (s : State) : s.lineEnds.digits = s.digits := rfl
@[simp] theorem lineEnds_store (s : State) : s.lineEnds.store = s.store := rfl
@[simp] theorem lineEnds_op (s : State) : s.lineEnds.op = s.op := rfl
@[simp] theorem lineEnds_waiting (s : State) : s.lineEnds.waiting = s.waiting := rfl
@[simp] theorem lineEnds_writer (s : State) : s.lineEnds.writer = s.writer := rfl
@[simp] theorem lineEnds_loader (s : State) : s.lineEnds.loader = s.loader := rfl

@[simp] theorem lineTaken_pending (s : State) : s.lineTaken.pending = s.pending := rfl
@[simp] theorem lineTaken_now (s : State) : s.lineTaken.now = s.now := rfl
@[simp] theorem lineTaken_powered (s : State) : s.lineTaken.powered = s.powered := rfl
@[simp] theorem lineTaken_session (s : State) : s.lineTaken.session = s.session := rfl
@[simp] theorem lineTaken_stage (s : State) : s.lineTaken.stage = s.stage := rfl
@[simp] theorem lineTaken_epoch (s : State) : s.lineTaken.epoch = s.epoch := rfl
@[simp] theorem lineTaken_serial (s : State) : s.lineTaken.serial = s.serial := rfl
@[simp] theorem lineTaken_tile (s : State) : s.lineTaken.tile = s.tile := rfl
@[simp] theorem lineTaken_listenAt (s : State) : s.lineTaken.listenAt = s.listenAt := rfl
@[simp] theorem lineTaken_restOwed (s : State) : s.lineTaken.restOwed = s.restOwed := rfl
@[simp] theorem lineTaken_droop (s : State) : s.lineTaken.droop = s.droop := rfl
@[simp] theorem lineTaken_health (s : State) : s.lineTaken.health = s.health := rfl
@[simp] theorem lineTaken_header (s : State) : s.lineTaken.header = s.header := rfl
@[simp] theorem lineTaken_marks (s : State) : s.lineTaken.marks = s.marks := rfl
@[simp] theorem lineTaken_winFirst (s : State) : s.lineTaken.winFirst = s.winFirst := rfl
@[simp] theorem lineTaken_winSize (s : State) : s.lineTaken.winSize = s.winSize := rfl
@[simp] theorem lineTaken_watched (s : State) : s.lineTaken.watched = s.watched := rfl
@[simp] theorem lineTaken_answers (s : State) : s.lineTaken.answers = s.answers := rfl
@[simp] theorem lineTaken_run (s : State) : s.lineTaken.run = s.run := rfl
@[simp] theorem lineTaken_roster (s : State) : s.lineTaken.roster = s.roster := rfl
@[simp] theorem lineTaken_routes (s : State) : s.lineTaken.routes = s.routes := rfl
@[simp] theorem lineTaken_claims (s : State) : s.lineTaken.claims = s.claims := rfl
@[simp] theorem lineTaken_tagCounter (s : State) : s.lineTaken.tagCounter = s.tagCounter := rfl
@[simp] theorem lineTaken_steps (s : State) : s.lineTaken.steps = s.steps := rfl
@[simp] theorem lineTaken_inbox (s : State) : s.lineTaken.inbox = s.inbox := rfl
@[simp] theorem lineTaken_line (s : State) : s.lineTaken.line = .busy := rfl
@[simp] theorem lineTaken_transmit (s : State) : s.lineTaken.transmit = s.transmit := rfl
@[simp] theorem lineTaken_losses (s : State) : s.lineTaken.losses = s.losses := rfl
@[simp] theorem lineTaken_hail (s : State) : s.lineTaken.hail = s.hail := rfl
@[simp] theorem lineTaken_outstanding (s : State) : s.lineTaken.outstanding = s.outstanding := rfl
@[simp] theorem lineTaken_lineOut (s : State) : s.lineTaken.lineOut = s.lineOut := rfl
@[simp] theorem lineTaken_pads (s : State) : s.lineTaken.pads = s.pads := rfl
@[simp] theorem lineTaken_gateStart (s : State) : s.lineTaken.gateStart = s.gateStart := rfl
@[simp] theorem lineTaken_timers (s : State) : s.lineTaken.timers = s.timers := rfl
@[simp] theorem lineTaken_lastTick (s : State) : s.lineTaken.lastTick = s.lastTick := rfl
@[simp] theorem lineTaken_lights (s : State) : s.lineTaken.lights = s.lights := rfl
@[simp] theorem lineTaken_sessionPhase (s : State) : s.lineTaken.sessionPhase = s.sessionPhase := rfl
@[simp] theorem lineTaken_tones (s : State) : s.lineTaken.tones = s.tones := rfl
@[simp] theorem lineTaken_toneCount (s : State) : s.lineTaken.toneCount = s.toneCount := rfl
@[simp] theorem lineTaken_toneStart (s : State) : s.lineTaken.toneStart = s.toneStart := rfl
@[simp] theorem lineTaken_toneTable (s : State) : s.lineTaken.toneTable = s.toneTable := rfl
@[simp] theorem lineTaken_digits (s : State) : s.lineTaken.digits = s.digits := rfl
@[simp] theorem lineTaken_store (s : State) : s.lineTaken.store = s.store := rfl
@[simp] theorem lineTaken_op (s : State) : s.lineTaken.op = s.op := rfl
@[simp] theorem lineTaken_waiting (s : State) : s.lineTaken.waiting = s.waiting := rfl
@[simp] theorem lineTaken_writer (s : State) : s.lineTaken.writer = s.writer := rfl
@[simp] theorem lineTaken_loader (s : State) : s.lineTaken.loader = s.loader := rfl

end Sys2Proof.Machine
end

