-- ==== Sys2Proof/Laws/Frames.lean ====
section
/-! SUPPORT. What each shared operation leaves alone, as an equation: the result is the state with some
fields replaced. `obtain` the new fields, rewrite, and the rest is read off by rfl. -/

namespace Sys2Proof.Machine

/-! ## Events -/

theorem raise_frame (s : State) (w : Happening) (d : Nat) :
    ∃ i ov lp, s.raise w d =
      { s with inbox := i, health := { s.health with overrun := ov, loop := lp } } := by
  unfold State.raise
  repeat' split
  all_goals exact ⟨_, _, _, rfl⟩

/-- An event of depth 8 or less that finds room in the engine queue joins it. -/
theorem raise_room (s : State) (w : Happening) (d : Nat) (h1 : s.session.inGame = true) (h2 : d ≤ 8)
    (h3 : s.engineQueue.length < 32) : s.raise w d = { s with inbox := s.inbox ++ [.event w d] } := by
  unfold State.raise
  rw [if_pos h1, if_neg (by simp only [Config.depthLimit]; omega),
    if_neg (by simp only [Config.engineRoom]; omega)]

/-- An event of depth 8 or less at a full engine queue sets OVERRUN. -/
theorem raise_full (s : State) (w : Happening) (d : Nat) (h1 : s.session.inGame = true) (h2 : d ≤ 8)
    (h3 : 32 ≤ s.engineQueue.length) : s.raise w d = s.setOverrun := by
  unfold State.raise
  rw [if_pos h1, if_neg (by simp only [Config.depthLimit]; omega),
    if_pos (by simp only [Config.engineRoom]; omega)]

theorem raiseMark_frame (s : State) (m d : Nat) :
    ∃ i ov lp, s.raiseMark m d =
      { s with inbox := i, health := { s.health with overrun := ov, loop := lp } } := by
  unfold State.raiseMark
  split
  · exact raise_frame s _ d
  · exact ⟨_, _, _, rfl⟩

/-- A mark that is not watched raises nothing. -/
theorem raiseMark_unwatched (s : State) (m d : Nat) (h : s.isWatched m = false) :
    s.raiseMark m d = s := by
  unfold State.raiseMark
  rw [h]
  rfl

/-- A watched mark's event joins the engine queue where it finds room. -/
theorem raiseMark_room (s : State) (m d : Nat) (h : s.isWatched m = true)
    (h1 : s.session.inGame = true) (h2 : d ≤ 8) (h3 : s.engineQueue.length < 32) :
    s.raiseMark m d = { s with inbox := s.inbox ++ [.event (.mark m) d] } := by
  unfold State.raiseMark
  rw [if_pos h, raise_room s _ d h1 h2 h3]

/-- Mark-change events at depth 0 change the engine queue and OVERRUN alone. -/
theorem raiseMarks_frame (s : State) (ms : List Nat) :
    ∃ i ov, s.raiseMarks ms = { s with inbox := i, health := { s.health with overrun := ov } } := by
  unfold State.raiseMarks
  induction ms generalizing s with
  | nil => exact ⟨_, _, rfl⟩
  | cons m ms ih =>
    have h : ∃ i ov, s.raiseMark m 0 =
        { s with inbox := i, health := { s.health with overrun := ov } } := by
      unfold State.raiseMark State.raise
      rw [if_neg (by decide : ¬ Config.depthLimit < 0)]
      repeat' split
      all_goals exact ⟨_, _, rfl⟩
    obtain ⟨i, ov, e⟩ := h
    rw [List.foldl_cons, e]
    obtain ⟨i', ov', e'⟩ := ih { s with inbox := i, health := { s.health with overrun := ov } }
    exact ⟨i', ov', e'⟩

/-- Mark-change events at depth 0, one by one in their order: those that find room join the engine queue, and with
one that finds none OVERRUN is set (R21, R62). -/
theorem raiseMarks_eq (s : State) (ms : List Nat) (h : s.session.inGame = true) :
    s.raiseMarks ms =
      { s with
        inbox := s.inbox ++
          (((ms.filter s.isWatched).map fun m => Arrival.event (.mark m) 0).take (32 - s.engineQueue.length))
        health := { s.health with
          overrun := s.health.overrun || decide (32 - s.engineQueue.length < (ms.filter s.isWatched).length) } } := by
  unfold State.raiseMarks
  induction ms generalizing s with
  | nil => simp
  | cons m ms ih =>
    rw [List.foldl_cons]
    by_cases hw : s.isWatched m = true
    · rw [List.filter_cons_of_pos hw]
      by_cases hq : s.engineQueue.length < 32
      · rw [raiseMark_room s m 0 hw h (by decide) hq, ih { s with inbox := s.inbox ++ [.event (.mark m) 0] } h]
        have hl : State.engineQueue { s with inbox := s.inbox ++ [.event (.mark m) 0] } =
            s.engineQueue ++ [.event (.mark m) 0] := by
          simp [State.engineQueue, List.filter_append, Arrival.isEvent]
        have hf : State.isWatched { s with inbox := s.inbox ++ [.event (.mark m) 0] } = s.isWatched := rfl
        rw [hl, hf]
        obtain ⟨k, hk⟩ : ∃ k, 32 - s.engineQueue.length = k + 1 := ⟨31 - s.engineQueue.length, by omega⟩
        have hk' : 32 - (s.engineQueue ++ [Arrival.event (.mark m) 0]).length = k := by
          rw [List.length_append, List.length_singleton]; omega
        rw [hk, hk', List.map_cons, List.take_succ_cons, List.append_assoc, List.singleton_append,
          List.length_cons]
        simp
      · have hf : s.raiseMark m 0 = s.setOverrun := by
          unfold State.raiseMark; rw [if_pos hw, raise_full s _ 0 h (by decide) (by omega)]
        rw [hf, ih s.setOverrun h]
        have hl : State.engineQueue s.setOverrun = s.engineQueue := rfl
        have hz : 32 - s.engineQueue.length = 0 := by omega
        have hw' : State.isWatched s.setOverrun = s.isWatched := rfl
        rw [hl, hz, hw']
        simp [State.setOverrun]
    · rw [List.filter_cons_of_neg hw]
      have hf : s.raiseMark m 0 = s := raiseMark_unwatched s m 0 (by simpa using hw)
      rw [hf, ih _ h]

/-! ## Claim entries -/

theorem dropClaimFrame_frame (s : State) (e : ClaimEntry) :
    ∃ q, s.dropClaimFrame e = { s with transmit := q } := by
  unfold State.dropClaimFrame
  repeat' split
  all_goals exact ⟨_, rfl⟩

theorem endEntry_frame (s : State) (e : ClaimEntry) (o : ClaimOutcome) :
    ∃ c i q, s.endEntry e o = { s with claims := c, inbox := i, transmit := q } := by
  unfold State.endEntry
  split
  · obtain ⟨q, h⟩ := dropClaimFrame_frame s e
    rw [h]
    exact ⟨_, _, _, rfl⟩
  · exact ⟨_, _, _, rfl⟩

theorem endEntries_frame (s : State) (f : ClaimEntry → Bool) :
    ∃ c i q, s.endEntries f = { s with claims := c, inbox := i, transmit := q } := by
  unfold State.endEntries
  generalize s.claims.filter f = l
  induction l generalizing s with
  | nil => exact ⟨_, _, _, rfl⟩
  | cons e l ih =>
    obtain ⟨c, i, q, h⟩ := endEntry_frame s e .noAnswer
    rw [List.foldl_cons, h]
    obtain ⟨c', i', q', h'⟩ := ih { s with claims := c, inbox := i, transmit := q }
    exact ⟨c', i', q', h'⟩

/-- The claims an ending of one entry leaves. -/
theorem endEntry_claims (s : State) (e : ClaimEntry) (o : ClaimOutcome) :
    (s.endEntry e o).claims =
      if e ∈ s.claims then s.claims.filter fun x => x.tag != e.tag else s.claims := by
  unfold State.endEntry
  by_cases h : e ∈ s.claims
  · rw [if_pos (List.contains_iff_mem.mpr h), if_pos h]
    simp only [dropClaimFrame_claims]
  · rw [if_neg (fun k => h (List.contains_iff_mem.mp k)), if_neg h]

/-- The entries a run of endings leaves: none whose tag is one of theirs. -/
theorem foldEnd_claims (l : List ClaimEntry) (s : State) (x : ClaimEntry) :
    x ∈ (l.foldl (fun s e => s.endEntry e .noAnswer) s).claims → x ∈ s.claims ∧ x ∉ l := by
  induction l generalizing s with
  | nil => exact fun h => ⟨h, List.not_mem_nil⟩
  | cons e l ih =>
    intro h
    obtain ⟨h1, h2⟩ := ih (s.endEntry e .noAnswer) h
    rw [endEntry_claims] at h1
    by_cases k : e ∈ s.claims
    · rw [if_pos k, List.mem_filter] at h1
      refine ⟨h1.1, fun hm => ?_⟩
      rcases List.mem_cons.mp hm with hm | hm
      · subst hm; simp at h1
      · exact h2 hm
    · rw [if_neg k] at h1
      refine ⟨h1, fun hm => ?_⟩
      rcases List.mem_cons.mp hm with hm | hm
      · exact k (hm ▸ h1)
      · exact h2 hm

/-- Under distinct tags a run of endings leaves every entry it does not name. -/
theorem foldEnd_claims_keep (l : List ClaimEntry) (s : State) (x : ClaimEntry)
    (h : (s.claims.map (·.tag)).Nodup) (hx : x ∈ s.claims) (hl : x ∉ l) :
    x ∈ (l.foldl (fun s e => s.endEntry e .noAnswer) s).claims := by
  induction l generalizing s with
  | nil => exact hx
  | cons e l ih =>
    rw [List.mem_cons, not_or] at hl
    refine ih (s.endEntry e .noAnswer) ?_ ?_ hl.2
    · rw [endEntry_claims]
      split
      · exact List.Nodup.sublist (List.Sublist.map _ (List.filter_sublist)) h
      · exact h
    · rw [endEntry_claims]
      split
      · next k =>
        rw [List.mem_filter]
        refine ⟨hx, ?_⟩
        simp only [bne_iff_ne, ne_eq]
        intro ht
        exact hl.1 (List.inj_on_of_nodup_map h hx k ht)
      · exact hx

theorem endEntries_claims (s : State) (f : ClaimEntry → Bool) (x : ClaimEntry)
    (h : x ∈ (s.endEntries f).claims) : x ∈ s.claims ∧ f x = false := by
  obtain ⟨h1, h2⟩ := foldEnd_claims _ s x h
  refine ⟨h1, ?_⟩
  cases hf : f x
  · rfl
  · exact absurd (List.mem_filter.mpr ⟨h1, hf⟩) h2

theorem endEntries_claims_keep (s : State) (f : ClaimEntry → Bool) (x : ClaimEntry) (h : s.tagsOk)
    (hx : x ∈ s.claims) (hf : f x = false) : x ∈ (s.endEntries f).claims :=
  foldEnd_claims_keep _ s x h hx fun k => by
    have := (List.mem_filter.mp k).2
    rw [hf] at this
    exact absurd this (by decide)

/-- Entries with distinct tags ended one after the other (R47). -/
theorem foldEnd_eq (l : List ClaimEntry) (s : State) (hl : (l.map (·.tag)).Nodup)
    (hs : ∀ e ∈ l, e ∈ s.claims) (hn : s.tagsOk) :
    l.foldl (fun s e => s.endEntry e .noAnswer) s =
      { s with
        claims := s.claims.filter fun c => !l.any fun e => e.tag == c.tag
        inbox := s.inbox ++ l.map fun e => .answer e.step e.tag .noAnswer
        transmit := s.transmit.filter fun q =>
          !l.any fun e => q.isClaim e.tag && e.phase == .queued && !s.claimOutstanding e.tag } := by
  induction l generalizing s with
  | nil =>
    simp
  | cons e l ih =>
    rw [List.foldl_cons]
    have he := hs e List.mem_cons_self
    rw [List.map_cons, List.nodup_cons] at hl
    have h1 : s.endEntry e .noAnswer = { s with
        claims := s.claims.filter fun c => c.tag != e.tag
        inbox := s.inbox ++ [.answer e.step e.tag .noAnswer]
        transmit := s.transmit.filter fun q =>
          !(q.isClaim e.tag && e.phase == .queued && !s.claimOutstanding e.tag) } := by
      unfold State.endEntry
      rw [if_pos (List.contains_iff_mem.mpr he)]
      unfold State.dropClaimFrame
      cases hp : e.phase with
      | sent d =>
        have : (Phase.sent d == Phase.queued) = false := rfl
        simp [this]
      | queued =>
        simp only [beq_self_eq_true, Bool.and_true]
        cases ho : s.claimOutstanding e.tag <;> simp
    rw [h1, ih _ hl.2]
    · simp only [State.claimOutstanding, List.filter_filter, List.any_cons, List.append_assoc,
        List.singleton_append, List.map_cons]
      congr 1
      · apply List.filter_congr; intro c _
        rw [Bool.not_or, show (e.tag == c.tag) = (c.tag == e.tag) from Bool.beq_comm, Bool.and_comm]; rfl
      · apply List.filter_congr; intro q _
        rw [Bool.not_or, Bool.and_comm]
    · intro x hx
      rw [List.mem_filter]
      refine ⟨hs x (List.mem_cons_of_mem _ hx), ?_⟩
      simp only [bne_iff_ne, ne_eq]
      intro ht
      exact hl.1 (ht ▸ List.mem_map_of_mem hx)
    · exact List.Nodup.sublist (List.Sublist.map _ List.filter_sublist) hn

/-- The claim entries that `lost` picks end NO_ANSWER, in order of issue (R46, R47). -/
theorem endEntries_eq (s : State) (lost : ClaimEntry → Bool) (h : s.tagsOk) :
    s.endEntries lost =
      { s with
        claims := s.claims.filter fun c => !lost c
        inbox := s.inbox ++ (s.claims.filter lost).map fun e => .answer e.step e.tag .noAnswer
        transmit := s.transmit.filter fun q =>
          !s.claims.any fun e => lost e && q.isClaim e.tag && e.phase == .queued && !s.claimOutstanding e.tag } := by
  unfold State.endEntries
  rw [foldEnd_eq _ s (List.Nodup.sublist (List.Sublist.map _ List.filter_sublist) h)
    (fun e he => (List.mem_filter.mp he).1) h]
  congr 1
  · apply List.filter_congr; intro c hc
    congr 1
    rw [List.any_filter, Bool.eq_iff_iff, List.any_eq_true]
    constructor
    · rintro ⟨e, he, ht⟩
      rw [Bool.and_eq_true, beq_iff_eq] at ht
      rw [← List.inj_on_of_nodup_map h he hc ht.2]; exact ht.1
    · intro hx
      exact ⟨c, hc, by simp [hx]⟩
  · apply List.filter_congr; intro q _
    rw [List.any_filter]
    simp only [Bool.and_assoc]
/-! ## Routing -/

/-- The routes that R15 gives, and the replicas after them. -/
def State.rerouted (s : State) (created : Option Nat) : State :=
  { s with
    routes := s.computeRoutes
    marks := mapFrom (rerouteEntry s.routes s.computeRoutes created) 0 s.marks }

theorem recompute_eq (s : State) (created : Option Nat) :
    s.recompute created =
      ((s.rerouted created).raiseMarks (changedStates s.marks (s.rerouted created).marks)).endEntries
        ((s.rerouted created).raiseMarks
          (changedStates s.marks (s.rerouted created).marks)).ownerLost := rfl

theorem recompute_frame (s : State) (created : Option Nat) :
    ∃ i ov c q, s.recompute created =
      { s.rerouted created with inbox := i, health := { s.health with overrun := ov }, claims := c,
                                transmit := q } := by
  rw [recompute_eq]
  obtain ⟨i, ov, e⟩ := raiseMarks_frame (s.rerouted created)
    (changedStates s.marks (s.rerouted created).marks)
  rw [e, show (s.rerouted created).health = s.health from rfl]
  generalize s.rerouted created = t
  obtain ⟨c, i', q, e'⟩ := endEntries_frame { t with inbox := i, health := { s.health with overrun := ov } }
    (State.ownerLost { t with inbox := i, health := { s.health with overrun := ov } })
  exact ⟨i', ov, c, q, e'⟩

/-- The claim entries a recomputation leaves are those still routed to their owner. -/
theorem recompute_claims (s : State) (created : Option Nat) (x : ClaimEntry) :
    (x ∈ (s.recompute created).claims →
      x ∈ s.claims ∧ (s.rerouted created).route x.mark = .peer x.owner) ∧
    (s.tagsOk → x ∈ s.claims → (s.rerouted created).route x.mark = .peer x.owner →
      x ∈ (s.recompute created).claims) := by
  rw [recompute_eq]
  have hc : (s.rerouted created).claims = s.claims := rfl
  have ht' : s.tagsOk → (s.rerouted created).tagsOk := id
  rw [← hc]
  obtain ⟨i, h, e⟩ := raiseMarks_frame (s.rerouted created)
    (changedStates s.marks (s.rerouted created).marks)
  rw [e]
  generalize s.rerouted created = t at *
  constructor
  · intro k
    obtain ⟨k1, k2⟩ := endEntries_claims _ _ x k
    exact ⟨k1, by simpa [State.ownerLost, State.route] using k2⟩
  · intro ht hx hr
    exact endEntries_claims_keep _ _ x (ht' ht) hx (by simpa [State.ownerLost, State.route] using hr)

/-- Every entry of the routing table is the one R15 gives. -/
theorem recompute_routesOk (s : State) (created : Option Nat) : (s.recompute created).routesOk := by
  obtain ⟨i, h, c, q, e⟩ := recompute_frame s created
  rw [e]
  intro m hm
  simp only [State.rerouted, State.route, State.computeRoutes, List.getD_eq_getElem?_getD,
    List.getElem?_map, List.getElem?_range hm, Option.map_some, Option.getD_some]
  rfl

/-! ## Queues -/

theorem offer_frame (s : State) (q : Queued) :
    ∃ t ov, s.offer q = { s with transmit := t, health := { s.health with overrun := ov } } := by
  unfold State.offer
  split
  all_goals exact ⟨_, _, rfl⟩

theorem offerAsk_frame (s : State) (p : Peer) :
    ∃ t ov, s.offerAsk p = { s with transmit := t, health := { s.health with overrun := ov } } := by
  unfold State.offerAsk
  repeat' split
  · exact ⟨_, _, rfl⟩
  · exact offer_frame s _
  · exact ⟨_, _, rfl⟩

theorem offerAsks_frame (s : State) :
    ∃ t ov, s.offerAsks = { s with transmit := t, health := { s.health with overrun := ov } } := by
  unfold State.offerAsks
  generalize s.roster.filter (·.present) = l
  induction l generalizing s with
  | nil => exact ⟨_, _, rfl⟩
  | cons p l ih =>
    obtain ⟨t, ov, e⟩ := offerAsk_frame s p
    rw [List.foldl_cons, e]
    obtain ⟨t', ov', e'⟩ :=
      ih { s with transmit := t, health := { s.health with overrun := ov } }
    exact ⟨t', ov', e'⟩

/-- ASKs offered one after the other to peers that have none queued: those that own a watched mark, as many as find
room (R91, R92). -/
theorem foldAsks_eq (l : List Peer) (u : State) (hl : u.transmit.length ≤ 8) (hn : (l.map Peer.tile).Nodup)
    (hq : ∀ p ∈ l, .ask p.tile ∉ u.transmit) :
    l.foldl (fun s p => s.offerAsk p) u =
      { u with
        transmit := u.transmit ++
          ((l.filter u.watchesIn).map fun p => Queued.ask p.tile).take (8 - u.transmit.length)
        health := { u.health with
          overrun := u.health.overrun ||
            decide (8 - u.transmit.length < (l.filter u.watchesIn).length) } } := by
  induction l generalizing u with
  | nil => simp
  | cons p l ih =>
    rw [List.foldl_cons]
    rw [List.map_cons, List.nodup_cons] at hn
    by_cases hw : u.watchesIn p = true
    · rw [List.filter_cons_of_pos hw]
      have hnq : ¬ u.askQueued p.tile = true := by
        unfold State.askQueued; simp only [List.any_eq_true, beq_iff_eq]
        rintro ⟨q, h1, h2⟩; exact hq p List.mem_cons_self (h2 ▸ h1)
      by_cases h8 : u.transmit.length < 8
      · have e : u.offerAsk p = { u with transmit := u.transmit ++ [.ask p.tile] } := by
          unfold State.offerAsk State.offer
          rw [if_pos hw, if_neg hnq]; exact if_pos h8
        rw [e, ih { u with transmit := u.transmit ++ [.ask p.tile] } (by simp; omega) hn.2]
        · have hww : State.watchesIn { u with transmit := u.transmit ++ [.ask p.tile] } = u.watchesIn := rfl
          rw [hww]
          obtain ⟨k, hk⟩ : ∃ k, 8 - u.transmit.length = k + 1 := ⟨7 - u.transmit.length, by omega⟩
          have hk' : 8 - (u.transmit ++ [Queued.ask p.tile]).length = k := by simp; omega
          rw [hk, hk']
          simp
        · intro q hqm hmem
          rcases List.mem_append.mp hmem with h | h
          · exact hq q (List.mem_cons_of_mem _ hqm) h
          · simp at h; exact hn.1 (h ▸ List.mem_map_of_mem hqm)
      · have e : u.offerAsk p = u.setOverrun := by
          unfold State.offerAsk State.offer
          rw [if_pos hw, if_neg hnq]; exact if_neg h8
        rw [e, ih u.setOverrun hl hn.2 (fun q h => hq q (List.mem_cons_of_mem _ h))]
        have hww : State.watchesIn u.setOverrun = u.watchesIn := rfl
        have h0 : 8 - u.transmit.length = 0 := by omega
        rw [hww]
        simp [State.setOverrun, h0]
    · rw [List.filter_cons_of_neg hw]
      have e : u.offerAsk p = u := by unfold State.offerAsk; rw [if_neg hw]
      rw [e, ih u hl hn.2 (fun q h => hq q (List.mem_cons_of_mem _ h))]

/-! ## The choice on an idle line (R99, R117) -/

/-- On a line that is not idle nothing is chosen. -/
theorem onLine_busy {s : State} (h : s.line ≠ .idle) : s.onLine = s := by
  unfold State.onLine State.maySend
  rw [if_neg (by simp [h])]

/-- With a frame outstanding none is chosen. -/
theorem onLine_outstanding {s : State} (h : s.outstanding ≠ none) : s.onLine = s := by
  unfold State.onLine State.maySend
  rw [if_neg (by cases ho : s.outstanding <;> simp [ho] at h ⊢)]

/-- From droop onward none is chosen (R121). -/
theorem onLine_droop {s : State} (h : s.droop = true) : s.onLine = s := by
  unfold State.onLine State.maySend
  rw [if_neg (by simp [h])]

/-- With no source that has a frame to give none is chosen. -/
theorem onLine_none {s : State} (h : s.select = none) : s.onLine = s := by
  unfold State.onLine
  rw [h]
  exact ite_self s

/-- The frame chosen on an idle line is contended with. -/
theorem onLine_some {s : State} {c : Choice} (h1 : s.line = .idle) (h2 : s.outstanding = none)
    (h3 : s.droop = false) (h : s.select = some c) : s.onLine = s.contend c := by
  unfold State.onLine State.maySend
  rw [h1, h2, h3, h]
  rfl

theorem contend_frame (s : State) (c : Choice) :
    ∃ ms, s.contend c = { s with
      marks := ms
      outstanding := some ⟨c.frame, s.keyFor c.frame, c.source, false, true⟩
      lineOut := preamble ++ keySymbols (s.keyFor c.frame)
      line := .busy } := by
  unfold State.contend
  simp only
  split
  all_goals exact ⟨_, rfl⟩

theorem onLine_frame (s : State) :
    ∃ ms o l x, s.onLine = { s with marks := ms, outstanding := o, lineOut := l, line := x } := by
  unfold State.onLine
  split
  · split
    · rename_i c _
      obtain ⟨ms, e⟩ := contend_frame s c
      rw [e]
      exact ⟨_, _, _, _, rfl⟩
    · exact ⟨_, _, _, _, rfl⟩
  · exact ⟨_, _, _, _, rfl⟩

/-! ## The writer, the store and the frame outstanding -/

theorem notePending_frame (s : State) (b : Bool) :
    s.notePending b = { s with writer := { s.writer with
      oldestPending := if b = true then s.writer.oldestPending
        else if s.anyPending = true then some s.now else s.writer.oldestPending } } := by
  unfold State.notePending
  cases b
  · cases s.anyPending <;> rfl
  · rfl

theorem orphan_frame (s : State) (f : Source → Bool) :
    ∃ o, s.orphan f = { s with outstanding := o } := by
  unfold State.orphan
  repeat' split
  all_goals exact ⟨_, rfl⟩

/-- The frame outstanding, its source no longer holding it where `f` picks that source (R118). -/
theorem orphan_eq (s : State) (f : Source → Bool) :
    s.orphan f =
      { s with
        outstanding := s.outstanding.map fun o => if f o.source = true then { o with live := false } else o } := by
  unfold State.orphan
  cases h : s.outstanding with
  | none => cases s; simp_all
  | some o =>
    simp only [Option.map_some]
    split
    · rfl
    · cases s; simp_all

theorem stopGrant_frame (s : State) :
    ∃ o l x, s.stopGrant = { s with outstanding := o, lineOut := l, line := x } := by
  unfold State.stopGrant
  repeat' split
  all_goals exact ⟨_, _, _, rfl⟩

theorem request_frame (s : State) (op : StoreOp) (p : Purpose) :
    ∃ o w a, s.request op p = { s with op := o, waiting := w, store := { s.store with attempted := a } } := by
  unfold State.request
  split
  · cases op <;> exact ⟨_, _, _, rfl⟩
  · exact ⟨_, _, _, rfl⟩

/-- A program asked for with the store free and the supply up is in progress, its slot attempted (R155, R157). -/
theorem request_free {s : State} (h : s.op = none) (hd : s.droop = false) (b slot : Nat) (d : List Byte)
    (p : Purpose) :
    s.request (.program b slot d) p =
      { s with
        op := some ⟨.program b slot d, p, 0⟩
        store := { s.store with
          attempted := s.store.attempted.set b (max (s.store.attempted.getD b 0) (slot + 1)) } } := by
  unfold State.request
  rw [if_pos ⟨h, hd⟩]
  rfl

theorem startRun_frame (s : State) : ∃ r, s.startRun = { s with run := r } := by
  unfold State.startRun
  repeat' split
  all_goals exact ⟨_, rfl⟩

theorem emptyRun_frame (s : State) :
    ∃ o, s.emptyRun =
      { s with run := { s.run with running := false, restart := false }, outstanding := o } := by
  unfold State.emptyRun
  obtain ⟨o, e⟩ := orphan_frame { s with run := { s.run with running := false, restart := false } }
    Source.isSnapshot
  exact ⟨o, e⟩

theorem abandonBuilding_frame (s : State) :
    ∃ c, s.abandonBuilding = { s with writer := { s.writer with census := c } } := by
  unfold State.abandonBuilding
  split
  all_goals exact ⟨_, rfl⟩

theorem takeWithdrawWait_frame (s : State) :
    ∃ w, s.takeWithdrawWait = { s with writer := w } := by
  unfold State.takeWithdrawWait State.writerWithdraw
  split
  · obtain ⟨c, e⟩ := abandonBuilding_frame s
    simp only [e]
    exact ⟨_, rfl⟩
  · exact ⟨_, rfl⟩

theorem takeNewGameWait_frame (s : State) :
    ∃ w ms, s.takeNewGameWait = { s with writer := w, marks := ms } := by
  unfold State.takeNewGameWait State.writerNewGame State.clearCaptured
  split
  · obtain ⟨c, e⟩ := abandonBuilding_frame s
    simp only [e]
    exact ⟨_, _, rfl⟩
  · exact ⟨_, _, rfl⟩

theorem takeWaits_frame (s : State) : ∃ w ms, s.takeWaits = { s with writer := w, marks := ms } := by
  unfold State.takeWaits
  split
  · obtain ⟨w, ms, e⟩ := takeNewGameWait_frame s
    rw [e]
    obtain ⟨w', e'⟩ := takeWithdrawWait_frame { s with writer := w, marks := ms }
    exact ⟨w', ms, e'⟩
  · exact ⟨_, _, rfl⟩

end Sys2Proof.Machine
end

