-- ==== Sys2Proof/Laws/PerInstr.lean ====
section
/-! SUPPORT. The family Timed: a command's time is one operand of it, on which nothing else of the command
rests. One lemma per constructor. -/

namespace Sys2Proof.Laws

/-- The time of a command may be changed alone: the changed command has that time, the time changed to
what it was gives the command back, and well-formedness is as before. -/
def Timed.Statement (i : Instr) : Prop :=
  ∀ d, (i.withElapsed d).elapsed = d ∧ (i.withElapsed d).withElapsed i.elapsed = i ∧
    (i.withElapsed d).wf = i.wf

theorem Timed.powerUp (dt : Nat) (run : StartRun) : Timed.Statement (.powerUp dt run) := fun _ => ⟨rfl, rfl, rfl⟩

theorem Timed.droop (dt : Nat) (result : OpResult) : Timed.Statement (.droop dt result) := fun _ => ⟨rfl, rfl, rfl⟩

theorem Timed.droopClears (dt : Nat) (run : StartRun) : Timed.Statement (.droopClears dt run) := fun _ => ⟨rfl, rfl, rfl⟩

theorem Timed.duplicateKey (dt : Nat) (key : List UniBeat) : Timed.Statement (.duplicateKey dt key) := fun _ => ⟨rfl, rfl, rfl⟩

theorem Timed.faultyFrame (dt : Nat) (rx : Reception) : Timed.Statement (.faultyFrame dt rx) := fun _ => ⟨rfl, rfl, rfl⟩

theorem Timed.hail (dt : Nat) (rx : Reception) : Timed.Statement (.hail dt rx) := fun _ => ⟨rfl, rfl, rfl⟩

theorem Timed.update (dt : Nat) (rx : Reception) : Timed.Statement (.update dt rx) := fun _ => ⟨rfl, rfl, rfl⟩

theorem Timed.snapshot (dt : Nat) (rx : Reception) : Timed.Statement (.snapshot dt rx) := fun _ => ⟨rfl, rfl, rfl⟩

theorem Timed.claim (dt : Nat) (rx : Reception) : Timed.Statement (.claim dt rx) := fun _ => ⟨rfl, rfl, rfl⟩

theorem Timed.grant (dt : Nat) (rx : Reception) : Timed.Statement (.grant dt rx) := fun _ => ⟨rfl, rfl, rfl⟩

theorem Timed.refuse (dt : Nat) (rx : Reception) : Timed.Statement (.refuse dt rx) := fun _ => ⟨rfl, rfl, rfl⟩

theorem Timed.cue (dt : Nat) (rx : Reception) : Timed.Statement (.cue dt rx) := fun _ => ⟨rfl, rfl, rfl⟩

theorem Timed.ask (dt : Nat) (rx : Reception) : Timed.Statement (.ask dt rx) := fun _ => ⟨rfl, rfl, rfl⟩

theorem Timed.newGame (dt : Nat) (rx : Reception) : Timed.Statement (.newGame dt rx) := fun _ => ⟨rfl, rfl, rfl⟩

theorem Timed.rest (dt : Nat) (rx : Reception) : Timed.Statement (.rest dt rx) := fun _ => ⟨rfl, rfl, rfl⟩

theorem Timed.wake (dt : Nat) (rx : Reception) : Timed.Statement (.wake dt rx) := fun _ => ⟨rfl, rfl, rfl⟩

theorem Timed.loadOpen (dt : Nat) (rx : Reception) : Timed.Statement (.loadOpen dt rx) := fun _ => ⟨rfl, rfl, rfl⟩

theorem Timed.loadPart (dt : Nat) (rx : Reception) : Timed.Statement (.loadPart dt rx) := fun _ => ⟨rfl, rfl, rfl⟩

theorem Timed.seal (dt : Nat) (rx : Reception) : Timed.Statement (.seal dt rx) := fun _ => ⟨rfl, rfl, rfl⟩

theorem Timed.sealCheck (dt : Nat) : Timed.Statement (.sealCheck dt) := fun _ => ⟨rfl, rfl, rfl⟩

theorem Timed.gap (dt : Nat) : Timed.Statement (.gap dt) := fun _ => ⟨rfl, rfl, rfl⟩

theorem Timed.contentionLost (dt : Nat) (seen : Option (List Symbol)) : Timed.Statement (.contentionLost dt seen) := by
  intro d
  cases seen <;> exact ⟨rfl, rfl, rfl⟩

theorem Timed.frameSent (dt : Nat) (run : StartRun) : Timed.Statement (.frameSent dt run) := fun _ => ⟨rfl, rfl, rfl⟩

theorem Timed.silenceDeadline (dt : Nat) (peer : Nat) : Timed.Statement (.silenceDeadline dt peer) := fun _ => ⟨rfl, rfl, rfl⟩

theorem Timed.removalDeadline (dt : Nat) (peer : Nat) : Timed.Statement (.removalDeadline dt peer) := fun _ => ⟨rfl, rfl, rfl⟩

theorem Timed.claimDeadline (dt : Nat) (tag : Byte) : Timed.Statement (.claimDeadline dt tag) := fun _ => ⟨rfl, rfl, rfl⟩

theorem Timed.listeningDeadline (dt : Nat) : Timed.Statement (.listeningDeadline dt) := fun _ => ⟨rfl, rfl, rfl⟩

theorem Timed.loadingTimeout (dt : Nat) : Timed.Statement (.loadingTimeout dt) := fun _ => ⟨rfl, rfl, rfl⟩

theorem Timed.hailDue (dt : Nat) : Timed.Statement (.hailDue dt) := fun _ => ⟨rfl, rfl, rfl⟩

theorem Timed.gateEnd (dt : Nat) (counts : List Nat) : Timed.Statement (.gateEnd dt counts) := fun _ => ⟨rfl, rfl, rfl⟩

theorem Timed.baseTick (dt : Nat) : Timed.Statement (.baseTick dt) := fun _ => ⟨rfl, rfl, rfl⟩

theorem Timed.timerExpiry (dt : Nat) (timer : Nat) : Timed.Statement (.timerExpiry dt timer) := fun _ => ⟨rfl, rfl, rfl⟩

theorem Timed.toneEnd (dt : Nat) : Timed.Statement (.toneEnd dt) := fun _ => ⟨rfl, rfl, rfl⟩

theorem Timed.engineEventTaken (dt : Nat) : Timed.Statement (.engineEventTaken dt) := fun _ => ⟨rfl, rfl, rfl⟩

theorem Timed.answerEventTaken (dt : Nat) : Timed.Statement (.answerEventTaken dt) := fun _ => ⟨rfl, rfl, rfl⟩

theorem Timed.storeReadEnd (dt : Nat) : Timed.Statement (.storeReadEnd dt) := fun _ => ⟨rfl, rfl, rfl⟩

theorem Timed.storeProgramEnd (dt : Nat) (result : OpResult) : Timed.Statement (.storeProgramEnd dt result) := fun _ => ⟨rfl, rfl, rfl⟩

theorem Timed.storeEraseEnd (dt : Nat) (result : OpResult) : Timed.Statement (.storeEraseEnd dt result) := fun _ => ⟨rfl, rfl, rfl⟩

theorem Timed.batchStart (dt : Nat) : Timed.Statement (.batchStart dt) := fun _ => ⟨rfl, rfl, rfl⟩

theorem Timed.labelBlock (dt : Nat) : Timed.Statement (.labelBlock dt) := fun _ => ⟨rfl, rfl, rfl⟩

theorem Timed.compactionStart (dt : Nat) : Timed.Statement (.compactionStart dt) := fun _ => ⟨rfl, rfl, rfl⟩

theorem Timed.snapshotSlot (dt : Nat) : Timed.Statement (.snapshotSlot dt) := fun _ => ⟨rfl, rfl, rfl⟩

theorem Timed.newGameSlot (dt : Nat) : Timed.Statement (.newGameSlot dt) := fun _ => ⟨rfl, rfl, rfl⟩

theorem Timed.eraseObsolete (dt : Nat) : Timed.Statement (.eraseObsolete dt) := fun _ => ⟨rfl, rfl, rfl⟩

theorem Timed.contentionWon (dt : Nat) (seen : List Symbol) : Timed.Statement (.contentionWon dt seen) := fun _ => ⟨rfl, rfl, rfl⟩

theorem Timed.powerLoss (dt : Nat) (result : OpResult) : Timed.Statement (.powerLoss dt result) := fun _ => ⟨rfl, rfl, rfl⟩

end Sys2Proof.Laws
end

