-- ==== Sys2Proof/Laws/Rows.lean ====
section
/-! SUPPORT. What each row of the table answers in a part with power: one equation per row, by which a proof
leaves the dispatcher behind; and what every row keeps. -/

namespace Sys2Proof.Machine

theorem after_on {s : State} (h : s.powered = true) (dt : Nat) (act : State → State) :
    s.after dt act = .next (act (s.advance dt)).onLine := by simp [State.after, h]

theorem after_off {s : State} (h : s.powered = false) (dt : Nat) (act : State → State) :
    s.after dt act = .next (s.advance dt) := by simp [State.after, h]

theorem exec_powerUp (dt : Nat) (run : StartRun) (s : State) :
    exec (.powerUp dt run) s = .next ((s.advance dt).powerOnStart run).onLine := rfl

theorem exec_droop {s : State} (h : s.powered = true) (dt : Nat) (result : OpResult) :
    exec (.droop dt result) s = .next ((s.advance dt).droops result).onLine :=
  after_on h dt (fun s => s.droops result)

theorem exec_droopClears {s : State} (h : s.powered = true) (dt : Nat) (run : StartRun) :
    exec (.droopClears dt run) s = .next ((s.advance dt).droopEnds run).onLine :=
  after_on h dt (fun s => s.droopEnds run)

theorem exec_duplicateKey {s : State} (h : s.powered = true) (dt : Nat) (key : List UniBeat) :
    exec (.duplicateKey dt key) s = .next ((s.advance dt).takeKey key).onLine :=
  after_on h dt (fun s => s.takeKey key)

theorem exec_faultyFrame {s : State} (h : s.powered = true) (dt : Nat) (rx : Reception) :
    exec (.faultyFrame dt rx) s = .next ((s.advance dt).hearFaulty rx).onLine :=
  after_on h dt (fun s => s.hearFaulty rx)

theorem exec_hail {s : State} (h : s.powered = true) (dt : Nat) (rx : Reception) :
    exec (.hail dt rx) s = .next ((s.advance dt).hear rx (ofKind .hail) State.takeHailFrame).onLine :=
  after_on h dt (fun s => s.hear rx (ofKind .hail) State.takeHailFrame)

theorem exec_update {s : State} (h : s.powered = true) (dt : Nat) (rx : Reception) :
    exec (.update dt rx) s = .next ((s.advance dt).hear rx (ofKind .update) fun s f => s.dispatch f State.takeUpdateFrame).onLine :=
  after_on h dt (fun s => s.hear rx (ofKind .update) fun s f => s.dispatch f State.takeUpdateFrame)

theorem exec_snapshot {s : State} (h : s.powered = true) (dt : Nat) (rx : Reception) :
    exec (.snapshot dt rx) s = .next ((s.advance dt).hear rx (ofKind .snapshot) fun s f => s.dispatch f State.takeSnapshotFrame).onLine :=
  after_on h dt (fun s => s.hear rx (ofKind .snapshot) fun s f => s.dispatch f State.takeSnapshotFrame)

theorem exec_claim {s : State} (h : s.powered = true) (dt : Nat) (rx : Reception) :
    exec (.claim dt rx) s = .next ((s.advance dt).hear rx (ofKind .claim) fun s f => s.dispatch f State.takeClaimFrame).onLine :=
  after_on h dt (fun s => s.hear rx (ofKind .claim) fun s f => s.dispatch f State.takeClaimFrame)

theorem exec_grant {s : State} (h : s.powered = true) (dt : Nat) (rx : Reception) :
    exec (.grant dt rx) s = .next ((s.advance dt).hear rx (ofKind .grant) fun s f => s.dispatch f State.takeGrantFrame).onLine :=
  after_on h dt (fun s => s.hear rx (ofKind .grant) fun s f => s.dispatch f State.takeGrantFrame)

theorem exec_refuse {s : State} (h : s.powered = true) (dt : Nat) (rx : Reception) :
    exec (.refuse dt rx) s = .next ((s.advance dt).hear rx (ofKind .refuse) fun s f => s.dispatch f State.takeRefuseFrame).onLine :=
  after_on h dt (fun s => s.hear rx (ofKind .refuse) fun s f => s.dispatch f State.takeRefuseFrame)

theorem exec_cue {s : State} (h : s.powered = true) (dt : Nat) (rx : Reception) :
    exec (.cue dt rx) s = .next ((s.advance dt).hear rx (ofKind .cue) fun s f => s.dispatch f State.takeCueFrame).onLine :=
  after_on h dt (fun s => s.hear rx (ofKind .cue) fun s f => s.dispatch f State.takeCueFrame)

theorem exec_ask {s : State} (h : s.powered = true) (dt : Nat) (rx : Reception) :
    exec (.ask dt rx) s = .next ((s.advance dt).hear rx (ofKind .ask) fun s f => s.dispatch f fun s _ => s.takeAskFrame).onLine :=
  after_on h dt (fun s => s.hear rx (ofKind .ask) fun s f => s.dispatch f fun s _ => s.takeAskFrame)

theorem exec_newGame {s : State} (h : s.powered = true) (dt : Nat) (rx : Reception) :
    exec (.newGame dt rx) s = .next ((s.advance dt).hear rx (ofKind .newGame) fun s f => s.dispatch f State.takeNewGameFrame).onLine :=
  after_on h dt (fun s => s.hear rx (ofKind .newGame) fun s f => s.dispatch f State.takeNewGameFrame)

theorem exec_rest {s : State} (h : s.powered = true) (dt : Nat) (rx : Reception) :
    exec (.rest dt rx) s = .next ((s.advance dt).hear rx (ofKind .rest) fun s f => s.dispatch f fun s _ => s.takeRestFrame).onLine :=
  after_on h dt (fun s => s.hear rx (ofKind .rest) fun s f => s.dispatch f fun s _ => s.takeRestFrame)

theorem exec_wake {s : State} (h : s.powered = true) (dt : Nat) (rx : Reception) :
    exec (.wake dt rx) s = .next ((s.advance dt).hear rx (ofKind .wake) fun s f => s.dispatch f fun s _ => s.takeWakeFrame).onLine :=
  after_on h dt (fun s => s.hear rx (ofKind .wake) fun s f => s.dispatch f fun s _ => s.takeWakeFrame)

theorem exec_loadOpen {s : State} (h : s.powered = true) (dt : Nat) (rx : Reception) :
    exec (.loadOpen dt rx) s = .next ((s.advance dt).hear rx (ofCode12 1) fun s f => s.dispatch f State.takeLoadOpen).onLine :=
  after_on h dt (fun s => s.hear rx (ofCode12 1) fun s f => s.dispatch f State.takeLoadOpen)

theorem exec_loadPart {s : State} (h : s.powered = true) (dt : Nat) (rx : Reception) :
    exec (.loadPart dt rx) s = .next ((s.advance dt).hear rx (ofKind .loadPart) fun s f => s.dispatch f State.takeLoadPart).onLine :=
  after_on h dt (fun s => s.hear rx (ofKind .loadPart) fun s f => s.dispatch f State.takeLoadPart)

theorem exec_seal {s : State} (h : s.powered = true) (dt : Nat) (rx : Reception) :
    exec (.seal dt rx) s = .next ((s.advance dt).hear rx (ofCode12 2) fun s f => s.dispatch f State.takeSeal).onLine :=
  after_on h dt (fun s => s.hear rx (ofCode12 2) fun s f => s.dispatch f State.takeSeal)

theorem exec_sealCheck {s : State} (h : s.powered = true) (dt : Nat) :
    exec (.sealCheck dt) s = .next (s.advance dt).checkSeal.onLine :=
  after_on h dt State.checkSeal

theorem exec_gap {s : State} (h : s.powered = true) (dt : Nat) :
    exec (.gap dt) s = .next (s.advance dt).takeGap.onLine :=
  after_on h dt State.takeGap

theorem exec_contentionLost {s : State} (h : s.powered = true) (dt : Nat) (seen : Option (List Symbol)) :
    exec (.contentionLost dt seen) s = .next ((s.advance dt).loseContention seen).onLine :=
  after_on h dt (fun s => s.loseContention seen)

theorem exec_frameSent {s : State} (h : s.powered = true) (dt : Nat) (run : StartRun) :
    exec (.frameSent dt run) s = .next ((s.advance dt).frameEnds run).onLine :=
  after_on h dt (fun s => s.frameEnds run)

theorem exec_silenceDeadline {s : State} (h : s.powered = true) (dt : Nat) (peer : Nat) :
    exec (.silenceDeadline dt peer) s = .next ((s.advance dt).silencePasses peer).onLine :=
  after_on h dt (fun s => s.silencePasses peer)

theorem exec_removalDeadline {s : State} (h : s.powered = true) (dt : Nat) (peer : Nat) :
    exec (.removalDeadline dt peer) s = .next ((s.advance dt).removalPasses peer).onLine :=
  after_on h dt (fun s => s.removalPasses peer)

theorem exec_claimDeadline {s : State} (h : s.powered = true) (dt : Nat) (tag : Byte) :
    exec (.claimDeadline dt tag) s = .next ((s.advance dt).claimDeadlinePasses tag).onLine :=
  after_on h dt (fun s => s.claimDeadlinePasses tag)

theorem exec_listeningDeadline {s : State} (h : s.powered = true) (dt : Nat) :
    exec (.listeningDeadline dt) s = .next (s.advance dt).listeningPasses.onLine :=
  after_on h dt State.listeningPasses

theorem exec_loadingTimeout {s : State} (h : s.powered = true) (dt : Nat) :
    exec (.loadingTimeout dt) s = .next (s.advance dt).loadingTimesOut.onLine :=
  after_on h dt State.loadingTimesOut

theorem exec_hailDue {s : State} (h : s.powered = true) (dt : Nat) :
    exec (.hailDue dt) s = .next (s.advance dt).onLine :=
  after_on h dt id

theorem exec_gateEnd {s : State} (h : s.powered = true) (dt : Nat) (counts : List Nat) :
    exec (.gateEnd dt counts) s = .next ((s.advance dt).gateEnds counts).onLine :=
  after_on h dt (fun s => s.gateEnds counts)

theorem exec_baseTick {s : State} (h : s.powered = true) (dt : Nat) :
    exec (.baseTick dt) s = .next (s.advance dt).baseTicks.onLine :=
  after_on h dt State.baseTicks

theorem exec_timerExpiry {s : State} (h : s.powered = true) (dt : Nat) (timer : Nat) :
    exec (.timerExpiry dt timer) s = .next ((s.advance dt).timerExpires timer).onLine :=
  after_on h dt (fun s => s.timerExpires timer)

theorem exec_toneEnd {s : State} (h : s.powered = true) (dt : Nat) :
    exec (.toneEnd dt) s = .next (s.advance dt).toneEnds.onLine :=
  after_on h dt State.toneEnds

theorem exec_engineEventTaken {s : State} (h : s.powered = true) (dt : Nat) :
    exec (.engineEventTaken dt) s = .next (s.advance dt).takeEvent.onLine :=
  after_on h dt State.takeEvent

theorem exec_answerEventTaken {s : State} (h : s.powered = true) (dt : Nat) :
    exec (.answerEventTaken dt) s = .next (s.advance dt).takeAnswer.onLine :=
  after_on h dt State.takeAnswer

theorem exec_storeReadEnd {s : State} (h : s.powered = true) (dt : Nat) :
    exec (.storeReadEnd dt) s = .next ((s.advance dt).storeEnds StoreOp.isRead readResult).onLine :=
  after_on h dt (fun s => s.storeEnds StoreOp.isRead readResult)

theorem exec_storeProgramEnd {s : State} (h : s.powered = true) (dt : Nat) (result : OpResult) :
    exec (.storeProgramEnd dt result) s = .next ((s.advance dt).storeEnds StoreOp.isProgram result).onLine :=
  after_on h dt (fun s => s.storeEnds StoreOp.isProgram result)

theorem exec_storeEraseEnd {s : State} (h : s.powered = true) (dt : Nat) (result : OpResult) :
    exec (.storeEraseEnd dt result) s = .next ((s.advance dt).storeEnds StoreOp.isErase result).onLine :=
  after_on h dt (fun s => s.storeEnds StoreOp.isErase result)

theorem exec_batchStart {s : State} (h : s.powered = true) (dt : Nat) :
    exec (.batchStart dt) s = .next ((s.advance dt).takeWork .batch State.takeBatch).onLine :=
  after_on h dt (fun s => s.takeWork .batch State.takeBatch)

theorem exec_labelBlock {s : State} (h : s.powered = true) (dt : Nat) :
    exec (.labelBlock dt) s = .next (if (s.advance dt).firstWork = some .label then (s.advance dt).takeWork .label State.takeLabel else (s.advance dt).takeWork .compaction State.takeCompaction).onLine :=
  after_on h dt (fun s => if s.firstWork = some .label then s.takeWork .label State.takeLabel else s.takeWork .compaction State.takeCompaction)

theorem exec_compactionStart {s : State} (h : s.powered = true) (dt : Nat) :
    exec (.compactionStart dt) s = .next ((s.advance dt).takeWork .compaction State.takeCompaction).onLine :=
  after_on h dt (fun s => s.takeWork .compaction State.takeCompaction)

theorem exec_snapshotSlot {s : State} (h : s.powered = true) (dt : Nat) :
    exec (.snapshotSlot dt) s = .next ((s.advance dt).takeWork .snapshotSlot State.takeSnapshotSlot).onLine :=
  after_on h dt (fun s => s.takeWork .snapshotSlot State.takeSnapshotSlot)

theorem exec_newGameSlot {s : State} (h : s.powered = true) (dt : Nat) :
    exec (.newGameSlot dt) s = .next ((s.advance dt).takeWork .newGameSlot State.takeNewGameSlot).onLine :=
  after_on h dt (fun s => s.takeWork .newGameSlot State.takeNewGameSlot)

theorem exec_eraseObsolete {s : State} (h : s.powered = true) (dt : Nat) :
    exec (.eraseObsolete dt) s = .next ((s.advance dt).takeWork .erase State.takeErase).onLine :=
  after_on h dt (fun s => s.takeWork .erase State.takeErase)

theorem exec_contentionWon {s : State} (h : s.powered = true) (dt : Nat) (seen : List Symbol) :
    exec (.contentionWon dt seen) s = .next ((s.advance dt).winContention seen).onLine :=
  after_on h dt (fun s => s.winContention seen)

theorem exec_powerLoss {s : State} (h : s.powered = true) (dt : Nat) (result : OpResult) :
    exec (.powerLoss dt result) s = .next ((s.advance dt).losePower result).onLine :=
  after_on h dt (fun s => s.losePower result)

/-- Every row answers a next state. -/
theorem exec_next (i : Instr) (s : State) : ∃ t, exec i s = .next t := by
  cases i <;> exact ⟨_, rfl⟩

theorem after_keeps {s t : State} {dt : Nat} {act : State → State} (h : s.after dt act = .next t)
    (k : ∀ u, Keeps u (act u)) : Keeps (s.advance dt) t := by
  unfold State.after at h
  injection h with h
  subst h
  exact keeps_ite ((k _).trans (keeps_onLine _)) (.refl _)

/-- What every row keeps, with power or without it. -/
theorem exec_keeps {i : Instr} {s t : State} (h : exec i s = .next t) :
    Keeps (s.advance i.elapsed) t := by
  cases i with
  | powerUp dt run =>
    injection h with h
    exact h ▸ (keeps_powerOnStart _ run).trans (keeps_onLine _)
  | droop dt r =>
    exact after_keeps (act := (fun s => s.droops r)) h fun u => keeps_droops u r
  | droopClears dt run =>
    exact after_keeps (act := (fun s => s.droopEnds run)) h fun u => keeps_droopEnds u run
  | duplicateKey dt key =>
    exact after_keeps (act := (fun s => s.takeKey key)) h fun u => keeps_takeKey u key
  | faultyFrame dt rx =>
    exact after_keeps (act := (fun s => s.hearFaulty rx)) h fun u => keeps_hearFaulty u rx
  | hail dt rx =>
    exact after_keeps (act := (fun s => s.hear rx (ofKind .hail) State.takeHailFrame)) h fun u => keeps_hear u _ _ _ fun f hf => keeps_takeHailFrame _ f hf
  | update dt rx =>
    exact after_keeps (act := (fun s => s.hear rx (ofKind .update) fun s f => s.dispatch f State.takeUpdateFrame)) h fun u => keeps_hearDispatch u _ _ _ keeps_takeUpdateFrame
  | snapshot dt rx =>
    exact after_keeps (act := (fun s => s.hear rx (ofKind .snapshot) fun s f => s.dispatch f State.takeSnapshotFrame)) h fun u => keeps_hearDispatch u _ _ _ keeps_takeSnapshotFrame
  | claim dt rx =>
    exact after_keeps (act := (fun s => s.hear rx (ofKind .claim) fun s f => s.dispatch f State.takeClaimFrame)) h fun u => keeps_hearDispatch u _ _ _ keeps_takeClaimFrame
  | grant dt rx =>
    exact after_keeps (act := (fun s => s.hear rx (ofKind .grant) fun s f => s.dispatch f State.takeGrantFrame)) h fun u => keeps_hearDispatch u _ _ _ keeps_takeGrantFrame
  | refuse dt rx =>
    exact after_keeps (act := (fun s => s.hear rx (ofKind .refuse) fun s f => s.dispatch f State.takeRefuseFrame)) h fun u => keeps_hearDispatch u _ _ _ keeps_takeRefuseFrame
  | cue dt rx =>
    exact after_keeps (act := (fun s => s.hear rx (ofKind .cue) fun s f => s.dispatch f State.takeCueFrame)) h fun u => keeps_hearDispatch u _ _ _ keeps_takeCueFrame
  | ask dt rx =>
    exact after_keeps (act := (fun s => s.hear rx (ofKind .ask) fun s f => s.dispatch f fun s _ => s.takeAskFrame)) h fun u => keeps_hearDispatch u _ _ _ (fun s _ => keeps_takeAskFrame s)
  | newGame dt rx =>
    exact after_keeps (act := (fun s => s.hear rx (ofKind .newGame) fun s f => s.dispatch f State.takeNewGameFrame)) h fun u => keeps_hearDispatch u _ _ _ keeps_takeNewGameFrame
  | rest dt rx =>
    exact after_keeps (act := (fun s => s.hear rx (ofKind .rest) fun s f => s.dispatch f fun s _ => s.takeRestFrame)) h fun u => keeps_hearDispatch u _ _ _ (fun s _ => keeps_takeRestFrame s)
  | wake dt rx =>
    exact after_keeps (act := (fun s => s.hear rx (ofKind .wake) fun s f => s.dispatch f fun s _ => s.takeWakeFrame)) h fun u => keeps_hearDispatch u _ _ _ (fun s _ => keeps_takeWakeFrame s)
  | loadOpen dt rx =>
    exact after_keeps (act := (fun s => s.hear rx (ofCode12 1) fun s f => s.dispatch f State.takeLoadOpen)) h fun u => keeps_hearDispatch u _ _ _ keeps_takeLoadOpen
  | loadPart dt rx =>
    exact after_keeps (act := (fun s => s.hear rx (ofKind .loadPart) fun s f => s.dispatch f State.takeLoadPart)) h fun u => keeps_hearDispatch u _ _ _ keeps_takeLoadPart
  | sealCheck dt =>
    exact after_keeps (act := State.checkSeal) h fun u => keeps_checkSeal u
  | gap dt =>
    exact after_keeps (act := State.takeGap) h fun u => keeps_takeGap u
  | contentionLost dt x =>
    exact after_keeps (act := (fun s => s.loseContention x)) h fun u => keeps_loseContention u x
  | frameSent dt run =>
    exact after_keeps (act := (fun s => s.frameEnds run)) h fun u => keeps_frameEnds u run
  | silenceDeadline dt p =>
    exact after_keeps (act := (fun s => s.silencePasses p)) h fun u => keeps_silencePasses u p
  | removalDeadline dt p =>
    exact after_keeps (act := (fun s => s.removalPasses p)) h fun u => keeps_removalPasses u p
  | claimDeadline dt t =>
    exact after_keeps (act := (fun s => s.claimDeadlinePasses t)) h fun u => keeps_claimDeadlinePasses u t
  | listeningDeadline dt =>
    exact after_keeps (act := State.listeningPasses) h fun u => keeps_listeningPasses u
  | loadingTimeout dt =>
    exact after_keeps (act := State.loadingTimesOut) h fun u => keeps_loadingTimesOut u
  | hailDue dt =>
    exact after_keeps (act := id) h fun u => .refl u
  | gateEnd dt cs =>
    exact after_keeps (act := (fun s => s.gateEnds cs)) h fun u => keeps_gateEnds u cs
  | baseTick dt =>
    exact after_keeps (act := State.baseTicks) h fun u => keeps_baseTicks u
  | timerExpiry dt t =>
    exact after_keeps (act := (fun s => s.timerExpires t)) h fun u => keeps_timerExpires u t
  | toneEnd dt =>
    exact after_keeps (act := State.toneEnds) h fun u => keeps_toneEnds u
  | engineEventTaken dt =>
    exact after_keeps (act := State.takeEvent) h fun u => keeps_takeEvent u
  | answerEventTaken dt =>
    exact after_keeps (act := State.takeAnswer) h fun u => keeps_takeAnswer u
  | storeReadEnd dt =>
    exact after_keeps (act := (fun s => s.storeEnds StoreOp.isRead readResult)) h fun u => keeps_storeEnds u _ _
  | storeProgramEnd dt r =>
    exact after_keeps (act := (fun s => s.storeEnds StoreOp.isProgram r)) h fun u => keeps_storeEnds u _ _
  | storeEraseEnd dt r =>
    exact after_keeps (act := (fun s => s.storeEnds StoreOp.isErase r)) h fun u => keeps_storeEnds u _ _
  | batchStart dt =>
    exact after_keeps (act := (fun s => s.takeWork .batch State.takeBatch)) h fun u => keeps_takeWork u _ keeps_takeBatch
  | labelBlock dt =>
    exact after_keeps (act := (fun s => if s.firstWork = some .label then s.takeWork .label State.takeLabel else s.takeWork .compaction State.takeCompaction)) h fun u => keeps_ite (keeps_takeWork u _ keeps_takeLabel) (keeps_takeWork u _ keeps_takeCompaction)
  | compactionStart dt =>
    exact after_keeps (act := (fun s => s.takeWork .compaction State.takeCompaction)) h fun u => keeps_takeWork u _ keeps_takeCompaction
  | snapshotSlot dt =>
    exact after_keeps (act := (fun s => s.takeWork .snapshotSlot State.takeSnapshotSlot)) h fun u => keeps_takeWork u _ keeps_takeSnapshotSlot
  | newGameSlot dt =>
    exact after_keeps (act := (fun s => s.takeWork .newGameSlot State.takeNewGameSlot)) h fun u => keeps_takeWork u _ keeps_takeNewGameSlot
  | eraseObsolete dt =>
    exact after_keeps (act := (fun s => s.takeWork .erase State.takeErase)) h fun u => keeps_takeWork u _ keeps_takeErase
  | contentionWon dt x =>
    exact after_keeps (act := (fun s => s.winContention x)) h fun u => keeps_winContention u x
  | powerLoss dt r =>
    exact after_keeps (act := (fun s => s.losePower r)) h fun u => keeps_losePower u r
  | _ =>
    rename_i dt rx
    exact after_keeps (act := (fun s => s.hear rx (ofCode12 2) fun s f => s.dispatch f State.takeSeal)) h fun u => keeps_hearDispatch u _ _ _ keeps_takeSeal

end Sys2Proof.Machine
end

