-- ==== Sys2Proof/Tests/Slice0.lean ====
section
/-! SUPPORT. The model's own tests: a smoke test of well-formedness, the manual's worked examples, and for
every statement with hypotheses states and operands that meet them, with what the command answers there. -/

namespace Sys2Proof.Tests

open Sys2Proof Sys2Proof.Machine

set_option Elab.async false

/-! ## A tile on a board -/

/-- The state a command answers. -/
def after (i : Instr) (s : State) : State :=
  match exec i s with
  | .next t => t
  | _ => s

/-- A PRESENT peer with the window 20 to 23. -/
def peer3 : Peer :=
  { tile := 3, present := true, epoch := 1, first := 20, size := 4, serial := 0, listsMePoor := false,
    lastHeard := 0, silenceAt := some 7500000, removalAt := none, counted := 3, corrected := 0,
    faults := 0, grade := .good }

/-- A SILENT peer with the window 30 to 31. -/
def peer9 : Peer :=
  { peer3 with tile := 9, present := false, first := 30, size := 2, silenceAt := none,
               removalAt := some 60000000 }

/-- An owned entry of a kind at a value. -/
def own (k : MarkKind) (v : Nat) : Owned := ⟨k, v, v, 0, false, false, none, none, false⟩

/-- A step with conditions and effects, ARMED. -/
def armed (cs : List Condition) (es : List Effect) : Step :=
  ⟨⟨0, true, true, cs, es, 0, .drop⟩, .armed, cs.map fun _ => false, 0, none⟩

/-- A header's settings: two pads fitted, all their events enabled, two debounce gates. -/
def board5 : Header :=
  { Header.blank with
    tile := 5, first := 10, size := 4, padCount := 2, emptyLimit := 3000, debounce := 2,
    faultLimit := 3, fairLimit := 24, poorLimit := 96,
    pads := List.replicate 6 ⟨true, true, true, true⟩,
    bands := (List.range 16).map fun c => (100 * c, 100 * c + 50) }

/-- Tile 5 in PLAY: the window 10 to 13 with a FLAG, a LEVEL, a TALLY and a sealed FLAG; peers 3 and 9;
marks 10 and 20 watched. -/
def board : State :=
  { State.reset with
    powered := true
    session := .play
    tile := 5
    epoch := 4
    header := board5
    winFirst := 10
    winSize := 4
    marks := List.replicate 10 (.replica Replica.blank) ++
      [.owned (own .flag 0), .owned (own .level 7), .owned (own .tally 42),
        .owned { own .flag 1 with sealed := true }] ++
      List.replicate 242 (.replica Replica.blank)
    watched := List.replicate 10 false ++ [true] ++ List.replicate 9 false ++ [true] ++
      List.replicate 235 false
    roster := [peer3, peer9]
    routes := List.replicate 10 .none ++ List.replicate 4 .self ++ List.replicate 6 .none ++
      List.replicate 4 (.peer 3) ++ List.replicate 232 .none
    hail := ⟨some 2040000, false, none⟩
    gateStart := some 0
    lastTick := some 0
    steps := [armed [.cueHeard 7] [.digits ⟨.fixed 5, false⟩]] }

/-- A tile without content. -/
def bare : State := { State.reset with powered := true, session := .unwritten }

/-- A tile that is being loaded under tag 9, its erasing done. -/
def loading : State :=
  { bare with session := .loading
              loader := { Loader.blank with tag := some 9, opener := 3 } }

/-- What an undisturbed line brings of a frame of station 3. -/
def from3 (f : Frame) : Reception := undisturbed (contentionKey f.kind.contentionClass 3) 3 f

/-- A LIGHT frame with a body of small numbers. -/
def frame (k : FrameKind) (addressee : Nat) (body : List Nat) : Frame :=
  ⟨k, false, addressee, body.map (BitVec.ofNat 8)⟩

/-- That frame as the receiver gives it. -/
def good3 (f : Frame) : GoodFrame := ⟨3, f.kind, f.strong, f.addressee, f.body, 0⟩

/-- A result that passes at once. -/
def passes : OpResult := ⟨[true], []⟩

/-- A result that fails all eight passes. -/
def fails8 : OpResult := ⟨List.replicate 8 false, []⟩

/-- A start whose operations all pass. -/
def wellRun : StartRun := ⟨passes, none, List.replicate 60 passes⟩

theorem gets_of {s : State} {f : Frame}
    (h : (s.powered && s.session.inGame && !s.driving && decide (receive (from3 f) = .good (good3 f)) &&
      decide (3 ≠ s.tile) && (s.peer 3).all (·.present)) = true) : s.gets (from3 f) (good3 f) := by
  simp only [Bool.and_eq_true, Bool.not_eq_true', decide_eq_true_eq] at h
  refine ⟨h.1.1.1.1.1, h.1.1.1.1.2, h.1.1.1.2, h.1.1.2, h.1.2, fun p hp => ?_⟩
  have h5 := h.2
  rw [show s.peer 3 = some p from hp] at h5
  exact h5

theorem sameGame_of {s : State} {n : Nat} (h : (s.peer n).any (·.serial == s.serial) = true) :
    s.sameGame n := by
  cases hp : s.peer n with
  | none =>
    rw [hp] at h
    cases h
  | some p =>
    rw [hp] at h
    exact ⟨p, hp, eq_of_beq h⟩

/-! ## Well-formedness -/

theorem test_wf_accepts : Instr.wf (.hail 1 (from3 (frame .hail 0 [1, 20, 4, 0, 0, 3, 0]))) = true := by
  decide +kernel
theorem test_wf_reception : Instr.wf (.ask 1 ⟨List.replicate 9 ⟨.plus, false⟩, [], [], []⟩) = false := by decide
theorem test_wf_slotLeft : Instr.wf (.droop 1 ⟨[], [.bad [0]]⟩) = false := by decide
theorem test_wf_opResult : Instr.wf (.storeEraseEnd 1 ⟨List.replicate 9 true, []⟩) = false := by decide
theorem test_wf_startRun : Instr.wf (.powerUp 1 ⟨passes, none, [⟨List.replicate 9 true, []⟩]⟩) = false := by
  decide
theorem test_wf_station : Instr.wf (.silenceDeadline 1 63) = false ∧ Instr.wf (.removalDeadline 1 0) = false := by
  decide
theorem test_wf_counts : Instr.wf (.gateEnd 1 [4096]) = false ∧ Instr.wf (.gateEnd 1 (List.replicate 7 0)) = false := by
  decide
theorem test_wf_line : Instr.wf (.contentionWon 1 (List.replicate 9 .quiet)) = false := by decide
theorem test_wf_key : Instr.wf (.duplicateKey 1 (List.replicate 9 ⟨.quiet, false⟩)) = false := by decide
theorem test_wf_timer : Instr.wf (.timerExpiry 1 4) = false := by decide

/-! ## Worked examples of the manual -/

/-- The encoder's example of section 5.5, STRONG and LIGHT. -/
theorem test_encoder_example :
    strongBeats (encode [true, false, true, true, false, false]) =
      [true, true, true, false, false, false, false, true, false, true, true, true] ∧
    lightBeats (encode [true, false, true, true, false, false]) =
      [true, true, true, false, false, false, false, true, true] := by decide

theorem test_sync_tolerates_one_beat :
    syncSense [some 7, some 7, some 7, some 0, some 0, some 7, some 0, some 0] = some .normal ∧
    syncSense [some 0, some 0, some 0, some 7, some 7, some 0, some 7, none] = some .inverted ∧
    syncSense [none, none] = none := by decide

/-- An inverted and an erased head beat are corrected, the erased one not counted (R109). -/
theorem test_receiver_corrects :
    receive { from3 (frame .ask 5 []) with
      head := ((from3 (frame .ask 5 [])).head.set 3 none).set 30
        (turnBeat ((from3 (frame .ask 5 [])).head.getD 30 none)) } =
      .good ⟨3, .ask, false, 5, [], 1⟩ := by decide +kernel

/-- The tables of R28 and R29. -/
theorem test_arithmetic_tables :
    decideOp .level 12 (some .add) 2 0 = .ok 14 ∧ decideOp .level 12 (some .add) 9 0 = .ok 15 ∧
    decideOp .level 15 (some .add) 1 0 = .ok 15 ∧ decideOp .flag 0 (some .add) 40 0 = .ok 1 ∧
    decideOp .level 3 (some .take) 3 0 = .ok 0 ∧ decideOp .level 3 (some .take) 4 0 = .error .short ∧
    decideOp .tally 47 (some .add) 38 0 = .ok 85 ∧ decideOp .tally 85 (some .add) 20 0 = .ok 99 ∧
    decideOp .tally 9 (some .add) 1 0 = .ok 10 ∧ decideOp .tally 52 (some .take) 17 0 = .ok 35 ∧
    decideOp .tally 30 (some .take) 30 0 = .ok 0 ∧ decideOp .tally 29 (some .take) 30 0 = .error .short := by
  refine ⟨rfl, rfl, rfl, rfl, rfl, rfl, rfl, rfl, rfl, rfl, rfl, rfl⟩

/-- The grading window of section 4.11. -/
theorem test_grading_window :
    ([.good 0, .good 1, .good 0, .good 3, .good 0, .fault, .good 2, .good 0, .good 0, .good 4, .good 1, .fault,
      .good 0, .good 2, .good 0, .good 1].foldl (fun p g => p.takeGrade board5 g) { peer3 with counted := 0 } : Peer) =
      { peer3 with counted := 0, grade := .poor } := by decide

/-- The crowded gap of section 5.14: the lines tiles 9, 12 and 41 see. -/
theorem test_crowded_gap :
    contentionKey .answer 9 = 73 ∧ contentionKey .answer 12 = 76 ∧ contentionKey .promoted 41 = 41 ∧
    losesKey 73 (keySymbols 41) = true ∧ losesKey 76 (keySymbols 41) = true ∧
    losesKey 41 (keySymbols 41) = false ∧ losesKey 76 (keySymbols 73) = true := by decide

/-- The lantern of section 6.8, gate by gate. -/
theorem test_lantern_slammed_down :
    ([.present (some 6), .absent, .present (some 6), .present (some 6), .present none, .present (some 6),
      .present (some 5), .present (some 6), .present (some 6)].foldl
        (fun (st : PadState × List PadEventKind) r => padStep 4 st.1 r) (.empty, [])) =
      (.occupied (some 6) none, [.placed 6]) := by decide

/-! ## The queue of commands, time and power -/

theorem test_idle : step State.reset = .next State.reset := rfl

theorem test_unpowered : State.reset.powered = false ∧ exec (.gap 7) State.reset = .next (State.reset.advance 7) :=
  ⟨rfl, rfl⟩

theorem test_front_command :
    step { board with pending := [.gap 1, .gap 2] } = exec (.gap 1) { board with pending := [.gap 2] } := rfl

/-! ## Start and supply -/

/-- Both ways of BadContentStartsUnwritten: a blank header, and a good one of another layout. -/
def headed : Store :=
  let page := ([7, 5, 10, 4, 1, 2, 0x0B, 0xB8, 2, 3, 0, 24, 0, 96] ++ List.replicate 6 7).map (BitVec.ofNat 8) ++
    List.replicate 106 (0x00 : Byte)
  ⟨writeBytes 0 (page ++ wordBytes (crc16 (bytesToBits page))) [], List.replicate 16 0⟩

theorem test_start_hypotheses :
    State.reset.op = none ∧ wellRun.reads = none ∧ headerOk (State.reset.store.page 0 0) = false := by
  decide +kernel

theorem test_start_other_layout :
    headerOk (headed.page 0 0) = true ∧ contentOk headed = false ∧
    (after (.powerUp 5 wellRun) { State.reset with store := headed }).tile = 5 := by decide +kernel

theorem test_start_blank :
    (after (.powerUp 5 wellRun) State.reset).session = .unwritten ∧
    (after (.powerUp 5 wellRun) State.reset).tile = 62 := by decide +kernel

/-- A start under way, with an operation. -/
def starting (o : Operation) : State := { board with session := .starting, op := some o }

theorem test_read_hypotheses :
    (starting ⟨.read 0 1, .startRead 1, 0⟩).op = some ⟨.read 0 1, .startRead 1, 0⟩ ∧
    (StoreOp.read 0 1).isRead = true ∧
    (after (.storeReadEnd 3) (starting ⟨.read 0 1, .startRead 1, 0⟩)).op = some ⟨.read 0 2, .startRead 2, 0⟩ := by
  decide +kernel

theorem test_session_slot_hypotheses :
    let s := starting ⟨.program 2 5 [1], .session, 7⟩
    s.powered = true ∧ s.waiting = none ∧ s.health.storeWorn = false ∧
    (after (.storeProgramEnd 3 passes) s).session = .listening ∧
    (after (.storeProgramEnd 3 passes) s).listenAt = some 4000003 := by decide +kernel

/-- A start none of whose reads end within the command, over an erase that is abandoned (R158, R182). -/
theorem test_start_waits :
    let s := { board with op := some ⟨.erase 3, .eraseObsolete, 1⟩ }
    let t := after (.powerUp 5 ⟨passes, some 0, []⟩) s
    t.session = .starting ∧ t.op = some ⟨.read 0 0, .startRead 0, 0⟩ ∧ t.store.cells = s.store.cells := by
  decide +kernel

/-- The header and the content judged: bad ones lead to UNWRITTEN, a good header to the next page. -/
theorem test_judged_pages :
    let bad := starting ⟨.read 0 0, .startRead 0, 0⟩
    let good := { starting ⟨.read 0 0, .startRead 0, 0⟩ with store := headed }
    let content := { starting ⟨.read 1 15, .startRead 18, 0⟩ with store := headed }
    bad.startsWith ⟨.read 0 0, .startRead 0, 0⟩ ∧ good.startsWith ⟨.read 0 0, .startRead 0, 0⟩ ∧
    content.startsWith ⟨.read 1 15, .startRead 18, 0⟩ ∧
    (after (.storeReadEnd 3) bad).session = .unwritten ∧ (after (.storeReadEnd 3) bad).tile = 62 ∧
    (after (.storeReadEnd 3) good).op = some ⟨.read 0 1, .startRead 1, 0⟩ ∧
    (after (.storeReadEnd 3) content).session = .unwritten ∧ (after (.storeReadEnd 3) content).tile = 5 := by
  refine ⟨⟨rfl, rfl, rfl, rfl, rfl, rfl⟩, ⟨rfl, rfl, rfl, rfl, rfl, rfl⟩, ⟨rfl, rfl, rfl, rfl, rfl, rfl⟩, ?_⟩
  decide +kernel

/-- Good content: the header's settings, no marks, and blank mark, tone and step pages. -/
def written : Store :=
  let body : List Byte := ([2, 5, 10, 1, 1, 2, 0x0B, 0xB8, 2, 3, 0, 24, 0, 96] ++ List.replicate 6 7).map
      (BitVec.ofNat 8) ++ List.replicate 104 (0x00 : Byte)
  let cells := writeBytes 128 [2, 7] []
  let page := body ++ wordBytes (crc16 (bytesToBits (contentBytes ⟨cells, []⟩)))
  ⟨writeBytes 0 (page ++ wordBytes (crc16 (bytesToBits page))) cells, List.replicate 16 0⟩

theorem test_content_in_force :
    let s := { starting ⟨.read 1 15, .startRead 18, 0⟩ with store := written }
    let t := after (.storeReadEnd 3) s
    contentOk written = true ∧ t.op = some ⟨.read 2 0, .startRead 19, 0⟩ ∧
    (t.winFirst, t.winSize) = (10, 1) ∧ t.mark 10 = .owned { own .level 7 with sealed := true } ∧
    t.mark 11 = .replica Replica.blank ∧ t.route 10 = .self := by decide +kernel

/-- A step record: a MARK_TEST of mark 20 at least 5, and a TONE. -/
def record : List Byte :=
  ([0x32, 0x41, 1, 0, 3, 20, 3, 5] ++ List.replicate 8 0 ++ [12, 7, 8, 0x20] ++ List.replicate 12 0).map
    (BitVec.ofNat 8)

/-- The record with a byte changed. -/
def spoiltAt (i n : Nat) : Step := stepOf 2 (record.set i (BitVec.ofNat 8 n))

theorem test_steps_checked :
    let ok := fun (i n : Nat) => (spoiltAt i n).state ≠ .quarantined
    stepOf 2 record = ⟨⟨3, true, true, [.markTest 20 .ge 5], [.tone ⟨7, .half, 8⟩ false], 2, .rearm⟩, .armed,
      [false], 2, none⟩ ∧
    (spoiltAt 0 0).record.repeats = 0 ∧ ok 7 99 ∧ ¬ ok 7 100 ∧ ok 6 4 ∧ ¬ ok 6 5 ∧ ¬ ok 6 0 ∧ ¬ ok 4 0 ∧ ¬ ok 4 7 ∧
    ¬ ok 1 0x40 ∧ ¬ ok 1 0x81 ∧ ¬ ok 1 0x61 ∧ ¬ ok 1 0x4D ∧ ¬ ok 2 0 ∧ ¬ ok 2 5 ∧ ok 17 31 ∧ ¬ ok 17 32 ∧ ¬ ok 18 0 ∧
    ¬ ok 19 0x30 ∧ ok 19 0x21 ∧ ¬ ok 19 0x22 ∧ ¬ ok 16 15 ∧ (stepOf 2 (List.replicate 32 0xFF)).state = .quarantined ∧
    (stepOf 2 ((record.set 2 2).set 20 1)).state = .quarantined := by decide +kernel

/-- The end of STARTING reads the steps and sets the watched marks. -/
theorem test_start_watches :
    let s := { starting ⟨.program 2 5 [1], .session, 7⟩ with store := ⟨writeBytes 2048 record [], List.replicate 16 0⟩ }
    let t := after (.storeProgramEnd 3 passes) s
    t.session = .listening ∧ t.steps[0]? = some (stepOf 2 record) ∧ t.isWatched 20 = true ∧
    t.isWatched 19 = false ∧ t.health.quarantine = true := by decide +kernel

/-- How blocks read and what the census calls them: a JOURNAL block, a SNAPSHOT block with its end and a
later slot, one without an end, a RETIRED one with the loading mark. -/
def journalReads : List BlockReading :=
  let slots := fun (l : List SlotRead) => l ++ List.replicate (64 - l.length) .erased
  [readBlock 2 (slots [.valid 1 (.label 3 .journal), .valid 1 (.session 7), .bad, .valid 1 (.batch [(10, 1, 4)])]),
    readBlock 3 (slots [.valid 2 (.label 4 .snapshot), .valid 2 (.snapPart [(10, 1, 5)]), .valid 2 (.session 8),
      .valid 2 (.snapEnd 9), .valid 3 (.session 8), .valid 3 (.snapPart [(10, 0, 6)])]),
    readBlock 4 (slots [.valid 2 (.label 5 .snapshot), .valid 2 (.snapPart [(10, 1, 5)])]),
    readBlock 5 (slots [.valid 4 (.label 6 .journal), .valid 4 (.newGame 11)]),
    readBlock 6 ([.valid 4 (.label 9 .journal)] ++ List.replicate 62 .erased ++ [.valid 4 (.retired true)])]

theorem test_recovery :
    journalReads.map (recoveredState journalReads) = [.obsolete, .full, .obsolete, .active, .retired] ∧
    (baseOf journalReads).map (·.block) = some 3 ∧ (activeReading journalReads).map (·.used) = some 2 ∧
    (appliedSlots journalReads).map (·.2) = [.label 4 .snapshot, .snapPart [(10, 1, 5)], .snapEnd 9, .session 8,
      .label 6 .journal, .newGame 11] ∧
    newestEpoch journalReads = some 4 ∧ highestSequence journalReads = 6 ∧
    ((appliedSlots journalReads).foldl applySlot (board.marks, 0)).2 = 11 := by decide +kernel

/-- A start whose census stands: which blocks are so, the others ERASED. -/
def recovering (o : Operation) (bs : List Block) : State :=
  { starting o with
    stage := .census
    writer := { Writer.blank with census := bs ++ List.replicate (14 - bs.length) ⟨.erased, 0⟩, nextSequence := 8 } }

theorem test_start_goes_on :
    let e := recovering ⟨.erase 2, .eraseObsolete, 3⟩ [⟨.obsolete, 0⟩]
    let l := recovering ⟨.program 2 0 [1], .label .journal, 7⟩ []
    let w := recovering ⟨.program 13 63 [1], .retired, 7⟩ (List.replicate 12 ⟨.retired, 0⟩)
    e.startsWith ⟨.erase 2, .eraseObsolete, 3⟩ ∧ l.startsWith ⟨.program 2 0 [1], .label .journal, 7⟩ ∧
    w.startsWith ⟨.program 13 63 [1], .retired, 7⟩ ∧ passesAt passes ∧ failsAll ⟨[false], []⟩ (8 - 7) ∧
    (after (.storeEraseEnd 1 passes) e).op.map (·.purpose) = some (.label .journal) ∧
    (after (.storeEraseEnd 1 ⟨[false], []⟩) e).op.map (·.purpose) = some .retired ∧
    (after (.storeProgramEnd 1 passes) l).op.map (·.purpose) = some .session ∧
    (after (.storeProgramEnd 1 ⟨[false], []⟩) l).op.map (·.purpose) = some .retired ∧
    (after (.storeProgramEnd 1 ⟨[false], []⟩) w).session = .listening ∧
    (after (.storeProgramEnd 1 ⟨[false], []⟩) w).health.storeWorn = true := by
  refine ⟨⟨rfl, rfl, rfl, rfl, rfl, rfl⟩, ⟨rfl, rfl, rfl, rfl, rfl, rfl⟩, ⟨rfl, rfl, rfl, rfl, rfl, rfl⟩,
    ⟨[], rfl⟩, ⟨[], rfl⟩, ?_⟩
  decide +kernel

/-- A HAIL being driven by a tile that droops; and an erase. -/
def driving (src : Source) (f : Frame) (won : Bool) : State :=
  { board with outstanding := some ⟨f, 197, src, won, true⟩ }

theorem test_droop_hypotheses :
    ({ board with droop := true }).powered = true ∧ board.droop = false ∧ board.op = none ∧
    board.outstanding = none ∧ ({ board with op := some ⟨.erase 3, .eraseObsolete, 1⟩ }).storeOk ∧
    (after (.droop 1 passes) (driving (.hail true false false false) board.hailFrame true)).outstanding = none := by
  refine ⟨rfl, rfl, rfl, rfl, rfl, ?_⟩
  decide +kernel

/-- Droop cuts an UPDATE, a SNAPSHOT whose run is to begin again, a CLAIM whose entry has ended and an answer; and
an erase with it (R118, R121, R158). -/
theorem test_droop_gives_back :
    let d := fun (s : State) => after (.droop 1 passes) s
    let answer : Answer := ⟨.refuse .short, .claim, 3, 1, 12⟩
    let erasing := { driving (.slate 11) (frame .update 0 [4, 11, 7, 0, 0, 0]) true with
      op := some ⟨.erase 3, .eraseObsolete, 1⟩ }
    (d (driving (.slate 11) (frame .update 0 [4, 11, 7, 0, 0, 0]) true)).mark 11 =
      .owned { own .level 7 with announce := true } ∧
    (d { driving (.snapshot 2) board.snapshotFrame true with run := ⟨true, 12, true⟩ }).run = ⟨true, 10, false⟩ ∧
    (d { driving (.queue (.claim 7 20 .add 1 0 3)) (frame .claim 3 [7, 20, 2, 1, 0]) true with
      transmit := [.claim 7 20 .add 1 0 3, .cue 1] }).transmit = [.cue 1] ∧
    (d { driving (.answer answer) (frame .refuse 3 [1, 12, 1]) true with answers := [answer] }).answers = [answer] ∧
    erasing.storeOk ∧ (d erasing).op = none ∧ (d erasing).outstanding = none ∧
    (d erasing).mark 11 = .owned { own .level 7 with announce := true } := by
  refine ⟨?_, ?_, ?_, ?_, rfl, ?_, ?_, ?_⟩ <;> decide +kernel

theorem test_start_afresh_hypotheses :
    ({ board with droop := true }).powered = true ∧
    (driving (.answer ⟨.grant 0 0, .seal, 3, 9, 0⟩) (frame .grant 3 [9, 0, 0, 0]) true).outstanding =
      some ⟨frame .grant 3 [9, 0, 0, 0], 197, .answer ⟨.grant 0 0, .seal, 3, 9, 0⟩, true, true⟩ := by
  decide +kernel

theorem test_power_loss_hypotheses :
    board.powered = true ∧ board.op = none ∧
    (after (.powerLoss 2 passes) { board with op := some ⟨.program 2 1 [7], .batch, 7⟩ }).store.cells =
      [(2048 * 2 + 32, 7)] ∧
    (after (.powerLoss 2 passes) { board with op := some ⟨.erase 3, .eraseObsolete, 1⟩ }).powered = false := by
  decide +kernel

theorem test_own_key_hypotheses :
    let key : List UniBeat := (keySymbols 69).map fun s => ⟨s, false⟩
    board.session.inGame = true ∧ senderOf key = board.tile ∧ board.outstanding = none ∧
    senderOf [] ≠ board.tile ∧ bare.session.inGame = false ∧
    (after (.duplicateKey 1 key) board).session = .silent := by decide +kernel

/-- A tile that contends under key 197 hears its own number in a key it loses to, not in the one it drives (R90). -/
theorem test_own_key_contending :
    let s := driving (.hail false false false false) board.hailFrame false
    let key := fun (n : Nat) => (keySymbols n).map fun x => (⟨x, false⟩ : UniBeat)
    keyLine (key 69) = keySymbols 69 ∧ losesKey 197 (keyLine (key 69)) = true ∧ senderOf (key 69) = s.tile ∧
    exec (.contentionLost 1 (some (keyLine (key 69)))) s =
      .next (after (.contentionLost 1 (some (keyLine (key 69)))) s) ∧
    (after (.duplicateKey 1 (key 69)) s).session = .silent ∧ (after (.duplicateKey 1 (key 69)) s).losses = 1 ∧
    losesKey 197 (keyLine (key 197)) = false ∧ senderOf (key 197) = s.tile ∧
    after (.duplicateKey 1 (key 197)) s = s.advance 1 := by
  refine ⟨?_, ?_, ?_, rfl, ?_, ?_, ?_, ?_, ?_⟩ <;> decide +kernel

/-! ## The line's code -/

theorem test_received_as_sent_hypotheses :
    67 % 64 = 3 ∧ FrameKind.ask.lengthOk 0 = true ∧ FrameKind.loadPart.lengthOk 36 = true ∧
    255 % 64 = 63 ∧ 62 % 64 = 62 := by decide

theorem test_longest_frame :
    receive (undisturbed 62 62 ⟨.loadPart, true, 63, (List.range 36).map (BitVec.ofNat 8)⟩) =
      .good ⟨62, .loadPart, true, 63, (List.range 36).map (BitVec.ofNat 8), 0⟩ := by decide +kernel

theorem test_ignored_hypotheses :
    senderOf ((keySymbols 64).map fun s => ⟨s, false⟩) = 0 ∧ senderOf [] = 63 ∧
    (starting ⟨.read 0 0, .startRead 0, 0⟩).session = .starting ∧
    Instr.cue 1 (from3 (frame .cue 0 [7])) ∈ frameRows 1 (from3 (frame .cue 0 [7])) := by decide +kernel

/-- Nothing is received while the tile drives a frame that it has won with (R103). -/
theorem test_driving_receives_nothing :
    let s := driving (.queue (.cue 7)) (frame .cue 0 [7]) true
    s.driving = true ∧ after (.cue 1 (from3 (frame .cue 0 [7]))) s = s.advance 1 ∧
    after (.duplicateKey 1 ((keySymbols 69).map fun s => ⟨s, false⟩)) s = s.advance 1 ∧
    (after (.cue 1 (from3 (frame .cue 0 [7]))) { board with session := .silent }).line = .quiet 1 := by
  decide +kernel

theorem test_lowest_key : losesKey 255 (keySymbols 254) = true ∧ losesKey 1 (keySymbols 0) = true := by decide

/-! ## The Roster -/

/-- A frame of station `n` that misses sync. -/
def spoilt (n : Nat) : Reception := ⟨(keySymbols n).map fun s => ⟨s, false⟩, [], [], []⟩

theorem test_faulty_hypotheses :
    receive (spoilt 3) = .faulty 3 .syncMiss ∧ board.peer 3 = some peer3 ∧ peer3.counted + 1 < 16 ∧
    receive (spoilt 9) = .faulty 9 .syncMiss ∧ board.peer 9 = some peer9 ∧
    receive (spoilt 40) = .faulty 40 .syncMiss ∧ board.peer 40 = none := by decide +kernel

theorem test_grading_hypotheses :
    (∀ n, FrameGrade.good 5 = .good n → 9 = 4 + n ∧ 1 = 1) ∧ (FrameGrade.good 5 = .fault → 9 = 4 + 64 ∧ 1 = 2) ∧
    ({ peer3 with counted := 15 }).counted = 15 ∧ peer3.counted < 15 := by
  refine ⟨fun n h => ?_, fun h => ?_, rfl, by decide⟩
  · cases h
    exact ⟨rfl, rfl⟩
  · cases h

/-- A HAIL's content from station 3. -/
def content (epoch : Byte) (first size : Nat) (serial : Byte) : HailContent :=
  ⟨epoch, first, size, 0, serial, []⟩

theorem getsHail_of {s : State} {h : HailContent}
    (hk : (s.powered && s.session.inGame && !s.driving && decide (3 ≠ s.tile) && decide (h.first < 256 ∧ h.size < 256 ∧
      h.poor.length ≤ 4) && h.poor.all (fun n => decide (n < 256)) &&
      decide (receive (from3 ⟨.hail, false, 0, hailBody h 3⟩) =
        .good (good3 ⟨.hail, false, 0, hailBody h 3⟩))) = true) :
    s.getsHail (from3 ⟨.hail, false, 0, hailBody h 3⟩) (good3 ⟨.hail, false, 0, hailBody h 3⟩) h := by
  simp only [Bool.and_eq_true, Bool.not_eq_true', decide_eq_true_eq, List.all_eq_true] at hk
  obtain ⟨⟨⟨⟨⟨⟨h1, h2⟩, hd⟩, h3⟩, h4⟩, h5⟩, h6⟩ := hk
  exact ⟨h1, h2, hd, h6, h3, rfl, h4.1, h4.2.1, h4.2.2, h5, 3, rfl⟩

/-- The board before it has heard of any peer. -/
def alone : State := { board with roster := [] }

/-- A board whose roster is full of PRESENT entries other than tile 3's. -/
def crowded : State :=
  { board with roster := (List.range 48).map fun i => { peer3 with tile := i + 8, first := 0, size := 0 } }

theorem test_new_peer_hypotheses :
    alone.getsHail (from3 ⟨.hail, false, 0, hailBody (content 1 20 4 0) 3⟩)
      (good3 ⟨.hail, false, 0, hailBody (content 1 20 4 0) 3⟩) (content 1 20 4 0) ∧
    alone.peer 3 = none ∧ alone.roster.length < 48 ∧ ¬ alone.yieldsTo 3 (content 1 20 4 0) ∧
    ahead (content 1 20 4 0).serial alone.serial = false ∧
    crowded.getsHail (from3 ⟨.hail, false, 0, hailBody (content 1 20 4 0) 3⟩)
      (good3 ⟨.hail, false, 0, hailBody (content 1 20 4 0) 3⟩) (content 1 20 4 0) ∧
    crowded.peer 3 = none ∧ 48 ≤ crowded.roster.length ∧ (∀ p ∈ crowded.roster, p.present = true) := by
  refine ⟨getsHail_of (by decide +kernel), by decide +kernel, by decide +kernel, ?_, by decide,
    getsHail_of (by decide +kernel), by decide +kernel, by decide +kernel, by decide +kernel⟩
  rintro ⟨-, -, m, h1, h2, h3, -⟩
  change 10 ≤ m at h1
  change m < 10 + 4 at h2
  change 20 ≤ m at h3
  omega

/-- A full roster with one SILENT entry, which the new peer replaces (R79). -/
theorem test_replaced_peer_hypotheses :
    let s := { crowded with roster := crowded.roster.set 20 { peer9 with tile := 28 } }
    48 ≤ s.roster.length ∧ s.peer 3 = none ∧ s.rosterOk ∧ s.peer 28 = some { peer9 with tile := 28 } ∧
    (∀ q ∈ s.roster, q.present = false → q = { peer9 with tile := 28 }) ∧
    s.isWatched 20 = true ∧ s.session.onBoard = true ∧ s.transmit.length < 8 := by
  refine ⟨by decide +kernel, by decide +kernel, ⟨by decide +kernel, by decide +kernel, by decide +kernel,
    fun h => ?_⟩, by decide +kernel, by decide +kernel, by decide +kernel, rfl, by decide +kernel⟩
  rcases h with h | h | h <;> cases h

theorem test_known_peer_hypotheses :
    board.getsHail (from3 ⟨.hail, false, 0, hailBody (content 1 20 4 0) 3⟩)
      (good3 ⟨.hail, false, 0, hailBody (content 1 20 4 0) 3⟩) (content 1 20 4 0) ∧
    board.peer 3 = some peer3 ∧ peer3.present = true ∧ peer3.epoch = (content 1 20 4 0).epoch ∧
    peer3.first = (content 1 20 4 0).first ∧ peer3.size = announcedSize (content 1 20 4 0) ∧
    ¬ board.yieldsTo 3 (content 1 20 4 0) := by
  refine ⟨getsHail_of (by decide +kernel), by decide +kernel, rfl, rfl, rfl, by decide, ?_⟩
  rintro ⟨-, -, m, h1, h2, h3, -⟩
  change 10 ≤ m at h1
  change m < 10 + 4 at h2
  change 20 ≤ m at h3
  omega

theorem test_new_epoch_hypotheses :
    board.getsHail (from3 ⟨.hail, false, 0, hailBody (content 2 20 4 0) 3⟩)
      (good3 ⟨.hail, false, 0, hailBody (content 2 20 4 0) 3⟩) (content 2 20 4 0) ∧
    peer3.epoch ≠ (content 2 20 4 0).epoch ∧ board.route 20 = .peer 3 ∧
    board.mark 20 = .replica Replica.blank := by
  refine ⟨getsHail_of (by decide +kernel), by decide, by decide +kernel, by decide +kernel⟩

theorem test_overlap_hypotheses :
    board.getsHail (from3 ⟨.hail, false, 0, hailBody (content 1 13 8 0) 3⟩)
      (good3 ⟨.hail, false, 0, hailBody (content 1 13 8 0) 3⟩) (content 1 13 8 0) ∧
    peer3.epoch = (content 1 13 8 0).epoch ∧ board.yieldsTo 3 (content 1 13 8 0) ∧
    ahead (content 1 13 8 0).serial board.serial = false := by
  refine ⟨getsHail_of (by decide +kernel), rfl, ⟨.inr rfl, by decide, 13, ?_⟩, by decide⟩
  decide +kernel

/-- Peer 3 while it is SILENT. -/
def quiet3 : Peer := { peer3 with present := false, silenceAt := none, removalAt := some 60000000 }

/-- The board after peer 3 fell silent. -/
def hushed : State :=
  { board with
    roster := [quiet3, peer9]
    routes := List.replicate 10 .none ++ List.replicate 4 .self ++ List.replicate 242 .none }

theorem test_deadline_hypotheses :
    board.peer 3 = some peer3 ∧ peer3.silenceAt = some 7500000 ∧ board.marks.length = 256 ∧
    board.peer 9 = some peer9 ∧ peer9.removalAt = some 60000000 ∧ board.now + 60000000 ≥ 60000000 ∧
    (after (.silenceDeadline 7499999 3) board).roster = board.roster ∧
    (after (.removalDeadline 59999999 9) board).roster.length = 2 := by decide +kernel

theorem board_routesOk : board.routesOk := by
  have h : (List.range 256).all (fun m => board.route m == board.routeOf m) = true := by decide +kernel
  intro m hm
  exact eq_of_beq (List.all_eq_true.mp h m (List.mem_range.mpr hm))

theorem test_removal_hypotheses : board.rosterOk ∧ board.marksOk := by
  refine ⟨⟨by decide, by decide, by decide, fun h => ?_⟩, by decide +kernel, ?_⟩
  · rcases h with h | h | h <;> cases h
  · have h : board.marks.all (fun e => match e with
      | .owned o => decide (o.value ≤ o.kind.max ∧ o.initial ≤ o.kind.max ∧
          (o.sealed = true → o.value = o.initial ∧ o.version = 0 ∧ o.announce = false ∧
            o.pending = none ∧ o.cause = none))
      | .replica r => decide (r.value ≤ 99)) = true := by decide +kernel
    intro e he
    have he' := List.all_eq_true.mp h e he
    cases e with
    | owned o => exact of_decide_eq_true (p := o.value ≤ o.kind.max ∧ o.initial ≤ o.kind.max ∧
        (o.sealed = true → o.value = o.initial ∧ o.version = 0 ∧ o.announce = false ∧
          o.pending = none ∧ o.cause = none)) he'
    | replica r => exact of_decide_eq_true (p := r.value ≤ 99) he'

/-- HAILs of a known peer that change its window, or bring it back from SILENT, or report a newer serial (R80, R84,
R86, R91). -/
theorem test_hail_news :
    let c := content 1 20 5 0
    let anew := content 1 20 4 1
    let at' := fun (h : HailContent) (s : State) => after (.hail 1 (from3 ⟨.hail, false, 0, hailBody h 3⟩)) s
    board.getsHail (from3 ⟨.hail, false, 0, hailBody c 3⟩) (good3 ⟨.hail, false, 0, hailBody c 3⟩) c ∧
    board.getsHail (from3 ⟨.hail, false, 0, hailBody anew 3⟩) (good3 ⟨.hail, false, 0, hailBody anew 3⟩) anew ∧
    ¬ board.yieldsTo 3 c ∧ peer3.size ≠ announcedSize c ∧ board.marks.length = 256 ∧
    (at' c board).route 24 = .peer 3 ∧ (hushed.peer 3).map (·.present) = some false ∧
    ((at' c hushed).peer 3).map (·.present) = some true ∧ (at' c hushed).route 20 = .peer 3 ∧
    (at' (content 2 20 4 0) hushed).transmit = [.ask 3] ∧
    ahead anew.serial board.serial = true ∧ board.rosterOk ∧ (at' anew board).serial = 1 ∧
    (at' anew board).epoch = 5 ∧ (at' anew board).transmit = [.ask 3] := by
  refine ⟨getsHail_of (by decide +kernel), getsHail_of (by decide +kernel), ?_, by decide, by decide +kernel,
    by decide +kernel, by decide +kernel, by decide +kernel, by decide +kernel, by decide +kernel, by decide,
    test_removal_hypotheses.1, by decide +kernel, by decide +kernel, by decide +kernel⟩
  rintro ⟨-, -, m, h1, h2, h3, -⟩
  change 10 ≤ m at h1
  change m < 10 + 4 at h2
  change 20 ≤ m at h3
  omega

/-- The first HAIL of a lower-numbered tile, and one of a SILENT one, whose windows overlap. -/
theorem test_first_overlap :
    let h := content 1 13 8 0
    let t := fun (s : State) => after (.hail 1 (from3 ⟨.hail, false, 0, hailBody h 3⟩)) s
    alone.yieldsTo 3 h ∧ alone.peer 3 = none ∧ alone.roster.length < 48 ∧ (hushed.peer 3).isSome = true ∧
    [(t alone).winSize, (t hushed).winSize] = [0, 0] ∧ (t alone).health.withdrawn = true ∧
    (t alone).route 13 = .peer 3 ∧ ((t alone).peer 3).map (·.size) = some 8 ∧ (t hushed).route 13 = .peer 3 := by
  refine ⟨⟨.inr rfl, by decide, 13, ?_⟩, ?_⟩
  · decide +kernel
  · decide +kernel

theorem getsSilent_of {s : State} {f : Frame} {p : Peer}
    (h : (s.powered && s.session.inGame && !s.driving && decide (receive (from3 f) = .good (good3 f)) &&
      decide (3 ≠ s.tile) && decide (s.peer 3 = some p) && !p.present) = true) :
    s.getsSilent (from3 f) (good3 f) p := by
  simp only [Bool.and_eq_true, Bool.not_eq_true', decide_eq_true_eq] at h
  exact ⟨h.1.1.1.1.1.1, h.1.1.1.1.1.2, h.1.1.1.1.2, h.1.1.1.2, h.1.1.2, h.1.2, h.2⟩

/-- Good frames of a SILENT sender: it is PRESENT and routed to before they are taken (R80, R88). -/
theorem test_silent_hypotheses :
    hushed.getsSilent (from3 (frame .cue 0 [7])) (good3 (frame .cue 0 [7])) quiet3 ∧
    hushed.getsSilent (from3 (frame .ask 5 [])) (good3 (frame .ask 5 [])) quiet3 ∧
    hushed.getsSilent (from3 (frame .update 0 [1, 20, 9, 1, 0, 0]))
      (good3 (frame .update 0 [1, 20, 9, 1, 0, 0])) quiet3 := by
  refine ⟨getsSilent_of ?_, getsSilent_of ?_, getsSilent_of ?_⟩ <;> decide +kernel

theorem test_silent_cue :
    (after (.cue 1 (from3 (frame .cue 0 [7]))) hushed).inbox = [.event (.cue 7) 0] ∧
    (after (.cue 1 (from3 (frame .cue 0 [7]))) hushed).route 20 = .peer 3 ∧
    ((after (.cue 1 (from3 (frame .cue 0 [7]))) hushed).peer 3).map (·.present) = some true ∧
    (after (.ask 1 (from3 (frame .ask 5 []))) hushed).run = ⟨true, 10, false⟩ := by decide +kernel

theorem test_silent_update :
    (after (.update 1 (from3 (frame .update 0 [1, 20, 9, 1, 0, 0]))) hushed).mark 20 = .replica ⟨9, 1, 1, .fresh⟩ ∧
    (after (.update 1 (from3 (frame .update 0 [1, 20, 9, 1, 0, 0]))) hushed).inbox = [.event (.mark 20) 0] := by
  decide +kernel

/-- A window from 20 on shares no mark with the board's. -/
theorem no_overlap {s : State} (hf : s.winFirst = 10) (hs : s.winSize = 4) (e : Byte) (n : Nat) (g : Byte) :
    ¬ s.yieldsTo 3 (content e 20 n g) := by
  rintro ⟨-, -, m, -, h2, h3, -⟩
  have h3 : 20 ≤ m := h3
  omega

/-- A full roster with one SILENT entry. -/
def brimful : State := { crowded with roster := crowded.roster.set 20 { peer9 with tile := 28 } }

/-- A HAIL of station 3 heard. -/
def hailed (h : HailContent) (s : State) : State := after (.hail 1 (from3 ⟨.hail, false, 0, hailBody h 3⟩)) s

theorem test_places :
    alone.givesPlace none ∧ brimful.givesPlace (some 28) ∧ alone.rosterOk ∧ brimful.rosterOk ∧
    brimful.getsHail (from3 ⟨.hail, false, 0, hailBody (content 1 20 4 0) 3⟩)
      (good3 ⟨.hail, false, 0, hailBody (content 1 20 4 0) 3⟩) (content 1 20 4 0) ∧
    ¬ brimful.yieldsTo 3 (content 1 20 4 0) := by
  have hb : ∀ q ∈ brimful.roster, q.present = false → q = { peer9 with tile := 28 } := by decide +kernel
  refine ⟨.inl ⟨by decide, rfl⟩, .inr ⟨by decide, { peer9 with tile := 28 }, by decide +kernel, rfl, rfl,
      fun q hq hp => .inr ?_⟩, ⟨by decide, by decide, by decide, fun h => ?_⟩,
    ⟨by decide +kernel, by decide +kernel, by decide +kernel, fun h => ?_⟩, getsHail_of (by decide +kernel),
    no_overlap rfl rfl 1 4 0⟩
  · rw [hb q hq hp]
    exact ⟨rfl, Nat.le_refl _⟩
  · rcases h with h | h | h <;> cases h
  · rcases h with h | h | h <;> cases h

theorem test_first_hail :
    let t := hailed (content 1 20 4 0) alone
    let u := hailed (content 1 20 4 1) alone
    let v := hailed (content 1 20 4 0) brimful
    t.peer 3 = some { peer3 with lastHeard := 1, silenceAt := some 7500001, counted := 1 } ∧ t.route 20 = .peer 3 ∧
    t.mark 20 = .replica ⟨0, 0, 0, .unknown⟩ ∧ t.transmit = [.ask 3] ∧ t.serial = 0 ∧ u.serial = 1 ∧
    (v.peer 28).isSome = false ∧ (v.peer 3).isSome = true ∧ v.roster.length = 48 ∧
    (hailed (content 1 20 4 0) crowded).health.rosterFull = true := by decide +kernel

/-! ## Marks and claims -/

theorem test_update_hypotheses :
    board.gets (from3 (frame .update 0 [1, 20, 9, 1, 0, 0])) (good3 (frame .update 0 [1, 20, 9, 1, 0, 0])) ∧
    board.route 20 = .peer 3 ∧ board.sameGame 3 ∧ board.mark 20 = .replica Replica.blank ∧
    board.engineQueue.length < 32 ∧ (0 : Byte).toNat ≠ board.tile ∧
    (after (.update 1 (from3 (frame .update 0 [1, 20, 9, 1, 0, 0]))) board).inbox = [.event (.mark 20) 0] := by
  refine ⟨gets_of (by decide +kernel), by decide +kernel, sameGame_of (by decide), by decide +kernel,
    by decide, by decide, by decide +kernel⟩

/-- A replica of mark 20 that is FRESH at version 5 of epoch 1. -/
def settled : State := board.modifyReplica 20 fun _ => ⟨9, 5, 1, .fresh⟩

/-- The two versions where acceptance turns: 127 ahead is taken, 128 ahead dropped, as is a value of 100. -/
theorem test_update_boundaries :
    settled.mark 20 = .replica ⟨9, 5, 1, .fresh⟩ ∧ settled.sameGame 3 ∧
    settled.gets (from3 (frame .update 0 [1, 20, 8, 133, 0, 0])) (good3 (frame .update 0 [1, 20, 8, 133, 0, 0])) ∧
    settled.gets (from3 (frame .update 0 [1, 20, 100, 6, 0, 0])) (good3 (frame .update 0 [1, 20, 100, 6, 0, 0])) ∧
    (after (.update 1 (from3 (frame .update 0 [1, 20, 8, 132, 0, 0]))) settled).mark 20 =
      .replica ⟨8, 132, 1, .fresh⟩ ∧
    (after (.update 1 (from3 (frame .update 0 [1, 20, 8, 133, 0, 0]))) settled).mark 20 = settled.mark 20 := by
  refine ⟨by decide +kernel, sameGame_of (by decide +kernel), gets_of (by decide +kernel),
    gets_of (by decide +kernel), by decide +kernel, by decide +kernel⟩

theorem test_snapshot_hypotheses :
    board.gets (from3 (frame .snapshot 0 [1, 20, 2, 5, 1, 99, 0]))
      (good3 (frame .snapshot 0 [1, 20, 2, 5, 1, 99, 0])) ∧
    (∀ i < 2, (20 + i ≤ 255 ∧ numAt (frame .snapshot 0 [1, 20, 2, 5, 1, 99, 0]).body (3 + 2 * i) ≤ 99) ∧
      board.route (20 + i) = .peer 3 ∧ board.mark (20 + i) = .replica Replica.blank) ∧
    snapshotCountOk (frame .snapshot 0 [1, 20, 2, 5, 1, 99, 0]).body = true ∧
    (after (.snapshot 1 (from3 (frame .snapshot 0 [1, 20, 2, 5, 1, 99, 0]))) board).mark 21 =
      .replica ⟨99, 0, 1, .fresh⟩ := by
  refine ⟨gets_of (by decide +kernel), by decide +kernel, by decide, by decide +kernel⟩

theorem test_remote_claim_hypotheses :
    board.gets (from3 (frame .claim 5 [7, 12, 2, 9, 0])) (good3 (frame .claim 5 [7, 12, 2, 9, 0])) ∧
    board.inWindow 12 = true ∧ board.mark 12 = .owned (own .tally 42) ∧
    decideOp .tally 42 (ClaimOp.ofCode 2) 9 0 = .ok 51 ∧
    board.answers.length + board.loader.seals.length < 8 ∧
    (after (.claim 1 (from3 (frame .claim 5 [7, 12, 2, 9, 0]))) board).answers =
      [⟨.grant 51 1, .claim, 3, 7, 12⟩] := by
  refine ⟨gets_of (by decide +kernel), by decide, by decide +kernel, rfl, by decide, by decide +kernel⟩

/-- A board with eight answers waiting. -/
def answering : State := { board with answers := List.replicate 8 ⟨.refuse .short, .claim, 3, 1, 12⟩ }

/-- A claim turned away: dropped in LISTENING and when addressed elsewhere, with no room, for want of the
mark, for a sealed one, by the operation check. -/
theorem test_claim_turned_away_hypotheses :
    ({ board with session := .listening }).gets (from3 (frame .claim 5 [7, 12, 2, 9, 0]))
      (good3 (frame .claim 5 [7, 12, 2, 9, 0])) ∧
    (good3 (frame .claim 6 [7, 12, 2, 9, 0])).addressee ≠ board.tile ∧
    answering.gets (from3 (frame .claim 5 [7, 12, 2, 9, 0])) (good3 (frame .claim 5 [7, 12, 2, 9, 0])) ∧
    8 ≤ answering.answers.length ∧
    board.inWindow 14 = false ∧ board.mark 13 = .owned { own .flag 1 with sealed := true } ∧
    decideOp .tally 42 (ClaimOp.ofCode 3) 43 0 = .error .short ∧
    (after (.claim 1 (from3 (frame .claim 5 [7, 14, 2, 9, 0]))) board).answers =
      [⟨.refuse .notOwner, .claim, 3, 7, 14⟩] ∧
    (after (.claim 1 (from3 (frame .claim 5 [7, 13, 1, 1, 0]))) board).answers =
      [⟨.refuse .sealed, .claim, 3, 7, 13⟩] := by
  refine ⟨gets_of (by decide +kernel), by decide, gets_of (by decide +kernel), by decide, by decide,
    by decide +kernel, rfl, by decide +kernel, by decide +kernel⟩

theorem test_set_and_swap_boundaries :
    decideOp .level 3 (some .set) 15 0 = .ok 15 ∧ decideOp .level 3 (some .set) 16 0 = .error .range ∧
    decideOp .tally 3 (some .swap) 3 99 = .ok 99 ∧ decideOp .tally 3 (some .swap) 3 100 = .error .range ∧
    decideOp .tally 3 (some .swap) 4 5 = .error .mismatch := ⟨rfl, rfl, rfl, rfl, rfl⟩

theorem test_amount_boundaries :
    MarkKind.level ≠ .tally ∧ 15 ≤ MarkKind.level.max ∧
    decideOp .level 15 (some .take) 99 0 = .error .short ∧ decideOp .level 15 (some .take) 15 0 = .ok 0 ∧
    decideOp .tally 99 (some .take) 99 0 = .ok 0 ∧ decideOp .tally 0 (some .add) 99 0 = .ok 99 ∧
    decideOp .flag 1 (some .take) 0 0 = .error .range ∧ decideOp .level 1 (some .add) 100 0 = .error .range ∧
    decideOp .tally 5 (some .take) 100 0 = .error .range ∧ decideOp .tally 5 (some .add) 0 0 = .error .range := by
  decide

/-- A claim of step 0 for mark 20, SENT with a deadline. -/
def claim7 : ClaimEntry := ⟨7, 0, 20, .add, 1, 0, 3, .sent 300000⟩

/-- The board with that claim. -/
def claiming : State := { board with claims := [claim7] }

theorem test_answer_hypotheses :
    claiming.gets (from3 (frame .grant 5 [7, 20, 1, 1])) (good3 (frame .grant 5 [7, 20, 1, 1])) ∧
    claiming.gets (from3 (frame .refuse 5 [7, 20, 1])) (good3 (frame .refuse 5 [7, 20, 1])) ∧
    claiming.gets (from3 (frame .update 0 [1, 20, 1, 1, 5, 7])) (good3 (frame .update 0 [1, 20, 1, 1, 5, 7])) ∧
    Reason.ofCode 1 = some .short ∧ claiming.tagsOk ∧ claim7 ∈ claiming.claims ∧
    board.gets (from3 (frame .grant 5 [7, 20, 1, 1])) (good3 (frame .grant 5 [7, 20, 1, 1])) := by
  refine ⟨gets_of (by decide +kernel), gets_of (by decide +kernel), gets_of (by decide +kernel), rfl,
    by simp [State.tagsOk, claiming], List.mem_singleton.mpr rfl, gets_of (by decide +kernel)⟩

theorem test_answers_end_their_entry :
    (after (.grant 1 (from3 (frame .grant 5 [7, 20, 1, 1]))) claiming).inbox = [.answer 0 7 .granted] ∧
    (after (.refuse 1 (from3 (frame .refuse 5 [7, 20, 1]))) claiming).inbox =
      [.answer 0 7 (.refused .short)] ∧
    (after (.refuse 1 (from3 (frame .refuse 5 [8, 20, 1]))) claiming).claims = [claim7] := by decide +kernel

theorem test_claim_deadline_hypotheses :
    claiming.powered = true ∧ claiming.session.inGame = true ∧ claim7.phase = .sent 300000 ∧
    ({ claim7 with phase := .queued }).phase = .queued ∧
    (after (.claimDeadline 299999 7) claiming).claims = [claim7] ∧
    (after (.claimDeadline 300000 7) claiming).inbox = [.answer 0 7 .noAnswer] := by decide +kernel

/-- The board with its snapshot run going on, a SNAPSHOT outstanding. -/
def snapping : State :=
  { board with run := ⟨true, 12, false⟩
               outstanding := some ⟨board.snapshotFrame, 69, .snapshot 2, false, true⟩ }

theorem test_ask_hypotheses :
    board.gets (from3 (frame .ask 5 [])) (good3 (frame .ask 5 [])) ∧
    snapping.gets (from3 (frame .ask 5 [])) (good3 (frame .ask 5 [])) ∧
    board.run.running = false ∧ snapping.snapshotOut = true ∧
    ({ snapping with outstanding := none }).snapshotOut = false ∧ board.winSize ≠ 0 ∧
    (after (.ask 1 (from3 (frame .ask 5 []))) board).run = ⟨true, 10, false⟩ ∧
    (after (.ask 1 (from3 (frame .ask 5 []))) snapping).run = ⟨true, 12, true⟩ := by
  refine ⟨gets_of (by decide +kernel), gets_of (by decide +kernel), rfl, rfl, rfl, by decide, ?_, ?_⟩
  · decide +kernel
  · decide +kernel

/-- Items dropped: for a mark that routes elsewhere, of another game, with a value above 99; of a SILENT sender
one, which is PRESENT all the same (R12, R80). -/
theorem test_update_dropped :
    let up := fun (m v : Nat) => frame .update 0 [1, m, v, 1, 0, 0]
    let t := fun (m v : Nat) (s : State) => after (.update 1 (from3 (up m v))) s
    board.gets (from3 (up 30 9)) (good3 (up 30 9)) ∧ board.gets (from3 (up 20 100)) (good3 (up 20 100)) ∧
    hushed.getsSilent (from3 (up 20 100)) (good3 (up 20 100)) quiet3 ∧ board.route 30 ≠ .peer 3 ∧
    (t 30 9 board).marks = board.marks ∧ (t 20 100 board).marks = board.marks ∧
    (t 20 9 { board with serial := 1 }).marks = board.marks ∧ (t 20 100 hushed).marks = board.marks ∧
    (t 20 100 hushed).route 20 = .peer 3 ∧ (t 20 99 board).mark 20 = .replica ⟨99, 1, 1, .fresh⟩ := by
  refine ⟨gets_of (by decide +kernel), gets_of (by decide +kernel), getsSilent_of (by decide +kernel), ?_⟩
  decide +kernel

theorem test_other_game : ¬ ({ board with serial := 1 }).sameGame 3 := by
  rintro ⟨p, hp, h⟩
  cases (Option.some.inj (show some peer3 = some p from hp))
  cases h

/-- A SNAPSHOT with an item for a mark elsewhere, one that is accepted and one out of range; and bodies whose count is
0, 17 or does not fit (R12, R13, R113). -/
def mixed : Frame := frame .snapshot 0 [1, 19, 3, 5, 1, 8, 6, 100, 1]

theorem test_snapshot_items :
    let t := fun (l : List Nat) (s : State) => after (.snapshot 1 (from3 (frame .snapshot 0 l))) s
    settled.gets (from3 mixed) (good3 mixed) ∧ hushed.getsSilent (from3 mixed) (good3 mixed) quiet3 ∧
    settled.marks.length = 256 ∧ hushed.marks.length = 256 ∧
    [19, 20, 21].map (fun m => settled.passesItem 3 1 m (if m = 19 then 5 else if m = 20 then 8 else 100) 6) =
      [false, true, false] ∧
    [19, 20, 21, 22].map (after (.snapshot 1 (from3 mixed)) settled).mark = [.replica Replica.blank,
      .replica ⟨8, 6, 1, .fresh⟩, .replica Replica.blank, .replica Replica.blank] ∧
    (after (.snapshot 1 (from3 mixed)) settled).inbox = [.event (.mark 20) 0] ∧
    (after (.snapshot 1 (from3 mixed)) hushed).mark 20 = .replica ⟨8, 6, 1, .fresh⟩ ∧
    (after (.snapshot 1 (from3 mixed)) hushed).inbox = [.event (.mark 20) 0] ∧
    (t [1, 20, 0] board).marks = board.marks ∧ (t [1, 20, 2, 5, 1] board).marks = board.marks ∧
    (t ([1, 20, 17] ++ List.replicate 32 1) board).marks = board.marks ∧
    (t [1, 23, 2, 5, 1, 6, 1] board).mark 23 = .replica ⟨5, 1, 1, .fresh⟩ := by
  refine ⟨gets_of (by decide +kernel), getsSilent_of (by decide +kernel), ?_⟩
  decide +kernel

/-- CLAIMs of a SILENT sender: granted, or in LISTENING and of another game dropped (R32, R80). -/
theorem test_silent_claim :
    let c := frame .claim 5 [7, 12, 2, 9, 0]
    let t := fun (s : State) => after (.claim 1 (from3 c)) s
    hushed.getsSilent (from3 c) (good3 c) quiet3 ∧
    ({ hushed with session := .listening }).getsSilent (from3 c) (good3 c) quiet3 ∧
    hushed.inWindow 12 = true ∧ hushed.mark 12 = .owned (own .tally 42) ∧ quiet3.serial = hushed.serial ∧
    (t hushed).answers = [⟨.grant 51 1, .claim, 3, 7, 12⟩] ∧ (t hushed).route 20 = .peer 3 ∧
    (t { hushed with session := .listening }).answers = [] ∧ (t { hushed with serial := 1 }).answers = [] ∧
    ((t { hushed with serial := 1 }).peer 3).map (·.present) = some true := by
  refine ⟨getsSilent_of (by decide +kernel), getsSilent_of (by decide +kernel), ?_⟩
  decide +kernel

/-! ## Session Control -/

theorem test_new_game_hypotheses :
    board.gets (from3 (frame .newGame 0 [1])) (good3 (frame .newGame 0 [1])) ∧ (1 : Byte) ≠ board.serial ∧
    board.gets (from3 (frame .newGame 0 [0])) (good3 (frame .newGame 0 [0])) ∧ (0 : Byte) = board.serial ∧
    board.rosterOk ∧ board.op = none ∧
    (after (.newGame 1 (from3 (frame .newGame 0 [1]))) board).epoch = 5 ∧
    (after (.newGame 1 (from3 (frame .newGame 0 [1]))) board).transmit = [.ask 3] := by
  refine ⟨gets_of (by decide +kernel), by decide, gets_of (by decide +kernel), rfl, test_removal_hypotheses.1, rfl,
    by decide +kernel, by decide +kernel⟩

/-- The board at rest, an event held on pad 1. -/
def resting : State :=
  { board with session := .rest, pads := (board.pads.set 1 ⟨.occupied (some 4) none, some (.placed 4)⟩) }

theorem test_rest_hypotheses :
    board.gets (from3 (frame .rest 0 [])) (good3 (frame .rest 0 [])) ∧
    resting.gets (from3 (frame .rest 0 [])) (good3 (frame .rest 0 [])) ∧
    ({ board with session := .listening }).gets (from3 (frame .rest 0 [])) (good3 (frame .rest 0 [])) ∧
    (after (.rest 1 (from3 (frame .rest 0 []))) board).hail.due = some (1 + 8 * 2040000) := by
  refine ⟨gets_of (by decide +kernel), gets_of (by decide +kernel), gets_of (by decide +kernel), ?_⟩
  decide +kernel

theorem test_wake_hypotheses :
    resting.gets (from3 (frame .wake 0 [])) (good3 (frame .wake 0 [])) ∧
    board.gets (from3 (frame .wake 0 [])) (good3 (frame .wake 0 [])) ∧
    ({ board with session := .listening }).gets (from3 (frame .wake 0 [])) (good3 (frame .wake 0 [])) ∧
    resting.engineQueue.length ≤ 26 ∧
    (after (.wake 1 (from3 (frame .wake 0 []))) resting).inbox = [.event (.pad 1 (.placed 4)) 0] := by
  refine ⟨gets_of (by decide +kernel), gets_of (by decide +kernel), gets_of (by decide +kernel), by decide, ?_⟩
  decide +kernel

/-- The board before its listening deadline. -/
def listening : State := { board with session := .listening, listenAt := some 4000000 }

theorem test_listening_hypotheses :
    listening.powered = true ∧ listening.listenAt = some 4000000 ∧
    listening.transmit.length + listening.roster.length ≤ 8 ∧ listening.watchesIn peer3 = true ∧
    (after (.listeningDeadline 3999999) listening).session = .listening ∧
    (after (.listeningDeadline 4000000) listening).transmit = [.ask 3] ∧
    (after (.listeningDeadline 4000000) { listening with restOwed := true }).session = .rest := by
  decide +kernel

/-- The same at a full transmit queue: the ASK is dropped with OVERRUN. -/
theorem test_listening_full :
    let full := { listening with transmit := List.replicate 8 (.cue 1) }
    full.rosterOk ∧ full.transmit.length ≤ 8 ∧
    (after (.listeningDeadline 4000000) full).transmit = full.transmit ∧
    (after (.listeningDeadline 4000000) full).health.overrun = true := by
  refine ⟨⟨by decide, by decide, by decide, fun h => ?_⟩, ?_⟩
  · rcases h with h | h | h <;> cases h
  · decide +kernel

/-- NEW_GAME, REST and WAKE of a SILENT sender (R80, R187 to R190). -/
theorem test_silent_session :
    let g := frame .newGame 0 [1]
    let r := frame .rest 0 []
    let w := frame .wake 0 []
    let asleep := { hushed with session := .rest, pads := resting.pads }
    hushed.getsSilent (from3 g) (good3 g) quiet3 ∧ hushed.getsSilent (from3 r) (good3 r) quiet3 ∧
    asleep.getsSilent (from3 w) (good3 w) quiet3 ∧ hushed.rosterOk ∧
    (after (.newGame 1 (from3 g)) hushed).epoch = 5 ∧ (after (.newGame 1 (from3 g)) hushed).transmit = [.ask 3] ∧
    (after (.newGame 1 (from3 (frame .newGame 0 [0]))) hushed).epoch = 4 ∧
    (after (.rest 1 (from3 r)) hushed).session = .rest ∧
    (after (.wake 1 (from3 w)) asleep).session = .play ∧
    (after (.wake 1 (from3 w)) asleep).inbox = [.event (.pad 1 (.placed 4)) 0] ∧
    ((after (.wake 1 (from3 w)) asleep).peer 3).map (·.present) = some true := by
  refine ⟨getsSilent_of (by decide +kernel), getsSilent_of (by decide +kernel), getsSilent_of (by decide +kernel),
    ⟨by decide, by decide, by decide, fun h => ?_⟩, ?_⟩
  · rcases h with h | h | h <;> cases h
  · decide +kernel

/-- The listening deadline with a run going on, with a SNAPSHOT outstanding or not, and with an empty window. -/
theorem test_listening_runs :
    let t := fun (s : State) => after (.listeningDeadline 4000000) s
    let l := { snapping with session := .listening, listenAt := some 4000000 }
    l.snapshotOut = true ∧ (t l).run = ⟨true, 12, true⟩ ∧ (t { l with outstanding := none }).run = ⟨true, 10, false⟩ ∧
    (t { listening with winSize := 0 }).run = listening.run ∧ (t listening).run = ⟨true, 10, false⟩ ∧
    (t listening).hail.immediate = true := by decide +kernel

/-! ## Sending -/

/-- The board with a mark to announce. -/
def telling : State := board.setAnnounce 11 true

theorem test_gap_hypotheses :
    board.outstanding = none ∧ board.droop = false ∧ board.session.onBoard = true ∧
    ({ board with now := 3040000 }).hailIsOverdue = true ∧ (board.advance 1).hailIsOverdue = false ∧
    ({ board with now := 2040000 }).hailIsDue = true ∧ (board.advance 1).hailIsDue = false ∧
    answering.answers ≠ [] ∧ telling.slateMark = some 11 ∧ board.slateMark = none ∧
    ({ board with transmit := [.cue 7] }).transmit = [.cue 7] ∧
    ({ board with droop := true }).droop = true ∧ bare.session.blankTile = true ∧
    bare.answers = [] ∧ bare.hailIsDue = false ∧
    ({ bare with now := 1, hail := ⟨some 1, false, none⟩ }).hailIsDue = true ∧
    ({ bare with now := 1, hail := ⟨some 1, false, none⟩ }).hailIsOverdue = false := by decide +kernel

/-- The line: a gap too early and one in STARTING change nothing; on a line that is idle already HAIL_DUE finds
the HAIL due, and a frame that becomes ready is chosen at once (R99, R117). -/
theorem test_idle_line :
    board.line = .quiet 0 ∧ after (.gap 319) board = board.advance 319 ∧
    (after (.gap 320) board).line = .idle ∧
    after (.gap 1) { board with line := .busy } = ({ board with line := .busy }).advance 1 ∧
    (after (.hailDue 2040000) { board with line := .idle }).outstanding.map (·.frame.kind) = some .hail ∧
    (after (.gateEnd 8000 [920, 3000]) { board with
      session := .rest, line := .idle, pads := board.pads.set 0 ⟨.occupied (some 2) (some 9), none⟩ }).outstanding.map
        (·.source) = some (.queue .wake) ∧
    (after (.gap 320) { board with droop := true, hail := ⟨none, true, none⟩ }).outstanding = none := by
  decide +kernel

theorem test_gap_order :
    (after (.gap 320) telling).outstanding.map (·.source) = some (.slate 11) ∧
    (after (.gap 320) { board with transmit := [.cue 7] }).outstanding.map (·.source) =
      some (.queue (.cue 7)) ∧
    (after (.gap 320) board).outstanding = none := by decide +kernel

theorem test_contending_hypotheses :
    (after (.gap 320) { answering with losses := 8 }).outstanding.map (·.key) = some 5 ∧
    (after (.gap 320) answering).outstanding.map (·.key) = some 69 := by decide +kernel

theorem test_contention_hypotheses :
    (driving (.hail false false false false) board.hailFrame false).outstanding =
      some ⟨board.hailFrame, 197, .hail false false false false, false, true⟩ ∧
    losesKey 197 (keySymbols 41) = true ∧ losesKey 197 (keySymbols 197) = false ∧
    (driving (.slate 11) (frame .update 0 [4, 11, 7, 0, 0, 0]) false).outstanding =
      some ⟨frame .update 0 [4, 11, 7, 0, 0, 0], 197, .slate 11, false, true⟩ := by decide +kernel

theorem test_contention_answers :
    (after (.contentionLost 1 (some (keySymbols 41)))
      (driving (.hail false false false false) board.hailFrame false)).losses = 1 ∧
    (after (.contentionWon 1 (keySymbols 197))
      (driving (.hail false false false false) board.hailFrame false)).outstanding.map (·.won) =
      some true := by decide +kernel

/-- A lost SNAPSHOT whose run is to begin again, a lost CLAIM whose entry has ended, and a frame of another's on
an idle line. -/
theorem test_lost_frames :
    let snap := { snapping with run := ⟨true, 12, true⟩ }
    let claim := { driving (.queue (.claim 7 20 .add 1 0 3)) (frame .claim 3 [7, 20, 2, 1, 0]) false with
      transmit := [.claim 7 20 .add 1 0 3, .cue 1] }
    (after (.contentionLost 1 none) snap).run = ⟨true, 10, false⟩ ∧
    (after (.contentionLost 1 none) claim).transmit = [.cue 1] ∧
    (after (.contentionLost 1 none) { claim with claims := [claim7] }).transmit = claim.transmit ∧
    (after (.contentionLost 1 none) { board with line := .idle }).line = .busy ∧
    (after (.contentionLost 1 none) board).losses = 0 := by decide +kernel

/-- A SNAPSHOT sent: its run advances, ends at the window's last mark, or begins again; and a frame whose source
holds it no more. -/
theorem test_sent_frames :
    let won := fun (s : State) (x : Bool) =>
      { s with outstanding := s.outstanding.map fun o => { o with won := true, live := x } }
    (after (.frameSent 1 wellRun) (won { snapping with run := ⟨true, 10, false⟩ } true)).run = ⟨true, 12, false⟩ ∧
    (after (.frameSent 1 wellRun) (won snapping true)).run = ⟨false, 14, false⟩ ∧
    (after (.frameSent 1 wellRun) (won { snapping with run := ⟨true, 12, true⟩ } true)).run = ⟨true, 10, false⟩ ∧
    (after (.frameSent 1 wellRun) (won snapping false)).run = snapping.run ∧
    (after (.frameSent 1 wellRun) { driving (.queue .wake) (frame .wake 0 []) true with
      transmit := [.wake, .cue 1] }).transmit = [.cue 1] ∧
    (after (.frameSent 1 wellRun) (driving (.slate 11) (frame .update 0 [4, 11, 7, 0, 0, 0]) true)).line =
      .quiet 1 := by decide +kernel

theorem test_sent_hypotheses :
    let s := { driving (.queue (.claim 7 20 .add 1 0 3)) (frame .claim 3 [7, 20, 2, 1, 0]) true with
      transmit := [.claim 7 20 .add 1 0 3], claims := [{ claim7 with phase := .queued }] }
    s.powered = true ∧ s.outstanding.map (·.won) = some true ∧
    (after (.frameSent 2 wellRun) s).claims = [{ claim7 with phase := .sent 300002 }] ∧
    (after (.frameSent 2 wellRun) s).transmit = [] ∧
    (after (.frameSent 2 wellRun) (driving (.hail true false false false) board.hailFrame true)).hail =
      ⟨some 2040002, false, some 2⟩ ∧
    (after (.frameSent 2 wellRun)
      { driving (.answer ⟨.refuse .short, .claim, 3, 1, 12⟩) (frame .refuse 3 [1, 12, 1]) true with
        answers := [⟨.refuse .short, .claim, 3, 1, 12⟩] }).answers = [] := by decide +kernel

theorem test_hail_due_hypotheses : board.powered = true ∧ board.hail.due = some 2040000 := ⟨rfl, rfl⟩

/-- What the frames carry: a HAIL with two health flags and a poor peer, answers, an UPDATE with and without a cause,
a SNAPSHOT, a CLAIM (R196). -/
theorem test_frame_contents :
    let u := { board with health := { Health.clear with overrun := true, withdrawn := true }
                          roster := [{ peer3 with grade := .poor }, { peer9 with grade := .poor }] }
    let nums := fun (l : List Nat) => l.map (BitVec.ofNat 8)
    u.hailFrame.body = nums [4, 10, 4, 0x24, 0, 3, 1, 3] ∧
    (board.answerFrame ⟨.grant 51 1, .claim, 3, 7, 12⟩).body = nums [7, 12, 51, 1] ∧
    (board.answerFrame ⟨.refuse .short, .claim, 3, 7, 12⟩).body = nums [7, 12, 1] ∧
    (board.answerFrame ⟨.refuse .short, .claim, 3, 7, 14⟩).body = nums [7, 14, 5] ∧
    (board.answerFrame ⟨.refuse .check, .load, 3, 7, 0⟩).body = nums [7, 0, 9] ∧
    (board.updateFrame 11 { own .level 7 with version := 255, cause := some (3, 9) }).body =
      nums [4, 11, 7, 255, 3, 9] ∧
    (board.updateFrame 11 (own .level 7)).body = nums [4, 11, 7, 0, 0, 0] ∧
    snapping.runCount = 2 ∧ snapping.snapshotFrame.body = nums [4, 12, 2, 42, 0, 1, 0] ∧
    (board.queuedFrame (.claim 7 20 .swap 1 2 3)).body = nums [7, 20, 4, 1, 2] ∧ telling.slateMark = some 11 := by
  decide +kernel

/-! ## Pads, timers and outputs -/

theorem test_pad_boundaries :
    padStep 1 (.arriving 0) (.present none) = (.reading 0 none, []) ∧
    padStep 4 (.reading 7 (some 2)) (.present (some 3)) = (.occupied none none, [.misread]) ∧
    padStep 4 (.reading 7 (some 3)) (.present (some 3)) = (.occupied (some 3) none, [.placed 3]) ∧
    padStep 2 (.leaving (some 3) 1) .absent = (.empty, [.lifted (some 3)]) ∧
    padStep 2 (.occupied (some 2) (some 9)) (.present (some 9)) =
      (.occupied (some 9) none, [.lifted (some 2), .placed 9]) := by decide

/-- A pad in LEAVING still holds its piece, and a RECHECK of it emits nothing (R129). -/
theorem test_leaving_holds :
    let s := { board with pads := board.pads.set 0 ⟨.leaving (some 3) 1, none⟩ }
    (s.pad 0).state = .leaving (some 3) 1 ∧ s.padHolds 0 (some 3) = true ∧ s.padHolds 0 (some 4) = false ∧
    s.recheck 0 = s := by decide +kernel

/-- A pad of the board one gate short of PLACED. -/
def reading : State := { board with pads := board.pads.set 0 ⟨.reading 1 (some 4), none⟩ }

theorem test_gate_hypotheses :
    reading.gateStart = some 0 ∧ reading.pads.length = 6 ∧ reading.header.padCount ≤ 6 ∧
    reading.engineQueue.length + (reading.gateEvents [420, 3000]).length ≤ 32 ∧
    (after (.gateEnd 7999 [420, 3000]) reading).inbox = [] ∧
    (after (.gateEnd 8000 [420, 3000]) reading).inbox = [.event (.pad 0 (.placed 4)) 0] := by decide +kernel

/-- The swap of section 6.9: in REST the last enabled event of a pad with wake on is held and wakes it. -/
theorem test_swap_wakes :
    let s := { board with session := .rest, pads := board.pads.set 0 ⟨.occupied (some 2) (some 9), none⟩ }
    (after (.gateEnd 8000 [920, 3000]) s).session = .play ∧
    (after (.gateEnd 8000 [920, 3000]) s).inbox = [.event (.pad 0 (.placed 9)) 0] ∧
    (after (.gateEnd 8000 [920, 3000]) s).transmit = [.wake] := by decide +kernel

/-- Gates in REST and SILENT that hold no event: the machines move, nothing more. -/
theorem test_quiet_gates :
    let still := { reading with
      session := .rest, header := { board5 with pads := List.replicate 6 ⟨true, true, true, false⟩ } }
    still.gateHoldsNone [420, 3000] ∧ ¬ ({ reading with session := .rest }).gateHoldsNone [420, 3000] ∧
    (after (.gateEnd 8000 [420, 3000]) still).session = .rest ∧
    (after (.gateEnd 8000 [420, 3000]) still).pad 0 = ⟨.occupied (some 4) none, none⟩ ∧
    (after (.gateEnd 8000 [420, 3000]) { reading with session := .silent }).pad 0 =
      ⟨.occupied (some 4) none, none⟩ ∧
    (after (.gateEnd 8000 [420, 3000]) { reading with session := .silent }).inbox = [] := by
  refine ⟨fun i hi hw => ?_, fun h => ?_, ?_⟩
  · have : ((List.replicate 6 (⟨true, true, true, false⟩ : PadSetting)).getD i ⟨false, false, false, false⟩).wake = true :=
      hw
    rw [List.getD_eq_getElem?_getD, List.getElem?_replicate] at this
    split at this <;> cases this
  · have := h 0 (by decide) (by decide) (.placed 4) (by decide +kernel)
    revert this
    decide
  · decide +kernel

/-- The board with a timer, a blinking light and a tone. -/
def ticking : State :=
  { board with timers := board.timers.set 1 ⟨true, 12, .eighth, false, 1, 7⟩
               lights := board.lights.set 4 ⟨.blink 24 12, 23⟩
               tones := [⟨7, .half, 8⟩] }

theorem test_tick_hypotheses :
    ticking.lastTick = some 0 ∧ ticking.timers.length = 4 ∧
    (∀ x ∈ ticking.timers, ¬ (x.running = true ∧ x.remaining = 0)) ∧ ticking.toneCount < 8 ∧
    (after (.baseTick 15624) ticking).lights = ticking.lights ∧
    (after (.baseTick 15625) ticking).timer 1 = ⟨true, 12, .eighth, false, 0, 0⟩ ∧
    (after (.baseTick 15625) ticking).lights.getD 4 ⟨.off, 0⟩ = ⟨.blink 24 12, 0⟩ := by decide +kernel

/-- In the other session states the session pattern moves alone, and in LOADING not even that (R142, R146). -/
theorem test_session_ticks :
    let t := fun (x : Session) (n : Nat) => after (.baseTick 15625) { ticking with session := x, sessionPhase := n }
    [(t .rest 94).sessionPhase, (t .rest 95).sessionPhase, (t .unwritten 95).sessionPhase, (t .silent 22).sessionPhase,
      (t .silent 23).sessionPhase, (t .loading 5).sessionPhase] = [95, 0, 0, 23, 0, 5] ∧
    (t .rest 94).timers = ticking.timers ∧ (t .rest 94).lights = ticking.lights ∧ (t .rest 94).toneCount = 0 := by
  decide +kernel

/-- The same, the timer and the tone at their ends. -/
def expiring : State :=
  { ticking with timers := board.timers.set 1 ⟨true, 12, .eighth, false, 0, 0⟩, toneCount := 8 }

theorem test_expiry_hypotheses :
    expiring.timers[1]? = some ⟨true, 12, .eighth, false, 0, 0⟩ ∧ expiring.engineQueue.length < 32 ∧
    expiring.tones = [⟨7, .half, 8⟩] ∧ 8 ≤ expiring.toneCount ∧ ticking.toneCount < 8 ∧
    (after (.timerExpiry 0 1) expiring).inbox = [.event (.timer 1) 0] ∧
    (after (.toneEnd 0) expiring).tones = [] := by decide +kernel

theorem test_light_hypotheses :
    ticking.lights[4]? = some ⟨.blink 24 12, 23⟩ ∧ ticking.lightPin 4 = false ∧
    ({ ticking with session := .loading }).lightPin 0 = true ∧
    ({ ticking with session := .rest, sessionPhase := 24 }).lightPin 0 = false ∧
    ({ ticking with session := .silent, sessionPhase := 11 }).lightPin 0 = true := by decide +kernel

/-- The digits by their source, and the tone line within one period of a divider of 5 at half duty, 2 counts high. -/
theorem test_digits_and_tone :
    let d := fun (x : DigitSource) => { ticking with digits := ⟨x, true⟩ }
    let a := fun (n : Nat) => ({ ticking with toneTable := List.replicate 32 5, toneStart := 100, now := n }).tonePin
    (d (.fixed 7)).digitPins = (.blank, .digit 7) ∧ (d (.mark 12)).digitPins = (.digit 4, .digit 2) ∧
    (d (.mark 20)).digitPins = (.minus, .minus) ∧ (d (.timer 1)).digitPins = (.blank, .digit 1) ∧
    (d (.timer 0)).digitPins = (.minus, .minus) ∧
    ({ d (.fixed 7) with session := .rest }).digitPins = (.blank, .blank) ∧
    [a 100, a 103, a 104, a 109, a 110] = [true, true, false, false, true] := by decide +kernel

/-- Counts at the edges of the empty limit and of a band (R122, R124). -/
theorem test_counts :
    readingOf board5 3000 = .absent ∧ readingOf board5 2999 = .present none ∧ readingOf board5 9999 = .absent ∧
    readingOf board5 400 = .present (some 4) ∧ readingOf board5 450 = .present (some 4) ∧
    readingOf board5 451 = .present none ∧ readingOf board5 1450 = .present (some 14) ∧
    readingOf board5 1500 = .present none ∧
    readingOf { board5 with bands := [(0, 9), (5, 20), (10, 12)] } 10 = .present (some 1) ∧
    readingOf { board5 with emptyLimit := 4095 } 4096 = .absent := by decide +kernel

/-! ## The Quest Engine -/

theorem test_mark_test : board.usable 20 = none ∧ board.usable 11 = some 7 ∧ settled.usable 20 = some 9 := by
  decide +kernel

theorem test_cue_hypotheses :
    board.gets (from3 (frame .cue 0 [63])) (good3 (frame .cue 0 [63])) ∧
    board.gets (from3 (frame .cue 0 [64])) (good3 (frame .cue 0 [64])) ∧ board.engineQueue.length < 32 ∧
    ({ board with inbox := List.replicate 32 (.event (.cue 1) 0) }).engineQueue.length = 32 ∧
    (after (.cue 1 (from3 (frame .cue 0 [63]))) board).inbox = [.event (.cue 63) 0] := by
  refine ⟨gets_of (by decide +kernel), gets_of (by decide +kernel), by decide, by decide, by decide +kernel⟩

/-- The board with an event before the engine. -/
def told (e : Happening) : State := { board with inbox := [.event e 7] }

theorem test_event_hypotheses :
    (told (.cue 7)).steps[0]? = some (armed [.cueHeard 7] [.digits ⟨.fixed 5, false⟩]) ∧
    (Condition.cueHeard 7).concerns (.cue 7) = true ∧ (Condition.cueHeard 7).matchesEvent (.cue 7) = true ∧
    (Condition.cueHeard 7).concerns (.cue 8) = false ∧ (Happening.pad 0 .misread).isPad = true ∧
    (after (.engineEventTaken 1) (told (.cue 7))).inbox = [.event (.stepDone 0) 8] ∧
    (after (.engineEventTaken 1) (told (.cue 7))).digits = ⟨.fixed 5, false⟩ ∧
    (after (.engineEventTaken 1) (told (.cue 8))).inbox = [] := by decide +kernel

/-- The step of `firing`: REPEATABLE, armed, on CUE 7. -/
def firer (es : List Effect) (path : OnRefusal) : Step :=
  ⟨⟨0, true, true, [.cueHeard 7], es, 0, path⟩, .armed, [false], 0, none⟩

/-- The board told of CUE 7 at a depth, with steps of which the first alone listens. -/
def firing (es : List Effect) (path : OnRefusal) (others : List Step) (depth : Nat) : State :=
  { board with
    inbox := [.event (.cue 7) depth]
    steps := firer es path :: others }

theorem firesOn_firing (es : List Effect) (path : OnRefusal) (depth : Nat) (x : Step)
    (hx : x.record.conditions.all (fun c => !c.concerns (.cue 7)) = true) :
    (firing es path [x] depth).firesOn (.cue 7) depth 0 (firer es path) [] := by
  refine ⟨rfl, rfl, rfl, .inr rfl, by decide, rfl, rfl, ⟨_, rfl, rfl, rfl, rfl⟩, rfl, rfl, fun k y hk hy c hc => ?_⟩
  have hy' : [firer es path, x][k]? = some y := hy
  match k with
  | 0 => exact absurd rfl hk
  | 1 =>
    cases hy'
    have := List.all_eq_true.mp hx c hc
    simpa using this
  | _ + 2 => cases hy'

/-- The other step, in a state: no condition of its own, so that arming it fires it on the spot under ALL. -/
def other (st : StepState) (cs : List Condition) : Step :=
  ⟨⟨1, false, true, cs, [.digits ⟨.fixed 3, false⟩], 0, .drop⟩, st, cs.map fun _ => false, 0, none⟩

theorem test_plain_effects :
    let es := [.cue 9, .tone ⟨7, .half, 8⟩ false, .light 2 .on, .recheck 0]
    let s := firing es .drop [other .dormant []] 7
    (∀ x ∈ es, x.isPlain = true) ∧ s.firesOn (.cue 7) 7 0 (firer es .drop) [] ∧
    (after (.engineEventTaken 5) s).inbox = [.event (.cue 9) 8, .event (.stepDone 0) 8] ∧
    (after (.engineEventTaken 5) s).transmit = [.cue 9] ∧ (after (.engineEventTaken 5) s).toneStart = 5 ∧
    (after (.engineEventTaken 5) (firing [.digits ⟨.fixed 3, false⟩] .drop [] 8)).health.loop = true := by
  refine ⟨by decide, firesOn_firing _ _ _ _ rfl, ?_⟩
  decide +kernel

theorem test_arm_and_disarm :
    let at1 := fun (e : Effect) (x : Step) =>
      ((after (.engineEventTaken 5) (firing [e] .drop [x] 0)).steps.map (·.state),
        (after (.engineEventTaken 5) (firing [e] .drop [x] 0)).inbox)
    (firing [.arm 1] .drop [other .dormant [.timerExpired 0]] 0).trigger none (other .dormant [.timerExpired 0]).rearmed =
      false ∧
    (firing [.arm 1] .drop [other .dormant []] 0).trigger none (other .dormant []).rearmed = true ∧
    at1 (.arm 1) (other .dormant [.timerExpired 0]) = ([.armed, .armed], [.event (.stepDone 0) 1]) ∧
    at1 (.arm 1) (other .dormant []) = ([.armed, .armed], [.event (.stepDone 1) 1, .event (.stepDone 0) 1]) ∧
    at1 (.arm 1) (other .withdrawn []) = ([.armed, .pending], [.event (.stepDone 0) 1]) ∧
    at1 (.disarm 1) (other .pending []) = ([.armed, .withdrawn], [.event (.stepDone 0) 1]) ∧
    at1 (.disarm 0) (other .pending []) = ([.dormant, .pending], [.event (.stepDone 0) 1]) ∧
    at1 (.disarmQuest 1) (other .armed []) = ([.armed, .dormant], [.event (.stepDone 0) 1]) := by decide +kernel

/-- A step's trigger under ALL and ANY, with edges and levels. -/
theorem test_triggers :
    let st := fun (all : Bool) (cs : List Condition) (seen : List Bool) =>
      (⟨⟨0, true, all, cs, [], 0, .drop⟩, .armed, seen, 0, none⟩ : Step)
    let cs := [.cueHeard 7, .padEvent 1 .placed (some 3), .markTest 11 .ge 7]
    board.trigger none (st true cs [true, true, false]) = true ∧
    board.trigger none (st true cs [true, false, false]) = false ∧
    (board.setAnnounce 12 true).trigger none (st true (cs ++ [.markTest 12 .lt 42]) [true, true, false, false]) = false ∧
    board.trigger none (st false [.cueHeard 7] [true]) = false ∧
    board.trigger (some (.cue 7)) (st false [.timerExpired 1, .cueHeard 7] [false, false]) = true ∧
    board.trigger (some (.pad 1 (.placed 4))) (st false [.padEvent 1 .placed (some 3)] [false]) = false ∧
    board.trigger none (st false [.cueHeard 7, .markTest 11 .ge 7] [false, false]) = true := by decide +kernel

/-- The board told of CUE 7, with two steps. -/
def pair (x y : Step) : State := { board with inbox := [.event (.cue 7) 0], steps := [x, y] }

/-- A visited step that waits for another edge, the same when that one was seen before, and one that fires for the
last time (R65 to R67). -/
theorem test_visited_steps :
    let st := fun (seen : List Bool) (n : Nat) =>
      (⟨⟨0, true, true, [.cueHeard 7, .timerExpired 1], [.cue 9], n, .drop⟩, .armed, seen, n, none⟩ : Step)
    let t := fun (seen : List Bool) (n : Nat) => after (.engineEventTaken 1) (pair (st seen n) (other .armed []))
    let s := pair (st [false, false] 0) (other .armed [])
    s.takes (.cue 7) 0 [0] [] ∧ s.concerned (.cue 7) 0 (st [false, false] 0) ∧
    s.trigger (some (.cue 7)) ((st [false, false] 0).sees (.cue 7)) = false ∧
    s.trigger (some (.cue 7)) ((st [false, true] 0).sees (.cue 7)) = true ∧
    (t [false, false] 0).steps[0]? = some (st [true, false] 0) ∧ (t [false, false] 0).inbox = [] ∧
    (t [false, true] 0).steps[0]? = some (st [false, false] 0) ∧
    (t [false, true] 0).inbox = [.event (.cue 9) 1, .event (.stepDone 0) 1] ∧
    ((t [false, true] 2).steps[0]?).map (·.left) = some 1 ∧
    ((t [false, true] 1).steps[0]?).map (·.state) = some .spent := by
  refine ⟨⟨rfl, rfl, rfl, .inr rfl, fun k x hk hx c hc => ?_⟩, ⟨by decide, rfl, rfl, .cueHeard 7, by decide, rfl⟩, ?_⟩
  · match k with
    | 0 => exact absurd (List.mem_singleton.mpr rfl) hk
    | 1 =>
      cases hx
      cases hc
    | _ + 2 => cases hx
  · decide +kernel

/-- Two steps visited for one event: both fire; the first disarms the second; the first arms it (R65). -/
theorem test_two_steps :
    let t := fun (e : Effect) (x : StepState) =>
      after (.engineEventTaken 1) (pair (firer [e] .drop) (other x [.cueHeard 7]))
    let s := pair (firer [.cue 9] .drop) (other .armed [.cueHeard 7])
    s.takes (.cue 7) 0 [0, 1] [] ∧ s.concerned (.cue 7) 0 (firer [.cue 9] .drop) ∧
    s.trigger (some (.cue 7)) ((firer [.cue 9] .drop).sees (.cue 7)) = true ∧
    s.trigger none (other .dormant [.cueHeard 7]).rearmed = false ∧
    (t (.cue 9) .armed).inbox = [.event (.cue 9) 1, .event (.stepDone 0) 1, .event (.stepDone 1) 1] ∧
    (t (.disarm 1) .armed).inbox = [.event (.stepDone 0) 1] ∧
    (t (.disarm 1) .armed).steps.map (·.state) = [.armed, .dormant] ∧
    (t (.arm 1) .dormant).inbox = [.event (.stepDone 0) 1, .event (.stepDone 1) 1] := by
  refine ⟨⟨rfl, rfl, rfl, .inr rfl, fun k x hk hx => ?_⟩, ⟨by decide, rfl, rfl, .cueHeard 7, by decide, rfl⟩, ?_⟩
  · match k with
    | 0 => exact absurd (by simp) hk
    | 1 => exact absurd (by simp) hk
    | _ + 2 => cases hx
  · decide +kernel

theorem test_claims_issued :
    let s := fun (m : Nat) (op : ClaimOp) (path : OnRefusal) =>
      after (.engineEventTaken 5) (firing [.claim op m 1 0] path [other .dormant [.timerExpired 0]] 0)
    board.route 20 = .peer 3 ∧ board.route 11 = .self ∧ board.route 99 = .none ∧ board.nextTag = board.tagCounter ∧
    (s 20 .add .drop).claims = [⟨board.nextTag, 0, 20, .add, 1, 0, 3, .queued⟩] ∧
    (s 20 .add .drop).transmit = [.claim board.nextTag 20 .add 1 0 3] ∧
    ((s 20 .add .drop).steps.map (·.state)).head? = some .pending ∧
    (s 11 .add .drop).mark 11 = .owned { own .level 7 with
      value := 8, version := 1, announce := true, pending := some 5 } ∧
    (s 11 .add .drop).inbox = [.event (.stepDone 0) 1] ∧
    (s 99 .add .drop).steps.map (·.state) = [.dormant, .dormant] ∧
    (s 13 .add .rearm).steps.map (·.state) = [.armed, .dormant] ∧
    (s 99 .add (.fallback 1)).steps.map (·.state) = [.dormant, .armed] := by decide +kernel

/-- The issued tag is the counter's value where it is free, and the next one that is where it is not. -/
theorem test_fresh_tags :
    let claim := fun (tag : Nat) => (⟨BitVec.ofNat 8 tag, 0, 20, .add, 1, 0, 3, .queued⟩ : ClaimEntry)
    let s := fun (n : Nat) =>
      { board with claims := [claim 255, claim 0, claim 1, claim 9], tagCounter := BitVec.ofNat 8 n }
    (s 7).claims.length = 4 ∧ (s 7).nextTag = 7 ∧ (s 255).nextTag = 2 ∧ (s 9).nextTag = 10 := by decide +kernel

/-- A step whose claim is out. -/
def pendingStep : Step :=
  ⟨⟨0, true, true, [.cueHeard 7], [.claim .add 20 1 0], 1, .rearm⟩, .pending, [true], 1, some 7⟩

/-- The board with an answer before the engine. -/
def answered (st : StepState) (out : ClaimOutcome) : State :=
  { board with steps := [{ pendingStep with state := st }], inbox := [.answer 0 7 out] }

theorem test_answer_event_hypotheses :
    (answered .pending .granted).steps[0]? = some pendingStep ∧ pendingStep.tag = some 7 ∧
    pendingStep.record.repeats = 1 ∧ pendingStep.left = 1 ∧ pendingStep.record.onRefusal = .rearm ∧
    (after (.answerEventTaken 1) (answered .pending .granted)).inbox = [.event (.stepDone 0) 1] ∧
    (after (.answerEventTaken 1) (answered .pending .noAnswer)).steps =
      [{ pendingStep with state := .armed, tag := none, seen := [false] }] ∧
    (after (.answerEventTaken 1) (answered .withdrawn .granted)).steps =
      [{ pendingStep with state := .dormant, tag := none, seen := [false] }] := by decide +kernel

theorem test_answer_paths :
    let s := fun (path : OnRefusal) (es : List Effect) (out : ClaimOutcome) => after (.answerEventTaken 1)
      { board with
        inbox := [.answer 0 7 out]
        steps := [⟨⟨0, true, true, [.cueHeard 7], .claim .add 20 1 0 :: es, 0, path⟩, .pending, [true], 0, some 7⟩,
          other .dormant [.timerExpired 0]] }
    (s .drop [] .noAnswer).steps.map (·.state) = [.dormant, .dormant] ∧
    (s (.fallback 0) [] .noAnswer).steps.map (·.state) = [.armed, .dormant] ∧
    (s (.fallback 1) [] .noAnswer).steps.map (·.state) = [.dormant, .armed] ∧
    (s .drop [.cue 9] .granted).inbox = [.event (.cue 9) 1, .event (.stepDone 0) 1] := by decide +kernel

/-! ## The store, the journal and loading -/

/-- The board with a census: block 2 ACTIVE, the others in a state. -/
def keeping (st : BlockState) : State :=
  { board with writer := { Writer.blank with
      census := ⟨.active, 1⟩ :: List.replicate 13 ⟨st, 0⟩, nextSequence := 2 } }

theorem test_passed_hypotheses :
    let data := slotBytes 4 (.batch [(11, 7, 1)])
    let s := { keeping .erased with op := some ⟨.program 2 62 data, .batch, 7⟩ }
    let e := { keeping .obsolete with op := some ⟨.erase 15, .eraseObsolete, 3⟩ }
    data.length = 32 ∧ s.powered = true ∧ s.waiting = none ∧ s.writer.newGameWaits = none ∧
    s.writer.withdrawWaits = false ∧ s.store.wf = true ∧ e.writer.census.length = 14 ∧
    (after (.storeProgramEnd 1 passes) s).store.slot 2 62 = data ∧
    (after (.storeEraseEnd 1 passes) e).blockState 15 = .erased := by decide +kernel

/-- The board while the writer's operation is in progress. -/
def writing (st : BlockState) (o : Operation) : State := { keeping st with op := some o }

theorem test_slot_hypotheses :
    let of := fun (p : Purpose) (slot : Nat) => writing .erased ⟨.program 2 slot [], p, 7⟩
    let at3 := fun (p : Purpose) => { (writing .erased ⟨.program 3 7 [], p, 0⟩).setBlock 3 .building with
      op := some ⟨.program 3 7 [], p, 0⟩ }
    (of .batch 63).writerWorks ⟨.program 2 63 [], .batch, 7⟩ ∧ passesAt passes ∧
    (after (.storeProgramEnd 1 passes) (of (.label .journal) 0)).writer.nextSlot = 1 ∧
    (after (.storeProgramEnd 1 passes) (of (.label .snapshot) 0)).blockState 2 = .building ∧
    (after (.storeProgramEnd 1 passes) (of .batch 63)).blockState 2 = .full ∧
    (after (.storeProgramEnd 1 passes) (of .batch 62)).blockState 2 = .active ∧
    (after (.storeProgramEnd 1 passes) (of .newGame 9)).writer.compactionOwed = true ∧
    (after (.storeProgramEnd 1 passes) (at3 .snapPart)).writer.inFlight = none ∧
    (after (.storeProgramEnd 1 passes) (at3 .snapEnd)).writer.nextSlot = 8 := by
  refine ⟨⟨rfl, rfl, rfl, rfl, rfl, rfl, rfl⟩, ⟨[], rfl⟩, ?_⟩
  decide +kernel

/-- A compaction's end keeps the times of the flags it did not capture (R163, R168). -/
theorem test_compaction_keeps_times :
    let s := { (writing .erased ⟨.program 2 7 [], .snapEnd, 0⟩) with
      marks := List.replicate 10 (.replica Replica.blank) ++
        [.owned { own .flag 0 with pending := some 3, captured := true }, .owned { own .level 7 with pending := some 5 },
          .owned { own .tally 1 with pending := some 4 }, .owned { own .flag 1 with sealed := true }] ++
        List.replicate 242 (.replica Replica.blank) }
    (after (.storeProgramEnd 9 passes) s).writer.oldestPending = some 4 := by decide +kernel

theorem test_fail_hypotheses :
    let s := writing .erased ⟨.program 2 5 [], .batch, 0⟩
    let s := { s with writer := { s.writer with inFlight := some [11] } }
    let late := { s with store := { s.store with attempted := s.store.attempted.set 2 64 } }
    failsAll fails8 8 ∧ s.storeOk ∧ s.store.attempted.getD 2 0 ≤ 63 ∧ 64 ≤ late.store.attempted.getD 2 0 ∧
    (after (.storeProgramEnd 1 fails8) s).op.map (·.op) = some (.program 2 63 (slotBytes 4 (.retired false))) ∧
    (after (.storeProgramEnd 1 fails8) s).mark 11 = .owned { own .level 7 with pending := some 1 } ∧
    (after (.storeProgramEnd 1 fails8) late).op = none ∧
    (after (.storeProgramEnd 1 fails8) late).blockState 2 = .retired ∧
    (after (.storeEraseEnd 1 ⟨List.replicate 4 false, []⟩)
      (writing .obsolete ⟨.erase 15, .eraseObsolete, 0⟩)).op.map (·.purpose) = some .retired := by
  refine ⟨⟨[], rfl⟩, rfl, ?_⟩
  decide +kernel

/-- The end of a RETIRED slot tests STORE_WORN: 14 blocks less 12 are 2, and 14 less 11 are 3 (R170). -/
theorem test_worn_boundary :
    let s := fun (n : Nat) =>
      { writing .erased ⟨.program 15 63 [], .retired, 0⟩ with
        writer := { Writer.blank with
          census := List.replicate n ⟨.retired, 0⟩ ++ List.replicate (14 - n) ⟨.erased, 0⟩ } }
    (after (.storeProgramEnd 1 passes) (s 12)).health.storeWorn = true ∧
    (after (.storeProgramEnd 1 fails8) (s 11)).health.storeWorn = false := by decide +kernel

theorem test_label_missing :
    let none' := { board with writer := { Writer.blank with census := List.replicate 14 ⟨.retired, 0⟩ } }
    let spent := { keeping .erased with
      writer := { (keeping .erased).writer with compactionOwed := true, nextSequence := 65536 } }
    none'.writerFree = true ∧ none'.firstWork = some .label ∧ none'.lowestBlock .erased = none ∧
    (after (.labelBlock 1) none').health.storeWorn = true ∧
    spent.firstWork = some .compaction ∧ (after (.compactionStart 1) spent).health.storeWorn = true ∧
    (keeping .erased).firstWork = none ∧ (after (.batchStart 1) (keeping .erased)).op = none := by decide +kernel

/-- The board with a mark to write whose time has come. -/
def owing : State :=
  let s := keeping .erased
  { (s.modifyOwned 11 fun o => { o with pending := some 0 }) with
    writer := { s.writer with oldestPending := some 0 } }

theorem test_batch_hypotheses :
    (owing.advance 250000).writerFree = true ∧ (owing.advance 250000).firstWork = some .batch ∧
    (owing.advance 249999).firstWork = none ∧ owing.activeBlock = some 2 ∧ owing.marks.length = 256 ∧
    (after (.batchStart 250000) owing).op.map (·.purpose) = some .batch := by decide +kernel

/-- The other works: a tile without an ACTIVE block, one that owes a compaction, one that builds, one that
owes a NEW_GAME slot, one with a block to erase. -/
theorem test_work_hypotheses :
    let label := { board with writer := { Writer.blank with census := List.replicate 14 ⟨.erased, 0⟩ } }
    let compact := { keeping .erased with writer := { (keeping .erased).writer with compactionOwed := true } }
    let built := { (keeping .erased).setBlock 3 .building with
      writer := { ((keeping .erased).setBlock 3 .building).writer with snapMark := 14 } }
    let anew := { keeping .erased with writer := { (keeping .erased).writer with newGameOwed := some (1, 5) } }
    label.firstWork = some .label ∧ label.lowestBlock .erased = some 2 ∧
    compact.firstWork = some .compaction ∧ compact.lowestBlock .erased = some 3 ∧
    built.firstWork = some .snapshotSlot ∧ built.buildingBlock = some 3 ∧ built.unsealedFrom 14 = [] ∧
    ({ built with writer := { built.writer with snapMark := 12 } }).unsealedFrom 12 = [12] ∧
    anew.firstWork = some .newGameSlot ∧ anew.activeBlock = some 2 ∧
    (keeping .obsolete).firstWork = some .erase ∧ (keeping .obsolete).lowestBlock .obsolete = some 3 ∧
    (keeping .obsolete).writerFree = true := by decide +kernel

theorem getsLoad_of {s : State} {f : Frame}
    (h : (s.powered && s.session.blankTile && !s.driving && decide (receive (from3 f) = .good (good3 f)) &&
      decide (f.addressee = s.tile)) = true) : s.getsLoad (from3 f) (good3 f) := by
  simp only [Bool.and_eq_true, Bool.not_eq_true', decide_eq_true_eq] at h
  exact ⟨h.1.1.1.1, h.1.1.1.2, h.1.1.2, h.1.2, h.2⟩

theorem test_load_open_hypotheses :
    bare.getsLoad (from3 (frame .loadOpen 62 [9])) (good3 (frame .loadOpen 62 [9])) ∧ bare.op = none ∧
    ({ loading with op := some ⟨.erase 4, .loadErase, 0⟩ }).getsLoad (from3 (frame .loadOpen 62 [9]))
      (good3 (frame .loadOpen 62 [9])) ∧
    (after (.loadOpen 1 (from3 (frame .loadOpen 62 [9]))) bare).op = some ⟨.erase 0, .loadErase, 0⟩ := by
  refine ⟨getsLoad_of (by decide +kernel), rfl, getsLoad_of (by decide +kernel), by decide +kernel⟩

/-- A tile in LOADING that erases, or writes the RETIRED slot of a block it could not erase. -/
def clearing (n : Nat) (o : Operation) : State :=
  { loading with loader := { loading.loader with progress := .next n }, op := some o }

theorem test_erasing :
    let fails4 : OpResult := ⟨List.replicate 4 false, []⟩
    let er := fun (n : Nat) (r : OpResult) => after (.storeEraseEnd 1 r) (clearing n ⟨.erase n, .loadErase, 0⟩)
    let re := fun (n : Nat) (r : OpResult) =>
      after (.storeProgramEnd 1 r) (clearing n ⟨.program n 63 [], .loadRetired, 0⟩)
    let again := { clearing 4 ⟨.erase 4, .loadErase, 0⟩ with waiting := some ⟨.erase 0, .loadErase, 0⟩ }
    (er 14 passes).op = some ⟨.erase 15, .loadErase, 0⟩ ∧
    (er 15 passes).answers = [⟨.grant 0 0, .load, 3, 9, 0⟩] ∧
    (er 1 fails4).answers = [⟨.refuse .worn, .load, 3, 9, 0⟩] ∧ (er 1 fails4).loader.progress = .failed ∧
    (er 2 fails4).op = some ⟨.program 2 63 (slotBytes 0 (.retired true)), .loadRetired, 0⟩ ∧
    (re 2 fails8).op = some ⟨.erase 3, .loadErase, 0⟩ ∧ (re 15 passes).loader.progress = .done ∧
    (after (.storeEraseEnd 1 fails4) again).op = some ⟨.erase 0, .loadErase, 0⟩ ∧
    (after (.storeEraseEnd 1 fails4) again).answers = [] ∧ loading.storeOk := by
  refine ⟨?_, ?_, ?_, ?_, ?_, ?_, ?_, ?_, ?_, rfl⟩ <;> decide +kernel

/-- A LOAD_PART for a block, page and slot. -/
def part (tag b p i : Nat) : Frame := frame .loadPart 62 ([tag, b, p, i] ++ List.replicate 32 7)

theorem test_load_part_hypotheses :
    loading.getsLoad (from3 (part 9 1 15 3)) (good3 (part 9 1 15 3)) ∧ loading.loader.tag = some 9 ∧
    loading.loader.progress = .done ∧ loading.op = none ∧ loading.waiting = none ∧
    (after (.loadPart 1 (from3 (part 9 1 15 3))) loading).op.map (·.op) =
      some (.program 1 63 (List.replicate 32 7)) := by
  refine ⟨getsLoad_of (by decide +kernel), rfl, rfl, rfl, rfl, by decide +kernel⟩

/-- The result of a LOAD_PART's program, and a full answer queue. -/
theorem test_load_part_result :
    let s := { loading with op := some ⟨.program 1 63 [], .loadPart 9 3, 0⟩ }
    let full := { loading with answers := List.replicate 8 ⟨.grant 0 0, .load, 3, 9, 0⟩ }
    (after (.storeProgramEnd 1 passes) s).answers = [⟨.grant 0 0, .load, 3, 9, 0⟩] ∧
    (after (.storeProgramEnd 1 fails8) s).answers = [⟨.refuse .worn, .load, 3, 9, 0⟩] ∧
    (after (.storeProgramEnd 1 passes) { full with op := s.op }).health.overrun = true ∧
    full.getsLoad (from3 (part 9 1 15 3)) (good3 (part 9 1 15 3)) ∧
    (after (.loadPart 1 (from3 (part 9 1 15 3))) full).health.overrun = true := by
  refine ⟨?_, ?_, ?_, getsLoad_of ?_, ?_⟩ <;> decide +kernel

/-- The four refusals of a LOAD_PART, one for each test. -/
theorem test_load_part_refused :
    (after (.loadPart 1 (from3 (part 8 0 0 0))) loading).answers = [⟨.refuse .check, .load, 3, 8, 0⟩] ∧
    loading.judgePart 9 2 0 0 = some .order ∧ loading.judgePart 9 0 0 4 = some .order ∧
    ({ loading with loader := { loading.loader with slot0 := some 5 } }).judgePart 9 0 1 1 = some .order ∧
    ({ loading with loader := { loading.loader with progress := .failed } }).judgePart 9 0 0 0 = some .worn ∧
    ({ loading with loader := { loading.loader with progress := .next 3 } }).judgePart 9 0 0 0 = some .busy := by
  decide +kernel

/-- A tile with a seal held. -/
def sealing : State := { loading with loader := { loading.loader with seals := [(9, 3)] } }

theorem test_seal_hypotheses :
    loading.getsLoad (from3 (frame .loadOpen 62 [9, 1])) (good3 (frame .loadOpen 62 [9, 1])) ∧
    loading.getsLoad (from3 (frame .loadOpen 62 [8, 1])) (good3 (frame .loadOpen 62 [8, 1])) ∧
    loading.answers.length + loading.loader.seals.length < 8 ∧ sealing.loader.seals = [(9, 3)] ∧
    (after (.seal 1 (from3 (frame .loadOpen 62 [9, 1]))) loading).loader.seals = [(9, 3)] ∧
    (after (.sealCheck 1) sealing).answers = [⟨.refuse .check, .seal, 3, 9, 0⟩] := by
  refine ⟨getsLoad_of (by decide +kernel), getsLoad_of (by decide +kernel), by decide, rfl, by decide +kernel,
    by decide +kernel⟩

theorem test_seal_refused :
    let failed := { loading with loader := { loading.loader with progress := .failed } }
    let full := { loading with answers := List.replicate 8 ⟨.grant 0 0, .load, 3, 9, 0⟩ }
    loading.getsLoad (from3 (frame .loadOpen 62 [9, 2])) (good3 (frame .loadOpen 62 [9, 2])) ∧
    (after (.seal 1 (from3 (frame .loadOpen 62 [9, 2]))) loading).loader = loading.loader ∧
    (after (.seal 1 (from3 (frame .loadOpen 62 [9, 1]))) failed).answers = [⟨.refuse .worn, .load, 3, 9, 0⟩] ∧
    (after (.seal 1 (from3 (frame .loadOpen 62 [9, 1]))) full).health.overrun = true := by
  refine ⟨getsLoad_of ?_, ?_, ?_, ?_⟩ <;> decide +kernel

theorem test_timeout_hypotheses :
    loading.powered = true ∧ loading.session = .loading ∧ loading.loader.isSealed = false ∧
    (after (.loadingTimeout 9999999) loading).session = .loading ∧
    (after (.loadingTimeout 10000000) loading).session = .unwritten := by decide +kernel

/-- A slot of each kind reads back as it was written (R159, R199). -/
theorem test_slots_read_back :
    let back := fun (b : SlotBody) => readSlot (slotBytes 4 b) = .valid 4 b
    back (.label 1 .journal) ∧ back (.label 65535 .snapshot) ∧ back (.session 7) ∧ back (.batch []) ∧
    back (.batch (List.replicate 9 (255, 0x99, 255))) ∧ back (.snapPart [(10, 1, 5)]) ∧ back (.snapEnd 9) ∧
    back (.newGame 0) ∧ back (.retired true) ∧ back (.retired false) ∧
    (slotBytes 4 (.session 7)).take 30 = [2, 4, 0, 7] ++ List.replicate 26 0xFF ∧
    (slotBytes 4 (.retired true)).take 4 = [7, 4, 0, 1] ∧
    board.recordOf 12 = some (12, 0x42, 0) ∧ board.recordOf 11 = some (11, 7, 0) ∧ board.recordOf 20 = none ∧
    board.unsealedFrom 11 = [11, 12] := by decide +kernel

/-- Where a header page holds its fields (R197). -/
theorem test_header_fields :
    let h := parseHeader (written.page 0 0)
    (h.layout, h.tile, h.first, h.size, h.sealed, h.padCount) = (2, 5, 10, 1, 1, 2) ∧
    (h.emptyLimit, h.debounce, h.faultLimit, h.fairLimit, h.poorLimit) = (3000, 2, 3, 24, 96) ∧
    h.pads = List.replicate 6 ⟨true, true, true, false⟩ ∧ h.bands = List.replicate 16 (0, 0) := by decide +kernel

/-- A sealed handling drops every LOAD frame (R178); one that is not refuses them in UNWRITTEN (R177, R178). -/
theorem test_sealed_and_unwritten :
    let done := { loading with loader := { loading.loader with isSealed := true } }
    let o := frame .loadOpen 62 [9]
    let x := frame .loadOpen 62 [9, 1]
    done.getsLoad (from3 o) (good3 o) ∧ done.getsLoad (from3 x) (good3 x) ∧
    done.getsLoad (from3 (part 9 1 15 3)) (good3 (part 9 1 15 3)) ∧
    bare.getsLoad (from3 (part 9 1 15 3)) (good3 (part 9 1 15 3)) ∧ bare.getsLoad (from3 x) (good3 x) ∧
    after (.loadOpen 1 (from3 o)) done = done.hearing 1 ∧ after (.seal 1 (from3 x)) done = done.hearing 1 ∧
    after (.loadPart 1 (from3 (part 9 1 15 3))) done = done.hearing 1 ∧
    (after (.loadPart 1 (from3 (part 9 1 15 3))) bare).answers = [⟨.refuse .check, .load, 3, 9, 0⟩] ∧
    (after (.seal 1 (from3 x)) bare).answers = [⟨.refuse .check, .load, 3, 9, 0⟩] := by
  refine ⟨getsLoad_of ?_, getsLoad_of ?_, getsLoad_of ?_, getsLoad_of ?_, getsLoad_of ?_, ?_⟩ <;> decide +kernel

/-- The writer's pieces of work count their slots as attempted, and the batch takes the pending flag (R155, R164). -/
theorem test_writer_attempts :
    let t := after (.batchStart 250000) owing
    t.store.attempted = owing.store.attemptedTo 2 owing.writer.nextSlot ∧ t.mark 11 = .owned (own .level 7) ∧
    t.writer.inFlight = some [11] ∧ t.writer.oldestPending = none ∧
    (after (.storeProgramEnd 3 passes) (starting ⟨.program 2 63 [1], .session, 7⟩)).session = .listening := by
  decide +kernel

/-- A SESSION slot that is the last of its block leaves the block FULL (R166). -/
theorem test_session_slot_fills :
    let s := { starting ⟨.program 2 63 [1], .session, 7⟩ with writer := (keeping .erased).writer }
    (after (.storeProgramEnd 3 passes) s).blockState 2 = .full ∧
    (after (.storeProgramEnd 3 passes) s).writer.compactionOwed = false := by decide +kernel

/-! ## What a HAIL brings with it -/

/-- A new epoch of a known peer: its FRESH replica is UNKNOWN with the event, its claim ends NO_ANSWER. -/
theorem test_new_epoch_answers :
    let s := { settled with claims := [claim7] }
    let t := hailed (content 2 20 4 0) s
    ¬ s.yieldsTo 3 (content 2 20 4 0) ∧ peer3.epoch ≠ 2 ∧ s.mark 20 = .replica ⟨9, 5, 1, .fresh⟩ ∧
    s.getsHail (from3 ⟨.hail, false, 0, hailBody (content 2 20 4 0) 3⟩)
      (good3 ⟨.hail, false, 0, hailBody (content 2 20 4 0) 3⟩) (content 2 20 4 0) ∧ s.tagsOk ∧
    t.mark 20 = .replica ⟨9, 5, 1, .unknown⟩ ∧ t.claims = [] ∧ t.transmit = [.ask 3] ∧
    t.inbox = [.event (.mark 20) 0, .answer 0 7 .noAnswer] := by
  refine ⟨no_overlap rfl rfl 2 4 0, by decide, by decide +kernel, getsHail_of (by decide +kernel),
    by simp [State.tagsOk], ?_, ?_, ?_, ?_⟩ <;> decide +kernel

/-- The tile withdraws while it contends with a GRANT of a claim for its window, and with an UPDATE. -/
def granting : State :=
  { keeping .erased with
    answers := [⟨.grant 8 1, .claim, 3, 1, 12⟩, ⟨.refuse .short, .claim, 3, 1, 12⟩]
    outstanding := some ⟨frame .grant 3 [1, 12, 8, 1], 69, .answer ⟨.grant 8 1, .claim, 3, 1, 12⟩, false, true⟩
    lineOut := preamble, line := .busy }

theorem test_withdrawal_answers :
    let t := hailed (content 1 13 8 0) granting
    let u := hailed (content 2 13 8 0) (driving (.slate 11) (frame .update 0 [4, 11, 7, 0, 0, 0]) false)
    granting.grantIsOut = true ∧ t.outstanding = none ∧ t.lineOut = [] ∧
    t.answers = [⟨.refuse .short, .claim, 3, 1, 12⟩] ∧ t.inbox = [.event (.mark 10) 0] ∧
    t.mark 12 = .replica Replica.blank ∧ u.outstanding.map (·.live) = some false ∧ u.run.running = false ∧
    peer3.epoch ≠ (content 2 13 8 0).epoch ∧ (u.peer 3).map (·.epoch) = some 2 := by decide +kernel

/-! ## Invariants -/

theorem test_lawful_hypotheses : board.storeOk ∧ board.lawful ∧
    step { board with pending := [.gap 1] } = .next (after (.gap 1) board) := by
  exact ⟨rfl, ⟨by unfold State.queuesOk; decide, List.nodup_nil, test_removal_hypotheses.1,
    test_removal_hypotheses.2, board_routesOk⟩, rfl⟩

end Sys2Proof.Tests
end

