-- ==== Sys2Proof/Proofs/PadMachine.lean ====
section
/-! SUPPORT. The pad state machine, state by state: what one gate does to a pad in each of its five states
(R126 to R129), and what a pad in LEAVING answers to PAD_HOLDS and RECHECK. -/

namespace Sys2Proof.Machine

/-! ## EMPTY and ARRIVING (R126) -/

@[simp] theorem padStep_empty_absent (d : Nat) : padStep d .empty .absent = (.empty, []) := rfl

@[simp] theorem padStep_empty_present (d : Nat) (cls : Option Nat) :
    padStep d .empty (.present cls) = (.arriving 1, []) := rfl

@[simp] theorem padStep_arriving_absent (d run : Nat) : padStep d (.arriving run) .absent = (.empty, []) := rfl

theorem padStep_arriving_present (d run : Nat) (cls : Option Nat) :
    padStep d (.arriving run) (.present cls) =
      if run + 1 = d then (.reading 0 none, []) else (.arriving (run + 1), []) := rfl

/-! ## READING (R127) -/

@[simp] theorem padStep_reading_absent (d n : Nat) (last : Option Nat) :
    padStep d (.reading n last) .absent = (.empty, []) := rfl

/-- The pair test, whatever the reading count. -/
theorem padStep_reading_pair (d n c : Nat) :
    padStep d (.reading n (some c)) (.present (some c)) = (.occupied (some c) none, [.placed c]) := if_pos rfl

/-- Without a pair the reading count decides. A gate with no class pairs with nothing, not even with another such
gate, so it and a class that differs from the last fall under the one count test. -/
theorem padStep_reading_unpaired (d n : Nat) {last cls : Option Nat} (h : cls = none ∨ last ≠ cls) :
    padStep d (.reading n last) (.present cls) =
      if n + 1 = 8 then (.occupied none none, [.misread]) else (.reading (n + 1) cls, []) := by
  cases cls with
  | none => rfl
  | some c => exact if_neg (h.resolve_left (Option.some_ne_none c))

/-! ## OCCUPIED (R128) -/

@[simp] theorem padStep_occupied_absent (d : Nat) (held cand : Option Nat) :
    padStep d (.occupied held cand) .absent = (.leaving held 1, []) := rfl

/-- No class, or the held one, is no sign of a change. -/
theorem padStep_occupied_unchanged (d : Nat) {held cls : Option Nat} (cand : Option Nat)
    (h : cls = none ∨ held = cls) :
    padStep d (.occupied held cand) (.present cls) = (.occupied held none, []) := by
  cases cls with
  | none => rfl
  | some c => exact if_pos (h.resolve_left (Option.some_ne_none c))

/-- A class other than the held one is a change once the gate before read it too. -/
theorem padStep_occupied_other (d : Nat) {c : Nat} {held : Option Nat} (cand : Option Nat) (h : held ≠ some c) :
    padStep d (.occupied held cand) (.present (some c)) =
      if cand = some c then (.occupied (some c) none, [.lifted held, .placed c])
      else (.occupied held (some c), []) := if_neg h

/-! ## LEAVING (R129) -/

theorem padStep_leaving_absent (d run : Nat) (held : Option Nat) :
    padStep d (.leaving held run) .absent =
      if run + 1 = d then (.empty, [.lifted held]) else (.leaving held (run + 1), []) := rfl

@[simp] theorem padStep_leaving_present (d run : Nat) (held cls : Option Nat) :
    padStep d (.leaving held run) (.present cls) = (.occupied held none, []) := rfl

/-- The held piece answers PAD_HOLDS until its absence is confirmed (R56). -/
theorem padHolds_of_leaving {s : State} {i run : Nat} {held : Option Nat} (cls : Option Nat)
    (h : (s.pad i).state = .leaving held run) : s.padHolds i cls = true ↔ cls = none ∨ cls = held := by
  simp [State.padHolds, h]

/-- A RECHECK of a pad whose state has no event to emit is without effect (R133). -/
theorem recheck_of_no_event {s : State} {i : Nat} (h : (s.pad i).state.recheckEvent = none) :
    s.recheck i = s := by
  unfold State.recheck
  cases hst : (s.pad i).state with
  | empty | arriving | reading | leaving => rfl
  | occupied held cand => cases held <;> simp [hst, PadState.recheckEvent] at h

/-! ## The obligations -/

/-- Settles O40, by the two equations of each state and the debounce test of ARRIVING. -/
theorem padWaitsForPresence : Obligations.PadWaitsForPresence := by
  intro d run c
  refine ⟨padStep_empty_absent d, padStep_empty_present d c, fun hshort => ?_, fun hfull => ?_,
    padStep_arriving_absent d run⟩
  · rw [padStep_arriving_present, if_neg hshort]
  · rw [padStep_arriving_present, if_pos hfull]

/-- Settles O41: a pair is decided first, and every present gate without one falls under the count test. -/
theorem padReadsTheClass : Obligations.PadReadsTheClass := by
  intro d n c last
  refine ⟨padStep_reading_absent d n last, fun hpair => ?_, fun hother heighth => ?_, fun hother hearly => ?_,
    fun heighth => ?_, fun hearly => ?_⟩
  · rw [hpair, padStep_reading_pair]
  · rw [padStep_reading_unpaired d n (.inr hother), if_pos heighth]
  · rw [padStep_reading_unpaired d n (.inr hother), if_neg hearly]
  · rw [padStep_reading_unpaired d n (.inl rfl), if_pos heighth]
  · rw [padStep_reading_unpaired d n (.inl rfl), if_neg hearly]

/-- Settles O42, by the transitions of OCCUPIED and LEAVING; for the last clause, a pad in LEAVING has no
event for a RECHECK to emit. -/
theorem padWatchesForLeaving : Obligations.PadWatchesForLeaving := by
  refine ⟨fun d run c held cand x => ?_, fun s i run held cls hleaving => ?_⟩
  · refine ⟨padStep_occupied_absent d held cand, padStep_occupied_unchanged d cand (.inl rfl),
      fun hsame => padStep_occupied_unchanged d cand (.inr hsame), fun hother htwice => ?_,
      fun hother honce => ?_, fun hgone => ?_, fun hshort => ?_, padStep_leaving_present d run held x⟩
    · rw [padStep_occupied_other d cand hother, if_pos htwice]
    · rw [padStep_occupied_other d cand hother, if_neg honce]
    · rw [padStep_leaving_absent, if_pos hgone]
    · rw [padStep_leaving_absent, if_neg hshort]
  · have hnone : (s.pad i).state.recheckEvent = none := by rw [hleaving]; rfl
    exact ⟨padHolds_of_leaving cls hleaving, recheck_of_no_event hnone⟩

end Sys2Proof.Machine
end

namespace Sys2Proof.Machine

/-! ## What every step keeps -/

theorem advance_storeOk {s : State} {dt : Nat} (h : s.storeOk) : (s.advance dt).storeOk := h

theorem advance_lawful {s : State} {dt : Nat} (h : s.lawful) : (s.advance dt).lawful := h

/-- What keeps each law keeps them together. -/
theorem Keeps.lawful {s t : State} (k : Keeps s t) (h : s.lawful) : t.lawful := by
  obtain ⟨hqueues, htags, hroster, hmarks, hroutes⟩ := h
  obtain ⟨hqueues', htags'⟩ := k.queues hqueues htags
  exact ⟨hqueues', htags', k.roster hroster, k.marks hmarks, k.routes hroster hroutes⟩

/-- A step idles, or runs the command at the front of the queue. -/
theorem step_cases {s t : State} (h : step s = .next t) :
    (s.pending = [] ∧ t = s) ∨
      ∃ c rest, s.pending = c :: rest ∧ exec c { s with pending := rest } = .next t := by
  unfold step at h
  cases hp : s.pending with
  | nil =>
    rw [hp] at h
    injection h with h
    exact .inl ⟨rfl, h.symm⟩
  | cons c rest =>
    rw [hp] at h
    exact .inr ⟨c, rest, rfl, h⟩

/-- Settles O58: idling changes nothing, and every row keeps the form. -/
theorem storeStaysCanonical : Obligations.StoreStaysCanonical := by
  intro s t hs h
  obtain ⟨-, rfl⟩ | ⟨c, rest, -, hexec⟩ := step_cases h
  · exact hs
  · exact (exec_keeps hexec).store hs

/-- Settles O59: idling changes nothing, and every row keeps each law. -/
theorem lawsAreKept : Obligations.LawsAreKept := by
  intro s t hs h
  obtain ⟨-, rfl⟩ | ⟨c, rest, -, hexec⟩ := step_cases h
  · exact hs
  · exact (exec_keeps hexec).lawful hs

/-- Settles O60, by the laws of reset one by one. -/
theorem resetIsLawful : Obligations.ResetIsLawful :=
  ⟨rfl, reset_queuesOk, List.nodup_nil, reset_rosterOk, blankTable_ok, reset_routesOk⟩

/-- Settles O1. -/
theorem stepTakesTheFrontCommand : Obligations.StepTakesTheFrontCommand := fun _ _ _ => rfl

/-- Settles O2: what a row keeps includes the commands waiting and the time it moved on to. -/
theorem everyCommandAnswersNext : Obligations.EveryCommandAnswersNext := by
  intro i s
  obtain ⟨t, h⟩ := exec_next i s
  have k := exec_keeps h
  exact ⟨t, h, k.pending, k.now⟩

/-- Without power a row other than POWER_UP moves the time on alone. -/
theorem exec_unpowered {i : Instr} {s : State} (hoff : s.powered = false)
    (hi : ∀ dt run, i ≠ .powerUp dt run) : exec i s = .next (s.advance i.elapsed) := by
  cases i with
  | powerUp dt run => exact absurd rfl (hi dt run)
  | droop dt result => exact after_off hoff dt fun s => s.droops result
  | contentionLost dt seen => exact after_off hoff dt fun s => s.loseContention seen
  | frameSent dt run => exact after_off hoff dt fun s => s.frameEnds run
  | gateEnd dt counts => exact after_off hoff dt fun s => s.gateEnds counts
  | storeReadEnd dt => exact after_off hoff dt fun s => s.storeEnds StoreOp.isRead readResult
  | storeProgramEnd dt result => exact after_off hoff dt fun s => s.storeEnds StoreOp.isProgram result
  | storeEraseEnd dt result => exact after_off hoff dt fun s => s.storeEnds StoreOp.isErase result
  | labelBlock dt =>
    exact after_off hoff dt fun s => if s.firstWork = some .label then s.takeWork .label State.takeLabel
      else s.takeWork .compaction State.takeCompaction
  | contentionWon dt seen => exact after_off hoff dt fun s => s.winContention seen
  | powerLoss dt result => exact after_off hoff dt fun s => s.losePower result
  | _ => exact after_off hoff _ _

/-- Settles O3. -/
theorem idleAndUnpowered : Obligations.IdleAndUnpowered := by
  refine ⟨fun s hp => ?_, fun i s hoff hi => exec_unpowered hoff hi⟩
  unfold step
  rw [hp]

/-- How an operation in progress is settled follows from the store and the operation alone. -/
theorem settleStore_store_congr {s u : State} (r : OpResult) (hstore : u.store = s.store) (hop : u.op = s.op) :
    (u.settleStore r).store = (s.settleStore r).store := by
  unfold State.settleStore
  rw [hop]
  cases s.op with
  | none => exact hstore
  | some o =>
    cases ho : o.op <;> simp only [ho, hstore]

theorem settleStore_pending (s : State) (r : OpResult) : (s.settleStore r).pending = s.pending := by
  unfold State.settleStore
  repeat' split
  all_goals rfl

theorem settleStore_now (s : State) (r : OpResult) : (s.settleStore r).now = s.now := by
  unfold State.settleStore
  repeat' split
  all_goals rfl

/-- The part that a power-on start begins with: all but the store, the time and the commands is at its
power-on value. -/
theorem settled_fresh (s : State) (r : OpResult) :
    (s.settleStore r).fresh =
      { State.reset with
        pending := s.pending, now := s.now, powered := true, store := (s.settleStore r).store } := by
  rw [State.fresh, settleStore_pending, settleStore_now]

/-- A power-on start follows from the commands waiting, the time, the store and its operation. -/
theorem powerOnStart_congr {s u : State} (run : StartRun) (hpending : u.pending = s.pending) (hnow : u.now = s.now)
    (hstore : u.store = s.store) (hop : u.op = s.op) : u.powerOnStart run = s.powerOnStart run := by
  rw [State.powerOnStart, State.powerOnStart, settled_fresh, settled_fresh, hpending, hnow,
    settleStore_store_congr run.settle hstore hop]

/-- The last beat of a seal's GRANT starts the part afresh. -/
theorem frameEnds_sealGrant {s : State} {o : Outstanding} {a : Answer} {v : Nat} {ver : Byte} (run : StartRun)
    (ho : s.outstanding = some o) (hwon : o.won = true) (hsource : o.source = .answer a)
    (hword : a.word = .grant v ver) (hanswers : a.answers = .seal) :
    s.frameEnds run = s.powerOnStart run := by
  have hgrant : o.source.isSealGrant = true := by simp [Source.isSealGrant, hsource, hword, hanswers]
  rw [State.frameEnds, ho]
  simp only [hwon, hgrant, if_true]
  apply powerOnStart_congr <;>
    simp only [State.endFrame, State.sourceSent, hsource, stopDriving_pending, stopDriving_now,
      stopDriving_store, stopDriving_op] <;> split <;> rfl

/-- Settles O7: DROOP_CLEARS and the last beat of a seal's GRANT come to the same power-on start. -/
theorem startsAfreshAsAtPowerUp : Obligations.StartsAfreshAsAtPowerUp := by
  intro dt run s
  refine ⟨rfl, fun hon => ⟨fun hd => ?_, fun hd => ?_, ?_⟩⟩
  · rw [exec_droopClears hon, State.droopEnds, if_neg (by simp [hd])]
  · rw [exec_droopClears hon, State.droopEnds, if_pos (by simp [hd])]
    rfl
  · intro o a v ver ho hwon hsource hword hanswers
    rw [exec_frameSent hon, exec_powerUp,
      frameEnds_sealGrant (s := s.advance dt) run ho hwon hsource hword hanswers]

end Sys2Proof.Machine

namespace Sys2Proof.Machine

/-! ## What the store keeps outside a slot or a block (R156) -/

theorem writeSlot_sameOutside {st : Store} (b slot : Nat) (data : List Byte) (h : st.wf = true) :
    sameOutsideSlot st (st.writeSlot b slot data) b slot := by
  intro a ha
  unfold Store.writeSlot
  split
  · next hb =>
    refine readByte_writeBytes_other h ?_ ?_ <;> rw [exactBytes_length] <;>
      simp only [slotAddr, storeSize] <;> omega
  · rfl

theorem leaveSlot_sameOutside {st : Store} (b slot : Nat) (l : SlotLeft) (h : st.wf = true) :
    sameOutsideSlot st (st.leaveSlot b slot l) b slot := by
  intro a ha
  unfold Store.leaveSlot
  split
  · rfl
  · exact writeSlot_sameOutside b slot _ h a ha
  · split
    · rfl
    · exact writeSlot_sameOutside b slot _ h a ha

theorem leaveBlock_sameOutside {st : Store} (b slot : Nat) (ls : List SlotLeft) (h : st.wf = true)
    (hslots : slot + ls.length ≤ 64) : sameOutsideBlock st (st.leaveBlock b slot ls) b := by
  induction ls generalizing st slot with
  | nil => exact fun _ _ => rfl
  | cons l ls ih =>
    intro a ha
    rw [List.length_cons] at hslots
    calc readByte ((st.leaveSlot b slot l).leaveBlock b (slot + 1) ls).cells a
        = readByte (st.leaveSlot b slot l).cells a :=
          ih (slot + 1) (leaveSlot_wf b slot l h) (by omega) a ha
      _ = readByte st.cells a := leaveSlot_sameOutside b slot l h a (by omega)

/-- A failed or abandoned erase changes no byte outside its block. -/
theorem failed_erase_sameOutside {st : Store} (b : Nat) (left : List SlotLeft) (h : st.wf = true) :
    sameOutsideBlock st (st.failed left (.erase b)) b :=
  leaveBlock_sameOutside b 0 (left.take 64) h (by simp)

/-! ## Verify passes (R156) -/

theorem verify_pass {limit k : Nat} {vs : List Bool} (h : k < limit) :
    verify limit k (true :: vs) = .inl .pass := by
  rw [verify, if_pos h]

/-! ## The frame given back (R118) -/

/-- A frame whose source holds it no more, or keeps all it held, only leaves the line. -/
theorem giveBack_kept {s : State} {o : Outstanding} (ho : s.outstanding = some o)
    (h : o.live = false ∨ (∀ m, o.source ≠ .slate m) ∧ (∀ n, o.source ≠ .snapshot n) ∧
      ∀ q, o.source ≠ .queue q) : s.giveBack = s.stopDriving := by
  rw [State.giveBack, ho]
  obtain hdead | ⟨hslate, hsnap, hqueue⟩ := h
  · simp only [hdead, Bool.false_eq_true, if_false]
  · cases hsource : o.source with
    | slate m => exact absurd hsource (hslate m)
    | snapshot n => exact absurd hsource (hsnap n)
    | queue q => exact absurd hsource (hqueue q)
    | _ => simp only [hsource, ite_self]

theorem giveBack_slate {s : State} {o : Outstanding} {m : Nat} (ho : s.outstanding = some o)
    (hsource : o.source = .slate m) (hlive : o.live = true) :
    s.giveBack = (s.setAnnounce m true).stopDriving := by
  simp only [State.giveBack, ho, hlive, hsource, if_true]

theorem giveBack_snapshot {s : State} {o : Outstanding} {n : Nat} (ho : s.outstanding = some o)
    (hsource : o.source = .snapshot n) (hlive : o.live = true) :
    s.giveBack = s.runLost.stopDriving := by
  simp only [State.giveBack, ho, hlive, hsource, if_true]

theorem giveBack_queue {s : State} {o : Outstanding} {q : Queued} (ho : s.outstanding = some o)
    (hsource : o.source = .queue q) (hlive : o.live = true) :
    s.giveBack = (s.dropEndedClaim q).stopDriving := by
  simp only [State.giveBack, ho, hlive, hsource, if_true]

theorem runLost_eq (s : State) :
    s.runLost = { s with
      run := if s.run.restart = true then { s.run with next := s.winFirst, restart := false } else s.run } := by
  unfold State.runLost
  split <;> rfl

theorem tagHeld_iff (s : State) (tag : Byte) : s.tagHeld tag = true ↔ ∃ e ∈ s.claims, e.tag = tag := by
  simp [State.tagHeld]

theorem isClaim_eq (tag : Byte) :
    (fun q : Queued => !q.isClaim tag) = fun q : Queued => match q with
      | .claim tag' _ _ _ _ _ => tag' != tag
      | _ => true := by
  funext q
  cases q <;> rfl

theorem dropEndedClaim_eq (s : State) (q : Queued) :
    s.dropEndedClaim q = { s with transmit := match q with
      | .claim tag _ _ _ _ _ =>
        if ∃ e ∈ s.claims, e.tag = tag then s.transmit
        else s.transmit.filter fun x => match x with
          | .claim tag' _ _ _ _ _ => tag' != tag
          | _ => true
      | _ => s.transmit } := by
  cases q with
  | claim tag m op a b owner =>
    simp only [State.dropEndedClaim, tagHeld_iff, isClaim_eq]
    split <;> rfl
  | _ => rfl

/-- What a frame given back leaves, its four cases together. -/
theorem giveBack_gaveBack {s : State} {o : Outstanding} (ho : s.outstanding = some o) :
    s.gaveBack s.stopDriving s.giveBack o := by
  refine ⟨giveBack_kept ho, fun m hsource hlive => ?_, fun n hsource hlive => ?_, fun q hsource hlive => ?_⟩
  · rw [giveBack_slate ho hsource hlive]
    rfl
  · rw [giveBack_snapshot ho hsource hlive, runLost_eq]
    rfl
  · rw [giveBack_queue ho hsource hlive, dropEndedClaim_eq]
    rfl

/-! ## Supply (R192) -/

theorem giveBack_idle {s : State} (h : s.outstanding = none) : s.giveBack = s := by
  rw [State.giveBack, h]

theorem giveBack_op (s : State) : s.giveBack.op = s.op ∧ s.giveBack.store = s.store := by
  cases ho : s.outstanding with
  | none => rw [giveBack_idle ho]; exact ⟨rfl, rfl⟩
  | some o =>
    simp only [State.giveBack, ho, stopDriving_op, stopDriving_store]
    split
    · split
      · exact ⟨rfl, rfl⟩
      · rw [runLost_eq]; exact ⟨rfl, rfl⟩
      · rw [dropEndedClaim_eq]; exact ⟨rfl, rfl⟩
      · exact ⟨rfl, rfl⟩
    · exact ⟨rfl, rfl⟩

theorem droopStore_kept {s : State} (left : List SlotLeft) (h : ∀ o b, s.op = some o → o.op ≠ .erase b) :
    s.droopStore left = s := by
  unfold State.droopStore
  split
  · next o ho =>
    split
    · next b hb => exact absurd hb (h o b ho)
    · rfl
  · rfl

theorem droopStore_erase {s : State} {b k : Nat} {p : Purpose} (left : List SlotLeft)
    (h : s.op = some ⟨.erase b, p, k⟩) :
    s.droopStore left = { s with op := none, store := s.store.failed left (.erase b) } := by
  simp only [State.droopStore, h]

/-- What a frame given back is, the droop flag being set after it. -/
theorem gaveBack_drooped {s u t : State} {o : Outstanding} (h : s.gaveBack u t o) :
    s.gaveBack { u with droop := true } { t with droop := true } o := by
  obtain ⟨hkept, hslate, hsnap, hqueue⟩ := h
  refine ⟨fun k => ?_, fun m k l => ?_, fun n k l => ?_, fun q k l => ?_⟩
  · rw [hkept k]
  · rw [hslate m k l]
  · rw [hsnap n k l]
  · rw [hqueue q k l]

/-- Settles O6: droop gives back the frame outstanding, and then takes an erase off the store. -/
theorem droopCutsFrameAndErase : Obligations.DroopCutsFrameAndErase := by
  intro dt r s hon
  rw [exec_droop hon]
  refine ⟨fun hd => ?_, fun hd => ⟨{ (s.advance dt).giveBack with droop := true }, fun ho => ?_, fun o ho => ?_,
    fun hop => ?_, fun b p k hop hok => ?_⟩⟩
  · rw [State.droops, if_pos (by simpa using hd), onLine_droop (by simpa using hd)]
  · rw [giveBack_idle (by simpa using ho)]
  · exact gaveBack_drooped (giveBack_gaveBack (s := s.advance dt) ho)
  · rw [State.droops, if_neg (by simp [hd]), droopStore_kept, onLine_droop rfl]
    intro o b ho
    exact hop o b ((giveBack_op (s.advance dt)).1.symm.trans ho)
  · obtain ⟨hgop, hgstore⟩ := giveBack_op (s.advance dt)
    refine ⟨s.store.failed r.left (.erase b), failed_erase_sameOutside b _ hok, ?_⟩
    rw [State.droops, if_neg (by simp [hd]),
      droopStore_erase (s := { (s.advance dt).giveBack with droop := true }) r.left (hgop.trans hop), onLine_droop rfl]
    simp only [hgstore, advance_store]

theorem losePower_onLine (s : State) (r : OpResult) : (s.losePower r).onLine = s.losePower r :=
  onLine_busy fun h => LineState.noConfusion h

theorem settleStore_free {s : State} (r : OpResult) (h : s.op = none) : s.settleStore r = s := by
  rw [State.settleStore, h]

/-- Settles O8: power lost leaves the store as the operation in progress is settled. -/
theorem powerLossLeavesTheStore : Obligations.PowerLossLeavesTheStore := by
  intro dt r s hon
  rw [exec_powerLoss hon, losePower_onLine]
  refine ⟨fun hop => ?_, fun b slot data p k vs hop hvs hk => ?_, fun b p k hop hok => ?_⟩
  · rw [State.losePower, settleStore_free r (by exact hop)]
    rfl
  · have hpass : verify 8 k r.verifies = .inl .pass := hvs ▸ verify_pass hk
    simp only [State.losePower, State.settleStore, advance_op, hop, StoreOp.passLimit, Config.programPasses, hpass]
    rfl
  · refine ⟨s.store.failed r.left (.erase b), ?_, failed_erase_sameOutside b _ hok⟩
    simp only [State.losePower, State.settleStore, advance_op, hop]
    rfl

/-! ## The tile's own key (R90, R191) -/

/-- Entry to SILENT with no frame outstanding: the run is emptied, and nothing of it is on the line. -/
theorem enterSilent_eq {s : State} (ho : s.outstanding = none) :
    s.enterSilent =
      { s with
        session := .silent
        listenAt := none
        run := { s.run with running := false, restart := false }
        timers := s.timers.map fun t => { t with running := false, remaining := 0, base := 0 }
        tones := []
        toneCount := 0
        pads := s.pads.map fun p => { p with held := none }
        sessionPhase := 0 } := by
  simp only [State.enterSilent, State.emptyRun, orphan_eq, ho]
  rfl

/-- Contention lost by a frame that another's line beats. -/
theorem loseContention_lost {s : State} {o : Outstanding} {line : List Symbol} (ho : s.outstanding = some o)
    (hwon : o.won = false) (hloses : losesKey o.key line = true) :
    s.loseContention (some line) = s.giveBack.countLoss.lineTaken := by
  simp only [State.loseContention, ho, hwon, hloses, and_self, if_true]

theorem loseContention_kept {s : State} {o : Outstanding} {line : List Symbol} (ho : s.outstanding = some o)
    (h : o.won = true ∨ losesKey o.key line = false) : s.loseContention (some line) = s := by
  simp only [State.loseContention, ho]
  rw [if_neg]
  rintro ⟨hwon, hloses⟩
  rcases h with h | h
  · exact Bool.noConfusion (hwon.symm.trans h)
  · exact Bool.noConfusion (hloses.symm.trans h)

theorem giveBack_driven (s : State) : s.giveBack.outstanding = none := by
  cases ho : s.outstanding with
  | none => rw [giveBack_idle ho, ho]
  | some o => simp only [State.giveBack, ho, stopDriving_outstanding]

theorem giveBack_parts (s : State) : s.giveBack.timers = s.timers ∧ s.giveBack.pads = s.pads ∧
    s.giveBack.now = s.now := by
  cases ho : s.outstanding with
  | none => rw [giveBack_idle ho]; exact ⟨rfl, rfl, rfl⟩
  | some o =>
    simp only [State.giveBack, ho]
    split
    · split
      · exact ⟨rfl, rfl, rfl⟩
      · rw [runLost_eq]; exact ⟨rfl, rfl, rfl⟩
      · rw [dropEndedClaim_eq]; exact ⟨rfl, rfl, rfl⟩
      · exact ⟨rfl, rfl, rfl⟩
    · exact ⟨rfl, rfl, rfl⟩

/-- An own key that is heard: whatever the tile contended with has been lost to it. -/
theorem takeKey_own {s : State} {key : List UniBeat} (hgame : s.session.inGame = true)
    (hown : senderOf key = s.tile) (hdriven : (s.loseContention (some (keyLine key))).outstanding = none) :
    s.takeKey key = (s.loseContention (some (keyLine key))).lineEnds.enterSilent := by
  rw [State.takeKey, if_pos ⟨hgame, hown⟩]
  exact if_pos hdriven

/-- Settles O9, by what the tile has outstanding: nothing, a frame that the key beats, or one that goes on. -/
theorem ownKeySilences : Obligations.OwnKeySilences := by
  intro dt key s line hon hline
  obtain rfl : line = keyLine key := hline
  rw [exec_duplicateKey hon]
  refine ⟨fun u hgame hown hu => ?_, fun h => ?_⟩
  · have hu' : (s.advance dt).loseContention (some (keyLine key)) = u ∧ u.outstanding = none ∧
        u.timers = s.timers ∧ u.pads = s.pads ∧ u.now = s.now + dt := by
      rcases hu with ⟨ho, rfl⟩ | ⟨o, ho, hwon, hloses, hexec⟩
      · simp [State.loseContention, ho]
      · have hlost := loseContention_lost (s := s.advance dt) (line := keyLine key) ho hwon hloses
        rw [exec_contentionLost hon] at hexec
        injection hexec with hexec
        have hu : (s.advance dt).loseContention (some (keyLine key)) = u := by
          rw [← hexec]
          exact (onLine_busy (by rw [hlost]; simp)).symm
        obtain ⟨htimers, hpads, hnow⟩ := giveBack_parts (s.advance dt)
        rw [← hu, hlost]
        exact ⟨rfl, giveBack_driven (s.advance dt), htimers, hpads, hnow⟩
    obtain ⟨hlose, hout, htimers, hpads, hnow⟩ := hu'
    rw [takeKey_own (s := s.advance dt) hgame hown (hlose ▸ hout), hlose, enterSilent_eq (s := u.lineEnds) hout,
      onLine_busy (by simp), ← htimers, ← hpads, ← hnow]
    rfl
  · congr 2
    unfold State.takeKey
    split
    · next hown =>
      rcases h with h | h | ⟨o, ho, h⟩
      · exact absurd (h.symm.trans hown.1) Bool.noConfusion
      · exact absurd hown.2 h
      · have hkept := loseContention_kept (s := s.advance dt) (line := keyLine key) ho h
        exact if_neg (by rw [hkept]; simp [ho])
    · rfl

end Sys2Proof.Machine

namespace Sys2Proof.Machine

/-! ## The reads of a start (R182, R183) -/

/-- A part with a page read of its start in progress, its store otherwise free. -/
def State.readsPage (s : State) (n : Nat) : State := { s with op := some ⟨startPage n, .startRead n, 0⟩ }

theorem startPage_isRead (n : Nat) : ∃ b p, startPage n = .read b p := by
  unfold startPage
  repeat' split
  all_goals exact ⟨_, _, rfl⟩

theorem startRead_eq {s : State} (n : Nat) (hop : s.op = none) (hdroop : s.droop = false) :
    s.startRead n = s.readsPage n := by
  obtain ⟨b, p, hpage⟩ := startPage_isRead n
  rw [State.startRead, State.request, if_pos ⟨hop, hdroop⟩, hpage, State.readsPage, hpage]
  rfl

/-- A start that takes every end of its reads takes that of the page in progress. -/
theorem runStart_readsPage {s : State} {run : StartRun} (fuel n : Nat) (hstarting : s.session = .starting)
    (hreads : run.reads = none) :
    runStart (fuel + 1) run (s.readsPage n) =
      runStart fuel run (({ s with op := none } : State).startReadEnds n) := by
  obtain ⟨b, p, hpage⟩ := startPage_isRead n
  simp only [runStart, State.readsPage, hstarting, hpage, hreads, State.startOpEnds]

/-- A start that may take no end of a read waits for the page. -/
theorem runStart_waits {s : State} {run : StartRun} (fuel n : Nat) (hstarting : s.session = .starting)
    (hreads : run.reads = some 0) : runStart (fuel + 1) run (s.readsPage n) = s.readsPage n := by
  obtain ⟨b, p, hpage⟩ := startPage_isRead n
  simp only [runStart, State.readsPage, hstarting, hpage, hreads]

/-- A start that has ended goes no further. -/
theorem runStart_ended {s : State} (run : StartRun) (fuel : Nat) (h : s.session ≠ .starting) :
    runStart fuel run s = s := by
  cases fuel with
  | zero => rfl
  | succ fuel =>
    cases hs : s.session with
    | starting => exact absurd hs h
    | _ => simp only [runStart, hs]

/-- A read that judges nothing is followed by the next. -/
theorem startReadEnds_next {s : State} {n : Nat} (hop : s.op = none) (hdroop : s.droop = false)
    (h0 : n ≠ 0) (h18 : n ≠ contentReads) (h242 : n ≠ journalReads) :
    s.startReadEnds n = s.readsPage (n + 1) := by
  rw [State.startReadEnds, if_neg h0, if_neg h18, if_neg h242, startRead_eq _ hop hdroop]

theorem startReadEnds_header_ok {s : State} (hop : s.op = none) (hdroop : s.droop = false)
    (h : headerOk (s.store.page 0 0) = true) : s.startReadEnds 0 = s.readsPage 1 := by
  rw [State.startReadEnds, if_pos rfl, if_pos h, startRead_eq _ hop hdroop]

theorem startReadEnds_header_bad {s : State} (h : headerOk (s.store.page 0 0) = false) :
    s.startReadEnds 0 = s.startUnwritten := by
  rw [State.startReadEnds, if_pos rfl, if_neg (by simp [h])]

theorem startReadEnds_content_bad {s : State} (h : contentOk s.store = false) :
    s.startReadEnds 18 = s.startUnwritten := by
  rw [State.startReadEnds, if_neg (by decide), if_pos (show 18 = contentReads from rfl), if_neg (by simp [h])]

/-- The reads between the header's and the last of the content, one after the other. -/
theorem runStart_contentReads {s : State} {run : StartRun} (fuel k : Nat) (hstarting : s.session = .starting)
    (hop : s.op = none) (hdroop : s.droop = false) (hreads : run.reads = none) (hk : k ≤ 17) :
    runStart (fuel + k) run (s.readsPage (18 - k)) = runStart fuel run (s.readsPage 18) := by
  induction k with
  | zero => rfl
  | succ k ih =>
    have hs : ({ s with op := none } : State) = s := by rw [← hop]
    rw [← Nat.add_assoc, runStart_readsPage _ _ hstarting hreads, hs,
      startReadEnds_next hop hdroop (by omega) (by unfold contentReads; omega) (by unfold journalReads; omega),
      show 18 - (k + 1) + 1 = 18 - k by omega, ih (by omega)]

/-- A start over a bad header or content comes to UNWRITTEN (R183). -/
theorem runStart_unwritten {s : State} {run : StartRun} (hstarting : s.session = .starting) (hop : s.op = none)
    (hdroop : s.droop = false) (hreads : run.reads = none)
    (hbad : headerOk (s.store.page 0 0) = false ∨ contentOk s.store = false) :
    runStart 400 run (s.readsPage 0) = s.startUnwritten := by
  have hs : ({ s with op := none } : State) = s := by rw [← hop]
  have hended : ∀ fuel, runStart fuel run s.startUnwritten = s.startUnwritten :=
    fun fuel => runStart_ended run fuel fun h => Session.noConfusion h
  rw [runStart_readsPage 399 0 hstarting hreads, hs]
  cases hheader : headerOk (s.store.page 0 0) with
  | false => rw [startReadEnds_header_bad hheader, hended]
  | true =>
    have hcontent : contentOk s.store = false := hbad.resolve_left (by simp [hheader])
    rw [startReadEnds_header_ok hop hdroop hheader,
      runStart_contentReads 382 17 hstarting hop hdroop hreads (Nat.le_refl _),
      runStart_readsPage 381 18 hstarting hreads, hs, startReadEnds_content_bad hcontent, hended]

theorem unwrittenTile_eq (page : List Byte) :
    unwrittenTile page =
      if headerCheckOk page = true ∧ 1 ≤ numAt page 1 ∧ numAt page 1 ≤ 62 then numAt page 1 else 62 := by
  have htest : (headerCheckOk page && (parseHeader page).tileOk) = true ↔
      headerCheckOk page = true ∧ 1 ≤ numAt page 1 ∧ numAt page 1 ≤ 62 := by
    rw [Bool.and_eq_true]
    exact and_congr_right fun _ => decide_eq_true_iff
  rw [unwrittenTile, if_congr htest rfl rfl]
  rfl

/-- Settles O4: over bad header or content the reads come to UNWRITTEN; without one the header's is waited for. -/
theorem badContentStartsUnwritten : Obligations.BadContentStartsUnwritten := by
  rintro dt run s st rfl
  have hfresh := settled_fresh (s.advance dt) run.settle
  rw [settleStore_store_congr (u := s.advance dt) (s := s) run.settle rfl rfl] at hfresh
  rw [exec_powerUp, State.powerOnStart]
  generalize ((s.advance dt).settleStore run.settle).fresh = u at hfresh ⊢
  obtain ⟨hstarting, hop, hdroop, hstore⟩ : u.session = .starting ∧ u.op = none ∧ u.droop = false ∧
      u.store = (s.settleStore run.settle).store := by
    rw [hfresh]
    exact ⟨rfl, rfl, rfl, rfl⟩
  rw [startRead_eq 0 hop hdroop]
  refine ⟨fun hreads hbad => ?_, fun hreads => ?_, fun hidle => by rw [settleStore_free _ hidle]⟩
  · rw [← hstore] at hbad
    rw [runStart_unwritten hstarting hop hdroop hreads hbad, onLine_busy fun h => LineState.noConfusion h, hfresh]
    simp only [State.startUnwritten, unwrittenTile_eq]
    rfl
  · rw [runStart_waits 399 0 hstarting hreads, onLine_busy, hfresh]
    · rfl
    · rw [hfresh]
      exact fun h => LineState.noConfusion h

end Sys2Proof.Machine

namespace Sys2Proof.Machine

/-! ## Bits (chapter 00) -/

theorem bitsOf_succ (w n : Nat) : bitsOf (w + 1) n = n.testBit w :: bitsOf w n := by
  simp only [bitsOf, List.range_succ_eq_map, List.map_cons, List.map_map, Nat.add_sub_cancel, Nat.sub_zero]
  congr 1
  apply List.map_congr_left
  intro i _
  show n.testBit (w - (i + 1)) = n.testBit (w - 1 - i)
  congr 1
  omega

@[simp] theorem bitsOf_length (w n : Nat) : (bitsOf w n).length = w := by simp [bitsOf]

theorem ofBits_append (xs : List Bool) (acc : Nat) :
    xs.foldl (fun acc b => 2 * acc + b.toNat) acc = 2 ^ xs.length * acc + ofBits xs := by
  induction xs generalizing acc with
  | nil => simp [ofBits]
  | cons b bs ih =>
    simp only [ofBits, List.foldl_cons, List.length_cons] at ih ⊢
    rw [ih (2 * acc + b.toNat), ih (2 * 0 + b.toNat), Nat.pow_succ]
    ring

/-- The bits of a number up to one, from the bits below it. -/
theorem mod_two_pow_succ (n w : Nat) : n % 2 ^ (w + 1) = n % 2 ^ w + 2 ^ w * (n.testBit w).toNat := by
  rw [Nat.pow_succ, Nat.mod_mul, Nat.toNat_testBit]

theorem ofBits_bitsOf (w n : Nat) : ofBits (bitsOf w n) = n % 2 ^ w := by
  induction w with
  | zero => simp [bitsOf, ofBits, Nat.mod_one]
  | succ w ih =>
    rw [bitsOf_succ, ofBits, List.foldl_cons, ofBits_append, bitsOf_length, ih, mod_two_pow_succ, Nat.mul_zero,
      Nat.zero_add]
    omega

theorem ofBits_bitsOf_of_lt {w n : Nat} (h : n < 2 ^ w) : ofBits (bitsOf w n) = n := by
  rw [ofBits_bitsOf, Nat.mod_eq_of_lt h]

theorem bytesToBits_cons (b : Byte) (bs : List Byte) :
    bytesToBits (b :: bs) = bitsOf 8 b.toNat ++ bytesToBits bs := by
  simp [bytesToBits]

theorem bytesToBits_length (bs : List Byte) : (bytesToBits bs).length = 8 * bs.length := by
  induction bs with
  | nil => rfl
  | cons b bs ih => rw [bytesToBits_cons, List.length_append, bitsOf_length, ih, List.length_cons]; omega

theorem bitsToBytes_bytesToBits (bs : List Byte) (rest : List Bool) :
    bitsToBytes bs.length (bytesToBits bs ++ rest) = bs := by
  induction bs with
  | nil => rfl
  | cons b bs ih =>
    rw [bytesToBits_cons, List.append_assoc, List.length_cons, bitsToBytes,
      List.take_append_of_le_length (by simp), List.take_of_length_le (by simp),
      List.drop_append_of_le_length (by simp), List.drop_of_length_le (by simp), List.nil_append, ih,
      ofBits_bitsOf_of_lt (by have := b.isLt; omega)]
    simp

/-! ## The key (R100, R101, R103) -/

/-- Two numbers of some bits differ first, from the top, in a bit that the lower one has clear. -/
theorem bitsOf_first_difference (w k l : Nat) (h : k % 2 ^ w < l % 2 ^ w) :
    ∃ i < w, (bitsOf w k).take i = (bitsOf w l).take i ∧
      (bitsOf w k)[i]? = some false ∧ (bitsOf w l)[i]? = some true := by
  induction w with
  | zero => simp [Nat.mod_one] at h
  | succ w ih =>
    simp only [bitsOf_succ]
    rw [mod_two_pow_succ, mod_two_pow_succ] at h
    have hk := Nat.mod_lt k (Nat.two_pow_pos w)
    have hl := Nat.mod_lt l (Nat.two_pow_pos w)
    cases hbk : k.testBit w <;> cases hbl : l.testBit w <;> simp only [hbk, hbl] at h ⊢
    case false.true => exact ⟨0, by omega, rfl, rfl, rfl⟩
    case true.false => simp at h; omega
    all_goals
      obtain ⟨i, hi, htake, hki, hli⟩ := ih (by simpa using h)
      exact ⟨i + 1, by omega, by simp [htake], by simpa using hki, by simpa using hli⟩

theorem keySymbols_getElem? {key i : Nat} {b : Bool} (h : (bitsOf 8 key)[i]? = some b) :
    (keySymbols key)[i]? = some (if b then .quiet else .plus) := by
  rw [keySymbols, List.getElem?_map, h]
  rfl

/-- A key's beat that is quiet where the line carries a pulse loses. -/
theorem losesKey_of_pulse {key i : Nat} {seen : List Symbol} {p : Symbol}
    (hbit : (bitsOf 8 key)[i]? = some true) (hseen : seen[i]? = some p) (hpulse : p ≠ .quiet) :
    losesKey key seen = true := by
  rw [losesKey, List.any_eq_true]
  refine ⟨(true, p), List.mem_of_getElem? (i := i) ?_, by simpa using hpulse⟩
  rw [List.getElem?_zip_eq_some]
  exact ⟨hbit, hseen⟩

/-- Settles O13, at the first beat in which the two keys differ. -/
theorem lowestKeyWins : Obligations.LowestKeyWins := by
  intro k l hkl hl
  obtain ⟨i, hi, htake, hk, hl⟩ :=
    bitsOf_first_difference 8 k l (by rwa [Nat.mod_eq_of_lt (by omega), Nat.mod_eq_of_lt (by omega)])
  have hplus := keySymbols_getElem? hk
  refine ⟨losesKey_of_pulse hl hplus (by decide), i, hi, ?_, hplus, keySymbols_getElem? hl⟩
  simp only [keySymbols, ← List.map_take, htake]

/-- The key a station drives is the key that is received. -/
theorem keyOf_keySymbols {key : Nat} (h : key < 256) :
    keyOf ((keySymbols key).map fun x => ⟨x, false⟩) = key := by
  refine (congrArg ofBits ?_).trans (ofBits_bitsOf_of_lt (w := 8) (by omega))
  apply List.ext_getElem?
  intro i
  rw [List.getElem?_map]
  by_cases hi : i < 8
  · obtain ⟨b, hb⟩ : ∃ b, (bitsOf 8 key)[i]? = some b := ⟨_, List.getElem?_eq_getElem (by simpa using hi)⟩
    rw [List.getElem?_range hi, Option.map_some, List.getElem?_map, keySymbols_getElem? hb, hb]
    cases b <;> rfl
  · rw [List.getElem?_eq_none (by simp; omega), List.getElem?_eq_none (by simp; omega)]
    rfl

/-! ## The orientation of the couplers (R104) -/

theorem hardSign_turned (q : Soft) : hardSign (7#3 - q) = !hardSign q := by
  revert q
  decide

theorem takeBeats_turned (n : Nat) (bs : List Beat) :
    takeBeats n (bs.map turnBeat) = (takeBeats n bs).map turnBeat := by
  induction n generalizing bs with
  | zero => rfl
  | succ n ih =>
    cases bs with
    | nil => simpa [takeBeats, turnBeat] using ih []
    | cons b bs => simp [takeBeats, ih]

/-- A turned beat agrees with the inverse of what the beat agrees with. -/
theorem agreements_turned (bs : List Beat) (signs : List Bool) :
    agreements (bs.map turnBeat) signs = agreements bs (signs.map (!·)) := by
  rw [agreements, agreements, List.zip_map_left, List.zip_map_right, List.countP_map, List.countP_map]
  apply List.countP_congr
  rintro ⟨b, x⟩ -
  cases b with
  | none => rfl
  | some q => cases x <;> simp [turnBeat, hardSign_turned]

/-- A beat agrees with at most one of a pattern and its inverse. -/
theorem agreements_add_le (bs : List Beat) (signs : List Bool) :
    agreements bs signs + agreements bs (signs.map (!·)) ≤ signs.length := by
  induction signs generalizing bs with
  | nil => simp [agreements]
  | cons x xs ih =>
    cases bs with
    | nil => simp [agreements]
    | cons b bs =>
      have := ih bs
      simp only [agreements] at this
      cases b with
      | none =>
        simp only [agreements, List.map_cons, List.zip_cons_cons, List.countP_cons, List.length_cons]
        simp
        omega
      | some q =>
        have hone : ∀ h x : Bool, (if (h == x) = true then 1 else 0) + (if (h == !x) = true then 1 else 0) ≤ 1 := by
          decide
        have := hone (hardSign q) x
        simp only [agreements, List.map_cons, List.zip_cons_cons, List.countP_cons, List.length_cons]
        omega

/-- The other sense. -/
def Sense.turned : Sense → Sense
  | .normal => .inverted
  | .inverted => .normal

theorem syncSense_turned (sync : List Beat) :
    syncSense (sync.map turnBeat) = (syncSense sync).map Sense.turned := by
  have hinv : (syncSigns.map (!·)).map (!·) = syncSigns := by decide
  have hboth := agreements_add_le (takeBeats 8 sync) syncSigns
  have hlen : syncSigns.length = 8 := rfl
  simp only [syncSense, takeBeats_turned, agreements_turned, hinv]
  split
  · next hinverted =>
    rw [if_neg (by omega)]
    rfl
  · split <;> rfl

theorem apply_turned (sn : Sense) (b : Beat) : sn.turned.apply (turnBeat b) = sn.apply b := by
  cases sn <;> cases b <;> simp [Sense.turned, Sense.apply, turnBeat]

/-- Settles O11: the sync test finds the other sense, under which every later beat is the same. -/
theorem orientationDoesNotMatter : Obligations.OrientationDoesNotMatter := by
  intro rx
  have happly : ∀ (sn : Sense) (bs : List Beat), (bs.map turnBeat).map sn.turned.apply = bs.map sn.apply := by
    intro sn bs
    rw [List.map_map]
    exact List.map_congr_left fun b _ => apply_turned sn b
  simp only [receive, turnReception, syncSense_turned]
  cases syncSense rx.sync with
  | none => rfl
  | some sn => simp only [Option.map_some, receiveHead, happly]

/-! ## The decoder on an undisturbed block (R105 to R109) -/

/-- The beat of a sign on an undisturbed line, as strong as it can be. -/
def strongestBeat (b : Bool) : Beat := some (if b then 7 else 0)

/-- What a bit position shows of the encoder's outputs: the first in full, and the second too unless it was
punctured. -/
def Shows (p : Beat × Beat) (out : Bool × Bool) : Prop :=
  p.1 = strongestBeat out.1 ∧ (p.2 = strongestBeat out.2 ∨ p.2 = none)

theorem branchCost_shown {p : Beat × Beat} {u s1 s2 : Bool} (h : Shows p (firstOutput u s1 s2, secondOutput u s2)) :
    branchCost p u s1 s2 = 0 ∧ 7 ≤ branchCost p u s1 (!s2) := by
  obtain ⟨h1, h2 | h2⟩ := h <;> obtain ⟨p1, p2⟩ := p <;> simp only at h1 h2 <;> subst h1 h2 <;>
    revert u s1 s2 <;> decide

/-- The metric of an encoder state. -/
def Metrics.of (m : Metrics) : Bool → Bool → Nat
  | false, false => m.m0
  | false, true => m.m1
  | true, false => m.m2
  | true, true => m.m3

/-- The predecessor recorded for an encoder state. -/
def Choices.of (c : Choices) : Bool → Bool → Bool
  | false, false => c.c0
  | false, true => c.c1
  | true, false => c.c2
  | true, true => c.c3

theorem normalize_of_zero {m : Metrics} {s1 s2 : Bool} (h : m.of s1 s2 = 0) : m.normalize = m := by
  rw [Metrics.normalize, if_neg]
  cases s1 <;> cases s2 <;> simp only [Metrics.of] at h <;> omega

theorem withValue_eq {α : Type} (n : Nat) (f : Nat → α) : withValue n f = f n := by
  cases n <;> rfl

theorem withValues_eq {α : Type} (m : Metrics) (f : Metrics → α) : m.withValues f = f m := by
  simp only [Metrics.withValues, withValue_eq]

/-- One position along the encoder's path: its metric stays 0, and the state it came from is recorded. -/
theorem decodeStep_shown {m : Metrics} {p : Beat × Beat} {u s1 s2 : Bool} (hm : m.of s1 s2 = 0)
    (h : Shows p (firstOutput u s1 s2, secondOutput u s2)) :
    (decodeStep m p).1.of u s1 = 0 ∧ (decodeStep m p).2.of u s1 = s2 := by
  obtain ⟨hzero, hother⟩ := branchCost_shown h
  have hmetric : (⟨min (m.m0 + branchCost p false false false) (m.m1 + branchCost p false false true),
      min (m.m2 + branchCost p false true false) (m.m3 + branchCost p false true true),
      min (m.m0 + branchCost p true false false) (m.m1 + branchCost p true false true),
      min (m.m2 + branchCost p true true false) (m.m3 + branchCost p true true true)⟩ : Metrics).of u s1 = 0 := by
    cases u <;> cases s1 <;> cases s2 <;> simp only [Metrics.of, Bool.not_false, Bool.not_true] at * <;> omega
  simp only [decodeStep]
  rw [normalize_of_zero hmetric]
  refine ⟨hmetric, ?_⟩
  cases u <;> cases s1 <;> cases s2 <;>
    simp only [Metrics.of, Choices.of, Bool.not_false, Bool.not_true, decide_eq_false_iff_not,
      decide_eq_true_eq] at * <;> omega

theorem traceBack_cons (c : Choices) (cs : List Choices) (s1 s2 : Bool) (acc : List Bool) :
    traceBack (c :: cs) s1 s2 acc = traceBack cs s2 (c.of s1 s2) (s1 :: acc) := by
  cases s1 <;> cases s2 <;> rfl

/-- The encoder's state after some input bits. -/
def encoderState : Bool → Bool → List Bool → Bool × Bool
  | s1, s2, [] => (s1, s2)
  | s1, _, u :: us => encoderState u s1 us

/-- The path traced back through an undisturbed block is the encoder's. -/
theorem traceBack_forward (bits : List Bool) (ps : List (Beat × Beat)) (m : Metrics) (choices : List Choices)
    (s1 s2 : Bool) (acc : List Bool) (hm : m.of s1 s2 = 0)
    (h : List.Forall₂ Shows ps (encodeFrom s1 s2 bits)) :
    traceBack (forward m choices ps) (encoderState s1 s2 bits).1 (encoderState s1 s2 bits).2 acc =
      traceBack choices s1 s2 (bits ++ acc) := by
  induction bits generalizing ps m choices s1 s2 acc with
  | nil =>
    cases h
    rfl
  | cons u us ih =>
    rw [encodeFrom] at h
    obtain _ | ⟨hp, hps⟩ := h
    next p ps =>
    obtain ⟨hnext, hchoice⟩ := decodeStep_shown hm hp
    rw [forward, withValues_eq, encoderState, ih _ _ _ _ _ _ hnext hps, traceBack_cons, hchoice]
    rfl

/-- An undisturbed block that ends in two tails is decoded to what was coded (R108). -/
theorem decodeBlock_encode {bits : List Bool} {ps : List (Beat × Beat)}
    (htails : encoderState false false bits = (false, false)) (h : List.Forall₂ Shows ps (encode bits)) :
    decodeBlock ps = bits := by
  have := traceBack_forward bits ps .start [] false false [] rfl h
  rw [htails] at this
  rw [decodeBlock, this, traceBack, List.append_nil]

theorem encoderState_tails (s1 s2 : Bool) (bits : List Bool) :
    encoderState s1 s2 (bits ++ [false, false]) = (false, false) := by
  induction bits generalizing s1 s2 with
  | nil => rfl
  | cons u us ih => exact ih u s1

theorem corrected_shown (b : Bool) : corrected (strongestBeat b) b = false := by
  cases b <;> decide

/-- Nothing is corrected in an undisturbed block (R109). -/
theorem correctedCount_shown {bits : List Bool} {ps : List (Beat × Beat)}
    (h : List.Forall₂ Shows ps (encode bits)) : correctedCount ps bits = 0 := by
  rw [correctedCount]
  generalize encode bits = outs at h
  induction h with
  | nil => rfl
  | cons hp _ ih =>
    obtain ⟨h1, h2⟩ := hp
    rw [List.zip_cons_cons, List.foldl_cons, h1, corrected_shown]
    rcases h2 with h2 | h2
    · rw [h2, corrected_shown]
      exact ih
    · rw [h2]
      exact ih

theorem encodeFrom_length (s1 s2 : Bool) (bits : List Bool) : (encodeFrom s1 s2 bits).length = bits.length := by
  induction bits generalizing s1 s2 with
  | nil => rfl
  | cons u us ih => simp [encodeFrom, ih]

theorem strongPositions_shown (outs : List (Bool × Bool)) :
    List.Forall₂ Shows (strongPositions outs.length ((strongBeats outs).map strongestBeat)) outs := by
  induction outs with
  | nil => exact .nil
  | cons out outs ih => exact .cons ⟨rfl, .inl rfl⟩ ih

theorem lightPositions_shown (n : Nat) (outs : List (Bool × Bool)) (h : outs.length = 2 * n) :
    List.Forall₂ Shows (lightPositions n ((lightBeats outs).map strongestBeat)) outs := by
  induction n generalizing outs with
  | zero =>
    have hnil : outs = [] := List.length_eq_zero_iff.mp (by omega)
    rw [hnil]
    exact .nil
  | succ n ih =>
    match outs, h with
    | out :: out' :: outs, h =>
      have hrest := ih outs (by simp at h; omega)
      exact .cons ⟨rfl, .inl rfl⟩ (.cons ⟨rfl, .inr rfl⟩ hrest)

/-- The positions read off a block's beats at either rate show what was coded (R106). -/
theorem blockPositions_shown (strong : Bool) (bits : List Bool) (n : Nat) (h : bits.length = 2 * n) :
    List.Forall₂ Shows
      (if strong then strongPositions (2 * n) ((blockBeats strong bits).map strongestBeat)
        else lightPositions n ((blockBeats strong bits).map strongestBeat)) (encode bits) := by
  have hlen : (encode bits).length = 2 * n := (encodeFrom_length _ _ _).trans h
  cases strong with
  | true =>
    have := strongPositions_shown (encode bits)
    rwa [hlen] at this
  | false => exact lightPositions_shown n (encode bits) hlen

/-! ## The scrambler (R107) -/

theorem scrambleFrom_length (stages : Nat) (bits : List Bool) :
    (scrambleFrom stages bits).length = bits.length := by
  induction bits generalizing stages with
  | nil => rfl
  | cons b bits ih => simp [scrambleFrom, withValue_eq, ih]

theorem scrambleFrom_scrambleFrom (stages : Nat) (bits : List Bool) :
    scrambleFrom stages (scrambleFrom stages bits) = bits := by
  induction bits generalizing stages with
  | nil => rfl
  | cons b bits ih => simp [scrambleFrom, withValue_eq, ih]

/-! ## The frame as received (R100 to R111) -/

theorem crc7_lt (bits : List Bool) : crc7 bits < 128 := by
  suffices h : ∀ reg < 128, crc 128 0x09 reg bits < 128 from h 0 (by decide)
  induction bits with
  | nil => exact fun reg h => h
  | cons b bits ih =>
    intro reg _
    have hreg : 2 * reg % 128 < 128 := Nat.mod_lt _ (by decide)
    rw [crc, withValue_eq, withValue_eq]
    split
    · exact ih _ hreg
    · exact ih _ (Nat.xor_lt_two_pow (n := 7) hreg (by decide))

theorem ofCode_code (k : FrameKind) : FrameKind.ofCode k.code = some k := by
  cases k <;> rfl

theorem lengthOk_lt {k : FrameKind} {n : Nat} (h : k.lengthOk n = true) : n < 64 := by
  cases k <;> simp [FrameKind.lengthOk] at h <;> omega

/-- The fields of a head, each in its place (R195). -/
theorem headFields_parts (code len addressee : Nat) (strong : Bool) (hcode : code < 16) (hlen : len < 64)
    (haddr : addressee < 64) :
    (headFields code strong len addressee).length = 17 ∧
      ofBits ((headFields code strong len addressee).take 4) = code ∧
      ((headFields code strong len addressee).drop 4).headD false = strong ∧
      ofBits (((headFields code strong len addressee).drop 5).take 6) = len ∧
      ofBits ((headFields code strong len addressee).drop 11) = addressee := by
  have hcode' := ofBits_bitsOf_of_lt (w := 4) hcode
  have hlen' := ofBits_bitsOf_of_lt (w := 6) hlen
  have haddr' := ofBits_bitsOf_of_lt (w := 6) haddr
  exact ⟨rfl, hcode', rfl, hlen', haddr'⟩

/-- The body of an undisturbed frame is received as sent (R111). -/
theorem receiveBody_sent (sender n : Nat) (f : Frame) :
    receiveBody sender f.kind f.strong f.body.length f.addressee
        (headFields f.kind.code f.strong f.body.length f.addressee) n
        ((bodyBeats sender f).map strongestBeat) =
      .good ⟨sender, f.kind, f.strong, f.addressee, f.body, n⟩ := by
  generalize hfields : headFields f.kind.code f.strong f.body.length f.addressee = fields
  have hplain : (bytesToBits f.body ++ bitsOf 16 (bodyCheck fields f.body)).length = 8 * f.body.length + 16 := by
    simp [bytesToBits_length]
  have hscrambled : (scramble sender (bytesToBits f.body ++ bitsOf 16 (bodyCheck fields f.body))).length =
      8 * f.body.length + 16 := (scrambleFrom_length _ _).trans hplain
  have hbits : bodyBits sender f =
      scramble sender (bytesToBits f.body ++ bitsOf 16 (bodyCheck fields f.body)) ++ [false, false] := by
    rw [bodyBits, hfields]
  have hshown := blockPositions_shown f.strong (bodyBits sender f) (4 * f.body.length + 9)
    (by rw [hbits, List.length_append, hscrambled, List.length_cons, List.length_singleton]; omega)
  rw [show 2 * (4 * f.body.length + 9) = 8 * f.body.length + 18 by omega] at hshown
  have hdecoded := decodeBlock_encode (by rw [hbits]; exact encoderState_tails _ _ _) hshown
  have hcount := correctedCount_shown hshown
  have hdescrambled : scramble sender ((bodyBits sender f).take (8 * f.body.length + 16)) =
      bytesToBits f.body ++ bitsOf 16 (bodyCheck fields f.body) := by
    rw [hbits, List.take_append_of_le_length (by omega), List.take_of_length_le (by omega)]
    exact scrambleFrom_scrambleFrom _ _
  have hcheck : ofBits (bitsOf 16 (bodyCheck fields f.body)) = bodyCheck fields f.body :=
    ofBits_bitsOf_of_lt (crc16_lt _)
  have hdrop : (bytesToBits f.body ++ bitsOf 16 (bodyCheck fields f.body)).drop (8 * f.body.length) =
      bitsOf 16 (bodyCheck fields f.body) := List.drop_left' (bytesToBits_length _)
  simp only [receiveBody, bodyBeats, hdecoded, hcount, hdescrambled, bitsToBytes_bytesToBits, hdrop, hcheck,
    if_true, Nat.add_zero]

theorem apply_normal (bs : List Beat) : bs.map Sense.normal.apply = bs := by
  conv_rhs => rw [← List.map_id bs]
  exact List.map_congr_left fun b _ => rfl

/-- The head of an undisturbed frame passes its tests, and the body follows (R110). -/
theorem receiveHead_sent (sender : Nat) (f : Frame) (haddr : f.addressee < 64)
    (hlen : f.kind.lengthOk f.body.length = true) :
    receiveHead sender .normal ((headBeats f).map strongestBeat) ((bodyBeats sender f).map strongestBeat) =
      .good ⟨sender, f.kind, f.strong, f.addressee, f.body, 0⟩ := by
  have hcode : f.kind.code < 16 := by cases f.kind <;> decide
  obtain ⟨hfields, hkind, hrate, hlength, haddressee⟩ :=
    headFields_parts f.kind.code f.body.length f.addressee f.strong hcode (lengthOk_lt hlen) haddr
  have hbody := receiveBody_sent sender 0 f
  generalize hf : headFields f.kind.code f.strong f.body.length f.addressee = fields at *
  have hbits : headBits f = fields ++ bitsOf 7 (crc7 fields) ++ [false, false] := by rw [headBits, hf]
  have hshown := blockPositions_shown true (headBits f) 13 (by simp [hbits, hfields])
  have hdecoded := decodeBlock_encode (by rw [hbits]; exact encoderState_tails _ _ _) hshown
  have hcount := correctedCount_shown hshown
  have htake : (headBits f).take 17 = fields := by
    rw [hbits, List.append_assoc, List.take_append_of_le_length (by omega), List.take_of_length_le (by omega)]
  have hcheck : ofBits (((headBits f).drop 17).take 7) = crc7 fields := by
    rw [hbits, List.append_assoc, List.drop_append_of_le_length (by omega), List.drop_of_length_le (by omega),
      List.nil_append, List.take_append_of_le_length (by simp), List.take_of_length_le (by simp),
      ofBits_bitsOf_of_lt (crc7_lt _)]
  rw [if_pos rfl] at hdecoded hcount
  simp only [receiveHead, apply_normal, headBeats]
  rw [hdecoded, hcount, htake, hcheck, if_pos rfl, hkind, ofCode_code]
  simp only [hlength, hlen, if_true, hrate, haddressee]
  exact hbody

/-- Settles O10: the key, the sync word, the head and the body are received in turn. -/
theorem frameIsReceivedAsSent : Obligations.FrameIsReceivedAsSent := by
  intro key sender f hkey hsender hlow hhigh haddr hlen
  have hfrom : senderOf (undisturbed key sender f).key = sender := by
    rw [senderOf, undisturbed, keyOf_keySymbols hkey, hsender]
  have hsync : syncSense (undisturbed key sender f).sync = some .normal := rfl
  have hbody := receiveHead_sent sender f haddr hlen
  rw [receive]
  simp only [hfrom, hsync]
  rw [if_neg (by omega)]
  exact hbody

end Sys2Proof.Machine

namespace Sys2Proof.Machine

/-! ## Receptions (R99, R103, R112) -/

@[simp] theorem hearing_session (s : State) (dt : Nat) : (s.hearing dt).session = s.session := rfl
@[simp] theorem hearing_tile (s : State) (dt : Nat) : (s.hearing dt).tile = s.tile := rfl
@[simp] theorem hearing_now (s : State) (dt : Nat) : (s.hearing dt).now = s.now + dt := rfl
@[simp] theorem hearing_roster (s : State) (dt : Nat) : (s.hearing dt).roster = s.roster := rfl
@[simp] theorem hearing_line (s : State) (dt : Nat) : (s.hearing dt).line = .quiet (s.now + dt) := rfl
@[simp] theorem hearing_peer (s : State) (dt n : Nat) : (s.hearing dt).peer n = s.peer n := rfl

theorem quiet_ne_idle {t : Nat} : LineState.quiet t ≠ .idle := LineState.noConfusion

/-- Where nothing can be received, a reception changes nothing. -/
theorem reception_deaf {s : State} (h : s.session = .starting ∨ s.driving = true) (act : State → State) :
    s.reception act = s := by
  rw [State.reception, if_neg]
  rcases h with h | h <;> simp [State.receives, h]

/-- A reception counts its gap from its end and is then acted on. -/
theorem reception_received {s : State} (hstarting : s.session ≠ .starting) (hdriving : s.driving = false)
    (dt : Nat) (act : State → State) : (s.advance dt).reception act = act (s.hearing dt) := by
  rw [State.reception, if_pos]
  · rfl
  · have : (s.advance dt).driving = false := hdriving
    simp [State.receives, hstarting, this]

theorem handsOn_of_inGame {x : Session} (h : x.inGame = true) : x.handsOn = true := by
  cases x <;> simp_all [Session.inGame, Session.handsOn]

theorem handsOn_of_blankTile {x : Session} (h : x.blankTile = true) : x.handsOn = true := by
  cases x <;> simp_all [Session.blankTile, Session.handsOn]

theorem ne_starting_of_handsOn {x : Session} (h : x.handsOn = true) : x ≠ .starting := by
  rintro rfl
  exact Bool.noConfusion h

theorem isOwn_eq_false {s : State} {n : Nat} (h : s.session.inGame = true → n ≠ s.tile) : s.isOwn n = false := by
  unfold State.isOwn
  cases hgame : s.session.inGame with
  | false => rfl
  | true => simpa using h hgame

/-- A good frame of another station's is heard. -/
theorem hears_good {s : State} {rx : Reception} {f : GoodFrame} (hsession : s.session.handsOn = true)
    (hown : s.session.inGame = true → f.sender ≠ s.tile) (hrx : receive rx = .good f) :
    s.hears rx = some f := by
  have hown' : s.isOwn (senderOf rx.key) = false := (receive_sender hrx).1 ▸ isOwn_eq_false hown
  simp only [State.hears, hsession, hown', hrx, Bool.not_false, Bool.and_self, if_true]

/-- A good frame of a row's kind is taken by the row. -/
theorem hear_good {s : State} {rx : Reception} {f : GoodFrame} (dt : Nat) {isRow : GoodFrame → Bool}
    (take : State → GoodFrame → State) (hsession : s.session.handsOn = true) (hdriving : s.driving = false)
    (hown : s.session.inGame = true → f.sender ≠ s.tile) (hrx : receive rx = .good f) (hrow : isRow f = true) :
    (s.advance dt).hear rx isRow take = take (s.hearing dt) f := by
  rw [State.hear, reception_received (ne_starting_of_handsOn hsession) hdriving]
  simp only [hears_good (s := s.hearing dt) hsession hown hrx, hrow, if_true]

/-- What is not handed on, or is no frame of a station, is not heard. -/
theorem hears_none {s : State} {rx : Reception} (h : s.session.handsOn = false ∨ receive rx = .ignored) :
    s.hears rx = none := by
  unfold State.hears
  rcases h with h | h
  · simp [h]
  · simp only [h, ite_self]

theorem receive_ignored {rx : Reception} (h : senderOf rx.key = 0 ∨ senderOf rx.key = 63) :
    receive rx = .ignored := by
  rw [receive]
  exact if_pos h

/-- Every row that a frame's reception is does nothing more where no frame is heard. -/
theorem frameRow_unheard {dt : Nat} {rx : Reception} {i : Instr} (hi : i ∈ frameRows dt rx) :
    i.elapsed = dt ∧ (∀ run, i ≠ .powerUp dt run) ∧
      ∃ act : State → State, (∀ s, s.powered = true → exec i s = .next ((s.advance dt).reception act).onLine) ∧
        ∀ u : State, u.session.handsOn = false ∨ receive rx = .ignored → act u = u := by
  have hhear : ∀ (isRow : GoodFrame → Bool) (take : State → GoodFrame → State) (u : State),
      u.session.handsOn = false ∨ receive rx = .ignored →
      (match u.hears rx with
        | some f => if isRow f then take u f else u
        | none => u) = u := by
    intro isRow take u hu
    rw [hears_none hu]
  have hfaulty : ∀ u : State, u.session.handsOn = false ∨ receive rx = .ignored →
      (if u.session.handsOn && !u.isOwn (senderOf rx.key) then
        match receive rx with
        | .faulty sender _ => u.showFrame sender .fault
        | _ => u
      else u) = u := by
    rintro u (hu | hu)
    · simp [hu]
    · simp only [hu, ite_self]
  simp only [frameRows, List.mem_cons, List.not_mem_nil, or_false] at hi
  obtain rfl | rfl | rfl | rfl | rfl | rfl | rfl | rfl | rfl | rfl | rfl | rfl | rfl | rfl | rfl := hi
  · exact ⟨rfl, nofun, _, fun s h => exec_faultyFrame h dt rx, hfaulty⟩
  · exact ⟨rfl, nofun, _, fun s h => exec_hail h dt rx, hhear _ _⟩
  · exact ⟨rfl, nofun, _, fun s h => exec_update h dt rx, hhear _ _⟩
  · exact ⟨rfl, nofun, _, fun s h => exec_snapshot h dt rx, hhear _ _⟩
  · exact ⟨rfl, nofun, _, fun s h => exec_claim h dt rx, hhear _ _⟩
  · exact ⟨rfl, nofun, _, fun s h => exec_grant h dt rx, hhear _ _⟩
  · exact ⟨rfl, nofun, _, fun s h => exec_refuse h dt rx, hhear _ _⟩
  · exact ⟨rfl, nofun, _, fun s h => exec_cue h dt rx, hhear _ _⟩
  · exact ⟨rfl, nofun, _, fun s h => exec_ask h dt rx, hhear _ _⟩
  · exact ⟨rfl, nofun, _, fun s h => exec_newGame h dt rx, hhear _ _⟩
  · exact ⟨rfl, nofun, _, fun s h => exec_rest h dt rx, hhear _ _⟩
  · exact ⟨rfl, nofun, _, fun s h => exec_wake h dt rx, hhear _ _⟩
  · exact ⟨rfl, nofun, _, fun s h => exec_loadOpen h dt rx, hhear _ _⟩
  · exact ⟨rfl, nofun, _, fun s h => exec_loadPart h dt rx, hhear _ _⟩
  · exact ⟨rfl, nofun, _, fun s h => exec_seal h dt rx, hhear _ _⟩

/-- In STARTING, or while the tile drives, the selector chooses nothing. -/
theorem onLine_deaf {s : State} (h : s.session = .starting ∨ s.driving = true) : s.onLine = s := by
  rcases h with h | h
  · exact onLine_none (by simp [State.select, h, Session.onBoard, Session.blankTile])
  · refine onLine_outstanding fun ho => ?_
    simp [State.driving, ho] at h

/-- Settles O12: nothing is received, or what is received is not handed on. -/
theorem ignoredFramesChangeNothing : Obligations.IgnoredFramesChangeNothing := by
  intro dt rx s i hi
  obtain ⟨hdt, hup, act, hexec, hact⟩ := frameRow_unheard hi
  refine ⟨fun hdeaf => ?_, fun hon hstarting hdriving hignored => ?_⟩
  · cases hon : s.powered with
    | false =>
      rw [exec_unpowered hon, hdt]
      rintro dt' run rfl
      subst hdt
      exact hup run rfl
    | true =>
      rw [hexec s hon, reception_deaf (s := s.advance dt) hdeaf, onLine_deaf (s := s.advance dt) hdeaf]
  · have hu : (s.hearing dt).session.handsOn = false ∨ receive rx = .ignored := by
      rcases hignored with h | h | h
      · exact .inr (receive_ignored (.inl h))
      · exact .inr (receive_ignored (.inr h))
      · exact .inl (by rw [hearing_session, h]; rfl)
    rw [hexec s hon, reception_received hstarting hdriving, hact _ hu, onLine_busy quiet_ne_idle]

/-! ## The Roster's entries (R77, R80, R93) -/

/-- Changing the entry of a tile changes that entry alone. -/
theorem find_map_peer (l : List Peer) (n q : Nat) {f : Peer → Peer} (hf : ∀ p, (f p).tile = p.tile) :
    (l.map fun p => if p.tile = n then f p else p).find? (·.tile == q) =
      (l.find? (·.tile == q)).map fun p => if q = n then f p else p := by
  induction l with
  | nil => rfl
  | cons p l ih =>
    have htile : (if p.tile = n then f p else p).tile = p.tile := by
      split
      · exact hf p
      · rfl
    rw [List.map_cons, List.find?_cons, List.find?_cons, htile]
    cases hq : p.tile == q with
    | false => exact ih
    | true =>
      rw [beq_iff_eq] at hq
      simp only [hq, Option.map_some]

theorem peer_modifyPeer {s : State} (n q : Nat) {f : Peer → Peer} (hf : ∀ p, (f p).tile = p.tile) :
    (s.modifyPeer n f).peer q = (s.peer q).map fun p => if q = n then f p else p :=
  find_map_peer s.roster n q hf

theorem peer_modifyPeer_same {s : State} {n : Nat} {p : Peer} {f : Peer → Peer} (hf : ∀ p, (f p).tile = p.tile)
    (h : s.peer n = some p) : (s.modifyPeer n f).peer n = some (f p) := by
  rw [peer_modifyPeer n n hf, h]
  simp

theorem peer_modifyPeer_other {s : State} {n q : Nat} {f : Peer → Peer} (hf : ∀ p, (f p).tile = p.tile)
    (hq : q ≠ n) : (s.modifyPeer n f).peer q = s.peer q := by
  rw [peer_modifyPeer n q hf]
  simp [hq]

theorem peer_tile {s : State} {n : Nat} {p : Peer} (h : s.peer n = some p) : p.tile = n := by
  simpa using List.find?_some h

theorem peer_mem {s : State} {n : Nat} {p : Peer} (h : s.peer n = some p) : p ∈ s.roster :=
  List.mem_of_find?_eq_some h

/-- With no entry of a tile there is none to change. -/
theorem modifyPeer_unknown {s : State} {n : Nat} (f : Peer → Peer) (h : s.peer n = none) :
    s.modifyPeer n f = s := by
  have hnone : ∀ p ∈ s.roster, p.tile ≠ n := by simpa [State.peer] using h
  have hmap : s.roster.map (fun p => if p.tile = n then f p else p) = s.roster :=
    (List.map_congr_left fun p hp => if_neg (hnone p hp)).trans (List.map_id _)
  rw [State.modifyPeer, hmap]

/-! ## Grading (R93, R94) -/

/-- The sixteenth frame closes the window. -/
theorem takeGrade_closes {p : Peer} (h : Header) (g : FrameGrade) (hcounted : 15 ≤ p.counted) :
    p.takeGrade h g =
      { p with
        counted := 0
        corrected := 0
        faults := 0
        grade := gradeOf h (match g with | .good n => p.corrected + n | .fault => p.corrected + 64)
          (match g with | .good _ => p.faults | .fault => p.faults + 1) } := by
  unfold Peer.takeGrade
  exact if_pos (show 16 ≤ p.counted + 1 by omega)

/-- Any other frame adds to the sums. -/
theorem takeGrade_adds {p : Peer} (h : Header) (g : FrameGrade) (hcounted : p.counted < 15) :
    p.takeGrade h g =
      { p with
        counted := p.counted + 1
        corrected := match g with | .good n => p.corrected + n | .fault => p.corrected + 64
        faults := match g with | .good _ => p.faults | .fault => p.faults + 1 } := by
  unfold Peer.takeGrade
  exact if_neg (show ¬ 16 ≤ p.counted + 1 by omega)

/-- Settles O15, for a good frame and for a fault. -/
theorem gradingWindowCloses : Obligations.GradingWindowCloses := by
  intro p h g beats faults hgood hfault
  cases g with
  | good n =>
    obtain ⟨rfl, rfl⟩ := hgood n rfl
    exact ⟨fun hc => takeGrade_closes h _ hc.ge, fun hc => takeGrade_adds h _ hc⟩
  | fault =>
    obtain ⟨rfl, rfl⟩ := hfault rfl
    exact ⟨fun hc => takeGrade_closes h _ hc.ge, fun hc => takeGrade_adds h _ hc⟩

/-! ## Frames shown to the Roster (R78, R80, R93) -/

theorem silenceLimit_eq (x : Session) : silenceLimit x = if x = .rest then 60000000 else 7500000 := by
  cases x <;> rfl

/-- The entry of a sender, graded and refreshed. -/
theorem heardFrom_eq (s : State) (dt n : Nat) (g : FrameGrade) :
    (s.hearing dt).gradeAndRefresh n g = s.heardFrom dt n g := rfl

theorem heardFrom_unknown {s : State} {dt n : Nat} {g : FrameGrade} (h : s.peer n = none) :
    s.heardFrom dt n g = s.hearing dt := modifyPeer_unknown (s := s.hearing dt) _ h

theorem refresh_tile (p : Peer) (now limit : Nat) : (p.refresh now limit).tile = p.tile := rfl

theorem peer_heardFrom_same {s : State} {dt n : Nat} {g : FrameGrade} {p : Peer} (h : s.peer n = some p) :
    (s.heardFrom dt n g).peer n = some
      ((p.takeGrade s.header g).refresh (s.now + dt) (silenceLimit s.session)) :=
  peer_modifyPeer_same (s := s.hearing dt) (fun p => takeGrade_tile p s.header g) h

theorem peer_heardFrom_other {s : State} {dt n q : Nat} {g : FrameGrade} (h : q ≠ n) :
    (s.heardFrom dt n g).peer q = s.peer q :=
  peer_modifyPeer_other (s := s.hearing dt) (fun p => takeGrade_tile p s.header g) h

/-- A frame of a sender with no entry or a PRESENT one, shown to the Roster. -/
theorem showFrame_present {s : State} {n : Nat} (dt : Nat) (g : FrameGrade) (hgame : s.session.inGame = true)
    (h : ∀ p, s.peer n = some p → p.present = true) : (s.hearing dt).showFrame n g = s.heardFrom dt n g := by
  rw [State.showFrame, if_pos (show (s.hearing dt).session.inGame = true from hgame)]
  cases hp : s.peer n with
  | none => rw [hearing_peer, hp, heardFrom_unknown hp]
  | some p =>
    rw [hearing_peer, hp]
    exact if_pos (h p hp)

/-- A frame of a SILENT sender, shown to the Roster: routing follows. -/
theorem showFrame_silent {s : State} {n : Nat} {p : Peer} (dt : Nat) (g : FrameGrade)
    (hgame : s.session.inGame = true) (hp : s.peer n = some p) (hsilent : p.present = false) :
    (s.hearing dt).showFrame n g = (s.heardFrom dt n g).recompute none := by
  rw [State.showFrame, if_pos (show (s.hearing dt).session.inGame = true from hgame), hearing_peer, hp]
  exact if_neg (by simp [hsilent])

/-- A recomputation leaves all but the fields that a change of the roster brings with it. -/
theorem recompute_rosterFrame {s u : State} (created : Option Nat)
    (h : u = { s with roster := u.roster }) : s.rosterFrame (u.recompute created) := by
  obtain ⟨i, ov, c, q, e⟩ := recompute_frame u created
  rw [e, State.rosterFrame, h]
  rfl

theorem recompute_roster (s : State) (created : Option Nat) : (s.recompute created).roster = s.roster := by
  obtain ⟨i, ov, c, q, e⟩ := recompute_frame s created
  rw [e]
  rfl

theorem recompute_peer (s : State) (created : Option Nat) (n : Nat) :
    (s.recompute created).peer n = s.peer n := by
  rw [State.peer, recompute_roster, State.peer]

theorem recompute_line (s : State) (created : Option Nat) : (s.recompute created).line = s.line := by
  obtain ⟨i, ov, c, q, e⟩ := recompute_frame s created
  rw [e]
  rfl

/-- A faulty frame of another station's is shown to the Roster. -/
theorem exec_faultyFrame_heard {s : State} {rx : Reception} {n : Nat} {flt : LineFault} (dt : Nat)
    (hon : s.powered = true) (hgame : s.session.inGame = true) (hdriving : s.driving = false)
    (hrx : receive rx = .faulty n flt) (hown : senderOf rx.key ≠ s.tile) :
    exec (.faultyFrame dt rx) s = .next ((s.hearing dt).showFrame n .fault).onLine := by
  have hands := handsOn_of_inGame hgame
  have hown' : (s.hearing dt).isOwn (senderOf rx.key) = false := isOwn_eq_false fun _ => hown
  rw [exec_faultyFrame hon, State.hearFaulty, reception_received (ne_starting_of_handsOn hands) hdriving]
  simp only [hearing_session, hands, hown', hrx, Bool.not_false, Bool.and_self, if_true]

theorem receiveBody_faulty {sender : Nat} {k : FrameKind} {strong : Bool} {len a : Nat} {fs : List Bool}
    {c : Nat} {bs : List Beat} {n : Nat} {flt : LineFault}
    (h : receiveBody sender k strong len a fs c bs = .faulty n flt) : n = sender := by
  unfold receiveBody at h
  simp only at h
  generalize (if strong = true then strongPositions (8 * len + 18) bs else lightPositions (4 * len + 9) bs) = ps at h
  split at h <;> cases h
  rfl

theorem receiveHead_faulty {sender : Nat} {sn : Sense} {hb bb : List Beat} {n : Nat} {flt : LineFault}
    (h : receiveHead sender sn hb bb = .faulty n flt) : n = sender := by
  unfold receiveHead at h
  simp only at h
  split at h
  · split at h
    · cases h; rfl
    · split at h
      · exact receiveBody_faulty h
      · cases h; rfl
  · cases h; rfl

/-- A faulty frame's sender is the key's. -/
theorem receive_faulty_sender {rx : Reception} {n : Nat} {flt : LineFault} (h : receive rx = .faulty n flt) :
    n = senderOf rx.key := by
  unfold receive at h
  simp only at h
  split at h
  · cases h
  · split at h
    · cases h; rfl
    · exact receiveHead_faulty h

/-- Settles O14, by what the Roster has of the sender: nothing, a PRESENT entry, a SILENT one. -/
theorem faultyFrameGradesAndRefreshes : Obligations.FaultyFrameGradesAndRefreshes := by
  intro dt rx s n flt hon hgame hdriving hrx hown
  rw [exec_faultyFrame_heard dt hon hgame hdriving hrx (receive_faulty_sender hrx ▸ hown)]
  refine ⟨fun hnone => ?_, fun p hp hcounted => ?_⟩
  · rw [showFrame_present dt _ hgame (by simp [hnone]), heardFrom_unknown hnone, onLine_busy quiet_ne_idle]
  · have hentry := peer_heardFrom_same (dt := dt) (g := .fault) hp
    rw [takeGrade_adds s.header .fault (by omega), silenceLimit_eq] at hentry
    have hothers : ∀ q, q ≠ n → (s.heardFrom dt n .fault).peer q = s.peer q := fun q => peer_heardFrom_other
    cases hpresent : p.present with
    | true =>
      rw [showFrame_present dt _ hgame fun q hq => Option.some.inj (hp.symm.trans hq) ▸ hpresent,
        onLine_busy quiet_ne_idle]
      exact ⟨_, rfl, hentry, hothers, fun _ => rfl, nofun⟩
    | false =>
      rw [showFrame_silent dt _ hgame hp hpresent, onLine_busy (by rw [recompute_line]; exact quiet_ne_idle)]
      exact ⟨_, rfl, (recompute_peer _ _ _).trans hentry, fun q hq => (recompute_peer _ _ _).trans (hothers q hq),
        nofun, fun _ => ⟨recompute_routesOk _ _, recompute_rosterFrame none rfl⟩⟩

end Sys2Proof.Machine

namespace Sys2Proof.Machine

/-! ## Tables -/

theorem getElem?_mapFrom {α β : Type} (f : Nat → α → β) (i j : Nat) (l : List α) :
    (mapFrom f i l)[j]? = (l[j]?).map (f (i + j)) := by
  induction l generalizing i j with
  | nil => simp [mapFrom]
  | cons x xs ih =>
    cases j with
    | zero => simp [mapFrom]
    | succ j => simp [mapFrom, ih, Nat.add_assoc, Nat.add_comm 1 j]

/-- The entry of a mark after every entry has been changed by its number, where a blank replica is left so. -/
theorem mark_mapFrom {s v : State} {f : Nat → MarkEntry → MarkEntry} (hv : v.marks = mapFrom f 0 s.marks) (m : Nat)
    (hblank : f m (.replica Replica.blank) = .replica Replica.blank) : v.mark m = f m (s.mark m) := by
  rw [State.mark, State.mark, hv, List.getD_eq_getElem?_getD, List.getD_eq_getElem?_getD, getElem?_mapFrom,
    Nat.zero_add]
  cases s.marks[m]? with
  | none => exact hblank.symm
  | some e => rfl

/-! ## What a change of marks brings with it (R21, R46, R47) -/

/-- Mark-change events at depth 0 are raised one by one as they are raised together. -/
theorem raiseMarks_raising {s : State} (ms : List Nat) (h : s.session.inGame = true) :
    s.raiseMarks ms = s.raising (s.markEvents ms) := by
  rw [raiseMarks_eq s ms h, State.raising, State.markEvents, List.length_map]
  rfl

theorem dropClaimFrame_transmit (s : State) (e : ClaimEntry) :
    ∃ q, s.dropClaimFrame e = { s with transmit := q } ∧ ∀ x ∈ q, x ∈ s.transmit := by
  unfold State.dropClaimFrame
  split
  · exact ⟨_, rfl, fun _ h => h⟩
  · split
    · exact ⟨_, rfl, fun _ h => h⟩
    · exact ⟨_, rfl, fun _ h => (List.mem_filter.mp h).1⟩

/-- A run of endings adds answer events alone, and takes frames out of the transmit queue alone. -/
theorem foldEnd_appends (l : List ClaimEntry) (s : State) :
    ∃ as c q, l.foldl (fun s e => s.endEntry e .noAnswer) s =
        { s with inbox := s.inbox ++ as, claims := c, transmit := q } ∧
      (∀ a ∈ as, Arrival.isEvent a = false) ∧ ∀ x ∈ q, x ∈ s.transmit := by
  induction l generalizing s with
  | nil => exact ⟨[], s.claims, s.transmit, by simp, nofun, fun _ h => h⟩
  | cons e l ih =>
    rw [List.foldl_cons]
    obtain ⟨as, c, q, hfold, has, hq⟩ := ih (s.endEntry e .noAnswer)
    rw [hfold]
    by_cases he : s.claims.contains e = true
    · obtain ⟨q', hdrop, hq'⟩ := dropClaimFrame_transmit s e
      have hend : s.endEntry e .noAnswer =
          { s with
            claims := s.claims.filter fun e' => e'.tag != e.tag
            inbox := s.inbox ++ [.answer e.step e.tag .noAnswer]
            transmit := q' } := by
        rw [State.endEntry, if_pos he, hdrop]
      rw [hend] at hq ⊢
      refine ⟨.answer e.step e.tag .noAnswer :: as, c, q, by simp, ?_, fun x hx => hq' x (hq x hx)⟩
      simpa using ⟨rfl, has⟩
    · have hend : s.endEntry e .noAnswer = s := by rw [State.endEntry, if_neg he]
      rw [hend] at hq ⊢
      exact ⟨as, c, q, rfl, has, hq⟩

/-- Events raised for the replicas restated, and then the claim entries that `lost` picks ended. -/
theorem followed_endEntries {s v : State} (lost : ClaimEntry → Bool) (hgame : v.session.inGame = true)
    (htransmit : v.transmit = s.transmit) (hclaims : v.claims = s.claims) (hwatched : v.watched = s.watched) :
    s.followed v ((v.raiseMarks (s.restated v)).endEntries lost) lost := by
  have hraise : v.raiseMarks (s.restated v) = v.raising (s.markEvents (s.restated v)) := by
    have hwatch : v.isWatched = s.isWatched := by
      funext m
      rw [State.isWatched, State.isWatched, hwatched]
    rw [raiseMarks_raising _ hgame, State.markEvents, State.markEvents, hwatch]
  rw [hraise]
  generalize hw : v.raising (s.markEvents (s.restated v)) = w
  have hwt : w.transmit = s.transmit := by rw [← hw]; exact htransmit
  have hwc : w.claims = s.claims := by rw [← hw]; exact hclaims
  obtain ⟨as, c, q, hfold, has, hq⟩ := foldEnd_appends (w.claims.filter lost) w
  refine ⟨⟨as, c, q, has, ?_⟩, ?_, fun htags => ?_⟩
  · rw [hw]
    exact hfold
  · intro x hx
    rw [State.endEntries, hfold] at hx
    exact hwt ▸ hq x hx
  · rw [hw, endEntries_eq w lost (by rw [State.tagsOk, hwc]; exact htags)]
    rfl

/-! ## Routing recomputed (R14, R15, R88) -/

theorem rerouted_blank (a b : Route) (created : Option Nat) : rerouted a b created .unknown = .unknown := by
  unfold rerouted
  repeat' split
  all_goals first | rfl | contradiction

/-- The replica's state that a change of route gives. -/
theorem rerouted_eq {a b : Route} (created : Option Nat) (x : ReplicaState) (h : a ≠ b) :
    rerouted a b created x = routedState a b created x := by
  unfold routedState
  rw [if_neg h]
  cases created with
  | none => cases a <;> simp [rerouted]
  | some n =>
    cases b with
    | peer t =>
      by_cases hn : n = t
      · subst hn
        simp [rerouted]
      · have hother : ¬ (Option.map Route.peer (some n) = some (Route.peer t)) := by simpa using hn
        rw [if_neg hother]
        cases a <;> simp only [rerouted, if_neg hn]
    | none => cases a <;> simp [rerouted]
    | self => cases a <;> simp [rerouted]

theorem routedState_same (a : Route) (created : Option Nat) (x : ReplicaState) :
    routedState a a created x = x := if_pos rfl

theorem rerouteEntry_eq (s v : State) (created : Option Nat) (m : Nat) (e : MarkEntry) :
    rerouteEntry s.routes v.routes created m e = match e with
      | .replica r => .replica { r with state := routedState (s.route m) (v.route m) created r.state }
      | e => e := by
  show (if s.route m = v.route m then e
    else e.onReplica fun r => { r with state := rerouted (s.route m) (v.route m) created r.state }) = _
  split
  · next h => cases e <;> simp only [h, routedState_same]
  · next h => cases e <;> simp only [MarkEntry.onReplica, rerouted_eq created _ h]

theorem routedState_unknown (a b : Route) (created : Option Nat) :
    routedState a b created .unknown = .unknown := by
  by_cases h : a = b
  · rw [h, routedState_same]
  · rw [← rerouted_eq created _ h, rerouted_blank]

/-- The entries after a table of routes has replaced another. -/
theorem mark_rerouteEntry {s v : State} {created : Option Nat} (m : Nat)
    (hv : v.marks = mapFrom (rerouteEntry s.routes v.routes created) 0 s.marks) :
    v.mark m = match s.mark m with
      | .replica r => .replica { r with state := routedState (s.route m) (v.route m) created r.state }
      | e => e := by
  have hrow := rerouteEntry_eq s v created m
  refine (mark_mapFrom hv m ((hrow _).trans ?_)).trans (hrow _)
  simp only [Replica.blank, routedState_unknown]

/-- What routing recomputed is: R15's routes, R14's replicas, and what these bring with them. -/
theorem recompute_routed {s : State} (created : Option Nat) (hgame : s.session.inGame = true) :
    s.routed (s.recompute created) created := by
  refine ⟨s.rerouted created, rfl, routesOk_computed rfl, mapFrom_length _ _ _,
    fun m _ => mark_rerouteEntry (s := s) (v := s.rerouted created) m rfl, ?_⟩
  have hlost : ((s.rerouted created).raiseMarks (changedStates s.marks (s.rerouted created).marks)).ownerLost =
      fun c => decide ((s.rerouted created).route c.mark ≠ .peer c.owner) := by
    obtain ⟨i, ov, e⟩ := raiseMarks_frame (s.rerouted created) (changedStates s.marks (s.rerouted created).marks)
    rw [e]
    funext c
    simp [State.ownerLost, State.route, bne, beq_eq_decide]
  rw [recompute_eq, hlost]
  exact followed_endEntries _ hgame rfl rfl rfl

theorem epochEntry_eq (s : State) (n m : Nat) (e : MarkEntry) :
    epochEntry s.routes n m e = match e with
      | .replica r => .replica { r with state := if s.route m = .peer n then .unknown else r.state }
      | e => e := by
  show (if s.route m = .peer n then e.onReplica fun r => { r with state := .unknown } else e) = _
  cases e with
  | owned o => exact ite_self _
  | replica r => split <;> rfl

/-- The consequences of a peer's new epoch. -/
theorem epochConsequences_reports {s : State} (n : Nat) (hgame : s.session.inGame = true) :
    s.reportsEpoch (s.epochConsequences n) n := by
  refine ⟨{ s with marks := mapFrom (epochEntry s.routes n) 0 s.marks }, rfl, mapFrom_length _ _ _, fun m => ?_,
    followed_endEntries _ hgame rfl rfl rfl⟩
  have hrow := epochEntry_eq s n m
  refine (mark_mapFrom (s := s) rfl m ((hrow _).trans ?_)).trans (hrow _)
  simp only [Replica.blank, ite_self]

/-! ## What a recomputation leaves of marks and routes -/

theorem recompute_marks (s : State) (created : Option Nat) :
    (s.recompute created).marks = mapFrom (rerouteEntry s.routes s.computeRoutes created) 0 s.marks := by
  obtain ⟨i, ov, c, q, e⟩ := recompute_frame s created
  rw [e]
  rfl

theorem recompute_routes (s : State) (created : Option Nat) : (s.recompute created).routes = s.computeRoutes := by
  obtain ⟨i, ov, c, q, e⟩ := recompute_frame s created
  rw [e]
  rfl

theorem recompute_route {s : State} (created : Option Nat) {m : Nat} (hm : m < 256) :
    (s.recompute created).route m = s.routeOf m := by
  rw [State.route, recompute_routes, State.computeRoutes, List.getD_eq_getElem?_getD, List.getElem?_map,
    List.getElem?_range hm]
  rfl

/-- The entry of a mark after a recomputation, by its routes before and after. -/
theorem recompute_mark (s : State) (created : Option Nat) (m : Nat) :
    (s.recompute created).mark m = match s.mark m with
      | .replica r => .replica
          { r with state := routedState (s.route m) ((s.recompute created).route m) created r.state }
      | e => e :=
  mark_rerouteEntry m (by rw [recompute_marks, recompute_routes])

theorem recompute_claims_route (s : State) (created : Option Nat) (c : ClaimEntry) :
    (s.rerouted created).route c.mark = (s.recompute created).route c.mark := by
  rw [State.route, State.route, recompute_routes]
  rfl

/-! ## The deadlines of an entry (R81, R82) -/

/-- No PRESENT entry of a tile, no route to it. -/
theorem routeOf_ne_peer {s : State} {n : Nat} (m : Nat) (h : ∀ p ∈ s.roster, p.tile = n → p.present = false) :
    s.routeOf m ≠ .peer n := by
  unfold State.routeOf
  split
  · exact Route.noConfusion
  · split
    · next p hp =>
      intro hn
      have hholds : (p.present && p.holds m) = true :=
        List.find?_some (p := fun p : Peer => p.present && p.holds m) hp
      have hsilent := h p (List.mem_of_find?_eq_some hp) (Route.peer.inj hn)
      simp [hsilent] at hholds
    · exact Route.noConfusion

/-- The entry of a tile made SILENT. -/
def State.silenced (s : State) (n : Nat) : State :=
  s.modifyPeer n fun p =>
    { p with present := false, silenceAt := none,
             removalAt := if s.session = .rest then none else some (s.now + 60000000) }

theorem silencePasses_due {s : State} {n d : Nat} {p : Peer} (hgame : s.session.inGame = true)
    (hp : s.peer n = some p) (hpresent : p.present = true) (hsilence : p.silenceAt = some d) :
    s.silencePasses n = if d ≤ s.now then (s.silenced n).recompute none else s := by
  rw [State.silencePasses, if_pos hgame, hp]
  simp only [hsilence, hpresent, true_and]
  rfl

theorem removalPasses_due {s : State} {n d : Nat} {p : Peer} (hgame : s.session.inGame = true)
    (hp : s.peer n = some p) (hsilent : p.present = false) (hremoval : p.removalAt = some d) :
    s.removalPasses n =
      if d ≤ s.now then ({ s with roster := s.roster.filter fun q => q.tile != n } : State).recompute none else s := by
  rw [State.removalPasses, if_pos hgame, hp]
  simp only [hremoval, hsilent, Bool.not_false, true_and]
  rfl

/-- An entry that is not PRESENT holds no mark, so that its removal leaves R15's routes. -/
theorem lowestHolder_filter {l : List Peer} {n : Nat} (m : Nat) (h : ∀ p ∈ l, p.tile = n → p.present = false) :
    lowestHolder (l.filter fun q => q.tile != n) m = lowestHolder l m := by
  unfold lowestHolder
  rw [List.find?_filter]
  apply List.find?_congr
  intro p hp
  by_cases hn : p.tile = n
  · simp [h p hp hn]
  · simp [hn]

theorem roster_tiles_nodup {s : State} (h : s.rosterOk) : (s.roster.map Peer.tile).Nodup := by
  obtain ⟨-, hsorted, -, -⟩ := h
  exact List.pairwise_map.mpr (hsorted.imp Nat.ne_of_lt)

/-- In a lawful Roster a tile has one entry. -/
theorem roster_unique {s : State} {n : Nat} {p q : Peer} (h : s.rosterOk) (hp : s.peer n = some p)
    (hq : q ∈ s.roster) (hn : q.tile = n) : q = p :=
  List.inj_on_of_nodup_map (roster_tiles_nodup h) hq (peer_mem hp) (hn.trans (peer_tile hp).symm)

theorem peer_filter_same (s : State) (n : Nat) :
    State.peer { s with roster := s.roster.filter fun q => q.tile != n } n = none := by
  simp [State.peer, List.find?_eq_none]

theorem peer_filter_other {s : State} {n q : Nat} (h : q ≠ n) :
    State.peer { s with roster := s.roster.filter fun q => q.tile != n } q = s.peer q := by
  unfold State.peer
  rw [List.find?_filter]
  apply List.find?_congr
  intro p _
  by_cases hp : p.tile = q
  · simp [hp, h]
  · simp [hp]

/-- A table of routes that stays leaves every entry. -/
theorem recompute_marks_same {s : State} (created : Option Nat) (hroutes : ∀ m < 256, s.route m = s.routeOf m)
    (hlen : s.marks.length = 256) : (s.recompute created).marks = s.marks := by
  rw [recompute_marks]
  apply List.ext_getElem?
  intro m
  rw [getElem?_mapFrom, Nat.zero_add]
  by_cases hm : m < 256
  · obtain ⟨e, he⟩ : ∃ e, s.marks[m]? = some e := ⟨_, List.getElem?_eq_getElem (hlen ▸ hm)⟩
    have hsame : s.routes.getD m .none = s.computeRoutes.getD m .none := by
      have hcomputed : (s.recompute created).route m = s.computeRoutes.getD m .none := by
        rw [State.route, recompute_routes]
      exact (hroutes m hm).trans ((recompute_route created hm).symm.trans hcomputed)
    rw [he, Option.map_some, rerouteEntry]
    simp only [hsame, if_true]
  · rw [List.getElem?_eq_none (by omega)]
    rfl

/-- A silence deadline that has come: the entry SILENT, and what its routing brings. -/
theorem silenced_recompute {s : State} {n : Nat} {p : Peer} (hp : s.peer n = some p) :
    (∀ q ∈ (s.silenced n).roster, q.tile = n → q.present = false) ∧
      (s.silenced n).peer n = some
        { p with present := false, silenceAt := none,
                 removalAt := if s.session = .rest then none else some (s.now + 60000000) } ∧
      ∀ q, q ≠ n → (s.silenced n).peer q = s.peer q := by
  refine ⟨fun q hq hn => ?_, peer_modifyPeer_same (fun _ => rfl) hp, fun q hq => peer_modifyPeer_other (fun _ => rfl) hq⟩
  obtain ⟨q', -, rfl⟩ := List.mem_map.mp hq
  by_cases hq' : q'.tile = n
  · rw [if_pos hq']
  · rw [if_neg hq'] at hn
    exact absurd hn hq'

/-- Settles O20: either deadline changes one entry and recomputes the routing; a removal leaves its routes. -/
theorem rosterDeadlines : Obligations.RosterDeadlines := by
  refine ⟨fun dt n s p d hon hgame hp hpresent hd => ⟨fun hearly => ?_, fun hdue hlen => ?_⟩,
    fun dt n s p d hon hgame hp hsilent hd => ⟨fun hearly => ?_, fun hdue hroster hroutes hmarks => ?_⟩⟩
  · rw [exec_silenceDeadline hon, silencePasses_due (s := s.advance dt) hgame hp hpresent hd,
      if_neg (by rw [advance_now]; omega)]
  · obtain ⟨hsilent, hentry, hothers⟩ := silenced_recompute (s := s.advance dt) hp
    rw [exec_silenceDeadline hon, silencePasses_due (s := s.advance dt) hgame hp hpresent hd,
      if_pos (by rw [advance_now]; omega)]
    have hclaims := recompute_claims ((s.advance dt).silenced n) none
    simp only [recompute_claims_route] at hclaims
    refine ⟨_, rfl, (recompute_peer _ _ _).trans hentry, fun q hq => (recompute_peer _ _ _).trans (hothers q hq),
      recompute_routesOk _ _, fun m r hm hroute hmark => ?_, fun c hc => (hclaims c).1 hc,
      fun htags c hc hr => (hclaims c).2 htags hc hr, recompute_routed none hgame, recompute_rosterFrame none rfl⟩
    have hmoved : s.route m ≠ (((s.advance dt).silenced n).recompute none).route m := by
      rw [hroute, recompute_route none hm]
      exact (routeOf_ne_peer m hsilent).symm
    rw [recompute_mark, show State.mark ((s.advance dt).silenced n) m = .replica r from hmark]
    simp only [routedState, show State.route ((s.advance dt).silenced n) m = .peer n from hroute]
    rw [if_neg (hroute ▸ hmoved)]
    rfl
  · rw [exec_removalDeadline hon, removalPasses_due (s := s.advance dt) hgame hp hsilent hd,
      if_neg (by rw [advance_now]; omega)]
  · have hnone : ∀ q ∈ s.roster, q.tile = n → q.present = false :=
      fun q hq hn => roster_unique hroster hp hq hn ▸ hsilent
    have hroutes' : ∀ m < 256, s.route m =
        State.routeOf { s.advance dt with roster := s.roster.filter fun q => q.tile != n } m := by
      intro m hm
      rw [hroutes m hm, State.routeOf, State.routeOf]
      simp only [lowestHolder_filter m hnone]
      rfl
    rw [exec_removalDeadline hon, removalPasses_due (s := s.advance dt) hgame hp hsilent hd,
      if_pos (by rw [advance_now]; omega)]
    exact ⟨_, rfl, (recompute_peer _ _ _).trans (peer_filter_same (s.advance dt) n),
      fun q hq => (recompute_peer _ _ _).trans (peer_filter_other (s := s.advance dt) hq),
      fun m hm => (recompute_route none hm).trans (hroutes' m hm).symm,
      recompute_marks_same none hroutes' hmarks.1, recompute_routed none hgame, recompute_rosterFrame none rfl⟩

end Sys2Proof.Machine

namespace Sys2Proof.Machine

/-! ## A good frame as the Roster and the dispatcher take it (R78, R80, R112, R113) -/

/-- The part in LISTENING, PLAY or REST hears the good frame `f` of another station's, and `u` is what the Roster
makes of it before its block takes it. -/
structure State.ShowsAs (s u : State) (dt : Nat) (rx : Reception) (f : GoodFrame) : Prop where
  on : s.powered = true
  game : s.session.inGame = true
  driving : s.driving = false
  good : receive rx = .good f
  other : f.sender ≠ s.tile
  shown : (s.hearing dt).showFrame f.sender (.good f.corrected) = u

/-- A frame of a sender with no entry or a PRESENT one leaves its entry graded and refreshed. -/
theorem State.gets.showsAs {s : State} {rx : Reception} {f : GoodFrame} (h : s.gets rx f) (dt : Nat) :
    s.ShowsAs (s.heardFrom dt f.sender (.good f.corrected)) dt rx f := by
  obtain ⟨hon, hgame, hdriving, hrx, hother, hpresent⟩ := h
  exact ⟨hon, hgame, hdriving, hrx, hother, showFrame_present dt _ hgame hpresent⟩

/-- A frame of a SILENT sender leaves its entry PRESENT, with the routing that follows. -/
theorem State.getsSilent.showsAs {s : State} {rx : Reception} {f : GoodFrame} {p : Peer} (h : s.getsSilent rx f p)
    (dt : Nat) : s.ShowsAs ((s.heardFrom dt f.sender (.good f.corrected)).recompute none) dt rx f := by
  obtain ⟨hon, hgame, hdriving, hrx, hother, hp, hsilent⟩ := h
  exact ⟨hon, hgame, hdriving, hrx, hother, showFrame_silent dt _ hgame hp hsilent⟩

/-- What the frame of a SILENT sender does to its entry, and what that brings. -/
theorem State.getsSilent.wakesPeer {s : State} {rx : Reception} {f : GoodFrame} {p : Peer} (h : s.getsSilent rx f p)
    (dt : Nat) : s.wakesPeer ((s.heardFrom dt f.sender (.good f.corrected)).recompute none) dt f p := by
  obtain ⟨-, hgame, -, -, -, hp, -⟩ := h
  have hentry := peer_heardFrom_same (dt := dt) (g := .good f.corrected) hp
  rw [silenceLimit_eq] at hentry
  have hrouted := recompute_routed (s := s.heardFrom dt f.sender (.good f.corrected)) none hgame
  obtain ⟨v, hv, -, -, -, -, htransmit, -⟩ := id hrouted
  refine ⟨(recompute_peer _ _ _).trans hentry, fun n hn => (recompute_peer _ _ _).trans (peer_heardFrom_other hn),
    recompute_routesOk _ _, fun q hq => ?_, hrouted, recompute_rosterFrame none rfl⟩
  exact htransmit q hq

theorem showFrame_frame (s : State) (n : Nat) (g : FrameGrade) : s.rosterFrame (s.showFrame n g) := by
  unfold State.showFrame
  split
  · split
    · rfl
    · split
      · rfl
      · exact recompute_rosterFrame none rfl
  · rfl

theorem State.ShowsAs.frame {s u : State} {dt : Nat} {rx : Reception} {f : GoodFrame} (h : s.ShowsAs u dt rx f) :
    (s.hearing dt).rosterFrame u := h.shown ▸ showFrame_frame _ _ _

section
variable {s u : State}

/-! What a change of the roster leaves, field by field. -/

theorem State.rosterFrame.now (h : s.rosterFrame u) : u.now = s.now := by rw [h]
theorem State.rosterFrame.powered (h : s.rosterFrame u) : u.powered = s.powered := by rw [h]
theorem State.rosterFrame.session (h : s.rosterFrame u) : u.session = s.session := by rw [h]
theorem State.rosterFrame.serial (h : s.rosterFrame u) : u.serial = s.serial := by rw [h]
theorem State.rosterFrame.tile (h : s.rosterFrame u) : u.tile = s.tile := by rw [h]
theorem State.rosterFrame.winFirst (h : s.rosterFrame u) : u.winFirst = s.winFirst := by rw [h]
theorem State.rosterFrame.winSize (h : s.rosterFrame u) : u.winSize = s.winSize := by rw [h]
theorem State.rosterFrame.watched (h : s.rosterFrame u) : u.watched = s.watched := by rw [h]
theorem State.rosterFrame.answers (h : s.rosterFrame u) : u.answers = s.answers := by rw [h]
theorem State.rosterFrame.loader (h : s.rosterFrame u) : u.loader = s.loader := by rw [h]
theorem State.rosterFrame.run (h : s.rosterFrame u) : u.run = s.run := by rw [h]
theorem State.rosterFrame.line (h : s.rosterFrame u) : u.line = s.line := by rw [h]
theorem State.rosterFrame.outstanding (h : s.rosterFrame u) : u.outstanding = s.outstanding := by rw [h]
theorem State.rosterFrame.writer (h : s.rosterFrame u) : u.writer = s.writer := by rw [h]

end

/-- A row of the dispatcher's takes a frame shown to the Roster, unless it is of an addressed kind and another
tile's. -/
theorem hear_dispatch {s u : State} {dt : Nat} {rx : Reception} {f : GoodFrame} (h : s.ShowsAs u dt rx f)
    {isRow : GoodFrame → Bool} (take : State → GoodFrame → State) (hrow : isRow f = true) :
    (s.advance dt).hear rx isRow (fun s f => s.dispatch f take) =
      if f.kind.addressed = true ∧ f.addressee ≠ s.tile then u else take u f := by
  have htile : u.tile = s.tile := h.frame.tile
  rw [hear_good dt _ (handsOn_of_inGame h.game) h.driving (fun _ => h.other) h.good hrow, State.dispatch, h.shown]
  simp only [htile]

theorem ofKind_self {f : GoodFrame} {k : FrameKind} (h : f.kind = k) : ofKind k f = true := by
  simp [ofKind, h]

theorem hear_taken {s u : State} {dt : Nat} {rx : Reception} {f : GoodFrame} (h : s.ShowsAs u dt rx f)
    {k : FrameKind} (take : State → GoodFrame → State) (hkind : f.kind = k)
    (haddr : k.addressed = false ∨ f.addressee = s.tile) :
    (s.advance dt).hear rx (ofKind k) (fun s f => s.dispatch f take) = take u f := by
  rw [hear_dispatch h take (ofKind_self hkind), if_neg]
  rintro ⟨h1, h2⟩
  rcases haddr with h3 | h3
  · rw [hkind, h3] at h1
    exact Bool.noConfusion h1
  · exact h2 h3

theorem hear_notMine {s u : State} {dt : Nat} {rx : Reception} {f : GoodFrame} (h : s.ShowsAs u dt rx f)
    {k : FrameKind} (take : State → GoodFrame → State) (hkind : f.kind = k) (hk : k.addressed = true)
    (haddr : f.addressee ≠ s.tile) :
    (s.advance dt).hear rx (ofKind k) (fun s f => s.dispatch f take) = u := by
  rw [hear_dispatch h take (ofKind_self hkind), if_pos ⟨hkind ▸ hk, haddr⟩]

/-- The frame's end keeps the line from being idle. -/
theorem State.ShowsAs.line {s u : State} {dt : Nat} {rx : Reception} {f : GoodFrame} (h : s.ShowsAs u dt rx f) :
    u.line ≠ .idle := by
  rw [h.frame.line, hearing_line]
  exact quiet_ne_idle

theorem onLine_same_line {s u : State} (hline : s.line ≠ .idle) (h : u.line = s.line) : u.onLine = u :=
  onLine_busy (h ▸ hline)

/-! ## Items (R12, R13) -/

theorem serialAgrees_eq (s : State) (n : Nat) :
    s.serialAgrees n = (s.peer n).any fun p => p.serial == s.serial := by
  unfold State.serialAgrees
  cases s.peer n <;> rfl

theorem serialAgrees_iff (s : State) (n : Nat) : s.serialAgrees n = true ↔ s.sameGame n := by
  rw [serialAgrees_eq]
  unfold State.sameGame
  cases s.peer n <;> simp

theorem ahead_iff (n m : Byte) : ahead n m = true ↔ 1 ≤ (n - m).toNat ∧ (n - m).toNat ≤ 127 := by
  simp [ahead]

theorem accepts_iff (r : Replica) (epoch version : Byte) :
    r.accepts epoch version = true ↔ r.state ≠ .fresh ∨ r.epoch ≠ epoch ∨
      (1 ≤ (version - r.version).toNat ∧ (version - r.version).toNat ≤ 127) := by
  simp [Replica.accepts, ahead_iff, or_assoc]

/-- What an item must pass (R12). -/
theorem passesItem_iff (s : State) (n : Nat) (epoch : Byte) (m v : Nat) (ver : Byte) :
    s.passesItem n epoch m v ver = true ↔ m ≤ 255 ∧ v ≤ 99 ∧ s.route m = .peer n ∧ s.sameGame n ∧
      ∃ r, s.mark m = .replica r ∧ r.accepts epoch ver = true := by
  rw [← serialAgrees_iff, serialAgrees_eq]
  unfold State.passesItem
  cases s.mark m with
  | owned o => simp
  | replica r => simp [accepts_iff, and_assoc]

/-- The marks with the item's replica stored. -/
def storeItem (epoch : Byte) (m v : Nat) (ver : Byte) (marks : List MarkEntry) : List MarkEntry :=
  modifyAt (fun _ => .replica ⟨v, ver, epoch, .fresh⟩) m marks

theorem getElem?_modifyAt {α : Type} (f : α → α) (i j : Nat) (l : List α) :
    (modifyAt f i l)[j]? = if j = i then (l[j]?).map f else l[j]? := by
  induction l generalizing i j with
  | nil => simp [modifyAt]
  | cons x xs ih =>
    cases i <;> cases j <;> simp [modifyAt, ih]

/-- Changing an entry is the same by any two functions that agree on it. -/
theorem modifyAt_congr {α : Type} {f g : α → α} {i : Nat} {l : List α} (h : ∀ x, l[i]? = some x → f x = g x) :
    modifyAt f i l = modifyAt g i l := by
  apply List.ext_getElem?
  intro j
  rw [getElem?_modifyAt, getElem?_modifyAt]
  split
  · next hj =>
    subst hj
    cases hx : l[j]? with
    | none => rfl
    | some x => rw [Option.map_some, Option.map_some, h x hx]
  · rfl

/-- The entry of a mark, where it is not the blank one of a mark beyond the table. -/
theorem mark_get {s : State} {m : Nat} {e x : MarkEntry} (h : s.mark m = e) (hx : s.marks[m]? = some x) : x = e := by
  rw [State.mark, List.getD_eq_getElem?_getD, hx] at h
  exact h

/-- An item that fails a test changes nothing. -/
theorem judgeItem_dropped {s : State} {n : Nat} {epoch : Byte} {m v : Nat} {ver : Byte}
    (h : s.passesItem n epoch m v ver = false) : s.judgeItem n epoch m v ver = s := by
  have hnot : ¬ s.passesItem n epoch m v ver = true := by simp [h]
  rw [passesItem_iff] at hnot
  unfold State.judgeItem
  split
  · next hc =>
    obtain ⟨-, hm, hv, hroute, hserial⟩ := hc
    rw [serialAgrees_iff] at hserial
    split
    · rfl
    · next r hr => exact if_neg fun haccepts => hnot ⟨hm, hv, hroute, hserial, r, hr, haccepts⟩
  · rfl

/-- An item that passes is stored, and raises the event of a mark it changes. -/
theorem judgeItem_stored {s : State} {n : Nat} {epoch : Byte} {m v : Nat} {ver : Byte}
    (hgame : s.session.inGame = true) (h : s.passesItem n epoch m v ver = true) :
    s.judgeItem n epoch m v ver =
      { s with marks := storeItem epoch m v ver s.marks }.raiseMarks (if s.changesBy m v = true then [m] else []) := by
  obtain ⟨hm, hv, hroute, hserial, r, hr, haccepts⟩ := (passesItem_iff ..).mp h
  have hstore : s.modifyReplica m (fun _ => ⟨v, ver, epoch, .fresh⟩) =
      { s with marks := storeItem epoch m v ver s.marks } := by
    rw [State.modifyReplica, storeItem]
    congr 1
    refine modifyAt_congr fun x hx => ?_
    rw [mark_get hr hx]
    rfl
  unfold State.judgeItem
  rw [if_pos ⟨hgame, hm, hv, hroute, (serialAgrees_iff s n).mpr hserial⟩, hr]
  simp only [haccepts, if_true, hstore, State.changesBy, hr, decide_eq_true_eq]
  split <;> rfl

/-- Judging an item changes marks, events and OVERRUN alone. -/
theorem judgeItem_frame (s : State) (n : Nat) (epoch : Byte) (m v : Nat) (ver : Byte) :
    ∃ ms i ov, s.judgeItem n epoch m v ver =
      { s with marks := ms, inbox := i, health := { s.health with overrun := ov } } := by
  cases hgame : s.session.inGame with
  | false =>
    rw [State.judgeItem, if_neg (by simp [hgame])]
    exact ⟨_, _, _, rfl⟩
  | true =>
    cases hpass : s.passesItem n epoch m v ver with
    | false =>
      rw [judgeItem_dropped hpass]
      exact ⟨_, _, _, rfl⟩
    | true =>
      rw [judgeItem_stored hgame hpass]
      obtain ⟨i, ov, e⟩ := raiseMarks_frame { s with marks := storeItem epoch m v ver s.marks }
        (if s.changesBy m v = true then [m] else [])
      rw [e]
      exact ⟨_, _, _, rfl⟩

theorem judgeItem_line (s : State) (n : Nat) (epoch : Byte) (m v : Nat) (ver : Byte) :
    (s.judgeItem n epoch m v ver).line = s.line ∧ (s.judgeItem n epoch m v ver).tile = s.tile := by
  obtain ⟨ms, i, ov, e⟩ := judgeItem_frame s n epoch m v ver
  rw [e]
  exact ⟨rfl, rfl⟩

/-- An item stored where its event finds room. -/
theorem judgeItem_room {s : State} {n : Nat} {epoch : Byte} {m v : Nat} {ver : Byte} {r : Replica}
    (hgame : s.session.inGame = true) (h : s.passesItem n epoch m v ver = true) (hr : s.mark m = .replica r)
    (hroom : s.engineQueue.length < 32) :
    s.judgeItem n epoch m v ver =
      { s with
        marks := storeItem epoch m v ver s.marks
        inbox := if s.isWatched m = true ∧ (r.value ≠ v ∨ r.state ≠ .fresh) then s.inbox ++ [.event (.mark m) 0]
          else s.inbox } := by
  rw [judgeItem_stored hgame h]
  have hchanges : s.changesBy m v = true ↔ r.value ≠ v ∨ r.state ≠ .fresh := by
    simp only [State.changesBy, hr, decide_eq_true_eq]
  by_cases hc : r.value ≠ v ∨ r.state ≠ .fresh
  · rw [if_pos (hchanges.mpr hc)]
    cases hw : s.isWatched m with
    | true =>
      rw [if_pos ⟨rfl, hc⟩]
      exact raiseMark_room { s with marks := storeItem epoch m v ver s.marks } m 0 hw hgame (by decide) hroom
    | false =>
      rw [if_neg (by simp)]
      exact raiseMark_unwatched { s with marks := storeItem epoch m v ver s.marks } m 0 hw
  · rw [if_neg (mt hchanges.mp hc), if_neg (fun h => hc h.2)]
    rfl

/-- An UPDATE whose cause names another tile is its item alone. -/
theorem takeUpdateFrame_item {s : State} {f : GoodFrame} {e m v ver ct cg : Byte}
    (hbody : f.body = [e, m, v, ver, ct, cg]) (hct : ct.toNat ≠ s.tile) :
    s.takeUpdateFrame f = s.judgeItem f.sender e m.toNat v.toNat ver := by
  have htile := (judgeItem_line s f.sender e m.toNat v.toNat ver).2
  have h4 : numAt f.body 4 = ct.toNat := by rw [hbody]; rfl
  have hitem : s.judgeItem f.sender (byteAt f.body 0) (numAt f.body 1) (numAt f.body 2) (byteAt f.body 3) =
      s.judgeItem f.sender e m.toNat v.toNat ver := by rw [hbody]; rfl
  rw [State.takeUpdateFrame, hitem, State.takeCause, if_neg]
  simp [h4, htile, hct]

/-- An UPDATE heard, its cause another tile's: its item is judged. -/
theorem exec_update_item {s u : State} {dt : Nat} {rx : Reception} {f : GoodFrame} {e m v ver ct cg : Byte}
    (h : s.ShowsAs u dt rx f) (hkind : f.kind = .update) (hbody : f.body = [e, m, v, ver, ct, cg])
    (hct : ct.toNat ≠ s.tile) :
    exec (.update dt rx) s = .next (u.judgeItem f.sender e m.toNat v.toNat ver) := by
  have htile : u.tile = s.tile := h.frame.tile
  rw [exec_update h.on, hear_taken h _ hkind (.inl rfl), takeUpdateFrame_item hbody (htile ▸ hct),
    onLine_same_line h.line (judgeItem_line _ _ _ _ _ _).1]

theorem ShowsAs_game {s u : State} {dt : Nat} {rx : Reception} {f : GoodFrame} (h : s.ShowsAs u dt rx f) :
    u.session.inGame = true := by
  have hsession : u.session = s.session := h.frame.session
  rw [hsession, h.game]

theorem byte_le (b : Byte) : b.toNat ≤ 255 := Nat.le_of_lt_succ b.isLt

theorem takeGrade_serial (p : Peer) (h : Header) (g : FrameGrade) : (p.takeGrade h g).serial = p.serial := by
  unfold Peer.takeGrade
  simp only
  split <;> rfl

theorem heardFrom_sameGame {s : State} {dt n : Nat} {g : FrameGrade} :
    (s.heardFrom dt n g).sameGame n ↔ s.sameGame n := by
  have hserial : ∀ p : Peer, ((p.takeGrade s.header g).refresh (s.now + dt) (silenceLimit s.session)).serial =
      p.serial := fun p => takeGrade_serial p s.header g
  unfold State.sameGame
  cases hp : s.peer n with
  | none => rw [heardFrom_unknown hp, hearing_peer, hp]; simp
  | some p =>
    rw [peer_heardFrom_same hp]
    simp only [Option.some.injEq, exists_eq_left', hserial]
    rfl

/-- An item of a sender whose frame has been shown: it is judged by what it meets. -/
theorem judgeItem_shown {s u : State} {dt : Nat} {rx : Reception} {f : GoodFrame} {e m v ver : Byte}
    (h : s.ShowsAs u dt rx f) :
    (∀ r : Replica, u.route m.toNat = .peer f.sender → u.sameGame f.sender → u.mark m.toNat = .replica r →
      (v.toNat ≤ 99 → r.state ≠ .fresh ∨ r.epoch ≠ e ∨
          (1 ≤ (ver - r.version).toNat ∧ (ver - r.version).toNat ≤ 127) → u.engineQueue.length < 32 →
        u.judgeItem f.sender e m.toNat v.toNat ver =
          { u with
            marks := modifyAt (fun _ => .replica ⟨v.toNat, ver, e, .fresh⟩) m.toNat u.marks
            inbox := if s.isWatched m.toNat = true ∧ (r.value ≠ v.toNat ∨ r.state ≠ .fresh) then
                u.inbox ++ [.event (.mark m.toNat) 0]
              else u.inbox }) ∧
      (r.state = .fresh → r.epoch = e → ¬ (1 ≤ (ver - r.version).toNat ∧ (ver - r.version).toNat ≤ 127) →
        u.judgeItem f.sender e m.toNat v.toNat ver = u)) ∧
    (u.route m.toNat ≠ .peer f.sender ∨ ¬ u.sameGame f.sender ∨ 99 < v.toNat →
      u.judgeItem f.sender e m.toNat v.toNat ver = u) := by
  have hwatched : u.isWatched m.toNat = s.isWatched m.toNat := by
    rw [State.isWatched, h.frame.watched]
    rfl
  have hdropped : ¬ u.passesItem f.sender e m.toNat v.toNat ver = true →
      u.judgeItem f.sender e m.toNat v.toNat ver = u := fun hnot => judgeItem_dropped (by simpa using hnot)
  refine ⟨fun r hroute hserial hr => ⟨fun hv hnews hroom => ?_, fun hfresh hepoch hold => hdropped ?_⟩,
    fun hfails => hdropped ?_⟩
  · have hpass := (passesItem_iff u f.sender e m.toNat v.toNat ver).mpr
      ⟨byte_le m, hv, hroute, hserial, r, hr, (accepts_iff ..).mpr hnews⟩
    rw [judgeItem_room (ShowsAs_game h) hpass hr hroom, hwatched]
    rfl
  · rw [passesItem_iff]
    rintro ⟨-, -, -, -, r', hr', haccepts⟩
    obtain rfl : r = r' := MarkEntry.replica.inj (hr.symm.trans hr')
    rcases (accepts_iff ..).mp haccepts with hnot | hnot | hnew
    · exact hnot hfresh
    · exact hnot hepoch
    · exact hold hnew
  · rw [passesItem_iff]
    rintro ⟨-, hv, hroute, hserial, -⟩
    rcases hfails with hnot | hnot | hnot
    · exact hnot hroute
    · exact hnot hserial
    · omega

/-- Settles O21: a sender with an entry or without, PRESENT or SILENT, is first shown to the Roster. -/
theorem updateItemIsJudged : Obligations.UpdateItemIsJudged := by
  refine ⟨fun dt rx s f e m v ver ct cg hgets hkind hbody hct => ?_,
    fun dt rx s f p e m v ver ct cg hgets hkind hbody hct => ?_⟩
  · have hshown := hgets.showsAs dt
    obtain ⟨hreplica, hfails⟩ := judgeItem_shown (e := e) (m := m) (v := v) (ver := ver) hshown
    rw [exec_update_item hshown hkind hbody hct]
    refine ⟨fun r hroute hserial hr => ?_, fun h => congrArg _ (hfails ?_)⟩
    · obtain ⟨hstored, hold⟩ := hreplica r hroute (heardFrom_sameGame.mpr hserial) hr
      exact ⟨fun hv hnews hroom => congrArg _ (hstored hv hnews hroom), fun a b c => congrArg _ (hold a b c)⟩
    · rwa [heardFrom_sameGame]
  · have hshown := hgets.showsAs dt
    have hwakes := hgets.wakesPeer dt
    have hserial := hshown.frame.serial
    generalize (s.heardFrom dt f.sender (.good f.corrected)).recompute none = u at hshown hwakes hserial
    obtain ⟨hreplica, hfails⟩ := judgeItem_shown (e := e) (m := m) (v := v) (ver := ver) hshown
    have hsame : u.sameGame f.sender ↔ p.serial = s.serial := by
      unfold State.sameGame
      rw [hwakes.1, hserial]
      simp only [Option.some.injEq, exists_eq_left', takeGrade_serial]
      rfl
    rw [exec_update_item hshown hkind hbody hct]
    refine ⟨u, hwakes, fun r hroute hs hr => ?_, fun h => congrArg _ (hfails ?_)⟩
    · obtain ⟨hstored, hold⟩ := hreplica r hroute (hsame.mpr hs) hr
      exact ⟨fun hv hnews hroom => congrArg _ (hstored hv hnews hroom), fun a b c => congrArg _ (hold a b c)⟩
    · rwa [hsame]

end Sys2Proof.Machine

namespace Sys2Proof.Machine

/-! ## A SNAPSHOT's items, one by one (R13) -/

/-- Raising events leaves what an item is judged by, marks apart. -/
theorem raiseMarks_marks {s : State} (marks : List MarkEntry) (ms : List Nat) (h : s.session.inGame = true) :
    State.raiseMarks { s with marks := marks } ms = { s.raiseMarks ms with marks := marks } := by
  rw [raiseMarks_eq { s with marks := marks } ms h, raiseMarks_eq s ms h]
  rfl

/-- An item of a SNAPSHOT: its mark, value and version. -/
abbrev Item := Nat × Nat × Byte

/-- The item passes in `u`. -/
def State.takesItem (u : State) (n : Nat) (epoch : Byte) (it : Item) : Bool :=
  u.passesItem n epoch it.1 it.2.1 it.2.2

/-- The item is news in `u`: it passes and changes its mark's replica. -/
def State.itemIsNews (u : State) (n : Nat) (epoch : Byte) (it : Item) : Bool :=
  u.takesItem n epoch it && u.changesBy it.1 it.2.1

/-- The marks with the items stored that pass in `u`. -/
def State.storeItems (u : State) (n : Nat) (epoch : Byte) (items : List Item) (marks : List MarkEntry) :
    List MarkEntry :=
  items.foldl (fun ms it => if u.takesItem n epoch it = true then storeItem epoch it.1 it.2.1 it.2.2 ms else ms) marks

/-- An item is judged by its mark's entry, the routes, the Roster and the serial alone. -/
theorem judged_congr {u w : State} {n : Nat} {epoch : Byte} {it : Item} (hmark : w.mark it.1 = u.mark it.1)
    (hroutes : w.routes = u.routes) (hroster : w.roster = u.roster) (hserial : w.serial = u.serial) :
    w.takesItem n epoch it = u.takesItem n epoch it ∧ w.itemIsNews n epoch it = u.itemIsNews n epoch it := by
  have hpass : w.takesItem n epoch it = u.takesItem n epoch it := by
    simp only [State.takesItem, State.passesItem, State.route, State.peer, hmark, hroutes, hroster, hserial]
    rfl
  refine ⟨hpass, ?_⟩
  rw [State.itemIsNews, State.itemIsNews, hpass, State.changesBy, State.changesBy, hmark]

/-- A state that differs from `u` in an item's mark, events and OVERRUN alone judges the others as `u` does. -/
theorem judged_alike {u : State} {n : Nat} {epoch : Byte} {it : Item} {m v : Nat} {ver : Byte} (ms : List Nat)
    (hgame : u.session.inGame = true) (hm : it.1 ≠ m) :
    (State.raiseMarks { u with marks := storeItem epoch m v ver u.marks } ms).takesItem n epoch it =
        u.takesItem n epoch it ∧
      (State.raiseMarks { u with marks := storeItem epoch m v ver u.marks } ms).itemIsNews n epoch it =
        u.itemIsNews n epoch it := by
  rw [raiseMarks_marks _ _ hgame]
  obtain ⟨i, ov, e⟩ := raiseMarks_frame u ms
  rw [e]
  refine judged_congr ?_ rfl rfl rfl
  rw [State.mark, State.mark, List.getD_eq_getElem?_getD, List.getD_eq_getElem?_getD]
  exact congrArg (Option.getD · _) ((getElem?_modifyAt _ _ _ _).trans (if_neg hm))

theorem storeItems_congr {u w : State} {n : Nat} {epoch : Byte} {items : List Item} (marks : List MarkEntry)
    (h : ∀ it ∈ items, w.takesItem n epoch it = u.takesItem n epoch it) :
    w.storeItems n epoch items marks = u.storeItems n epoch items marks := by
  induction items generalizing marks with
  | nil => rfl
  | cons it items ih =>
    rw [State.storeItems, State.storeItems, List.foldl_cons, List.foldl_cons, h it List.mem_cons_self]
    exact ih _ fun it' hit' => h it' (List.mem_cons_of_mem _ hit')

/-- Items for different marks, judged one by one, are judged as they all stand at the first. -/
theorem foldl_judgeItem (n : Nat) (epoch : Byte) (items : List Item) (u : State) (hgame : u.session.inGame = true)
    (hmarks : (items.map Prod.fst).Nodup) :
    items.foldl (fun s it => s.judgeItem n epoch it.1 it.2.1 it.2.2) u =
      { u.raiseMarks ((items.filter (u.itemIsNews n epoch)).map Prod.fst) with
        marks := u.storeItems n epoch items u.marks } := by
  induction items generalizing u with
  | nil => rfl
  | cons it items ih =>
    rw [List.map_cons, List.nodup_cons] at hmarks
    obtain ⟨hfresh, hrest⟩ := hmarks
    rw [List.foldl_cons, State.storeItems, List.foldl_cons]
    cases hpass : u.takesItem n epoch it with
    | false =>
      have hnews : ¬ u.itemIsNews n epoch it = true := by simp [State.itemIsNews, hpass]
      rw [judgeItem_dropped hpass, ih u hgame hrest, List.filter_cons_of_neg hnews, if_neg (by simp)]
      rfl
    | true =>
      rw [judgeItem_stored hgame hpass, if_pos rfl]
      generalize hnow : (if u.changesBy it.1 it.2.1 = true then [it.1] else []) = now
      have halike := fun it' (hit' : it' ∈ items) =>
        judged_alike (u := u) (n := n) (epoch := epoch) (it := it') (m := it.1) (v := it.2.1) (ver := it.2.2) now hgame
          fun h => hfresh (h ▸ List.mem_map_of_mem hit')
      obtain ⟨i, ov, e⟩ := raiseMarks_frame { u with marks := storeItem epoch it.1 it.2.1 it.2.2 u.marks } now
      have hgame' : (State.raiseMarks { u with marks := storeItem epoch it.1 it.2.1 it.2.2 u.marks } now).session.inGame =
          true := by rw [e]; exact hgame
      have hmarks' : (State.raiseMarks { u with marks := storeItem epoch it.1 it.2.1 it.2.2 u.marks } now).marks =
          storeItem epoch it.1 it.2.1 it.2.2 u.marks := by rw [e]
      rw [ih _ hgame' hrest, hmarks', storeItems_congr _ fun it' hit' => (halike it' hit').1,
        List.filter_congr fun it' hit' => (halike it' hit').2]
      have hevents : ((it :: items).filter (u.itemIsNews n epoch)).map Prod.fst =
          now ++ (items.filter (u.itemIsNews n epoch)).map Prod.fst := by
        rw [← hnow]
        by_cases hc : u.changesBy it.1 it.2.1 = true
        · rw [if_pos hc, List.filter_cons_of_pos (by simp [State.itemIsNews, hpass, hc])]
          rfl
        · rw [if_neg hc, List.filter_cons_of_neg (by simp [State.itemIsNews, hc])]
          rfl
      rw [hevents, raiseMarks_marks _ _ hgame]
      obtain ⟨i', ov', e'⟩ := raiseMarks_frame u now
      have hgame'' : (u.raiseMarks now).session.inGame = true := by rw [e']; exact hgame
      rw [raiseMarks_marks _ _ hgame'']
      simp only [State.raiseMarks, List.foldl_append]
      rfl

/-- The entries after items for different marks of the table have been stored. -/
theorem getElem?_storeItems (u : State) (n : Nat) (epoch : Byte) (items : List Item) (marks : List MarkEntry) (m : Nat)
    (hm : m ∉ items.map Prod.fst) : (u.storeItems n epoch items marks)[m]? = marks[m]? := by
  induction items generalizing marks with
  | nil => rfl
  | cons it items ih =>
    rw [List.map_cons, List.mem_cons, not_or] at hm
    rw [State.storeItems, List.foldl_cons]
    refine (ih _ hm.2).trans ?_
    split
    · exact (getElem?_modifyAt _ _ _ _).trans (if_neg hm.1)
    · rfl

theorem storeItems_length (u : State) (n : Nat) (epoch : Byte) (items : List Item) (marks : List MarkEntry) :
    (u.storeItems n epoch items marks).length = marks.length := by
  induction items generalizing marks with
  | nil => rfl
  | cons it items ih =>
    rw [State.storeItems, List.foldl_cons]
    refine (ih _).trans ?_
    split
    · exact modifyAt_length _ _ _
    · rfl

theorem getElem?_storeItems_mem (u : State) (n : Nat) (epoch : Byte) (items : List Item) (marks : List MarkEntry)
    {it : Item} (hmarks : (items.map Prod.fst).Nodup) (hit : it ∈ items) (hlen : it.1 < marks.length) :
    (u.storeItems n epoch items marks)[it.1]? =
      if u.takesItem n epoch it = true then some (.replica ⟨it.2.1, it.2.2, epoch, .fresh⟩) else marks[it.1]? := by
  induction items generalizing marks with
  | nil => exact absurd hit List.not_mem_nil
  | cons it' items ih =>
    rw [List.map_cons, List.nodup_cons] at hmarks
    obtain ⟨hfresh, hrest⟩ := hmarks
    rw [State.storeItems, List.foldl_cons]
    rcases List.mem_cons.mp hit with rfl | hit
    · refine (getElem?_storeItems _ _ _ _ _ _ hfresh).trans ?_
      split
      · rw [storeItem, getElem?_modifyAt, if_pos rfl, List.getElem?_eq_getElem hlen, Option.map_some]
      · rfl
    · have hne : it.1 ≠ it'.1 := fun h => hfresh (h ▸ List.mem_map_of_mem hit)
      have hlen' : it.1 < (if u.takesItem n epoch it' = true then storeItem epoch it'.1 it'.2.1 it'.2.2 marks
          else marks).length := by
        split
        · rw [storeItem, modifyAt_length]; exact hlen
        · exact hlen
      refine (ih _ hrest hit hlen').trans ?_
      split
      · rfl
      · split
        · exact (getElem?_modifyAt _ _ _ _).trans (if_neg hne)
        · rfl

/-- A SNAPSHOT whose count fits has its items judged one by one. -/
theorem takeSnapshotFrame_takesItems {u : State} {f : GoodFrame} (hgame : u.session.inGame = true)
    (hlen : u.marks.length = 256) (hcount : snapshotCountOk f.body = true) :
    u.takesItems (u.takeSnapshotFrame f) f.sender f.body := by
  have hitems : (snapshotItems f.body).map Prod.fst =
      (List.range (numAt f.body 2)).map fun i => numAt f.body 1 + i := by
    rw [snapshotItems, List.map_map]
    rfl
  have hnodup : ((snapshotItems f.body).map Prod.fst).Nodup := by
    rw [hitems]
    exact List.nodup_range.map fun i j h => Nat.add_left_cancel h
  have hlast := foldl_judgeItem f.sender (byteAt f.body 0) (snapshotItems f.body) u hgame hnodup
  have hevents : ((snapshotItems f.body).filter (u.itemIsNews f.sender (byteAt f.body 0))).map Prod.fst =
      ((List.range (numAt f.body 2)).filter fun i =>
        u.passesItem f.sender (byteAt f.body 0) (numAt f.body 1 + i) (numAt f.body (3 + 2 * i)) (byteAt f.body (4 + 2 * i)) &&
          u.changesBy (numAt f.body 1 + i) (numAt f.body (3 + 2 * i))).map (numAt f.body 1 + ·) := by
    rw [snapshotItems, List.filter_map, List.map_map]
    rfl
  rw [State.takeSnapshotFrame, if_pos hcount, hlast, hevents, raiseMarks_raising _ hgame]
  refine ⟨rfl, storeItems_length _ _ _ _ _, fun m => ?_⟩
  show List.getD (u.storeItems f.sender (byteAt f.body 0) (snapshotItems f.body) u.marks) m _ = _
  rw [List.getD_eq_getElem?_getD]
  by_cases hm : numAt f.body 1 ≤ m ∧ m < numAt f.body 1 + numAt f.body 2
  · obtain ⟨hlow, hhigh⟩ := hm
    have hit : (m, numAt f.body (3 + 2 * (m - numAt f.body 1)), byteAt f.body (4 + 2 * (m - numAt f.body 1))) ∈
        snapshotItems f.body := by
      rw [snapshotItems, List.mem_map]
      exact ⟨m - numAt f.body 1, List.mem_range.mpr (by omega), by rw [Nat.add_sub_cancel' hlow]⟩
    by_cases hm256 : m < 256
    · rw [getElem?_storeItems_mem _ _ _ _ _ hnodup hit (hlen ▸ hm256)]
      by_cases hpass : u.takesItem f.sender (byteAt f.body 0)
          (m, numAt f.body (3 + 2 * (m - numAt f.body 1)), byteAt f.body (4 + 2 * (m - numAt f.body 1))) = true
      · rw [if_pos hpass]
        exact (if_pos ⟨hlow, hhigh, hpass⟩).symm
      · rw [if_neg hpass, ← List.getD_eq_getElem?_getD]
        exact (if_neg fun h => hpass h.2.2).symm
    · rw [List.getElem?_eq_none (by rw [storeItems_length]; omega), if_neg, State.mark, List.getD_eq_getElem?_getD,
        List.getElem?_eq_none (by omega)]
      rintro ⟨-, -, hpass⟩
      have := ((passesItem_iff ..).mp hpass).1
      omega
  · rw [getElem?_storeItems, if_neg (fun h => hm ⟨h.1, h.2.1⟩), State.mark, List.getD_eq_getElem?_getD]
    rw [hitems]
    simp only [List.mem_map, List.mem_range, not_exists, not_and]
    omega

theorem takesItems_line {u t : State} {n : Nat} {b : List Byte} (h : u.takesItems t n b) : t.line = u.line := by
  rw [h.1]
  rfl

theorem showFrame_marks_length (s : State) (n : Nat) (g : FrameGrade) :
    (s.showFrame n g).marks.length = s.marks.length := by
  unfold State.showFrame
  split
  · split
    · rfl
    · split
      · rfl
      · rw [recompute_marks, mapFrom_length]
        rfl
  · rfl

/-- Settles O22: shown to the Roster, the SNAPSHOT's items are judged, or its count drops it. -/
theorem snapshotItemsAreAccepted : Obligations.SnapshotItemsAreAccepted := by
  intro dt rx s f hkind hlen hgets
  obtain ⟨u, hshows, hshown⟩ : ∃ u, s.shows u dt rx f ∧ s.ShowsAs u dt rx f := by
    rcases hgets with hgets | ⟨p, hgets⟩
    · exact ⟨_, .inl ⟨hgets, rfl⟩, hgets.showsAs dt⟩
    · exact ⟨_, .inr ⟨p, hgets, hgets.wakesPeer dt⟩, hgets.showsAs dt⟩
  have hulen : u.marks.length = 256 := by rw [← hshown.shown, showFrame_marks_length]; exact hlen
  have hcountOk : snapshotCountOk f.body = true ↔
      1 ≤ numAt f.body 2 ∧ numAt f.body 2 ≤ 16 ∧ 3 + 2 * numAt f.body 2 = f.body.length :=
    decide_eq_true_iff
  rw [exec_snapshot hshown.on, hear_taken hshown _ hkind (.inl rfl)]
  cases hcount : snapshotCountOk f.body with
  | true =>
    have htakes := takeSnapshotFrame_takesItems (ShowsAs_game hshown) hulen hcount
    refine ⟨u, _, hshows, rfl, fun hbad => ?_, fun _ _ _ => ?_⟩
    · have := hcountOk.mp hcount
      omega
    · rwa [onLine_same_line hshown.line (takesItems_line htakes)]
  | false =>
    have hsame : u.takeSnapshotFrame f = u := if_neg (by simp [hcount])
    refine ⟨u, _, hshows, rfl, fun _ => ?_, fun h1 h2 h3 => ?_⟩
    · rw [hsame, onLine_busy hshown.line]
    · rw [hcountOk.mpr ⟨h1, h2, h3.symm⟩] at hcount
      exact Bool.noConfusion hcount

end Sys2Proof.Machine

namespace Sys2Proof.Machine

/-! ## The decision of a claim (R26 to R29) -/

theorem decideOp_add {k : MarkKind} {v n : Nat} (b : Nat) (h : 1 ≤ n ∧ n ≤ 99) :
    decideOp k v (some .add) n b = .ok (addResult k v n) := if_pos h

theorem decideOp_take {k : MarkKind} {v n : Nat} (b : Nat) (h : 1 ≤ n ∧ n ≤ 99) :
    decideOp k v (some .take) n b = if n ≤ v then .ok (takeResult k v n) else .error .short := if_pos h

/-- An amount that is none is refused before anything else. -/
theorem decideOp_amount {k : MarkKind} {v n : Nat} (b : Nat) (h : n = 0 ∨ 100 ≤ n) :
    decideOp k v (some .add) n b = .error .range ∧ decideOp k v (some .take) n b = .error .range :=
  ⟨if_neg (by omega), if_neg (by omega)⟩

/-- Settles O25, by the tests of each operation. -/
theorem setAndSwapReplaceTheValue : Obligations.SetAndSwapReplaceTheValue := by
  intro k v a b
  refine ⟨fun h => if_pos h, fun h => if_neg (by omega), fun h => if_neg h, fun hv hb => ?_, fun hv hb => ?_, rfl⟩
  · rw [decideOp, if_pos hv, if_pos hb]
  · rw [decideOp, if_pos hv, if_neg (by omega)]

/-- Settles O26: FLAG and LEVEL add and subtract as numbers do, under the kind's maximum. -/
theorem flagAndLevelArithmetic : Obligations.FlagAndLevelArithmetic := by
  intro k v n b hk hv
  have hadd : addResult k v n = min (v + n) k.max := by cases k <;> first | rfl | exact absurd rfl hk
  have htake : takeResult k v n = v - n := by cases k <;> first | rfl | exact absurd rfl hk
  refine ⟨fun h1 h99 => ⟨fun h => ?_, fun h => ?_, fun h => ?_, fun h => ?_⟩, decideOp_amount b⟩
  · rw [decideOp_add b ⟨h1, h99⟩, hadd, Nat.min_eq_left h]
  · rw [decideOp_add b ⟨h1, h99⟩, hadd, Nat.min_eq_right (by omega)]
  · rw [decideOp_take b ⟨h1, h99⟩, if_pos h, htake]
  · rw [decideOp_take b ⟨h1, h99⟩, if_neg (by omega)]

/-- Digit by digit with carry, an ADD comes to the clamped sum. -/
theorem tallyAdd_eq {v n : Nat} (hv : v ≤ 99) (hn : n ≤ 99) : tallyAdd v n = min (v + n) 99 := by
  simp only [tallyAdd]
  split <;> split <;> omega

/-- Digit by digit with borrow, a TAKE comes to the difference. -/
theorem tallyTake_eq {v n : Nat} (h : n ≤ v) : tallyTake v n = v - n := by
  simp only [tallyTake]
  split <;> omega

/-- Settles O27, by the two digit-wise sums. -/
theorem tallyArithmetic : Obligations.TallyArithmetic := by
  intro v n b hv
  refine ⟨fun h1 h99 => ⟨?_, fun h => ?_, fun h => ?_⟩, decideOp_amount b⟩
  · rw [decideOp_add b ⟨h1, h99⟩]
    exact congrArg _ (tallyAdd_eq hv h99)
  · rw [decideOp_take b ⟨h1, h99⟩, if_pos h]
    exact congrArg _ (tallyTake_eq h)
  · rw [decideOp_take b ⟨h1, h99⟩, if_neg (by omega)]

/-! ## Remote claims at the owner (R30, R32, R33) -/

theorem answerHasRoom_iff (s : State) :
    s.answerHasRoom = true ↔ s.answers.length + s.loader.seals.length < 8 := decide_eq_true_iff

theorem owned_of_mark {s : State} {m : Nat} {o : Owned} (h : s.mark m = .owned o) : s.owned m = some o := by
  rw [State.owned, h]

theorem decideClaim_owned {s : State} {m : Nat} {o : Owned} (op : Option ClaimOp) (a b : Nat)
    (hwindow : s.inWindow m = true) (hmark : s.mark m = .owned o) (hsealed : o.sealed = false) :
    s.decideClaim m op a b = match decideOp o.kind o.value op a b with
      | .ok v => .ok (o, v)
      | .error r => .error r := by
  rw [State.decideClaim, if_pos hwindow, owned_of_mark hmark]
  exact if_neg (by simp [hsealed])

/-- A granted mark is pending, so that some flag is set after the grant. -/
theorem anyPending_granted {s : State} {m : Nat} {o : Owned} (v : Nat) (cause : Option (Nat × Byte))
    (hmark : s.mark m = .owned o) (hsealed : o.sealed = false) :
    (s.modifyOwned m fun o' => o'.granted v cause s.now).anyPending = true := by
  have hget := owned_get (owned_of_mark hmark)
  rw [State.anyPending, List.any_eq_true]
  refine ⟨.owned (o.granted v cause s.now), List.mem_of_getElem? (i := m) ?_, ?_⟩
  · rw [modifyOwned_marks, getElem?_modifyAt, if_pos rfl, hget]
    rfl
  · simp [Owned.granted, Owned.flag, hsealed]

/-- A grant of a new value raises the mark's event. -/
theorem applyGrant_changes {s : State} {m : Nat} {o : Owned} {v : Nat} (cause : Option (Nat × Byte)) (d : Nat)
    (hv : v ≠ o.value) :
    s.applyGrant m o v cause d =
      ((s.modifyOwned m fun o' => o'.granted v cause s.now).notePending s.anyPending).raiseMark m d := if_neg hv

/-- A grant taken in full, its event finding room where the mark is watched. -/
theorem applyGrant_room {s : State} {m : Nat} {o : Owned} (v : Nat) (cause : Option (Nat × Byte))
    (hmark : s.mark m = .owned o) (hsealed : o.sealed = false) (hgame : s.session.inGame = true)
    (hroom : s.engineQueue.length < 32) {d : Nat} (hd : d ≤ 8) :
    s.applyGrant m o v cause d =
      { s with
        marks := modifyAt (fun _ => .owned (o.granted v cause s.now)) m s.marks
        inbox := if s.isWatched m = true ∧ v ≠ o.value then s.inbox ++ [.event (.mark m) d] else s.inbox
        writer := { s.writer with
          oldestPending := if s.anyPending = true then s.writer.oldestPending else some s.now } } := by
  have hmarks : modifyAt (MarkEntry.onOwned fun o' => o'.granted v cause s.now) m s.marks =
      modifyAt (fun _ => .owned (o.granted v cause s.now)) m s.marks :=
    modifyAt_congr fun x hx => by rw [mark_get hmark hx]; rfl
  have hnote : (s.modifyOwned m fun o' => o'.granted v cause s.now).notePending s.anyPending =
      { s with
        marks := modifyAt (fun _ => .owned (o.granted v cause s.now)) m s.marks
        writer := { s.writer with
          oldestPending := if s.anyPending = true then s.writer.oldestPending else some s.now } } := by
    rw [notePending_frame, anyPending_granted v cause hmark hsealed, ← hmarks]
    rfl
  by_cases hevent : s.isWatched m = true ∧ v ≠ o.value
  · obtain ⟨hw, hv⟩ := hevent
    rw [applyGrant_changes _ _ hv, hnote]
    generalize (if s.anyPending = true then s.writer.oldestPending else some s.now) = since
    rw [if_pos ⟨hw, hv⟩]
    exact raiseMark_room
      { s with
        marks := modifyAt (fun _ => .owned (o.granted v cause s.now)) m s.marks
        writer := { s.writer with oldestPending := since } } m d hw hgame hd hroom
  · rw [if_neg hevent, ← hnote]
    by_cases hv : v = o.value
    · exact if_pos hv
    · rw [applyGrant_changes _ _ hv, raiseMark_unwatched]
      rw [hnote]
      exact Bool.eq_false_iff.mpr fun hw => hevent ⟨hw, hv⟩

/-- A CLAIM frame of a sender in the same game, in PLAY or REST, is decided. -/
theorem takeClaimFrame_decided {s : State} {f : GoodFrame} {tag m op a b : Byte}
    (hbody : f.body = [tag, m, op, a, b]) (hboard : s.session.onBoard = true) (hserial : s.sameGame f.sender) :
    s.takeClaimFrame f = s.takeRemoteClaim f.sender tag m.toNat (ClaimOp.ofCode op.toNat) a.toNat b.toNat := by
  rw [State.takeClaimFrame, if_pos (by rw [hboard, (serialAgrees_iff s f.sender).mpr hserial]; rfl), hbody]
  rfl

theorem takeClaimFrame_dropped {s : State} {f : GoodFrame}
    (h : s.session.onBoard = false ∨ ¬ s.sameGame f.sender) : s.takeClaimFrame f = s := by
  rw [← serialAgrees_iff] at h
  rw [State.takeClaimFrame, if_neg]
  rcases h with h | h <;> simp [h]

/-- A granted claim: the mark, and its GRANT at the tail of the answer queue. -/
theorem takeRemoteClaim_granted {s : State} {n m : Nat} {tag : Byte} {op : Option ClaimOp} {a b v : Nat} {o : Owned}
    (hroom : s.answers.length + s.loader.seals.length < 8) (hwindow : s.inWindow m = true)
    (hmark : s.mark m = .owned o) (hsealed : o.sealed = false) (hok : decideOp o.kind o.value op a b = .ok v)
    (hgame : s.session.inGame = true) (hqueue : s.engineQueue.length < 32) :
    s.takeRemoteClaim n tag m op a b =
      { s with
        marks := modifyAt (fun _ => .owned (o.granted v (some (n, tag)) s.now)) m s.marks
        answers := s.answers ++ [⟨.grant v (o.version + 1), .claim, n, tag, m⟩]
        inbox := if s.isWatched m = true ∧ v ≠ o.value then s.inbox ++ [.event (.mark m) 0] else s.inbox
        writer := { s.writer with
          oldestPending := if s.anyPending = true then s.writer.oldestPending else some s.now } } := by
  rw [State.takeRemoteClaim, if_pos ((answerHasRoom_iff s).mpr hroom), decideClaim_owned op a b hwindow hmark hsealed,
    hok]
  simp only [applyGrant_room v (some (n, tag)) hmark hsealed hgame hqueue (Nat.zero_le 8)]
  rfl

theorem takeRemoteClaim_full {s : State} {n m : Nat} {tag : Byte} {op : Option ClaimOp} {a b : Nat}
    (h : 8 ≤ s.answers.length + s.loader.seals.length) : s.takeRemoteClaim n tag m op a b = s.setOverrun := by
  rw [State.takeRemoteClaim, if_neg]
  rw [answerHasRoom_iff]
  omega

theorem takeRemoteClaim_refused {s : State} {n m : Nat} {tag : Byte} {op : Option ClaimOp} {a b : Nat}
    {reason : Reason} (hroom : s.answers.length + s.loader.seals.length < 8)
    (h : s.decideClaim m op a b = .error reason) :
    s.takeRemoteClaim n tag m op a b = s.queueAnswer ⟨.refuse reason, .claim, n, tag, m⟩ := by
  rw [State.takeRemoteClaim, if_pos ((answerHasRoom_iff s).mpr hroom), h]

/-- The checks that refuse, in their order (R26). -/
theorem decideClaim_refused {s : State} {m : Nat} {op : Option ClaimOp} {a b : Nat} {reason : Reason}
    (h : (s.inWindow m = false ∧ reason = .notOwner) ∨
      (s.inWindow m = true ∧ ∃ o, s.mark m = .owned o ∧
        ((o.sealed = true ∧ reason = .sealed) ∨
          (o.sealed = false ∧ decideOp o.kind o.value op a b = .error reason)))) :
    s.decideClaim m op a b = .error reason := by
  rcases h with ⟨hwindow, rfl⟩ | ⟨hwindow, o, hmark, ⟨hsealed, rfl⟩ | ⟨hsealed, hrefused⟩⟩
  · exact if_neg (by simp [hwindow])
  · rw [State.decideClaim, if_pos hwindow, owned_of_mark hmark]
    exact if_pos hsealed
  · rw [decideClaim_owned op a b hwindow hmark hsealed, hrefused]

theorem onBoard_inGame {x : Session} (h : x.onBoard = true) : x.inGame = true := by
  cases x <;> simp_all [Session.onBoard, Session.inGame]

/-- A CLAIM heard: the row takes the frame once the Roster has been shown it. -/
theorem exec_claim_heard {s u : State} {dt : Nat} {rx : Reception} {f : GoodFrame} (h : s.ShowsAs u dt rx f)
    (hkind : f.kind = .claim) (haddr : f.addressee = s.tile) :
    exec (.claim dt rx) s = .next (u.takeClaimFrame f).onLine := by
  rw [exec_claim h.on, hear_taken h _ hkind (.inr haddr)]

/-- A CLAIM decided and granted once its sender has been shown to the Roster. -/
theorem exec_claim_granted {s u : State} {dt : Nat} {rx : Reception} {f : GoodFrame} {tag m op a b : Byte} {o : Owned}
    {v : Nat} (h : s.ShowsAs u dt rx f) (hkind : f.kind = .claim) (hbody : f.body = [tag, m, op, a, b])
    (haddr : f.addressee = s.tile) (hboard : s.session.onBoard = true) (hserial : u.sameGame f.sender)
    (hroom : s.answers.length + s.loader.seals.length < 8) (hwindow : s.inWindow m.toNat = true)
    (hmark : u.mark m.toNat = .owned o) (hsealed : o.sealed = false)
    (hok : decideOp o.kind o.value (ClaimOp.ofCode op.toNat) a.toNat b.toNat = .ok v)
    (hqueue : u.engineQueue.length < 32) :
    exec (.claim dt rx) s = .next
      { u with
        marks := modifyAt (fun _ => .owned
          { o with value := v, version := o.version + 1, announce := true,
                   pending := some (o.pending.getD (s.now + dt)),
                   cause := some (f.sender, tag), captured := false }) m.toNat u.marks
        answers := s.answers ++ [⟨.grant v (o.version + 1), .claim, f.sender, tag, m.toNat⟩]
        inbox := if s.isWatched m.toNat = true ∧ v ≠ o.value then
            u.inbox ++ [.event (.mark m.toNat) 0]
          else u.inbox
        writer := { s.writer with
          oldestPending := if u.anyPending = true then s.writer.oldestPending else some (s.now + dt) } } := by
  have hsession : u.session = s.session := h.frame.session
  have hanswers : u.answers = s.answers := h.frame.answers
  have hloader : u.loader = s.loader := h.frame.loader
  have hwriter : u.writer = s.writer := h.frame.writer
  have hnow : u.now = s.now + dt := h.frame.now
  have hfirst : u.winFirst = s.winFirst := h.frame.winFirst
  have hsize : u.winSize = s.winSize := h.frame.winSize
  have hwatched : u.watched = s.watched := h.frame.watched
  have hwindow' : u.inWindow m.toNat = true := by rw [State.inWindow, hfirst, hsize]; exact hwindow
  have hwatch : u.isWatched m.toNat = s.isWatched m.toNat := by rw [State.isWatched, hwatched]; rfl
  rw [exec_claim_heard h hkind haddr, takeClaimFrame_decided hbody (hsession ▸ hboard) hserial,
    takeRemoteClaim_granted (hanswers ▸ hloader ▸ hroom) hwindow' hmark hsealed hok (ShowsAs_game h) hqueue,
    onLine_busy (by exact h.line), hwatch, hnow, hanswers, hwriter]
  rfl

/-- What a wake leaves of the sender's serial. -/
theorem wakesPeer_sameGame {s u : State} {dt : Nat} {f : GoodFrame} {p : Peer} (h : s.wakesPeer u dt f p)
    (hserial : u.serial = s.serial) : u.sameGame f.sender ↔ p.serial = s.serial := by
  unfold State.sameGame
  rw [h.1, hserial]
  simp only [Option.some.injEq, exists_eq_left', takeGrade_serial]

theorem listening_notOnBoard {s : State} (h : s.session = .listening) : s.session.onBoard = false := by
  rw [h]
  rfl

/-- Settles O23: the sender is shown to the Roster, and then the claim is decided. -/
theorem remoteClaimIsGranted : Obligations.RemoteClaimIsGranted := by
  refine ⟨fun dt rx s f tag m op a b o v hgets hkind hbody haddr hboard hserial hroom hwindow hmark hsealed hok hqueue =>
      exec_claim_granted (hgets.showsAs dt) hkind hbody haddr hboard (heardFrom_sameGame.mpr hserial) hroom hwindow hmark
        hsealed hok hqueue,
    fun dt rx s f p tag m op a b o v hgets hkind hbody haddr => ?_⟩
  have hshown := hgets.showsAs dt
  have hwakes := hgets.wakesPeer dt
  have hkept : s.mark m.toNat = .owned o →
      ((s.heardFrom dt f.sender (.good f.corrected)).recompute none).mark m.toNat = .owned o := by
    intro hmark
    rw [recompute_mark, show (s.heardFrom dt f.sender (.good f.corrected)).mark m.toNat = .owned o from hmark]
  generalize (s.heardFrom dt f.sender (.good f.corrected)).recompute none = u at hshown hwakes hkept
  have hsame := wakesPeer_sameGame hwakes hshown.frame.serial
  refine ⟨u, hwakes, fun hdropped => ?_, fun hboard hserial hroom hwindow hmark hsealed _ hok hqueue =>
    exec_claim_granted hshown hkind hbody haddr hboard (hsame.mpr hserial) hroom hwindow (hkept hmark) hsealed hok hqueue⟩
  have hsession : u.session = s.session := hshown.frame.session
  rw [exec_claim_heard hshown hkind haddr, takeClaimFrame_dropped, onLine_busy hshown.line]
  rcases hdropped with h | h
  · exact .inl (hsession ▸ listening_notOnBoard h)
  · exact .inr (mt hsame.mp h)

/-- Settles O24: dropped, at a full queue, or refused by the first check that fails. -/
theorem remoteClaimIsTurnedAway : Obligations.RemoteClaimIsTurnedAway := by
  intro dt rx s f tag m op a b reason hgets hkind hbody
  have hshown := hgets.showsAs dt
  refine ⟨fun hdropped => ?_, fun haddr hboard hserial => ⟨fun hfull => ?_, fun hroom hrefused => ?_⟩⟩
  · by_cases haddr : f.addressee = s.tile
    · rw [exec_claim_heard hshown hkind haddr, takeClaimFrame_dropped, onLine_busy hshown.line]
      rcases hdropped with h | h | h
      · exact .inl (listening_notOnBoard (s := s) h)
      · exact .inr (mt heardFrom_sameGame.mp h)
      · exact absurd haddr h
    · rw [exec_claim hshown.on, hear_notMine hshown _ hkind rfl haddr, onLine_busy hshown.line]
  · rw [exec_claim_heard hshown hkind haddr, takeClaimFrame_decided
      (s := s.heardFrom dt f.sender (.good f.corrected)) hbody hboard (heardFrom_sameGame.mpr hserial),
      takeRemoteClaim_full (s := s.heardFrom dt f.sender (.good f.corrected)) hfull, onLine_busy quiet_ne_idle]
    rfl
  · rw [exec_claim_heard hshown hkind haddr, takeClaimFrame_decided
      (s := s.heardFrom dt f.sender (.good f.corrected)) hbody hboard (heardFrom_sameGame.mpr hserial),
      takeRemoteClaim_refused (s := s.heardFrom dt f.sender (.good f.corrected)) hroom (decideClaim_refused hrefused), onLine_busy quiet_ne_idle]
    rfl

/-! ## The endings of an entry (R42 to R47) -/

/-- Distinct tags: an entry is found by its tag. -/
theorem claim_unique {s : State} {c e : ClaimEntry} (htags : s.tagsOk) (hc : c ∈ s.claims) (he : e ∈ s.claims)
    (h : c.tag = e.tag) : c = e := List.inj_on_of_nodup_map htags hc he h

theorem sentEntry_of_mem {s : State} {e : ClaimEntry} {d : Nat} (htags : s.tagsOk) (he : e ∈ s.claims)
    (hphase : e.phase = .sent d) : s.sentEntry e.tag e.mark e.owner = some e := by
  have hfound : (s.sentEntry e.tag e.mark e.owner).isSome = true := by
    rw [State.sentEntry, List.find?_isSome]
    exact ⟨e, he, by simp [hphase]⟩
  obtain ⟨c, hc⟩ := Option.isSome_iff_exists.mp hfound
  have hmatch := List.find?_some hc
  simp only [Bool.and_eq_true, beq_iff_eq] at hmatch
  obtain ⟨⟨⟨htag, -⟩, -⟩, -⟩ := hmatch
  rw [hc, claim_unique htags (List.mem_of_find?_eq_some hc) he htag]

theorem sentEntry_none {s : State} {tag : Byte} {m owner : Nat}
    (h : ∀ e d, e ∈ s.claims → ¬ (e.tag = tag ∧ e.mark = m ∧ e.owner = owner ∧ e.phase = .sent d)) :
    s.sentEntry tag m owner = none := by
  rw [State.sentEntry, List.find?_eq_none]
  intro e he hmatch
  simp only [Bool.and_eq_true, beq_iff_eq] at hmatch
  obtain ⟨⟨⟨htag, hmark⟩, howner⟩, hphase⟩ := hmatch
  cases hp : e.phase with
  | queued => simp [hp] at hphase
  | sent d => exact h e d he ⟨htag, hmark, howner, hp⟩

/-- A SENT entry that ends leaves the list, its outcome in the answer hold. -/
theorem endEntry_sent {s : State} {e : ClaimEntry} {d : Nat} (outcome : ClaimOutcome) (he : e ∈ s.claims)
    (hphase : e.phase = .sent d) :
    s.endEntry e outcome =
      { s with
        claims := s.claims.filter fun c => c.tag != e.tag
        inbox := s.inbox ++ [.answer e.step e.tag outcome] } := by
  rw [State.endEntry, if_pos (List.contains_iff_mem.mpr he), State.dropClaimFrame, hphase]

theorem endMatching_sent {s : State} {e : ClaimEntry} {d : Nat} {tag : Byte} {m owner : Nat} (outcome : ClaimOutcome)
    (htags : s.tagsOk) (he : e ∈ s.claims) (htag : e.tag = tag) (hmark : e.mark = m) (howner : e.owner = owner)
    (hphase : e.phase = .sent d) :
    s.endMatching tag m owner outcome =
      { s with
        claims := s.claims.filter fun c => c.tag != tag
        inbox := s.inbox ++ [.answer e.step tag outcome] } := by
  subst htag hmark howner
  rw [State.endMatching, sentEntry_of_mem htags he hphase]
  exact endEntry_sent outcome he hphase

theorem endMatching_none {s : State} {tag : Byte} {m owner : Nat} (outcome : ClaimOutcome)
    (h : ∀ e d, e ∈ s.claims → ¬ (e.tag = tag ∧ e.mark = m ∧ e.owner = owner ∧ e.phase = .sent d)) :
    s.endMatching tag m owner outcome = s := by
  rw [State.endMatching, sentEntry_none h]

theorem takeGrantFrame_body {s : State} {f : GoodFrame} {tag m v ver : Byte} (hgame : s.session.inGame = true)
    (hbody : f.body = [tag, m, v, ver]) :
    s.takeGrantFrame f = s.endMatching tag m.toNat f.sender .granted := by
  rw [State.takeGrantFrame, if_pos (by exact hgame), hbody]
  rfl

theorem takeRefuseFrame_body {s : State} {f : GoodFrame} {tag m code : Byte} (hgame : s.session.inGame = true)
    (hbody : f.body = [tag, m, code]) :
    s.takeRefuseFrame f = match Reason.ofCode code.toNat with
      | none => s
      | some r => s.endMatching tag m.toNat f.sender (.refused r) := by
  rw [State.takeRefuseFrame, if_pos (by exact hgame), hbody]
  rfl

theorem takeCause_mine {s : State} {f : GoodFrame} {e m v ver ct tag : Byte} (hgame : s.session.inGame = true)
    (hbody : f.body = [e, m, v, ver, ct, tag]) (hct : ct.toNat = s.tile) :
    s.takeCause f = s.endMatching tag m.toNat f.sender .granted := by
  have h4 : numAt f.body 4 = ct.toNat := by rw [hbody]; rfl
  rw [State.takeCause, if_pos (by simp [State.matchesAnswers, hgame, h4, hct]), hbody]
  rfl

theorem exec_grant_heard {s u : State} {dt : Nat} {rx : Reception} {f : GoodFrame} (h : s.ShowsAs u dt rx f)
    (hkind : f.kind = .grant) (haddr : f.addressee = s.tile) :
    exec (.grant dt rx) s = .next (u.takeGrantFrame f).onLine := by
  rw [exec_grant h.on, hear_taken h _ hkind (.inr haddr)]

theorem exec_refuse_heard {s u : State} {dt : Nat} {rx : Reception} {f : GoodFrame} (h : s.ShowsAs u dt rx f)
    (hkind : f.kind = .refuse) (haddr : f.addressee = s.tile) :
    exec (.refuse dt rx) s = .next (u.takeRefuseFrame f).onLine := by
  rw [exec_refuse h.on, hear_taken h _ hkind (.inr haddr)]

/-- Settles O28: the answer's entry is found by its tag, mark and owner, or none is. -/
theorem answerEndsItsEntry : Obligations.AnswerEndsItsEntry := by
  refine ⟨fun dt rx s f tag m hgets haddr htags => ?_,
    fun dt rx s f e m v ver ct tag c d hgets hkind hbody hct htags hc htag hmark howner hphase => ?_⟩
  · have hshown := hgets.showsAs dt
    have hgame := ShowsAs_game hshown
    refine ⟨fun e d he htag hmark howner hphase => ⟨fun v ver hkind hbody => ?_, fun code reason hkind hbody hcode => ?_⟩,
      fun hnone => ⟨fun v ver hkind hbody => ?_, fun code hkind hbody => ?_⟩⟩
    · rw [exec_grant_heard hshown hkind haddr, takeGrantFrame_body hgame hbody,
        endMatching_sent (s := s.heardFrom dt f.sender (.good f.corrected)) _ htags he htag hmark howner hphase,
        onLine_busy quiet_ne_idle]
      rfl
    · rw [exec_refuse_heard hshown hkind haddr, takeRefuseFrame_body hgame hbody, hcode]
      simp only
      rw [endMatching_sent (s := s.heardFrom dt f.sender (.good f.corrected)) _ htags he htag hmark howner hphase,
        onLine_busy quiet_ne_idle]
      rfl
    · rw [exec_grant_heard hshown hkind haddr, takeGrantFrame_body hgame hbody,
        endMatching_none (s := s.heardFrom dt f.sender (.good f.corrected)) _ hnone, onLine_busy hshown.line]
    · rw [exec_refuse_heard hshown hkind haddr, takeRefuseFrame_body hgame hbody]
      cases Reason.ofCode code.toNat with
      | none => rw [onLine_busy hshown.line]
      | some r =>
        simp only
        rw [endMatching_none (s := s.heardFrom dt f.sender (.good f.corrected)) _ hnone, onLine_busy hshown.line]
  · have hshown := hgets.showsAs dt
    have hgame := ShowsAs_game hshown
    rw [exec_update hshown.on, hear_taken hshown _ hkind (.inl rfl), State.takeUpdateFrame]
    obtain ⟨ms, i, ov, hitem⟩ := judgeItem_frame (s.heardFrom dt f.sender (.good f.corrected)) f.sender
      (byteAt f.body 0) (numAt f.body 1) (numAt f.body 2) (byteAt f.body 3)
    generalize (s.heardFrom dt f.sender (.good f.corrected)).judgeItem f.sender
      (byteAt f.body 0) (numAt f.body 1) (numAt f.body 2) (byteAt f.body 3) = u at hitem
    have hclaims : u.claims = s.claims := by rw [hitem]; rfl
    have hquiet : u.line ≠ .idle := by rw [hitem]; exact hshown.line
    rw [takeCause_mine (s := u) (by rw [hitem]; exact hgame) hbody (by rw [hitem]; exact hct),
      endMatching_sent (s := u) _ (by rw [State.tagsOk, hclaims]; exact htags) (hclaims ▸ hc) htag hmark howner hphase,
      onLine_busy (by exact hquiet), hclaims]
    refine ⟨_, rfl, rfl, List.getLast?_concat, ?_⟩
    rw [hitem]

/-- Settles O29: the entry is found by its tag, and its phase says whether its deadline has come. -/
theorem claimDeadlineEndsItsEntry : Obligations.ClaimDeadlineEndsItsEntry := by
  intro dt s e hon hgame htags he
  have hfind : s.claims.find? (fun c => c.tag == e.tag) = some e := by
    have hfound : (s.claims.find? fun c => c.tag == e.tag).isSome = true :=
      List.find?_isSome.mpr ⟨e, he, by simp⟩
    obtain ⟨c, hc⟩ := Option.isSome_iff_exists.mp hfound
    have htag : c.tag = e.tag := by simpa using List.find?_some hc
    rw [hc, claim_unique htags (List.mem_of_find?_eq_some hc) he htag]
  have hpasses : (s.advance dt).claimDeadlinePasses e.tag = match e.phase with
      | .sent deadline => if deadline ≤ s.now + dt then (s.advance dt).endEntry e .noAnswer else s.advance dt
      | .queued => s.advance dt := by
    rw [State.claimDeadlinePasses, if_pos (by exact hgame), advance_claims, hfind]
    rfl
  rw [exec_claimDeadline hon, hpasses]
  refine ⟨fun d hphase hdue => ?_, fun d hphase hearly => ?_, fun hphase => ?_⟩
  · simp only [hphase]
    rw [if_pos hdue, endEntry_sent (s := s.advance dt) .noAnswer he hphase]
    rfl
  · simp only [hphase]
    rw [if_neg (by omega)]
  · simp only [hphase]

/-! ## ASK and CUE (R23, R24, R60) -/

theorem exec_ask_heard {s u : State} {dt : Nat} {rx : Reception} {f : GoodFrame} (h : s.ShowsAs u dt rx f)
    (hkind : f.kind = .ask) (haddr : f.addressee = s.tile) :
    exec (.ask dt rx) s = .next u.takeAskFrame.onLine := by
  rw [exec_ask h.on, hear_taken h _ hkind (.inr haddr)]

/-- An ASK that starts nothing: another tile's, in LISTENING, or with no window. -/
theorem exec_ask_idle {s u : State} {dt : Nat} {rx : Reception} {f : GoodFrame} (h : s.ShowsAs u dt rx f)
    (hkind : f.kind = .ask) (hidle : f.addressee ≠ s.tile ∨ s.session = .listening ∨ s.winSize = 0) :
    exec (.ask dt rx) s = .next u := by
  by_cases haddr : f.addressee = s.tile
  · have hsession : u.session = s.session := h.frame.session
    have hsize : u.winSize = s.winSize := h.frame.winSize
    have hnothing : u.takeAskFrame = u := by
      unfold State.takeAskFrame
      split
      · next hboard =>
        rcases hidle with hidle | hidle | hidle
        · exact absurd haddr hidle
        · rw [hsession, hidle] at hboard
          exact Bool.noConfusion hboard
        · exact if_pos (hsize.trans hidle)
      · rfl
    rw [exec_ask_heard h hkind haddr, hnothing, onLine_busy h.line]
  · rw [exec_ask h.on, hear_notMine h _ hkind rfl haddr, onLine_busy h.line]

/-- An ASK in PLAY or REST starts the run, or restarts it. -/
theorem takeAskFrame_board {s : State} (hboard : s.session.onBoard = true) (hsize : s.winSize ≠ 0) :
    s.takeAskFrame = { s with run :=
      if s.run.running = true then
        if s.snapshotOut = true then { s.run with restart := true } else { s.run with next := s.winFirst }
      else { running := true, next := s.winFirst, restart := false } } := by
  rw [State.takeAskFrame, if_pos hboard, State.startRun, if_neg hsize]
  repeat' split
  all_goals rfl

/-- Settles O30: the sender is shown to the Roster, and then the run starts, restarts, or is left. -/
theorem askStartsTheRun : Obligations.AskStartsTheRun := by
  refine ⟨fun dt rx s f hgets hkind => ?_, fun dt rx s f p hgets hkind => ?_⟩
  · have hshown := hgets.showsAs dt
    refine ⟨exec_ask_idle hshown hkind, fun haddr hboard hsize => ?_⟩
    rw [exec_ask_heard hshown hkind haddr,
      takeAskFrame_board (s := s.heardFrom dt f.sender (.good f.corrected)) hboard hsize, onLine_busy quiet_ne_idle]
    have hout : (s.heardFrom dt f.sender (.good f.corrected)).snapshotOut = s.snapshotOut := rfl
    have hrun : (s.heardFrom dt f.sender (.good f.corrected)).run = s.run := rfl
    rw [hout, hrun]
    refine ⟨fun hr => ?_, fun hr ho => ?_, fun hr ho => ?_⟩
    · rw [if_neg (by simp [hr])]
      rfl
    · rw [if_pos hr, if_pos ho]
    · rw [if_pos hr, if_neg (by simp [ho])]
      rfl
  · have hshown := hgets.showsAs dt
    have hwakes := hgets.wakesPeer dt
    generalize (s.heardFrom dt f.sender (.good f.corrected)).recompute none = u at hshown hwakes
    refine ⟨u, hwakes, exec_ask_idle hshown hkind, fun haddr hboard hsize hr => ?_⟩
    have hsession : u.session = s.session := hshown.frame.session
    have hsize' : u.winSize = s.winSize := hshown.frame.winSize
    have hfirst : u.winFirst = s.winFirst := hshown.frame.winFirst
    have hrun : u.run = s.run := hshown.frame.run
    rw [exec_ask_heard hshown hkind haddr, takeAskFrame_board (hsession ▸ hboard) (hsize' ▸ hsize),
      onLine_busy (by exact hshown.line), if_neg (by simp [hrun, hr]), hfirst]

/-- A CUE heard raises its event, where its number is one. -/
theorem exec_cue_heard {s u : State} {dt : Nat} {rx : Reception} {f : GoodFrame} {c : Byte} (h : s.ShowsAs u dt rx f)
    (hkind : f.kind = .cue) (hbody : f.body = [c]) :
    (63 < c.toNat → exec (.cue dt rx) s = .next u) ∧
    (c.toNat ≤ 63 → u.engineQueue.length < 32 →
      exec (.cue dt rx) s = .next { u with inbox := u.inbox ++ [.event (.cue c.toNat) 0] }) ∧
    (c.toNat ≤ 63 → 32 ≤ u.engineQueue.length →
      exec (.cue dt rx) s = .next { u with health := { u.health with overrun := true } }) := by
  have htake : u.takeCueFrame f = if c.toNat ≤ 63 then u.raise (.cue c.toNat) 0 else u := by
    rw [State.takeCueFrame, hbody]
    rfl
  rw [exec_cue h.on, hear_taken h _ hkind (.inl rfl), htake]
  refine ⟨fun hc => ?_, fun hc hroom => ?_, fun hc hfull => ?_⟩
  · rw [if_neg (by omega), onLine_busy h.line]
  · rw [if_pos hc, raise_room _ _ _ (ShowsAs_game h) (by decide) hroom, onLine_busy (by exact h.line)]
  · rw [if_pos hc, raise_full _ _ _ (ShowsAs_game h) (by decide) hfull, onLine_busy (by exact h.line)]
    rfl

/-- Settles O48: the sender is shown to the Roster, and then the CUE raises its event. -/
theorem cueIsHeard : Obligations.CueIsHeard :=
  ⟨fun dt _ _ _ _ hgets hkind hbody => exec_cue_heard (hgets.showsAs dt) hkind hbody,
    fun dt _ _ _ _ _ hgets hkind hbody => ⟨_, hgets.wakesPeer dt, exec_cue_heard (hgets.showsAs dt) hkind hbody⟩⟩

/-! ## The HAIL's times, and MARK_TEST (R115, R57) -/

/-- Settles O39, by the tests of the due time against the present one. -/
theorem hailFallsDueWithTime : Obligations.HailFallsDueWithTime := by
  intro dt s d hon hdue
  refine ⟨exec_hailDue hon dt, ?_, ?_⟩
  · rw [State.hailIsDue, show (s.advance dt).hail.due = some d from hdue]
    exact decide_eq_true_iff
  · rw [State.hailIsOverdue, show (s.advance dt).hail.due = some d from hdue, Bool.or_eq_true]
    exact or_congr_right decide_eq_true_iff

/-- Settles O47: of a mark with no usable value every comparison is false, of another each is its own. -/
theorem markTestComparesUsableMarks : Obligations.MarkTestComparesUsableMarks := by
  intro s m operand c
  refine ⟨fun hnone => ?_, fun v hv => ?_⟩
  · simp only [State.levelHolds, hnone]
  · simp [State.levelHolds, hv, Comparison.holds]

end Sys2Proof.Machine

namespace Sys2Proof.Machine

/-! ## A new game (R187, R188) -/

/-- What a new game makes of the frame outstanding: a HAIL's carries the request it will not have served, and every other
source no longer holds its frame (R115, R118, R188). -/
def Outstanding.newGame (o : Outstanding) : Outstanding :=
  match o.source with
  | .hail a b c _ => { o with source := .hail a b c true }
  | _ => { o with live := false }

/-- The HAIL requested, in the frame outstanding. -/
def Outstanding.requested (o : Outstanding) : Outstanding :=
  match o.source with
  | .hail a b c _ => { o with source := .hail a b c true }
  | _ => o

def Outstanding.severed (which : Source → Bool) (o : Outstanding) : Outstanding :=
  if which o.source = true then { o with live := false } else o

theorem requestHail_eq (s : State) :
    s.requestHail = { s with
      hail := { s.hail with immediate := true }
      outstanding := s.outstanding.map Outstanding.requested } := rfl

theorem orphan_severed (s : State) (which : Source → Bool) :
    s.orphan which = { s with outstanding := s.outstanding.map (Outstanding.severed which) } := orphan_eq s which

/-- The severings of a new game and its request for a HAIL, together. -/
theorem severed_newGame (x : Option Outstanding) :
    (((x.map (Outstanding.severed Source.isAnswerOrSlate)).map (Outstanding.severed Source.isSnapshot)).map
      (Outstanding.severed Source.isQueued)).map Outstanding.requested = x.map Outstanding.newGame := by
  simp only [Option.map_map]
  congr 1
  funext ⟨frame, key, source, won, live⟩
  cases source <;> rfl

theorem emptyRun_eq (s : State) :
    s.emptyRun = { s with
      run := { s.run with running := false, restart := false }
      outstanding := s.outstanding.map (Outstanding.severed Source.isSnapshot) } := by
  rw [State.emptyRun, orphan_severed]

/-- Some mark of a new game is pending where the window holds a mark that is journalled. -/
theorem anyPending_newGame (s : State) (now : Nat) :
    State.anyPending { s with marks := s.marks.map (MarkEntry.newGame now), answers := [] } =
      s.marks.any MarkEntry.journalled := by
  rw [State.anyPending, List.any_map]
  congr 1
  funext e
  cases e with
  | replica r => rfl
  | owned o => cases h : o.sealed <;> simp [MarkEntry.newGame, MarkEntry.journalled, h, Owned.flag]

theorem newGameMarks_eq (s : State) :
    s.newGameMarks = { s with
      marks := s.marks.map (MarkEntry.newGame s.now)
      answers := []
      run := { s.run with running := false, restart := false }
      outstanding := (s.outstanding.map (Outstanding.severed Source.isAnswerOrSlate)).map
        (Outstanding.severed Source.isSnapshot)
      writer := { s.writer with
        oldestPending :=
          if s.anyPending = true then s.writer.oldestPending
          else if s.marks.any MarkEntry.journalled = true then some s.now else s.writer.oldestPending } } := by
  rw [State.newGameMarks, notePending_frame, anyPending_newGame, orphan_severed, emptyRun_eq]

theorem newGameLine_eq (s : State) :
    s.newGameLine = { s with
      claims := [], transmit := []
      outstanding := s.outstanding.map (Outstanding.severed Source.isQueued) } := by
  rw [State.newGameLine, orphan_severed]

/-- The run of a new game, that has just been emptied, starts unless the window is empty. -/
theorem startRun_emptied {s : State} (h : s.run.running = false) :
    s.startRun = { s with run := if s.winSize = 0 then s.run else ⟨true, s.winFirst, false⟩ } := by
  unfold State.startRun
  split
  · rfl
  · rw [if_neg (by simp [h])]

/-- The ASKs that fit an empty transmit queue. -/
theorem offerAsks_empty {s : State} (hroster : s.rosterOk) (hempty : s.transmit = []) :
    s.offerAsks = { s with
      transmit := ((s.roster.filter fun p => p.present && s.watchesIn p).map fun p => Queued.ask p.tile).take 8
      health := { s.health with
        overrun := s.health.overrun ||
          decide (8 < (s.roster.filter fun p => p.present && s.watchesIn p).length) } } := by
  have hnodup : ((s.roster.filter (·.present)).map Peer.tile).Nodup :=
    (roster_tiles_nodup hroster).sublist (List.filter_sublist.map _)
  rw [State.offerAsks, foldAsks_eq _ _ (by simp [hempty]) hnodup (by simp [hempty]), List.filter_filter, hempty]
  simp only [List.nil_append, List.length_nil, Nat.sub_zero, Bool.and_comm]

/-- What the writer makes of a new game: at once with the store free, else after the operation in progress (R171). -/
theorem tellWriterNewGame_busy {s : State} (h : s.op ≠ none) :
    s.tellWriterNewGame = { s with writer := { s.writer with newGameWaits := some (s.serial, s.epoch) } } := if_neg h

/-- The census with a BUILDING block abandoned (R167, R171). -/
def State.abandoned (s : State) : List Block :=
  match s.buildingBlock with
  | some b => modifyAt (fun k => { k with state := .obsolete }) (b - 2) s.writer.census
  | none => s.writer.census

theorem abandonBuilding_eq (s : State) :
    s.abandonBuilding = { s with writer := { s.writer with census := s.abandoned } } := by
  unfold State.abandonBuilding State.abandoned
  cases s.buildingBlock <;> rfl

theorem writerNewGame_eq (s : State) (serial epoch : Byte) :
    s.writerNewGame serial epoch = { s with
      marks := s.marks.map (MarkEntry.onOwned fun o => { o with captured := false })
      writer := { s.writer with
        census := s.abandoned, newGameOwed := some (serial, epoch), newGameWaits := none } } := by
  rw [State.writerNewGame, abandonBuilding_eq]
  rfl

/-- What the withdrawal's wait leaves of the writer, once no operation is in progress (R167). -/
theorem takeWithdrawWait_eq (s : State) :
    ∃ c, s.takeWithdrawWait = { s with writer := { s.writer with
        census := c
        compactionOwed := s.writer.compactionOwed && !s.writer.withdrawWaits
        withdrawWaits := false } } ∧
      (s.writer.withdrawWaits = false → c = s.writer.census) ∧
      (s.writer.withdrawWaits = true → c = s.abandoned) := by
  unfold State.takeWithdrawWait
  cases hw : s.writer.withdrawWaits with
  | false =>
    refine ⟨s.writer.census, ?_, fun _ => rfl, fun h => Bool.noConfusion h⟩
    rw [if_neg Bool.false_ne_true, Bool.not_false, Bool.and_true, ← hw]
  | true =>
    refine ⟨s.abandoned, ?_, fun h => Bool.noConfusion h, fun _ => rfl⟩
    rw [if_pos rfl, State.writerWithdraw, abandonBuilding_eq, Bool.not_true, Bool.and_false]

/-- The writer's part of a new game with the store free; where no withdrawal waited, a BUILDING block alone is
abandoned (R171). -/
theorem tellWriterNewGame_free {s : State} (h : s.op = none) :
    ∃ c, s.tellWriterNewGame = { s with
        marks := s.marks.map (MarkEntry.onOwned fun o => { o with captured := false })
        writer := { s.writer with
          census := c
          compactionOwed := s.writer.compactionOwed && !s.writer.withdrawWaits
          newGameOwed := some (s.serial, s.epoch)
          newGameWaits := none
          withdrawWaits := false } } ∧
      (s.writer.withdrawWaits = false → c = s.abandoned) := by
  have hnew : State.takeNewGameWait
      { s with writer := { s.writer with newGameWaits := some (s.serial, s.epoch) } } =
      { s with
        marks := s.marks.map (MarkEntry.onOwned fun o => { o with captured := false })
        writer := { s.writer with
          census := s.abandoned, newGameOwed := some (s.serial, s.epoch), newGameWaits := none } } :=
    writerNewGame_eq _ _ _
  rw [State.tellWriterNewGame, State.takeWaits, if_pos (by exact h), hnew]
  obtain ⟨c, hc, hfree, -⟩ := takeWithdrawWait_eq
    { s with
      marks := s.marks.map (MarkEntry.onOwned fun o => { o with captured := false })
      writer := { s.writer with
        census := s.abandoned, newGameOwed := some (s.serial, s.epoch), newGameWaits := none } }
  exact ⟨c, hc, hfree⟩

/-- What a new game makes of the state before the writer learns of it and the tile announces itself (R188). -/
def State.newGameBody (u : State) (g : Byte) : State :=
  { u with
    serial := g
    epoch := u.epoch + 1
    marks := u.marks.map (MarkEntry.newGame u.now)
    answers := []
    claims := []
    inbox := []
    transmit := []
    steps := u.steps.map Step.newGame
    pads := u.pads.map fun _ => Pad.blank
    gateStart := u.gateStart.map fun _ => u.now
    timers := u.timers.map Timer.idle
    lights := u.lights.map fun _ => ⟨.off, 0⟩
    tones := []
    toneCount := 0
    digits := ⟨.none, false⟩
    run := { u.run with running := false, restart := false }
    outstanding := ((u.outstanding.map (Outstanding.severed Source.isAnswerOrSlate)).map
      (Outstanding.severed Source.isSnapshot)).map (Outstanding.severed Source.isQueued)
    writer := { u.writer with
      oldestPending :=
        if u.anyPending = true then u.writer.oldestPending
        else if u.marks.any MarkEntry.journalled = true then some u.now else u.writer.oldestPending } }

theorem newGame_eq (u : State) (g : Byte) : u.newGame g = (u.newGameBody g).tellWriterNewGame.announce := by
  rw [State.newGame, newGameMarks_eq, newGameLine_eq]
  rfl

/-- What a tile announces whose transmit queue is empty and whose run is idle (R188). -/
theorem announce_eq {s : State} (hroster : s.rosterOk) (hempty : s.transmit = []) (hrun : s.run.running = false) :
    s.announce = { s with
      hail := { s.hail with immediate := true }
      outstanding := s.outstanding.map Outstanding.requested
      run := if s.winSize = 0 then s.run else ⟨true, s.winFirst, false⟩
      transmit := ((s.roster.filter fun p => p.present && s.watchesIn p).map fun p => Queued.ask p.tile).take 8
      health := { s.health with
        overrun := s.health.overrun ||
          decide (8 < (s.roster.filter fun p => p.present && s.watchesIn p).length) } } := by
  rw [State.announce, requestHail_eq, startRun_emptied (by exact hrun)]
  exact offerAsks_empty (by exact hroster) hempty

/-- The two tests of R163 for the oldest pending time are one. -/
theorem oldest_eq {p q : Bool} (x y : Option Nat) :
    (if p = true then x else if q = true then y else x) = if p = true ∨ q = false then x else y := by
  cases p <;> cases q <;> rfl

/-- An entry of a new game; one in flight stays captured until the operation in progress has ended (R10, R11, R171). -/
def gameEntry (now : Nat) (busy : Bool) : MarkEntry → MarkEntry
  | .replica _ => .replica ⟨0, 0, 0, .unknown⟩
  | .owned o => .owned
      { o with
        value := if o.sealed = true then o.value else o.initial
        version := if o.sealed = true then o.version else 0
        announce := if o.sealed = true then o.announce else false
        pending := if o.sealed = true then o.pending else some (o.pending.getD now)
        cause := if o.sealed = true then o.cause else none
        captured := busy && o.captured }

theorem newGame_gameEntry (now : Nat) (e : MarkEntry) : e.newGame now = gameEntry now true e := by
  cases e with
  | replica r => rfl
  | owned o => cases o with | mk k i v n sealed a p c x => cases sealed <;> rfl

theorem newGame_gameEntry_free (now : Nat) (e : MarkEntry) :
    (e.newGame now).onOwned (fun o => { o with captured := false }) = gameEntry now false e := by
  rw [newGame_gameEntry]
  cases e <;> rfl

/-- A new game, whole, in a tile of distinct peers. -/
theorem newGame_startsGame {u : State} (g : Byte) (hroster : u.rosterOk) : u.startsGame (u.newGame g) g := by
  rw [newGame_eq]
  refine ⟨(u.roster.filter fun p => p.present && u.watchesIn p).map (fun p => Queued.ask p.tile), ?_⟩
  cases hop : u.op with
  | some op =>
    refine ⟨u.writer.census, rfl, ?_, fun _ => rfl, nofun⟩
    have hbusy : (u.newGameBody g).op ≠ none := by simp [State.newGameBody, hop]
    have hmarks : u.marks.map (MarkEntry.newGame u.now) = u.marks.map (gameEntry u.now true) :=
      List.map_congr_left fun e _ => newGame_gameEntry _ e
    rw [tellWriterNewGame_busy hbusy, announce_eq (by exact hroster) rfl rfl]
    simp only [State.newGameBody, severed_newGame, oldest_eq, hmarks, List.length_map]
    congr 1
    simp
  | none =>
    obtain ⟨c, hc, hfree⟩ := tellWriterNewGame_free (s := u.newGameBody g) hop
    refine ⟨c, rfl, ?_, fun h => absurd rfl h, fun _ h => hfree h⟩
    have hmarks : (u.marks.map (MarkEntry.newGame u.now)).map (MarkEntry.onOwned fun o => { o with captured := false }) =
        u.marks.map (gameEntry u.now false) := by
      rw [List.map_map]
      exact List.map_congr_left fun e _ => newGame_gameEntry_free _ e
    rw [hc, announce_eq (by exact hroster) rfl rfl]
    simp only [State.newGameBody, severed_newGame, oldest_eq, hmarks, List.length_map]
    congr 1
    simp

theorem takeNewGameFrame_body {u : State} {f : GoodFrame} {g : Byte} (hgame : u.session.inGame = true)
    (hbody : f.body = [g]) : u.takeNewGameFrame f = if g ≠ u.serial then u.newGame g else u := by
  have hbyte : byteAt f.body 0 = g := by rw [hbody]; rfl
  rw [State.takeNewGameFrame, hbyte]
  simp only [hgame, true_and]

/-- A NEW_GAME frame once the Roster has been shown it. -/
theorem exec_newGame_heard {s u : State} {dt : Nat} {rx : Reception} {f : GoodFrame} {g : Byte}
    (h : s.ShowsAs u dt rx f) (hkind : f.kind = .newGame) (hbody : f.body = [g]) (hroster : s.rosterOk) :
    ∃ t, exec (.newGame dt rx) s = .next t ∧ (g = s.serial → t = u) ∧ (g ≠ s.serial → u.startsGame t g) := by
  have hserial : u.serial = s.serial := h.frame.serial
  have hkept : u.rosterOk := by
    rw [← h.shown]
    exact (keeps_showFrame _ _ _).roster hroster
  rw [exec_newGame h.on, hear_taken h _ hkind (.inl rfl), takeNewGameFrame_body (ShowsAs_game h) hbody, hserial]
  by_cases hg : g = s.serial
  · rw [if_neg (not_not_intro hg), onLine_busy h.line]
    exact ⟨u, rfl, fun _ => rfl, fun hne => absurd hg hne⟩
  · have hstarts := newGame_startsGame g hkept
    have hline : (u.newGame g).line ≠ .idle := by
      obtain ⟨_, c, -, heq, -⟩ := hstarts
      rw [heq]
      exact h.line
    rw [if_pos hg, onLine_busy hline]
    exact ⟨_, rfl, fun heq => absurd heq hg, fun _ => hstarts⟩

/-- Settles O31: the sender is shown to the Roster, and then the game is taken whole. -/
theorem newGameIsTakenWhole : Obligations.NewGameIsTakenWhole := by
  refine ⟨fun dt rx s f g hgets hkind hbody => ⟨fun hg => ?_, fun hg hroster => ?_⟩,
    fun dt rx s f p g hgets hkind hbody hroster => ?_⟩
  · have h := hgets.showsAs dt
    rw [exec_newGame h.on, hear_taken h _ hkind (.inl rfl), takeNewGameFrame_body (ShowsAs_game h) hbody,
      if_neg (show ¬ g ≠ (s.heardFrom dt f.sender (.good f.corrected)).serial from not_not_intro hg), onLine_busy h.line]
  · obtain ⟨t, ht, -, hstarts⟩ := exec_newGame_heard (hgets.showsAs dt) hkind hbody hroster
    exact ⟨t, ht, hstarts hg⟩
  · have h := hgets.showsAs dt
    obtain ⟨t, ht, hsame, hstarts⟩ := exec_newGame_heard h hkind hbody hroster
    refine ⟨_, t, hgets.wakesPeer dt, ?_, ht, hsame, hstarts⟩
    rw [← h.shown]
    exact (keeps_showFrame _ _ _).roster hroster

/-! ## Rest and wake (R184, R189, R190) -/

theorem enterRest_rested (s : State) : s.enterRest = s.rested := by
  have htimers : s.timers.map Timer.freeze = s.timers.map fun t =>
      if t.running = true ∧ t.remaining = 0 then { t with remaining := 1, base := t.tick.baseTicks - 1 } else t :=
    List.map_congr_left fun t _ => by simp [Timer.freeze, Timer.atZero]
  rw [State.rested, ← htimers]
  rfl

/-- What the Roster is shown of a PRESENT sender, and of a SILENT one. -/
theorem shows_of_hears {s : State} {rx : Reception} {f : GoodFrame} (dt : Nat)
    (h : s.gets rx f ∨ ∃ p, s.getsSilent rx f p) : ∃ u, s.shows u dt rx f ∧ s.ShowsAs u dt rx f := by
  rcases h with h | ⟨p, h⟩
  · exact ⟨_, .inl ⟨h, rfl⟩, h.showsAs dt⟩
  · exact ⟨_, .inr ⟨p, h, h.wakesPeer dt⟩, h.showsAs dt⟩

/-- Settles O32: what a REST frame does in each state of the session. -/
theorem restFrameRests : Obligations.RestFrameRests := by
  intro dt rx s f hkind hhears
  obtain ⟨u, hshows, h⟩ := shows_of_hears dt hhears
  have hsession : u.session = s.session := h.frame.session
  refine ⟨u, hshows, fun hs => ?_, fun hs => ?_, fun hs => ?_⟩ <;>
    rw [exec_rest h.on, hear_taken h _ hkind (.inl rfl), State.takeRestFrame, hsession, hs]
  · rw [onLine_busy h.line]
  · rw [onLine_busy (by exact h.line)]
  · simp only
    rw [enterRest_rested, onLine_busy (by exact h.line)]

/-- The held events of some pads join the engine queue where it has room for all of them. -/
theorem foldHeld_room (l : List Nat) (s : State) (hgame : s.session.inGame = true)
    (hroom : s.engineQueue.length + l.length ≤ 32) :
    l.foldl State.raiseHeld s =
      { s with inbox := s.inbox ++ l.filterMap fun i => (s.pad i).held.map fun k => .event (.pad i k) 0 } := by
  induction l generalizing s with
  | nil => simp
  | cons i l ih =>
    rw [List.length_cons] at hroom
    rw [List.foldl_cons]
    cases hheld : (s.pad i).held with
    | none =>
      have hnothing : s.raiseHeld i = s := by rw [State.raiseHeld, hheld]
      rw [hnothing, ih s hgame (by omega), List.filterMap_cons_none (by simp [hheld])]
    | some k =>
      have hraise : s.raiseHeld i = { s with inbox := s.inbox ++ [.event (.pad i k) 0] } := by
        rw [State.raiseHeld, hheld]
        exact raise_room s _ 0 hgame (by decide) (by omega)
      rw [hraise, ih { s with inbox := s.inbox ++ [.event (.pad i k) 0] } hgame ?_,
        List.filterMap_cons_some (b := .event (.pad i k) 0) (by simp [hheld])]
      · rw [List.append_assoc]
        rfl
      · have hlength : State.engineQueue { s with inbox := s.inbox ++ [.event (.pad i k) 0] } =
            s.engineQueue ++ [.event (.pad i k) 0] := List.filter_append ..
        rw [hlength, List.length_append, List.length_singleton]
        omega

theorem releaseHeld_room {s : State} (hgame : s.session.inGame = true) (hroom : s.engineQueue.length ≤ 26) :
    s.releaseHeld = { s with
      inbox := s.inbox ++ s.heldEvents
      pads := s.pads.map fun p => { p with held := none } } := by
  rw [State.releaseHeld, foldHeld_room _ s hgame (by simp; omega)]
  rfl

/-- Settles O33: what a WAKE frame does in each state of the session. -/
theorem wakeFrameWakes : Obligations.WakeFrameWakes := by
  intro dt rx s f hkind hhears
  obtain ⟨u, hshows, h⟩ := shows_of_hears dt hhears
  have hsession : u.session = s.session := h.frame.session
  refine ⟨u, hshows, fun hs => ?_, fun hs => ?_, fun hs hroom => ?_⟩ <;>
    rw [exec_wake h.on, hear_taken h _ hkind (.inl rfl), State.takeWakeFrame, hsession, hs]
  · rw [onLine_busy h.line]
  · rw [onLine_busy (by exact h.line)]
  · have hnow : u.now = s.now + dt := h.frame.now
    have htile : u.tile = s.tile := h.frame.tile
    have hlights : u.lights = s.lights := by rw [h.frame]; rfl
    have hhail : u.hail = s.hail := by rw [h.frame]; rfl
    have hpads : u.pads = s.pads := by rw [h.frame]; rfl
    simp only
    rw [State.returnToPlay, releaseHeld_room rfl (by exact hroom), onLine_busy (by exact h.line)]
    have hheld : s.heldEvents = u.heldEvents := by simp only [State.heldEvents, State.pad, hpads]
    rw [← hnow, ← htile, ← hlights, ← hhail, ← hpads, hheld]
    rfl

/-! ## The end of LISTENING (R184, R185) -/

theorem askQueued_iff (s : State) (n : Nat) : s.askQueued n = true ↔ .ask n ∈ s.transmit := by
  simp [State.askQueued]

theorem offerAsk_queued {s : State} {p : Peer} (h : s.askQueued p.tile = true) : s.offerAsk p = s := by
  unfold State.offerAsk
  rw [if_pos h, ite_self]

/-- An ASK that waits still waits after another is offered. -/
theorem askQueued_offerAsk {s : State} (p : Peer) {n : Nat} (h : s.askQueued n = true) :
    (s.offerAsk p).askQueued n = true := by
  rw [askQueued_iff] at h ⊢
  unfold State.offerAsk State.offer
  repeat' split
  · exact h
  · exact List.mem_append_left _ h
  · exact h
  · exact h

/-- The peers with an ASK queued are passed over. -/
theorem foldAsks_unqueued (l : List Peer) (u s : State) (h : ∀ n, u.askQueued n = true → s.askQueued n = true) :
    l.foldl (fun s p => s.offerAsk p) s =
      (l.filter fun p => !u.askQueued p.tile).foldl (fun s p => s.offerAsk p) s := by
  induction l generalizing s with
  | nil => rfl
  | cons p l ih =>
    cases hq : u.askQueued p.tile with
    | true =>
      rw [List.foldl_cons, offerAsk_queued (h _ hq), List.filter_cons_of_neg (by simp [hq])]
      exact ih s h
    | false =>
      rw [List.filter_cons_of_pos (by simp [hq]), List.foldl_cons, List.foldl_cons]
      exact ih _ fun n hn => askQueued_offerAsk p (h n hn)

/-- The ASKs of a tile that may hold some already: to each PRESENT owner of a watched mark that has none queued. -/
theorem offerAsks_eq {s : State} (hroster : s.rosterOk) (hroom : s.transmit.length ≤ 8) {asks : List Queued}
    (hasks : asks = (s.roster.filter fun p => p.present && s.watchesIn p && !s.askQueued p.tile).map
      fun p => .ask p.tile) :
    s.offerAsks = { s with
      transmit := s.transmit ++ asks.take (8 - s.transmit.length)
      health := { s.health with
        overrun := s.health.overrun || decide (8 < s.transmit.length + asks.length) } } := by
  have hnodup : (((s.roster.filter (·.present)).filter fun p => !s.askQueued p.tile).map Peer.tile).Nodup :=
    (roster_tiles_nodup hroster).sublist ((List.filter_sublist.trans List.filter_sublist).map _)
  have hfree : ∀ p ∈ (s.roster.filter (·.present)).filter fun p => !s.askQueued p.tile,
      .ask p.tile ∉ s.transmit := by
    intro p hp
    have hq := (List.mem_filter.mp hp).2
    rw [← askQueued_iff]
    simpa using hq
  have hlist : ((s.roster.filter (·.present)).filter fun p => !s.askQueued p.tile).filter s.watchesIn =
      s.roster.filter fun p => p.present && s.watchesIn p && !s.askQueued p.tile := by
    rw [List.filter_filter, List.filter_filter]
    congr 1
    funext p
    ac_rfl
  subst hasks
  rw [List.length_map]
  have hlength : ∀ k : Nat, decide (8 - s.transmit.length < k) = decide (8 < s.transmit.length + k) :=
    fun k => decide_eq_decide.mpr (by omega)
  rw [State.offerAsks, foldAsks_unqueued _ s s fun _ h => h, foldAsks_eq _ s hroom hnodup hfree, hlist, ← hlength]

theorem startRun_eq (s : State) :
    s.startRun = { s with run :=
      if s.winSize = 0 then s.run
      else if s.run.running = false then ⟨true, s.winFirst, false⟩
      else if s.snapshotOut = true then { s.run with restart := true }
      else { s.run with next := s.winFirst } } := by
  unfold State.startRun
  split
  · rfl
  · cases s.run.running
    · rfl
    · cases s.snapshotOut <;> rfl

theorem snapshotOut_requested (s : State) : s.requestHail.snapshotOut = s.snapshotOut := by
  rw [requestHail_eq]
  unfold State.snapshotOut
  cases s.outstanding with
  | none => rfl
  | some o => cases o with | mk frame key source won live => cases source <;> rfl

/-- What a tile announces: the HAIL requested, the run begun, the ASKs offered (R23, R92, R115). -/
theorem announce_frame (s : State) :
    ∃ q ov, s.announce = { s with
        hail := { s.hail with immediate := true }
        outstanding := s.outstanding.map Outstanding.requested
        run := if s.winSize = 0 then s.run
          else if s.run.running = false then ⟨true, s.winFirst, false⟩
          else if s.snapshotOut = true then { s.run with restart := true }
          else { s.run with next := s.winFirst }
        transmit := q
        health := { s.health with overrun := ov } } ∧
      (s.rosterOk → s.transmit.length ≤ 8 → ∀ asks : List Queued,
        asks = (s.roster.filter fun p => p.present && s.watchesIn p && !s.askQueued p.tile).map
          (fun p => .ask p.tile) →
        q = s.transmit ++ asks.take (8 - s.transmit.length) ∧
        ov = (s.health.overrun || decide (8 < s.transmit.length + asks.length))) := by
  obtain ⟨q, ov, he⟩ := offerAsks_frame s.requestHail.startRun
  refine ⟨q, ov, ?_, fun hroster hroom asks hasks => ?_⟩
  · rw [State.announce, he, startRun_eq, snapshotOut_requested]
    rfl
  · rw [offerAsks_eq (asks := asks) (by rw [startRun_eq]; exact hroster) (by rw [startRun_eq]; exact hroom)
      (by rw [startRun_eq]; exact hasks)] at he
    have htransmit := congrArg State.transmit he
    have hover := congrArg (fun x : State => x.health.overrun) he
    rw [startRun_eq] at htransmit hover
    exact ⟨htransmit.symm, hover.symm⟩

/-- Settles O34: the tile announces itself, and rests at once where rest is owed. -/
theorem listeningEndsInPlay : Obligations.ListeningEndsInPlay := by
  intro dt s d hon hs hat
  have hpasses : (s.advance dt).listeningPasses =
      if d ≤ s.now + dt then (s.advance dt).enterPlay else s.advance dt := by
    rw [State.listeningPasses, show (s.advance dt).session = .listening from hs,
      show (s.advance dt).listenAt = some d from hat]
    rfl
  rw [exec_listeningDeadline hon, hpasses]
  refine ⟨fun hearly => by rw [if_neg (by omega)], fun hdue => ⟨_, by rw [if_pos hdue], ?_⟩⟩
  obtain ⟨q, ov, he, hq⟩ := announce_frame { s.advance dt with session := .play, listenAt := none }
  have hasks : s.rosterOk → s.transmit.length ≤ 8 → ∀ asks : List Queued,
      asks = (s.roster.filter fun p => p.present && s.watchesIn p && !s.askQueued p.tile).map
        (fun p => .ask p.tile) →
      q = s.transmit ++ asks.take (8 - s.transmit.length) ∧
      ov = (s.health.overrun || decide (8 < s.transmit.length + asks.length)) :=
    fun ⟨hlength, hsorted, hpeers, _⟩ => hq ⟨hlength, hsorted, hpeers, by simp⟩
  rw [State.enterPlay, he]
  cases howed : s.restOwed with
  | false =>
    rw [if_neg (by simp [howed])]
    refine ⟨rfl, rfl, rfl, hasks, ?_⟩
    simp only [Bool.false_eq_true, if_false]
    rw [← howed]
    rfl
  | true =>
    rw [if_pos (by simp [howed]), enterRest_rested]
    exact ⟨rfl, rfl, rfl, hasks, rfl⟩

end Sys2Proof.Machine

namespace Sys2Proof.Machine

/-! ## A HAIL's content (R84, R196) -/

theorem byteAt_hailBody (h : HailContent) (g : Byte) :
    byteAt (hailBody h g) 0 = h.epoch ∧ numAt (hailBody h g) 1 = h.first % 256 ∧
    numAt (hailBody h g) 2 = h.size % 256 ∧ byteAt (hailBody h g) 3 = h.health ∧
    byteAt (hailBody h g) 4 = h.serial ∧ numAt (hailBody h g) 6 = h.poor.length % 256 :=
  ⟨rfl, rfl, rfl, rfl, rfl, rfl⟩

theorem parseHail_hailBody {h : HailContent} {g : Byte} (hfirst : h.first < 256) (hsize : h.size < 256)
    (hpoor : h.poor.length ≤ 4) (hmem : ∀ n ∈ h.poor, n < 256) : parseHail (hailBody h g) = some h := by
  obtain ⟨h0, h1, h2, h3, h4, h6⟩ := byteAt_hailBody h g
  have hlist : ((hailBody h g).drop 7).map BitVec.toNat = h.poor := by
    show (h.poor.map (BitVec.ofNat 8)).map BitVec.toNat = h.poor
    rw [List.map_map]
    exact (List.map_congr_left fun n hn => Nat.mod_eq_of_lt (hmem n hn)).trans (List.map_id _)
  rw [Nat.mod_eq_of_lt hfirst] at h1
  rw [Nat.mod_eq_of_lt hsize] at h2
  rw [Nat.mod_eq_of_lt (by omega)] at h6
  have hlength : (hailBody h g).length = 7 + h.poor.length := by simp [hailBody]; omega
  rw [parseHail, if_pos ⟨h6 ▸ hpoor, by omega⟩, h0, h1, h2, h3, h4, hlist]

theorem effectiveSize_eq (h : HailContent) : h.effectiveSize = announcedSize h := rfl

theorem mustWithdraw_iff (s : State) (n : Nat) (h : HailContent) : s.mustWithdraw n h = true ↔ s.yieldsTo n h := by
  have hsession : (s.session == .listening || s.session == .play) = true ↔ s.session = .listening ∨ s.session = .play := by
    simp
  have hwindows : windowsOverlap s.winFirst s.winSize h.first h.effectiveSize = true ↔
      ∃ m, s.winFirst ≤ m ∧ m < s.winFirst + s.winSize ∧ h.first ≤ m ∧ m < h.first + announcedSize h := by
    rw [effectiveSize_eq]
    refine decide_eq_true_iff.trans ⟨fun hover => ⟨max s.winFirst h.first, ?_⟩, fun ⟨m, hm⟩ => ?_⟩ <;> omega
  rw [State.mustWithdraw, Bool.and_eq_true, Bool.and_eq_true, hsession, hwindows, decide_eq_true_iff, and_assoc]
  rfl

/-! ## The steps after the content (R88) -/

/-- A HAIL's serial, tested last. -/
def State.withGame (s : State) (serial : Byte) : State := if ahead serial s.serial = true then s.newGame serial else s

theorem withGame_thenGame {s : State} (serial : Byte) (hroster : s.rosterOk) :
    s.thenGame (s.withGame serial) serial := by
  unfold State.withGame
  refine ⟨fun h => if_neg (by simp [h]), fun h => ?_⟩
  rw [if_pos h]
  exact newGame_startsGame serial hroster

/-- The ASK to a peer with the window that its HAIL announces. -/
theorem askPeer_asks {s : State} {n : Nat} {h : HailContent} {p : Peer} (hp : s.peer n = some p)
    (hfirst : p.first = h.first) (hsize : p.size = announcedSize h) : s.asks (s.askPeer n) n h := by
  have htile : p.tile = n := peer_tile hp
  have hwatches : s.watchesIn p = true ↔
      ∃ m < 256, s.isWatched m = true ∧ h.first ≤ m ∧ m < h.first + announcedSize h := by
    simp [State.watchesIn, Peer.holds, hfirst, hsize]
  refine ⟨fun ⟨hboard, hwatched⟩ hfree => ?_, fun hnone => ?_⟩
  · have hask : s.askPeer n = s.offer (.ask n) := by
      rw [State.askPeer, if_pos hboard, hp]
      simp only
      rw [State.offerAsk, if_pos (hwatches.mpr hwatched), htile, if_neg (mt (askQueued_iff s n).mp hfree)]
    rw [hask]
    exact ⟨fun hroom => if_pos hroom, fun hfull => if_neg (Nat.not_lt.mpr hfull)⟩
  · unfold State.askPeer
    split
    · next hboard =>
      rw [hp]
      simp only
      rcases hnone with hqueued | hoff | hnothing
      · exact offerAsk_queued (htile ▸ (askQueued_iff s n).mpr hqueued)
      · exact absurd hboard (by simp [hoff])
      · refine if_neg fun hw => ?_
        obtain ⟨m, hm, hwatch, hlow, hhigh⟩ := hwatches.mp hw
        have := hnothing m hm hwatch
        omega
    · rfl

theorem askPeer_frame (s : State) (n : Nat) :
    ∃ t ov, s.askPeer n = { s with transmit := t, health := { s.health with overrun := ov } } := by
  unfold State.askPeer
  repeat' split
  · exact offerAsk_frame _ _
  · exact ⟨_, _, rfl⟩
  · exact ⟨_, _, rfl⟩

theorem epochConsequences_frame (s : State) (n : Nat) :
    ∃ ms i ov c q, s.epochConsequences n =
      { s with marks := ms, inbox := i, health := { s.health with overrun := ov }, claims := c, transmit := q } := by
  obtain ⟨i, ov, e⟩ := raiseMarks_frame { s with marks := mapFrom (epochEntry s.routes n) 0 s.marks }
    (changedStates s.marks (mapFrom (epochEntry s.routes n) 0 s.marks))
  rw [State.epochConsequences]
  simp only [e]
  obtain ⟨c, i', q, e'⟩ := endEntries_frame
    { s with
      marks := mapFrom (epochEntry s.routes n) 0 s.marks, inbox := i, health := { s.health with overrun := ov } }
    fun e => e.owner == n
  exact ⟨_, i', ov, c, q, e'⟩

theorem epochConsequences_peer (s : State) (n q : Nat) : (s.epochConsequences n).peer q = s.peer q := by
  obtain ⟨ms, i, ov, c, t, e⟩ := epochConsequences_frame s n
  rw [e]
  rfl

/-! ## The withdrawal (R17, R18, R89) -/

/-- The frame outstanding at a withdrawal: an UPDATE's or SNAPSHOT's is severed (R18). -/
def Outstanding.withdrawn (o : Outstanding) : Outstanding :=
  match o.source with
  | .slate _ | .snapshot _ => { o with live := false }
  | _ => o

theorem severed_withdrawn (x : Option Outstanding) :
    (x.map (Outstanding.severed Source.isSnapshot)).map (Outstanding.severed Source.isSlate) =
      x.map Outstanding.withdrawn := by
  rw [Option.map_map]
  congr 1
  funext ⟨frame, key, source, won, live⟩
  cases source <;> rfl

theorem stopGrant_eq (s : State) :
    s.stopGrant = { s with
      outstanding := if s.grantIsOut = true then none else s.outstanding
      lineOut := if s.grantIsOut = true then [] else s.lineOut
      line := if s.grantIsOut = true then .quiet s.now else s.line } := by
  have hstop : s.stopGrant = if s.grantIsOut = true then s.stopDriving else s := by
    unfold State.stopGrant State.grantIsOut
    cases s.outstanding with
    | none => rfl
    | some o => cases o with | mk frame key source won live => cases source <;> rfl
  rw [hstop]
  split <;> rfl

/-- A new game that waited is taken by the writer alone where no mark is captured (R171). -/
theorem takeNewGameWait_writer {s : State} (hblank : s.clearCaptured = s) :
    ∃ x, s.takeNewGameWait = { s with writer := x } ∧ (s.writer.newGameWaits = none → x = s.writer) := by
  cases hw : s.writer.newGameWaits with
  | none =>
    refine ⟨s.writer, ?_, fun _ => rfl⟩
    rw [State.takeNewGameWait, hw]
  | some game =>
    refine ⟨{ s.writer with census := s.abandoned, newGameOwed := some game, newGameWaits := none }, ?_, nofun⟩
    rw [State.takeNewGameWait, hw]
    simp only
    rw [writerNewGame_eq, show s.marks.map (MarkEntry.onOwned fun o => { o with captured := false }) = s.marks from
      congrArg State.marks hblank]

/-- A withdrawal that has not reached the writer yet. -/
def State.withdrawalWaits (s : State) : State := { s with writer := { s.writer with withdrawWaits := true } }

theorem tellWriterWithdraw_busy {s : State} (h : s.op ≠ none) : s.tellWriterWithdraw = s.withdrawalWaits := if_neg h

theorem tellWriterWithdraw_free {s : State} (h : s.op = none) :
    s.tellWriterWithdraw = s.withdrawalWaits.takeNewGameWait.takeWithdrawWait := if_pos h

/-- A withdrawal that reaches the writer (R167). -/
theorem tellWriterWithdraw_eq {s : State} (hblank : s.clearCaptured = s) :
    ∃ x, s.tellWriterWithdraw = { s with writer := x } ∧
      (s.writer.newGameWaits = none → x = { s.writer with
        withdrawWaits := s.op.isSome
        compactionOwed := s.writer.compactionOwed && s.op.isSome
        census := if s.op = none then s.abandoned else s.writer.census }) := by
  by_cases hop : s.op = none
  · have hblank' : s.withdrawalWaits.clearCaptured = s.withdrawalWaits := by
      have hmarks : s.marks.map (MarkEntry.onOwned fun o => { o with captured := false }) = s.marks :=
        congrArg State.marks hblank
      rw [State.clearCaptured, show s.withdrawalWaits.marks = s.marks from rfl, hmarks]
      rfl
    obtain ⟨x, hx, hsame⟩ := takeNewGameWait_writer hblank'
    obtain ⟨c, hc, -, hset⟩ := takeWithdrawWait_eq { s.withdrawalWaits with writer := x }
    rw [tellWriterWithdraw_free hop, hx]
    refine ⟨{ x with census := c, compactionOwed := x.compactionOwed && !x.withdrawWaits, withdrawWaits := false },
      hc, fun hnone => ?_⟩
    have hx' := hsame hnone
    subst hx'
    rw [hset rfl, if_pos hop, hop]
    rfl
  · refine ⟨{ s.writer with withdrawWaits := true }, tellWriterWithdraw_busy hop, fun _ => ?_⟩
    rw [if_neg hop, Option.isSome_iff_ne_none.mpr hop, Bool.and_true]

/-- The Mark Unit's and Line Unit's part of a withdrawal, before its events and the writer's part (R18, R89). -/
def State.withdrawing (s : State) : State :=
  State.setWithdrawn { s with
    outstanding := (if s.grantIsOut = true then none else s.outstanding).map Outstanding.withdrawn
    lineOut := if s.grantIsOut = true then [] else s.lineOut
    line := if s.grantIsOut = true then .quiet s.now else s.line
    run := { s.run with running := false, restart := false }
    marks := s.marks.map MarkEntry.withdraw
    answers := s.answers.filter fun a => !(a.isClaimGrant && s.inWindow a.mark)
    winSize := 0
    writer := { s.writer with oldestPending := none } }

theorem withdraw_eq {s : State} (hgame : s.session.inGame = true) :
    s.withdraw = (s.withdrawing.raising (s.markEvents s.windowMarks)).tellWriterWithdraw := by
  have hraise : s.withdrawing.raiseMarks s.windowMarks = s.withdrawing.raising (s.markEvents s.windowMarks) :=
    raiseMarks_raising (s := s.withdrawing) s.windowMarks hgame
  rw [State.withdraw, stopGrant_eq, emptyRun_eq, orphan_severed]
  simp only [severed_withdrawn]
  rw [← hraise]
  rfl

/-- No mark of a tile that has withdrawn is captured. -/
theorem withdrawn_clearCaptured {s t : State} (h : t.marks = s.marks.map MarkEntry.withdraw) : t.clearCaptured = t := by
  have hblank : (s.marks.map MarkEntry.withdraw).map (MarkEntry.onOwned fun o => { o with captured := false }) =
      s.marks.map MarkEntry.withdraw := by
    rw [List.map_map]
    exact List.map_congr_left fun e _ => by cases e <;> rfl
  rw [State.clearCaptured, h, hblank, ← h]

/-- A withdrawal, routing apart. -/
theorem withdraw_withdraws {s : State} (hgame : s.session.inGame = true) : s.withdraws s.withdraw := by
  obtain ⟨x, hx, hfree⟩ := tellWriterWithdraw_eq (s := s.withdrawing.raising (s.markEvents s.windowMarks))
    (withdrawn_clearCaptured (s := s) rfl)
  refine ⟨x, ?_, hfree⟩
  rw [withdraw_eq hgame, hx]
  unfold State.withdrawing
  cases s.grantIsOut <;> congr 1

theorem withdraw_line {s : State} (hgame : s.session.inGame = true) (hline : s.line ≠ .idle) :
    s.withdraw.line ≠ .idle := by
  obtain ⟨x, hx, -⟩ := withdraw_withdraws hgame
  rw [hx]
  cases s.grantIsOut with
  | true => exact quiet_ne_idle
  | false => exact hline

theorem withdraw_session {s : State} (hgame : s.session.inGame = true) : s.withdraw.session = s.session := by
  obtain ⟨x, hx, -⟩ := withdraw_withdraws hgame
  rw [hx]
  rfl

theorem withdraw_peer {s : State} (hgame : s.session.inGame = true) (n : Nat) : s.withdraw.peer n = s.peer n := by
  obtain ⟨x, hx, -⟩ := withdraw_withdraws hgame
  rw [hx]
  rfl

/-! ## The Roster with the sender's entry (R79, R80) -/

theorem find?_insertPeer_same {p : Peer} {l : List Peer} (h : ∀ q ∈ l, q.tile ≠ p.tile) :
    (insertPeer p l).find? (fun q => q.tile == p.tile) = some p := by
  induction l with
  | nil => simp [insertPeer]
  | cons q l ih =>
    rw [List.forall_mem_cons] at h
    rw [insertPeer]
    split
    · simp
    · rw [List.find?_cons_of_neg (by simpa using h.1)]
      exact ih h.2

theorem find?_insertPeer_other {p : Peer} {n : Nat} (l : List Peer) (h : n ≠ p.tile) :
    (insertPeer p l).find? (fun q => q.tile == n) = l.find? fun q => q.tile == n := by
  have hp : ¬ (p.tile == n) = true := by simpa using h.symm
  induction l with
  | nil => simp [insertPeer, hp]
  | cons q l ih =>
    rw [insertPeer]
    split
    · exact List.find?_cons_of_neg hp
    · rw [List.find?_cons, List.find?_cons, ih]

theorem oldestSilent_none {l : List Peer} (h : oldestSilent l = none) : ∀ q ∈ l, q.present = true := by
  induction l with
  | nil => exact fun _ hq => absurd hq List.not_mem_nil
  | cons a l ih =>
    unfold oldestSilent at h
    cases hl : oldestSilent l with
    | none =>
      cases ha : a.present <;> simp [hl, ha] at h
      exact List.forall_mem_cons.mpr ⟨ha, ih hl⟩
    | some r =>
      simp only [hl] at h
      split at h
      · exact absurd h (Option.some_ne_none _)
      · split at h <;> exact absurd h (Option.some_ne_none _)

theorem oldestSilent_present {l : List Peer} (h : ∀ q ∈ l, q.present = true) : oldestSilent l = none := by
  induction l with
  | nil => rfl
  | cons a l ih =>
    rw [List.forall_mem_cons] at h
    rw [oldestSilent, ih h.2]
    exact if_pos h.1

/-- `p` is the SILENT entry heard last the longest ago, the lower number of two (R79). -/
def Peer.oldestOf (p : Peer) (l : List Peer) : Prop :=
  p ∈ l ∧ p.present = false ∧ ∀ q ∈ l, q.present = false → p.lastHeard < q.lastHeard ∨
    (p.lastHeard = q.lastHeard ∧ p.tile ≤ q.tile)

theorem oldestSilent_oldest {l : List Peer} {p : Peer} (hsorted : l.Pairwise fun a b => a.tile < b.tile)
    (h : oldestSilent l = some p) : p.oldestOf l := by
  induction l generalizing p with
  | nil => exact absurd h (by simp [oldestSilent])
  | cons a l ih =>
    rw [List.pairwise_cons] at hsorted
    obtain ⟨hfirst, hrest⟩ := hsorted
    unfold oldestSilent at h
    cases hl : oldestSilent l with
    | none =>
      cases ha : a.present <;> simp [hl, ha] at h
      subst h
      refine ⟨List.mem_cons_self, ha, fun q hq hsilent => ?_⟩
      rcases List.mem_cons.mp hq with rfl | hq
      · exact .inr ⟨rfl, le_rfl⟩
      · exact absurd (oldestSilent_none hl q hq) (by simp [hsilent])
    | some r =>
      obtain ⟨hr, hrsilent, holdest⟩ := ih hrest hl
      have hlater : a.present = true ∨ r.lastHeard < a.lastHeard → r.oldestOf (a :: l) := fun ha =>
        ⟨List.mem_cons_of_mem _ hr, hrsilent, fun q hq hsilent => by
          rcases List.mem_cons.mp hq with rfl | hq
          · rcases ha with ha | ha
            · exact absurd ha (by simp [hsilent])
            · exact .inl ha
          · exact holdest q hq hsilent⟩
      simp only [hl] at h
      split at h
      · next ha =>
        cases h
        exact hlater (.inl ha)
      · next ha =>
        split at h
        · next hle =>
          cases h
          refine ⟨List.mem_cons_self, by simpa using ha, fun q hq hsilent => ?_⟩
          rcases List.mem_cons.mp hq with rfl | hq
          · exact .inr ⟨rfl, le_rfl⟩
          · have hlt := hfirst q hq
            rcases holdest q hq hsilent with h1 | h1
            · exact .inl (by omega)
            · rcases Nat.lt_or_eq_of_le hle with h2 | h2
              · exact .inl (by omega)
              · exact .inr ⟨by omega, by omega⟩
        · next hle =>
          cases h
          exact hlater (.inr (by omega))

/-- The roster without the entry that gives its place. -/
def State.rosterWithout (s : State) : Option Nat → List Peer
  | none => s.roster
  | some n => removePeer n s.roster

/-- The roster has one place to give, and `gone` says whose it is (R79). -/
theorem makeRoom_givesPlace {s : State} {gone : Option Nat} (hroster : s.rosterOk) (h : s.givesPlace gone) :
    makeRoom s.roster = some (s.rosterWithout gone) := by
  obtain ⟨-, hsorted, -⟩ := hroster
  rcases h with ⟨hroom, rfl⟩ | ⟨hfull, p, hp, hsilent, rfl, holdest⟩
  · exact if_pos hroom
  · rw [makeRoom, if_neg (by simp only [Config.rosterRoom]; omega)]
    cases hold : oldestSilent s.roster with
    | none => exact absurd (oldestSilent_none hold p hp) (by simp [hsilent])
    | some q =>
      obtain ⟨hq, hqsilent, hqoldest⟩ := oldestSilent_oldest hsorted hold
      have htile : q.tile = p.tile := by
        have h1 := holdest q hq hqsilent
        have h2 := hqoldest p hp hsilent
        omega
      exact congrArg (fun n => some (removePeer n s.roster)) htile

theorem makeRoom_full {s : State} (hfull : 48 ≤ s.roster.length) (h : ∀ p ∈ s.roster, p.present = true) :
    makeRoom s.roster = none := by
  rw [makeRoom, if_neg (by simp only [Config.rosterRoom]; omega), oldestSilent_present h]
  rfl

end Sys2Proof.Machine

namespace Sys2Proof.Machine

/-! ## The sender's entry (R79, R80, R84 to R87) -/

theorem newPeer_firstEntry (s : State) (dt : Nat) (f : GoodFrame) (h : HailContent) :
    (s.hearing dt).newPeer f.sender f.corrected h = s.firstEntry dt f h := by
  have hlimit := silenceLimit_eq s.session
  rw [State.newPeer, takeGrade_adds _ _ (by exact Nat.zero_lt_succ 14)]
  simp only [Peer.store, Peer.create, State.firstEntry, hearing_session, hearing_tile, hearing_now, hlimit,
    effectiveSize_eq, List.contains_eq_mem, Nat.zero_add]

/-- The state in which the HAIL of an unknown sender has created its entry. -/
def State.entering (s : State) (dt : Nat) (f : GoodFrame) (h : HailContent) (gone : Option Nat) : State :=
  { s.hearing dt with roster := insertPeer (s.firstEntry dt f h) (s.rosterWithout gone) }

theorem mem_rosterWithout {s : State} {gone : Option Nat} {q : Peer} (h : q ∈ s.rosterWithout gone) : q ∈ s.roster := by
  cases gone with
  | none => exact h
  | some n => exact List.mem_of_mem_filter h

theorem peer_rosterWithout (s : State) (gone : Option Nat) (n : Nat) :
    (s.rosterWithout gone).find? (fun q => q.tile == n) = if gone = some n then none else s.peer n := by
  cases gone with
  | none => rfl
  | some g =>
    by_cases h : g = n
    · subst h
      rw [if_pos rfl]
      exact peer_filter_same s g
    · rw [if_neg (by simpa using h)]
      exact peer_filter_other (Ne.symm h)

/-- The Roster with the sender's first entry (R79). -/
theorem entering_entered {s : State} (dt : Nat) {f : GoodFrame} (h : HailContent) {gone : Option Nat}
    (hforeign : s.foreign f.sender) (hgame : s.session.inGame = true) (hunknown : s.peer f.sender = none)
    (hplace : s.givesPlace gone) (hroster : s.rosterOk) : s.entered (s.entering dt f h gone) dt f h gone := by
  have hnone : ∀ q ∈ s.rosterWithout gone, q.tile ≠ (s.firstEntry dt f h).tile := fun q hq htile =>
    List.find?_eq_none.mp hunknown q (mem_rosterWithout hq) (beq_iff_eq.mpr htile)
  have hkept : (s.entering dt f h gone).rosterOk := by
    obtain ⟨⟨-, hsorted, hpeers⟩, hroom, -⟩ := makeRoom_good (makeRoom_givesPlace hroster hplace)
      ⟨hroster.1, hroster.2.1, hroster.2.2.1⟩
    refine ⟨?_, insertPeer_sorted hsorted hnone, fun q hq => ?_, fun hout => ?_⟩
    · show (insertPeer _ _).length ≤ 48
      rw [insertPeer_length]
      omega
    · rcases mem_insertPeer hq with rfl | hq
      · exact ⟨hforeign.1, hforeign.2.1, hforeign.2.2, rfl⟩
      · exact hpeers q hq
    · have hsession : (s.entering dt f h gone).session = s.session := rfl
      rw [hsession] at hout
      rcases hout with hout | hout | hout <;> rw [hout] at hgame <;> exact absurd hgame (by decide)
  refine ⟨rfl, hkept, find?_insertPeer_same hnone, fun n hn hgone => ?_, fun n hn hgone => ?_⟩
  · exact (find?_insertPeer_other _ hn).trans ((peer_rosterWithout s gone n).trans (if_neg hgone))
  · exact (find?_insertPeer_other _ hn).trans ((peer_rosterWithout s gone n).trans (if_pos hgone))

/-- A frame's grading and the HAIL's content make the entry stored. -/
theorem gradeAndRefresh_storing (s : State) (dt : Nat) (f : GoodFrame) (h : HailContent) :
    (((s.hearing dt).gradeAndRefresh f.sender (.good f.corrected)).modifyPeer f.sender fun q => q.store h s.tile) =
      s.storing dt f h := by
  have hentry : ∀ q : Peer, ((q.takeGrade s.header (.good f.corrected)).refresh (s.now + dt)
      (silenceLimit s.session)).store h s.tile = s.storedEntry dt f h q := by
    intro q
    simp only [Peer.store, Peer.refresh, State.storedEntry, silenceLimit_eq, effectiveSize_eq, List.contains_eq_mem]
  have hroster : (s.roster.map fun q => if q.tile = f.sender then
      (q.takeGrade s.header (.good f.corrected)).refresh (s.now + dt) (silenceLimit s.session) else q).map
        (fun q => if q.tile = f.sender then q.store h s.tile else q) =
      s.roster.map fun q => if q.tile = f.sender then s.storedEntry dt f h q else q := by
    rw [List.map_map]
    refine List.map_congr_left fun q _ => ?_
    by_cases hq : q.tile = f.sender
    · have htile : ((q.takeGrade s.header (.good f.corrected)).refresh (s.now + dt) (silenceLimit s.session)).tile =
          f.sender := (takeGrade_tile q _ _).trans hq
      simp only [Function.comp_apply, if_pos hq, if_pos htile, hentry]
    · simp only [Function.comp_apply, if_neg hq]
  rw [State.storing, ← hroster]
  rfl

theorem storing_rosterOk {s : State} (dt : Nat) (f : GoodFrame) (h : HailContent) (hroster : s.rosterOk) :
    (s.storing dt f h).rosterOk := by
  rw [← gradeAndRefresh_storing]
  exact ((unrouted_gradeAndRefresh (s.hearing dt) f.sender _).trans
    (unrouted_modifyPeer _ f.sender (fun q => q.store h s.tile) (fun _ => rfl) fun _ k => k)).roster hroster

theorem storedEntry_tile (s : State) (dt : Nat) (f : GoodFrame) (h : HailContent) (q : Peer) :
    (s.storedEntry dt f h q).tile = q.tile := takeGrade_tile q _ _

theorem peer_storing_same {s : State} (dt : Nat) {f : GoodFrame} (h : HailContent) {p : Peer}
    (hp : s.peer f.sender = some p) : (s.storing dt f h).peer f.sender = some (s.storedEntry dt f h p) :=
  peer_modifyPeer_same (storedEntry_tile s dt f h) hp

theorem peer_storing_other (s : State) (dt : Nat) {f : GoodFrame} (h : HailContent) {n : Nat} (hn : n ≠ f.sender) :
    (s.storing dt f h).peer n = s.peer n := peer_modifyPeer_other (storedEntry_tile s dt f h) hn

/-! ## The steps after the content, one after the other (R88) -/

/-- What a new epoch brings (R85, R91). -/
def State.afterEpoch (s : State) (n : Nat) (changed : Bool) : State :=
  if changed = true then (s.epochConsequences n).askPeer n else s

theorem afterContent_created {s : State} {n : Nat} {h : HailContent} (hkeeps : s.mustWithdraw n h = false) :
    s.afterContent n h ⟨true, false, true⟩ = ((s.recompute (some n)).askPeer n).withGame h.serial := by
  simp only [State.afterContent, hkeeps]
  rfl

theorem afterContent_created_withdraws {s : State} {n : Nat} {h : HailContent} (hyields : s.mustWithdraw n h = true) :
    s.afterContent n h ⟨true, false, true⟩ = ((s.withdraw.recompute (some n)).askPeer n).withGame h.serial := by
  simp only [State.afterContent, hyields]
  rfl

theorem afterContent_known {s : State} {n : Nat} {h : HailContent} (epoch reroutes : Bool)
    (hkeeps : s.mustWithdraw n h = false) :
    s.afterContent n h ⟨false, epoch, reroutes⟩ =
      ((if reroutes = true then s.recompute none else s).afterEpoch n epoch).withGame h.serial := by
  simp only [State.afterContent, hkeeps, Bool.or_false]
  cases epoch <;> cases reroutes <;> rfl

theorem afterContent_known_withdraws {s : State} {n : Nat} {h : HailContent} (epoch reroutes : Bool)
    (hyields : s.mustWithdraw n h = true) :
    s.afterContent n h ⟨false, epoch, reroutes⟩ =
      ((s.withdraw.recompute none).afterEpoch n epoch).withGame h.serial := by
  simp only [State.afterContent, hyields, Bool.or_true]
  cases epoch <;> rfl

/-! ## What each step leaves of the line and of the Roster -/

theorem withGame_line {s : State} (serial : Byte) (hroster : s.rosterOk) : (s.withGame serial).line = s.line := by
  obtain ⟨hsame, hgame⟩ := withGame_thenGame serial hroster
  cases hahead : ahead serial s.serial with
  | false => rw [hsame hahead]
  | true =>
    obtain ⟨_, c, -, hstate, -⟩ := hgame hahead
    rw [hstate]

theorem askPeer_line (s : State) (n : Nat) : (s.askPeer n).line = s.line := by
  obtain ⟨t, ov, e⟩ := askPeer_frame s n
  rw [e]

theorem epochConsequences_line (s : State) (n : Nat) : (s.epochConsequences n).line = s.line := by
  obtain ⟨ms, i, ov, c, q, e⟩ := epochConsequences_frame s n
  rw [e]

theorem epochConsequences_session (s : State) (n : Nat) : (s.epochConsequences n).session = s.session := by
  obtain ⟨ms, i, ov, c, q, e⟩ := epochConsequences_frame s n
  rw [e]

theorem afterEpoch_line (s : State) (n : Nat) (changed : Bool) : (s.afterEpoch n changed).line = s.line := by
  cases changed with
  | false => rfl
  | true => exact (askPeer_line _ n).trans (epochConsequences_line s n)

theorem afterEpoch_rosterOk {s : State} (n : Nat) (changed : Bool) (h : s.rosterOk) :
    (s.afterEpoch n changed).rosterOk := by
  cases changed with
  | false => exact h
  | true => exact ((keeps_epochConsequences s n).trans (keeps_askPeer _ n)).roster h

theorem recompute_rosterOk {s : State} (created : Option Nat) (h : s.rosterOk) : (s.recompute created).rosterOk :=
  ((Keeps.refl s).toKeepsUnrouted.recompute created).roster h

theorem epochConsequences_mark (s : State) (n m : Nat) :
    (s.epochConsequences n).mark m = match s.mark m with
      | .replica r => .replica { r with state := if s.route m = .peer n then .unknown else r.state }
      | e => e := by
  have hmarks : (s.epochConsequences n).marks = mapFrom (epochEntry s.routes n) 0 s.marks := by
    obtain ⟨i, ov, e⟩ := raiseMarks_frame { s with marks := mapFrom (epochEntry s.routes n) 0 s.marks }
      (changedStates s.marks (mapFrom (epochEntry s.routes n) 0 s.marks))
    rw [State.epochConsequences]
    simp only [e]
    obtain ⟨c, i', q, e'⟩ := endEntries_frame
      { s with
        marks := mapFrom (epochEntry s.routes n) 0 s.marks, inbox := i, health := { s.health with overrun := ov } }
      fun e => e.owner == n
    rw [e']
  have hrow := epochEntry_eq s n m
  refine (mark_mapFrom hmarks m ((hrow _).trans ?_)).trans (hrow _)
  simp only [Replica.blank, ite_self]

/-- The claim entries after a new epoch are those of other owners. -/
theorem epochConsequences_claims (s : State) (n : Nat) (c : ClaimEntry) :
    (c ∈ (s.epochConsequences n).claims → c ∈ s.claims ∧ c.owner ≠ n) ∧
    (s.tagsOk → c ∈ s.claims → c.owner ≠ n → c ∈ (s.epochConsequences n).claims) := by
  obtain ⟨i, ov, e⟩ := raiseMarks_frame { s with marks := mapFrom (epochEntry s.routes n) 0 s.marks }
    (changedStates s.marks (mapFrom (epochEntry s.routes n) 0 s.marks))
  rw [State.epochConsequences]
  simp only [e]
  refine ⟨fun hc => ?_, fun htags hc howner => ?_⟩
  · obtain ⟨hmem, howner⟩ := endEntries_claims _ _ c hc
    exact ⟨hmem, by simpa using howner⟩
  · exact endEntries_claims_keep _ _ c (by exact htags) (by exact hc) (by simpa using howner)

/-! ## A HAIL heard (R88) -/

theorem State.getsHail.foreign {s : State} {rx : Reception} {f : GoodFrame} {h : HailContent} (hgets : s.getsHail rx f h) :
    s.foreign f.sender := by
  obtain ⟨-, hgame, -, hgood, hother, -⟩ := hgets
  exact hears_foreign (hears_good (handsOn_of_inGame hgame) (fun _ => hother) hgood) hgame

theorem exec_hail_heard {s : State} {rx : Reception} {f : GoodFrame} {h : HailContent} (dt : Nat)
    (hgets : s.getsHail rx f h) :
    exec (.hail dt rx) s = .next (match s.peer f.sender with
      | some p => (s.hearing dt).knownHail p f.corrected h
      | none => (s.hearing dt).firstHail f.sender f.corrected h).onLine := by
  obtain ⟨hon, hgame, hdriving, hgood, hother, hkind, hfirst, hsize, hpoor, hmem, g, hbody⟩ := hgets
  have htake : (s.hearing dt).takeHailFrame f = match s.peer f.sender with
      | some p => (s.hearing dt).knownHail p f.corrected h
      | none => (s.hearing dt).firstHail f.sender f.corrected h := by
    rw [State.takeHailFrame, if_pos (by exact hgame), hbody, parseHail_hailBody hfirst hsize hpoor hmem]
    rfl
  rw [exec_hail hon, hear_good dt _ (handsOn_of_inGame hgame) hdriving (fun _ => hother) hgood (ofKind_self hkind), htake]

theorem exec_hail_first {s : State} {rx : Reception} {f : GoodFrame} {h : HailContent} (dt : Nat) {gone : Option Nat}
    (hgets : s.getsHail rx f h) (hunknown : s.peer f.sender = none) (hplace : s.givesPlace gone) (hroster : s.rosterOk) :
    exec (.hail dt rx) s = .next ((s.entering dt f h gone).afterContent f.sender h ⟨true, false, true⟩).onLine := by
  rw [exec_hail_heard dt hgets, hunknown]
  simp only
  rw [State.firstHail, hearing_roster, makeRoom_givesPlace hroster hplace]
  simp only
  rw [newPeer_firstEntry]
  rfl

/-- Whether a HAIL of a known peer changes what routing follows from. -/
def HailContent.reroutes (h : HailContent) (p : Peer) : Bool :=
  !p.present || p.first != h.first || p.size != announcedSize h

theorem exec_hail_known {s : State} {rx : Reception} {f : GoodFrame} {h : HailContent} {p : Peer} (dt : Nat)
    (hgets : s.getsHail rx f h) (hp : s.peer f.sender = some p) :
    exec (.hail dt rx) s = .next ((s.storing dt f h).afterContent f.sender h
      ⟨false, p.epoch != h.epoch, h.reroutes p⟩).onLine := by
  rw [exec_hail_heard dt hgets, hp]
  simp only
  rw [State.knownHail, peer_tile hp, hearing_tile, gradeAndRefresh_storing]
  rfl

/-- The line stays as the frame's end left it. -/
theorem withGame_onLine {s : State} (serial : Byte) (hroster : s.rosterOk) (hline : s.line ≠ .idle) :
    (s.withGame serial).onLine = s.withGame serial :=
  onLine_busy (by rw [withGame_line serial hroster]; exact hline)

theorem recompute_session (s : State) (created : Option Nat) : (s.recompute created).session = s.session := by
  obtain ⟨i, ov, c, q, e⟩ := recompute_frame s created
  rw [e]
  rfl

/-- The rest of a HAIL that created its sender's entry: the ASK and the new game. -/
theorem created_rest {u : State} {n : Nat} {h : HailContent} {p : Peer} (hp : u.peer n = some p)
    (hfirst : p.first = h.first) (hsize : p.size = announcedSize h) (hroster : u.rosterOk) (hline : u.line ≠ .idle) :
    ∃ z t, ((u.askPeer n).withGame h.serial).onLine = t ∧ u.asks z n h ∧ z.thenGame t h.serial := by
  have hkept := (keeps_askPeer u n).roster hroster
  refine ⟨u.askPeer n, _, withGame_onLine h.serial hkept ?_, askPeer_asks hp hfirst hsize, withGame_thenGame _ hkept⟩
  rw [askPeer_line]
  exact hline

/-- The rest of a HAIL with its sender's former epoch: the new game. -/
theorem known_rest {u : State} {n : Nat} (serial : Byte) (hroster : u.rosterOk) (hline : u.line ≠ .idle) :
    ∃ t, ((u.afterEpoch n false).withGame serial).onLine = t ∧ u.thenGame t serial :=
  ⟨_, withGame_onLine serial hroster hline, withGame_thenGame _ hroster⟩

/-- The rest of a HAIL with a new epoch: its consequences, the ASK and the new game. -/
theorem epoch_rest {u : State} {n : Nat} {h : HailContent} {p : Peer} (hp : u.peer n = some p)
    (hfirst : p.first = h.first) (hsize : p.size = announcedSize h) (hroster : u.rosterOk) (hline : u.line ≠ .idle)
    (hgame : u.session.inGame = true) :
    ∃ z t, ((u.afterEpoch n true).withGame h.serial).onLine = t ∧ u.reportsEpoch (u.epochConsequences n) n ∧
      (u.epochConsequences n).asks z n h ∧ z.thenGame t h.serial := by
  obtain ⟨z, t, ht, hasks, hthen⟩ := created_rest (u := u.epochConsequences n) ((epochConsequences_peer u n n).trans hp)
    hfirst hsize ((keeps_epochConsequences u n).roster hroster) (by rw [epochConsequences_line]; exact hline)
  exact ⟨z, t, ht, epochConsequences_reports n hgame, hasks, hthen⟩

/-- Settles O16: the entry is made, and the steps of R88 follow. -/
theorem hailCreatesAnEntry : Obligations.HailCreatesAnEntry := by
  intro dt rx s f h hgets hunknown
  obtain ⟨hon, hgame, -⟩ := id hgets
  refine ⟨fun gone hkeeps hplace hroster => ?_, fun hfull hall => ?_⟩
  · have hentered := entering_entered dt h hgets.foreign hgame hunknown hplace hroster
    obtain ⟨-, hkept, hentry, -⟩ := id hentered
    have hstays : (s.entering dt f h gone).mustWithdraw f.sender h = false :=
      Bool.eq_false_iff.mpr (mt (mustWithdraw_iff _ _ _).mp hkeeps)
    have hexec := exec_hail_first dt hgets hunknown hplace hroster
    rw [afterContent_created hstays] at hexec
    obtain ⟨z, t, ht, hasks, hthen⟩ := created_rest (u := (s.entering dt f h gone).recompute (some f.sender))
      ((recompute_peer _ _ _).trans hentry) rfl rfl (recompute_rosterOk _ hkept)
      (by rw [recompute_line]; exact quiet_ne_idle)
    rw [ht] at hexec
    refine ⟨_, _, z, t, hexec, hentered, recompute_routed _ hgame, recompute_routesOk _ _,
      fun hroutes m hm r hroute hmark => ?_, hasks, hthen⟩
    have hmoved : s.route m ≠ .peer f.sender := by
      rw [hroutes m hm]
      exact routeOf_ne_peer m fun p hp htile => absurd (beq_iff_eq.mpr htile) (List.find?_eq_none.mp hunknown p hp)
    rw [recompute_mark, show (s.entering dt f h gone).mark m = .replica r from hmark]
    simp only [hroute, show (s.entering dt f h gone).route m = s.route m from rfl]
    rw [show routedState (s.route m) (.peer f.sender) (some f.sender) r.state = .unknown from
      (if_neg hmoved).trans (if_pos rfl)]
  · rw [exec_hail_heard dt hgets, hunknown]
    simp only
    rw [State.firstHail, hearing_roster, makeRoom_full hfull hall]
    exact congrArg _ (onLine_busy quiet_ne_idle)

/-- Settles O17: the content is stored, and the steps of R88 that it calls for follow. -/
theorem hailOfAKnownPeer : Obligations.HailOfAKnownPeer := by
  intro dt rx s v f h p hgets hp hkeeps hroster hv
  subst hv
  obtain ⟨hon, hgame, -⟩ := id hgets
  have hkept := storing_rosterOk dt f h hroster
  have hentry := peer_storing_same dt h hp
  have hstays : (s.storing dt f h).mustWithdraw f.sender h = false :=
    Bool.eq_false_iff.mpr (mt (mustWithdraw_iff _ _ _).mp hkeeps)
  have hexec := exec_hail_known dt hgets hp
  rw [afterContent_known _ _ hstays] at hexec
  refine ⟨hkept, hentry, fun n hn => peer_storing_other s dt h hn, fun hpresent hepoch hfirst hsize => ?_,
    fun hchanged => ?_⟩
  · have hstill : h.reroutes p = false := by simp [HailContent.reroutes, hpresent, hfirst, hsize]
    obtain ⟨t, ht, hthen⟩ := known_rest (u := s.storing dt f h) (n := f.sender) h.serial hkept quiet_ne_idle
    rw [hstill, hepoch, bne_self_eq_false] at hexec
    exact ⟨t, hexec.trans (congrArg _ ht), hthen⟩
  · have hmoves : h.reroutes p = true := by simpa [HailContent.reroutes, or_assoc] using hchanged
    rw [if_pos hmoves] at hexec
    have hkept' := recompute_rosterOk none hkept
    have hline : ((s.storing dt f h).recompute none).line ≠ .idle := by rw [recompute_line]; exact quiet_ne_idle
    refine ⟨fun hepoch => ?_, fun hepoch => ?_⟩
    · obtain ⟨t, ht, hthen⟩ := known_rest (n := f.sender) h.serial hkept' hline
      rw [hepoch, bne_self_eq_false, ht] at hexec
      exact ⟨_, t, hexec, recompute_routed none hgame, recompute_routesOk _ _, hthen⟩
    · obtain ⟨z, t, ht, hreports, hasks, hthen⟩ := epoch_rest (h := h) ((recompute_peer _ _ _).trans hentry) rfl rfl
        hkept' hline (by rw [recompute_session]; exact hgame)
      rw [bne_iff_ne.mpr hepoch, ht] at hexec
      exact ⟨_, _, z, t, hexec, recompute_routed none hgame, recompute_routesOk _ _, hreports, hasks, hthen⟩

/-- Settles O18: the content is stored, and then the new epoch's consequences follow. -/
theorem newEpochUnsettlesReplicas : Obligations.NewEpochUnsettlesReplicas := by
  intro dt rx s v f h p hgets hp hpresent hepoch hfirst hsize hkeeps hroster hv
  subst hv
  obtain ⟨hon, hgame, -⟩ := id hgets
  have hkept := storing_rosterOk dt f h hroster
  have hentry := peer_storing_same dt h hp
  have hstays : (s.storing dt f h).mustWithdraw f.sender h = false :=
    Bool.eq_false_iff.mpr (mt (mustWithdraw_iff _ _ _).mp hkeeps)
  have hstill : h.reroutes p = false := by simp [HailContent.reroutes, hpresent, hfirst, hsize]
  have hexec := exec_hail_known dt hgets hp
  obtain ⟨z, t, ht, hreports, hasks, hthen⟩ := epoch_rest (h := h) hentry rfl rfl hkept quiet_ne_idle hgame
  rw [afterContent_known _ _ hstays, hstill, bne_iff_ne.mpr hepoch] at hexec
  have hmark := epochConsequences_mark (s.storing dt f h) f.sender
  have hclaims := epochConsequences_claims (s.storing dt f h) f.sender
  refine ⟨_, z, t, hexec.trans (congrArg _ ht), hreports, hasks, hthen, hkept, hentry,
    fun n hn => peer_storing_other s dt h hn, fun m r hroute hreplica => ?_, fun m hroute => ?_,
    fun c hc => (hclaims c).1 hc, fun htags c hc howner => (hclaims c).2 htags hc howner⟩
  · rw [hmark m, show (s.storing dt f h).mark m = .replica r from hreplica]
    simp only
    rw [if_pos (by exact hroute)]
  · rw [hmark m, show (s.storing dt f h).mark m = s.mark m from rfl]
    cases s.mark m with
    | owned o => rfl
    | replica r =>
      simp only
      rw [if_neg (by exact hroute)]

/-- Settles O19: the tile withdraws before routing is computed, and the steps of R88 follow. -/
theorem overlapWithdraws : Obligations.OverlapWithdraws := by
  intro dt rx s f h hgets hyields hroster
  obtain ⟨hon, hgame, -⟩ := id hgets
  refine ⟨fun gone hunknown hplace => ?_, fun p hp => ?_⟩
  · have hentered := entering_entered dt h hgets.foreign hgame hunknown hplace hroster
    obtain ⟨-, hkept, hentry, -⟩ := id hentered
    have hgame' : (s.entering dt f h gone).session.inGame = true := hgame
    have hleaves : (s.entering dt f h gone).mustWithdraw f.sender h = true := (mustWithdraw_iff _ _ _).mpr hyields
    have hexec := exec_hail_first dt hgets hunknown hplace hroster
    rw [afterContent_created_withdraws hleaves] at hexec
    obtain ⟨z, t, ht, hasks, hthen⟩ := created_rest (h := h)
      (u := (s.entering dt f h gone).withdraw.recompute (some f.sender))
      ((recompute_peer _ _ _).trans ((withdraw_peer hgame' _).trans hentry)) rfl rfl
      (recompute_rosterOk _ ((unrouted_withdraw _).roster hkept))
      (by rw [recompute_line]; exact withdraw_line hgame' quiet_ne_idle)
    rw [ht] at hexec
    exact ⟨_, _, _, z, t, hexec, hentered, withdraw_withdraws hgame',
      recompute_routed _ (by rw [withdraw_session hgame']; exact hgame), recompute_routesOk _ _, hasks, hthen⟩
  · have hkept := storing_rosterOk dt f h hroster
    have hentry := peer_storing_same dt h hp
    have hgame' : (s.storing dt f h).session.inGame = true := hgame
    have hleaves : (s.storing dt f h).mustWithdraw f.sender h = true := (mustWithdraw_iff _ _ _).mpr hyields
    have hgame'' : (s.storing dt f h).withdraw.session.inGame = true := by rw [withdraw_session hgame']; exact hgame
    have hkept' := recompute_rosterOk none ((unrouted_withdraw _).roster hkept)
    have hline : ((s.storing dt f h).withdraw.recompute none).line ≠ .idle := by
      rw [recompute_line]
      exact withdraw_line hgame' quiet_ne_idle
    have hexec := exec_hail_known dt hgets hp
    rw [afterContent_known_withdraws _ _ hleaves] at hexec
    refine ⟨_, _, _, rfl, hkept, hentry, fun n hn => peer_storing_other s dt h hn, withdraw_withdraws hgame',
      recompute_routed none hgame'', recompute_routesOk _ _, fun hepoch => ?_, fun hepoch => ?_⟩
    · obtain ⟨t, ht, hthen⟩ := known_rest (n := f.sender) h.serial hkept' hline
      rw [hepoch, bne_self_eq_false, ht] at hexec
      exact ⟨t, hexec, hthen⟩
    · obtain ⟨z, t, ht, hreports, hasks, hthen⟩ := epoch_rest (h := h)
        ((recompute_peer _ _ _).trans ((withdraw_peer hgame' _).trans hentry)) rfl rfl hkept' hline
        (by rw [recompute_session]; exact hgame'')
      rw [bne_iff_ne.mpr hepoch, ht] at hexec
      exact ⟨_, z, t, hexec, hreports, hasks, hthen⟩

end Sys2Proof.Machine

namespace Sys2Proof.Machine

/-! ## The send selector (R99, R117) -/

/-- What a command makes of the line at which it becomes, or is, idle. -/
theorem exec_idleAt {s : State} {dt : Nat} {i : Instr} (h : s.idleAt dt i) (hon : s.powered = true) :
    exec i s = .next (State.onLine { s.advance dt with line := .idle }) := by
  rcases h with ⟨rfl, hstarting, q, hline, hquiet⟩ | ⟨rfl, hline⟩
  · have hgap : (s.advance dt).takeGap = { s.advance dt with line := .idle } := by
      rw [State.takeGap, show (s.advance dt).line = .quiet q from hline]
      exact if_pos ⟨hstarting, hquiet⟩
    rw [exec_gap hon, hgap]
  · have hidle : s.advance dt = { s.advance dt with line := .idle } := by
      rw [← hline]
      rfl
    rw [exec_hailDue hon, ← hidle]

theorem takeGap_early {s : State} (h : s.session = .starting ∨ s.line = .busy ∨ ∃ q, s.line = .quiet q ∧ s.now < q + 320) :
    s.takeGap.onLine = s := by
  have hsame : s.takeGap = s := by
    unfold State.takeGap
    split
    · next since hline =>
      refine if_neg fun ⟨hstarting, hquiet⟩ => ?_
      rcases h with h | h | ⟨q, hq, hnow⟩
      · exact hstarting h
      · rw [h] at hline
        exact LineState.noConfusion hline
      · rw [hq] at hline
        cases hline
        exact absurd hquiet (Nat.not_le.mpr hnow)
    · rfl
  rw [hsame]
  rcases h with h | h | ⟨q, hq, -⟩
  · exact onLine_deaf (.inl h)
  · exact onLine_busy (by rw [h]; exact LineState.noConfusion)
  · exact onLine_busy (by rw [hq]; exact LineState.noConfusion)

theorem select_none {s : State} (h : s.session = .starting ∨ s.session = .listening ∨ s.session = .silent) :
    s.select = none := by
  unfold State.select
  rcases h with h | h | h <;> rw [h] <;> rfl

/-- The sessions in which the selector has sources. -/
theorem select_table {s : State} (h : s.session.onBoard = true ∨ s.session.blankTile = true) :
    s.select = if s.hailIsOverdue = true then some s.chooseHail
      else match s.answers with
        | a :: _ => some ⟨.answer a, s.answerFrame a⟩
        | [] =>
          match (if s.session.onBoard = true then s.chooseGame else none) with
          | some c => some c
          | none => if s.hailIsDue = true then some s.chooseHail else none :=
  if_pos (by rw [Bool.or_eq_true]; exact h)

theorem select_overdue {s : State} (h : s.session.onBoard = true ∨ s.session.blankTile = true)
    (hover : s.hailIsOverdue = true) : s.select = some s.chooseHail := by
  rw [select_table h, if_pos hover]

theorem select_answer {s : State} {a : Answer} {rest : List Answer}
    (h : s.session.onBoard = true ∨ s.session.blankTile = true) (hover : s.hailIsOverdue = false)
    (hanswers : s.answers = a :: rest) : s.select = some ⟨.answer a, s.answerFrame a⟩ := by
  rw [select_table h, if_neg (by simp [hover]), hanswers]

theorem onBoard_notBlank {x : Session} (h : x.blankTile = true) : x.onBoard = false := by
  cases x <;> simp_all [Session.onBoard, Session.blankTile]

/-- With nothing of the game's to send the HAIL is sent when it is due. -/
theorem select_last {s : State} (h : s.session.onBoard = true ∨ s.session.blankTile = true)
    (hover : s.hailIsOverdue = false) (hanswers : s.answers = [])
    (hgame : s.session.onBoard = true → s.chooseGame = none) :
    s.select = if s.hailIsDue = true then some s.chooseHail else none := by
  have hnone : (if s.session.onBoard = true then s.chooseGame else none) = none := by
    split
    · next hboard => exact hgame hboard
    · rfl
  rw [select_table h, if_neg (by simp [hover]), hanswers]
  simp only [hnone]

theorem select_game {s : State} {c : Choice} (h : s.session.onBoard = true) (hover : s.hailIsOverdue = false)
    (hanswers : s.answers = []) (hgame : s.chooseGame = some c) : s.select = some c := by
  rw [select_table (.inl h), if_neg (by simp [hover]), hanswers, if_pos h, hgame]

theorem chooseGame_slate {s : State} {m : Nat} {o : Owned} (hslate : s.slateMark = some m) (hmark : s.mark m = .owned o) :
    s.chooseGame = some ⟨.slate m, s.updateFrame m o⟩ := by
  rw [State.chooseGame, hslate]
  simp only [owned_of_mark hmark, Option.map_some]

theorem chooseGame_run {s : State} (hslate : s.slateMark = none) (hrun : s.run.running = true) :
    s.chooseGame = some ⟨.snapshot s.runCount, s.snapshotFrame⟩ := by
  rw [State.chooseGame, hslate]
  exact if_pos hrun

theorem chooseGame_queue {s : State} (hslate : s.slateMark = none) (hrun : s.run.running = false) :
    s.chooseGame = match s.transmit with
      | q :: _ => some ⟨.queue q, s.queuedFrame q⟩
      | [] => none := by
  rw [State.chooseGame, hslate]
  exact if_neg (by simp [hrun])

/-! ## The frames built -/

theorem healthByte_bits (h : Health) :
    (List.range 8).map h.byte.getLsbD = [h.rosterFull, h.loop, h.overrun, h.quarantine, h.storeWorn, h.withdrawn,
      h.loading, h.unwritten] := by
  have hall : ∀ a b c d e f g i : Bool,
      (List.range 8).map (BitVec.ofNat 8 (ofBits [a, b, c, d, e, f, g, i])).getLsbD = [i, g, f, e, d, c, b, a] := by
    decide
  exact hall ..

/-- A list of pairs, item by item. -/
theorem getElem?_flatMap_pair {α β : Type} (f g : α → β) (l : List α) (i : Nat) :
    (l.flatMap fun a => [f a, g a])[2 * i]? = l[i]?.map f ∧
    (l.flatMap fun a => [f a, g a])[2 * i + 1]? = l[i]?.map g := by
  induction l generalizing i with
  | nil => simp
  | cons a l ih =>
    cases i with
    | zero => simp
    | succ i =>
      have h := ih i
      simpa [List.flatMap_cons, Nat.mul_succ] using h

theorem runItem_eq (s : State) (m : Nat) :
    s.runItem m = [((s.owned m).map fun o => BitVec.ofNat 8 o.value).getD 0, ((s.owned m).map Owned.version).getD 0] := by
  unfold State.runItem
  cases s.owned m <;> rfl

theorem snapshotBody_eq (s : State) :
    s.snapshotFrame.body = [s.epoch, BitVec.ofNat 8 s.run.next, BitVec.ofNat 8 s.runCount] ++
      (List.range' s.run.next s.runCount).flatMap fun m =>
        [((s.owned m).map fun o => BitVec.ofNat 8 o.value).getD 0, ((s.owned m).map Owned.version).getD 0] := by
  rw [State.snapshotFrame]
  simp only [State.frame, ← runItem_eq]

/-- A mark whose announce flag is set. -/
def MarkEntry.announced : MarkEntry → Bool
  | .owned o => o.announce
  | .replica _ => false

theorem slateMark_eq (s : State) : s.slateMark = (List.range 256).find? fun m => (s.mark m).announced := by
  unfold State.slateMark
  congr 1

theorem announced_true (e : MarkEntry) : e.announced = true ↔ ∃ o, e = .owned o ∧ o.announce = true := by
  cases e <;> simp [MarkEntry.announced]

theorem announced_false (e : MarkEntry) : e.announced = false ↔ ∀ o, e = .owned o → o.announce = false := by
  cases e <;> simp [MarkEntry.announced]

theorem slateMark_some (s : State) (m : Nat) :
    s.slateMark = some m ↔ m < 256 ∧ (∃ o, s.mark m = .owned o ∧ o.announce = true) ∧
      ∀ n < m, ∀ o, s.mark n = .owned o → o.announce = false := by
  rw [slateMark_eq, List.find?_range_eq_some, announced_true]
  simp only [Bool.not_eq_true', announced_false, List.mem_range]
  exact and_left_comm

theorem slateMark_none (s : State) :
    s.slateMark = none ↔ ∀ n < 256, ∀ o, s.mark n = .owned o → o.announce = false := by
  rw [slateMark_eq, List.find?_range_eq_none]
  simp only [Bool.not_eq_true', announced_false]

theorem shownReason_eq (s : State) (a : Answer) (r : Reason) : s.sentReason a r = s.shownReason a r := by
  unfold State.sentReason State.shownReason
  cases a.answers <;> cases s.inWindow a.mark <;> rfl

theorem framesCarryTheirContent : FramesCarryTheirContent := by
  intro u
  refine ⟨⟨u.health.byte, u.poorList, rfl, rfl, rfl, rfl, healthByte_bits u.health⟩, fun a v ver hword => ?_,
    fun a r hword => ?_, rfl, fun m o => ⟨rfl, rfl, fun hcause => ?_, fun n tag hcause => ?_⟩,
    ⟨rfl, rfl, rfl, ?_, rfl, fun i o hi hmark => ?_⟩, fun _ _ _ _ _ _ => rfl, rfl, fun _ => rfl, fun _ => rfl, rfl,
    slateMark_some u, slateMark_none u⟩
  · rw [State.answerFrame, hword]
    exact ⟨rfl, rfl, rfl⟩
  · rw [State.answerFrame, hword]
    exact ⟨rfl, rfl, by rw [← shownReason_eq]; rfl⟩
  · rw [State.updateFrame, hcause]
    rfl
  · rw [State.updateFrame, hcause]
    rfl
  · rw [snapshotBody_eq]
    simp [List.length_flatMap]
    omega
  · have hitem := getElem?_flatMap_pair (fun m => ((u.owned m).map fun o => BitVec.ofNat 8 o.value).getD 0)
      (fun m => ((u.owned m).map Owned.version).getD 0) (List.range' u.run.next u.runCount) i
    rw [List.getElem?_range' hi, Option.map_some, Option.map_some, Nat.one_mul, owned_of_mark hmark] at hitem
    obtain ⟨hvalue, hversion⟩ := hitem
    rw [snapshotBody_eq, Nat.add_comm 3, show 4 + 2 * i = 2 * i + 1 + 3 by omega]
    exact ⟨hvalue, hversion⟩

/-- The frame that the selector chooses is outstanding. -/
theorem onLine_chosen {s : State} {c : Choice} (hidle : s.line = .idle) (hout : s.outstanding = none)
    (hdroop : s.droop = false) (h : s.select = some c) :
    s.onLine.outstanding = some ⟨c.frame, s.keyFor c.frame, c.source, false, true⟩ := by
  rw [onLine_some hidle hout hdroop h]
  rfl

/-- Settles O35: the sources in their order, and what each gives. -/
theorem gapServesSourcesInOrder : Obligations.GapServesSourcesInOrder := by
  refine ⟨fun dt s hon h => ?_, fun i dt s u hidle hu hon => ?_, framesCarryTheirContent⟩
  · rw [exec_gap hon, takeGap_early (s := s.advance dt) h]
  · have hline : u.line = .idle := by rw [hu]
    have hsession : u.session = s.session := by rw [hu]; rfl
    have hanswers' : u.answers = s.answers := by rw [hu]; rfl
    have hslate' : u.slateMark = s.slateMark := by rw [hu]; rfl
    have hrun' : u.run = s.run := by rw [hu]; rfl
    have hcount : u.runCount = s.runCount := by rw [hu]; rfl
    have hhealth : u.health = s.health := by rw [hu]; rfl
    have hmark' : u.mark = s.mark := by rw [hu]; rfl
    have hqueue' : u.transmit = s.transmit := by rw [hu]; rfl
    have hout' : u.outstanding = s.outstanding := by rw [hu]; rfl
    have hdroop' : u.droop = s.droop := by rw [hu]; rfl
    rw [exec_idleAt hidle hon, ← hu, ← hout', ← hdroop', ← hsession, ← hanswers', ← hslate', ← hrun', ← hcount,
      ← hhealth, ← hmark', ← hqueue']
    refine ⟨fun h => ?_, fun hout hdroop htable => ⟨fun hover => ?_, fun hover a rest hanswers => ?_⟩,
      fun hout hdroop hblank hover hanswers => ?_, fun hout hdroop hboard hover hanswers => ?_⟩
    · rcases h with h | h | h
      · rw [onLine_outstanding h]
      · rw [onLine_droop h]
      · rw [onLine_none (select_none h)]
    · exact ⟨_, _, rfl, onLine_chosen hline hout hdroop (select_overdue htable hover), rfl, rfl⟩
    · exact ⟨_, _, rfl, onLine_chosen hline hout hdroop (select_answer htable hover hanswers), rfl, rfl⟩
    · have hlast := select_last (.inr hblank) hover hanswers fun h => absurd h (by simp [onBoard_notBlank hblank])
      refine ⟨fun hdue => ?_, fun hdue => ?_⟩
      · rw [if_pos hdue] at hlast
        exact ⟨_, _, rfl, onLine_chosen hline hout hdroop hlast, rfl⟩
      · rw [if_neg (by simp [hdue])] at hlast
        rw [onLine_none hlast]
    · refine ⟨fun m o hslate hmark => ?_, fun hslate => ⟨fun hrun => ?_, fun hrun =>
        ⟨fun q rest hqueue => ?_, fun hqueue => ?_⟩⟩⟩
      · have hgame := chooseGame_slate hslate hmark
        exact ⟨_, _, rfl, onLine_chosen hline hout hdroop (select_game hboard hover hanswers hgame), rfl, rfl⟩
      · have hgame := chooseGame_run hslate hrun
        exact ⟨_, _, rfl, onLine_chosen hline hout hdroop (select_game hboard hover hanswers hgame), rfl, rfl⟩
      · have hgame := chooseGame_queue hslate hrun
        rw [hqueue] at hgame
        exact ⟨_, _, rfl, onLine_chosen hline hout hdroop (select_game hboard hover hanswers hgame), rfl, rfl⟩
      · have hgame := chooseGame_queue hslate hrun
        rw [hqueue] at hgame
        have hlast := select_last (.inl hboard) hover hanswers fun _ => hgame
        refine ⟨fun hdue => ?_, fun hdue => ?_⟩
        · rw [if_pos hdue] at hlast
          exact ⟨_, _, rfl, onLine_chosen hline hout hdroop hlast, rfl⟩
        · rw [if_neg (by simp [hdue])] at hlast
          rw [onLine_none hlast]

/-! ## The frame chosen (R101, R102, R114) -/

theorem chooseGame_strong {s : State} {c : Choice} (h : s.chooseGame = some c) : c.frame.strong = s.strongRate := by
  unfold State.chooseGame at h
  split at h
  · obtain ⟨o, -, rfl⟩ := Option.map_eq_some_iff.mp h
    rfl
  · split at h
    · cases h
      rfl
    · split at h
      · next q _ _ =>
        cases h
        cases q <;> rfl
      · exact absurd h (Option.some_ne_none _).symm

/-- Every frame chosen has the rate of the moment. -/
theorem select_strong {s : State} {c : Choice} (h : s.select = some c) : c.frame.strong = s.strongRate := by
  by_cases htable : s.session.onBoard = true ∨ s.session.blankTile = true
  · rw [select_table htable] at h
    split at h
    · cases h
      rfl
    · split at h
      · next a _ _ =>
        cases h
        simp only [State.answerFrame]
        split <;> rfl
      · split at h
        · next c' hc =>
          cases h
          split at hc
          · exact chooseGame_strong hc
          · exact absurd hc (Option.some_ne_none _).symm
        · split at h
          · cases h
            rfl
          · exact absurd h (Option.some_ne_none _).symm
  · have hnone : s.select = none := if_neg (by rw [Bool.or_eq_true]; exact htable)
    exact absurd (hnone.symm.trans h) (Option.some_ne_none _).symm

theorem strongRate_iff (s : State) :
    s.strongRate = true ↔ ∃ p ∈ s.roster, p.present = true ∧ p.listsMePoor = true := by
  simp [State.strongRate]

theorem contend_slate {s : State} {c : Choice} {m : Nat} (h : c.source = .slate m) :
    (s.contend c).marks = modifyAt (MarkEntry.onOwned fun x =>
      if x.sealed = true then x else { x with announce := false }) m s.marks := by
  simp only [State.contend, h]
  rfl

theorem contend_marks {s : State} {c : Choice} (h : ∀ m, c.source ≠ .slate m) : (s.contend c).marks = s.marks := by
  unfold State.contend
  cases hsource : c.source with
  | slate m => exact absurd hsource (h m)
  | _ => rfl

/-- Settles O36: what the selector chose contends with its key, at the rate of the moment. -/
theorem contendingFrameHasItsKeyAndRate : Obligations.ContendingFrameHasItsKeyAndRate := by
  intro i dt s t o hidle hon hout hexec ho
  obtain ⟨u, hu⟩ : ∃ u, u = { s.advance dt with line := .idle } := ⟨_, rfl⟩
  have hout' : u.outstanding = none := by rw [hu]; exact hout
  rw [exec_idleAt hidle hon, ← hu] at hexec
  cases hexec
  cases hdroop : u.droop with
  | true =>
    rw [onLine_droop hdroop, hout'] at ho
    exact absurd ho (Option.some_ne_none _).symm
  | false =>
    cases hselect : u.select with
    | none =>
      rw [onLine_none hselect, hout'] at ho
      exact absurd ho (Option.some_ne_none _).symm
    | some c =>
      have hline : u.line = .idle := by rw [hu]
      have hstrong : c.frame.strong = u.strongRate := select_strong hselect
      rw [onLine_chosen hline hout' hdroop hselect] at ho
      cases ho
      rw [onLine_some hline hout' hdroop hselect]
      subst hu
      refine ⟨rfl, ?_, rfl, rfl, fun hsource => contend_marks hsource, fun m hsource => contend_slate hsource, ?_⟩
      · rw [hstrong]
        exact strongRate_iff s
      · obtain ⟨ms, e⟩ := contend_frame { s.advance dt with line := .idle } c
        rw [e]

/-! ## Contention (R99, R101, R102, R118) -/

/-- What comes of a frame given back as a loss: the loss is counted, and the line is the other station's. -/
theorem gaveBack_lost {s u t : State} {o : Outstanding} (h : s.gaveBack u t o) :
    s.gaveBack u.countLoss.lineTaken t.countLoss.lineTaken o := by
  obtain ⟨hkept, hslate, hsnap, hqueue⟩ := h
  refine ⟨fun h => ?_, fun m hsource hlive => ?_, fun n hsource hlive => ?_, fun q hsource hlive => ?_⟩
  · rw [hkept h]
  · rw [hslate m hsource hlive]
    rfl
  · rw [hsnap n hsource hlive]
    rfl
  · rw [hqueue q hsource hlive]
    rfl

theorem loseContention_begun {s : State} {o : Outstanding} {seen : Option (List Symbol)} (ho : s.outstanding = some o)
    (hwon : o.won = false) (hseen : ∀ line, seen = some line → losesKey o.key line = true) :
    s.loseContention seen = s.giveBack.countLoss.lineTaken := by
  cases seen with
  | some line => exact loseContention_lost ho hwon (hseen line rfl)
  | none => simp only [State.loseContention, ho, hwon, and_self, if_true]

/-- Settles O37: a frame lost goes back to its source; one that won is driven whole. -/
theorem contentionIsDecidedByTheKey : Obligations.ContentionIsDecidedByTheKey := by
  refine ⟨fun dt s u o seen hon ho hwon hu hseen => ?_, fun dt s o line hon ho => ⟨fun h => ?_, fun hwon hkey => ?_⟩,
    fun dt s hon ho => ?_⟩
  · subst hu
    have hback : (s.advance dt).gaveBack (s.advance dt).stopDriving (s.advance dt).giveBack o := giveBack_gaveBack ho
    refine ⟨_, gaveBack_lost hback, ?_⟩
    rw [exec_contentionLost hon, loseContention_begun (s := s.advance dt) ho hwon hseen,
      onLine_busy LineState.noConfusion]
  · rw [exec_contentionLost hon, loseContention_kept (s := s.advance dt) ho h,
      onLine_outstanding (by rw [show (s.advance dt).outstanding = some o from ho]; exact Option.some_ne_none o)]
  · have hwins : (s.advance dt).winContention line = { s.advance dt with
        losses := 0
        outstanding := some { o with won := true }
        lineOut := frameSymbols s.tile o.key o.frame } := by
      rw [State.winContention, show (s.advance dt).outstanding = some o from ho]
      exact if_pos ⟨hwon, hkey⟩
    rw [exec_contentionWon hon, hwins, onLine_outstanding (Option.some_ne_none _)]
  · have htaken : (s.advance dt).loseContention none = (s.advance dt).lineTaken := by
      rw [State.loseContention, show (s.advance dt).outstanding = none from ho]
    rw [exec_contentionLost hon, htaken, onLine_busy LineState.noConfusion]
    rfl

/-! ## The last beat of a frame (R118) -/

/-- The end of a frame that the tile drove whole, the GRANT of a seal apart. -/
theorem exec_frameSent_ended {s t : State} {o : Outstanding} (dt : Nat) (run : StartRun) (hon : s.powered = true)
    (ho : s.outstanding = some o) (hwon : o.won = true) (hseal : o.source.isSealGrant = false)
    (ht : ((s.advance dt).sourceSent o).stopDriving = t) : exec (.frameSent dt run) s = .next t := by
  have hends : (s.advance dt).frameEnds run = ((s.advance dt).sourceSent o).stopDriving := by
    rw [State.frameEnds, show (s.advance dt).outstanding = some o from ho]
    simp only
    rw [if_pos hwon, if_neg (by simp [hseal])]
    rfl
  rw [exec_frameSent hon, hends, onLine_busy LineState.noConfusion, ht]

theorem isSealGrant_answer {a : Answer} (h : a.answers ≠ .seal ∨ ∃ r, a.word = .refuse r) :
    (Source.answer a).isSealGrant = false := by
  cases a with | mk word answers addressee tag mark =>
  rcases h with h | ⟨r, rfl⟩
  · cases answers with
    | claim => cases word <;> rfl
    | load => cases word <;> rfl
    | _ => exact absurd rfl h
  · cases answers <;> rfl

/-- A SNAPSHOT advances its run, ends it at the window's last mark, or restarts it (R23). -/
theorem runSent_eq (s : State) (n : Nat) :
    s.runSent n = { s with run :=
      if s.run.restart = true then { s.run with next := s.winFirst, restart := false }
      else { s.run with
        running := s.run.running && decide (s.run.next + n < s.winFirst + s.winSize)
        next := s.run.next + n } } := by
  unfold State.runSent
  split
  · rfl
  · split
    · next hend =>
      rw [decide_eq_false (Nat.not_lt.mpr hend), Bool.and_false]
    · next hend =>
      rw [decide_eq_true (Nat.lt_of_not_le hend), Bool.and_true]

theorem hailInterval_eq (s : State) :
    s.hailInterval = (if s.session = .rest then 8 else 1) * (2000000 + 8000 * s.tile) := by
  unfold State.hailInterval
  cases s.session <;> simp [Config.hailInterval, Config.restFactor]

/-- Settles O38: the source takes the completion of its frame, if it still holds it. -/
theorem sentFrameLeavesItsSource : Obligations.SentFrameLeavesItsSource := by
  intro dt run s u o hon ho hwon hu
  subst hu
  refine ⟨fun a b c d hsource => ?_, fun hlive => ⟨fun tag m op x y owner hsource => ?_, fun q hsource hother => ?_,
    fun a hsource hseal => ?_, fun m hsource => ?_, fun n hsource => ?_⟩, fun hdead hhail hseal => ?_⟩
  · refine exec_frameSent_ended dt run hon ho hwon (by rw [hsource]; rfl) ?_
    rw [State.sourceSent, hsource]
    simp only
    rw [State.hailSent, hailInterval_eq]
    rfl
  · refine exec_frameSent_ended dt run hon ho hwon (by rw [hsource]; rfl) ?_
    rw [State.sourceSent, hsource]
    simp only
    rw [if_pos hlive]
    rfl
  · refine exec_frameSent_ended dt run hon ho hwon (by rw [hsource]; rfl) ?_
    rw [State.sourceSent, hsource]
    simp only
    rw [if_pos hlive]
    cases q with
    | claim tag m op x y owner => exact absurd rfl (hother tag m op x y owner)
    | _ => rfl
  · refine exec_frameSent_ended dt run hon ho hwon (by rw [hsource]; exact isSealGrant_answer hseal) ?_
    rw [State.sourceSent, hsource]
    simp only
    rw [if_pos hlive]
    rfl
  · refine exec_frameSent_ended dt run hon ho hwon (by rw [hsource]; rfl) ?_
    rw [State.sourceSent, hsource]
    rfl
  · refine exec_frameSent_ended dt run hon ho hwon (by rw [hsource]; rfl) ?_
    rw [State.sourceSent, hsource]
    simp only
    rw [if_pos hlive, runSent_eq]
    rfl
  · have hkept : (s.advance dt).sourceSent o = s.advance dt := by
      unfold State.sourceSent
      cases hsource : o.source with
      | hail a b c d => exact absurd hsource (hhail a b c d)
      | _ => simp only [hdead, Bool.false_eq_true, if_false]
    refine exec_frameSent_ended dt run hon ho hwon ?_ (by rw [hkept]; rfl)
    cases hsource : o.source with
    | answer a => exact isSealGrant_answer (.inl (hseal a hsource))
    | _ => rfl

end Sys2Proof.Machine

namespace Sys2Proof.Machine

/-! ## Counts and readings (R122, R124) -/

theorem band_excludes (count : Nat) (b : Nat × Nat) :
    decide (b.1 ≤ count ∧ count ≤ b.2) = false ↔ count < b.1 ∨ b.2 < count := by
  rw [decide_eq_false_iff_not]
  omega

/-- The lowest-numbered of bands 0 to 14 that contains a count. -/
theorem classInBands_some {bands : List (Nat × Nat)} {count c lo hi : Nat} (hc : c < 15) (hband : bands[c]? = some (lo, hi))
    (hlo : lo ≤ count) (hhi : count ≤ hi)
    (hlower : ∀ d < c, ∀ lo' hi', bands[d]? = some (lo', hi') → count < lo' ∨ hi' < count) :
    classInBands bands count = some c := by
  obtain ⟨hlen, hget⟩ := List.getElem?_eq_some_iff.mp hband
  have hlen' : c < (bands.take 15).length := by rw [List.length_take]; omega
  rw [classInBands, List.findIdx?_eq_some_iff_getElem]
  refine ⟨hlen', ?_, fun d hd => ?_⟩
  · rw [List.getElem_take, hget]
    exact decide_eq_true ⟨hlo, hhi⟩
  · have hd' : d < bands.length := by omega
    rw [List.getElem_take, Bool.not_eq_true, band_excludes]
    exact hlower d hd _ _ (List.getElem?_eq_getElem hd')

theorem classInBands_none {bands : List (Nat × Nat)} {count : Nat}
    (h : ∀ d < 15, ∀ lo' hi', bands[d]? = some (lo', hi') → count < lo' ∨ hi' < count) :
    classInBands bands count = none := by
  rw [classInBands, List.findIdx?_eq_none_iff]
  intro b hb
  obtain ⟨d, hd, hget⟩ := List.getElem_of_mem hb
  rw [List.length_take] at hd
  rw [List.getElem_take] at hget
  rw [band_excludes]
  exact h d (by omega) _ _ (by rw [List.getElem?_eq_getElem (by omega), hget])

theorem countsAreRead : CountsAreRead := by
  intro h count
  have hclip : ∀ {c}, c ≤ 4095 → readingOf h c =
      if h.emptyLimit ≤ c then .absent else .present (classInBands h.bands c) := by
    intro c hc
    rw [readingOf]
    simp only [Config.countLimit, Nat.min_eq_left hc]
  refine ⟨fun hlarge => ?_, fun hcount => ⟨fun hempty => ?_, fun hpresent =>
    ⟨fun c lo hi hc hband hlo hhi hlower => ?_, fun hnone => ?_⟩⟩⟩
  · simp only [readingOf, Config.countLimit, Nat.min_eq_right hlarge, Nat.min_self]
  · rw [hclip hcount, if_pos hempty]
  · rw [hclip hcount, if_neg (Nat.not_le.mpr hpresent), classInBands_some hc hband hlo hhi hlower]
  · rw [hclip hcount, if_neg (Nat.not_le.mpr hpresent), classInBands_none hnone]

/-! ## A gate's events (R130 to R134) -/

/-- The events that a pad's state machine raises at a gate. -/
def State.gateKinds (s : State) (counts : List Nat) (i : Nat) : List PadEventKind :=
  (padStep s.header.debounce (s.pad i).state (readingOf s.header (counts.getD i 0))).2

/-- The state that a gate leads a pad to. -/
def State.gateState (s : State) (counts : List Nat) (i : Nat) : PadState :=
  (padStep s.header.debounce (s.pad i).state (readingOf s.header (counts.getD i 0))).1

theorem padEvent_disabled {s : State} {i : Nat} {k : PadEventKind} (h : (s.padSetting i).enables k = false) :
    s.padEvent i k = s := by
  rw [State.padEvent, if_neg (by simp [h])]

theorem padEvent_playing {s : State} {i : Nat} {k : PadEventKind} (hs : s.session = .listening ∨ s.session = .play)
    (h : (s.padSetting i).enables k = true) : s.padEvent i k = s.raise (.pad i k) 0 := by
  rw [State.padEvent, if_pos h]
  rcases hs with hs | hs <;> rw [hs]

theorem padEvent_resting {s : State} {i : Nat} {k : PadEventKind} (hs : s.session = .rest)
    (h : (s.padSetting i).enables k = true) :
    s.padEvent i k = if (s.padSetting i).wake = true then s.modifyPad i fun p => { p with held := some k } else s := by
  rw [State.padEvent, if_pos h, hs]

theorem padEvent_silent {s : State} {i : Nat} (k : PadEventKind) (hs : s.session = .silent) : s.padEvent i k = s := by
  rw [State.padEvent, hs]
  exact ite_self s

theorem inGame_playing {x : Session} (h : x = .listening ∨ x = .play) : x.inGame = true := by
  rcases h with rfl | rfl <;> rfl

theorem engineQueue_event (s : State) (w : Happening) (d : Nat) (as : List Arrival) :
    State.engineQueue { s with inbox := as ++ [.event w d] } =
      State.engineQueue { s with inbox := as } ++ [.event w d] := List.filter_append ..

/-- In LISTENING and PLAY the enabled events join the engine queue. -/
theorem foldEvents_playing (i : Nat) (ks : List PadEventKind) (s : State)
    (hs : s.session = .listening ∨ s.session = .play)
    (hroom : s.engineQueue.length + (ks.filter (s.padSetting i).enables).length ≤ 32) :
    ks.foldl (fun s k => s.padEvent i k) s =
      { s with inbox := s.inbox ++ (ks.filter (s.padSetting i).enables).map fun k => .event (.pad i k) 0 } := by
  induction ks generalizing s with
  | nil => simp
  | cons k ks ih =>
    rw [List.foldl_cons]
    cases hk : (s.padSetting i).enables k with
    | false =>
      rw [List.filter_cons_of_neg (by simp [hk])] at hroom ⊢
      rw [padEvent_disabled hk]
      exact ih s hs hroom
    | true =>
      rw [List.filter_cons_of_pos hk, List.length_cons] at hroom
      rw [List.filter_cons_of_pos hk, padEvent_playing hs hk,
        raise_room s _ 0 (inGame_playing hs) (by decide) (by omega)]
      rw [ih { s with inbox := s.inbox ++ [.event (.pad i k) 0] } hs ?_]
      · rw [List.map_cons, List.append_assoc]
        rfl
      · rw [engineQueue_event, List.length_append, List.length_singleton]
        show s.engineQueue.length + 1 + (ks.filter (s.padSetting i).enables).length ≤ 32
        omega

theorem foldEvents_silent (i : Nat) (ks : List PadEventKind) {s : State} (hs : s.session = .silent) :
    ks.foldl (fun s k => s.padEvent i k) s = s := by
  induction ks with
  | nil => rfl
  | cons k ks ih => rw [List.foldl_cons, padEvent_silent k hs, ih]

theorem modifyAt_id {α : Type} (i : Nat) (l : List α) : modifyAt (fun x => x) i l = l := by
  apply List.ext_getElem?
  intro j
  rw [getElem?_modifyAt]
  split
  · exact Option.map_id'
  · rfl

theorem modifyAt_modifyAt {α : Type} (f g : α → α) (i : Nat) (l : List α) :
    modifyAt f i (modifyAt g i l) = modifyAt (fun x => f (g x)) i l := by
  apply List.ext_getElem?
  intro j
  simp only [getElem?_modifyAt]
  split
  · exact Option.map_map ..
  · rfl

/-- The event that a pad holds after some events in REST: the last enabled one where its wake is enabled, or else the
one it held (R134). -/
def State.heldAfter (s : State) (i : Nat) (ks : List PadEventKind) (held : Option PadEventKind) : Option PadEventKind :=
  if (s.padSetting i).wake = true then (ks.filter (s.padSetting i).enables).getLast?.or held else held

theorem heldAfter_cons (s : State) (i : Nat) (k : PadEventKind) (ks : List PadEventKind) (held : Option PadEventKind) :
    s.heldAfter i (k :: ks) held = s.heldAfter i ks (s.heldAfter i [k] held) := by
  unfold State.heldAfter
  cases hw : (s.padSetting i).wake with
  | false => simp
  | true =>
    cases hk : (s.padSetting i).enables k with
    | false => simp [hk]
    | true =>
      rw [List.filter_cons_of_pos hk, List.getLast?_cons]
      cases (ks.filter (s.padSetting i).enables).getLast? <;> simp [hk]

theorem padEvent_held {s : State} (i : Nat) (k : PadEventKind) (hs : s.session = .rest) :
    s.padEvent i k =
      { s with pads := modifyAt (fun p => { p with held := s.heldAfter i [k] p.held }) i s.pads } := by
  cases hk : (s.padSetting i).enables k with
  | false => simp [padEvent_disabled hk, State.heldAfter, hk, modifyAt_id]
  | true =>
    rw [padEvent_resting hs hk]
    cases hw : (s.padSetting i).wake with
    | false => simp [State.heldAfter, hw, modifyAt_id]
    | true =>
      simp only [State.heldAfter, hw, if_true, List.filter_cons_of_pos hk, List.filter_nil, List.getLast?_singleton,
        Option.some_or]
      rfl

/-- In REST the last enabled event of a pad with wake is the one it holds. -/
theorem foldEvents_resting (i : Nat) (ks : List PadEventKind) (s : State) (hs : s.session = .rest) :
    ks.foldl (fun s k => s.padEvent i k) s =
      { s with pads := modifyAt (fun p => { p with held := s.heldAfter i ks p.held }) i s.pads } := by
  induction ks generalizing s with
  | nil => simp [State.heldAfter, modifyAt_id]
  | cons k ks ih =>
    rw [List.foldl_cons, padEvent_held i k hs]
    rw [ih { s with pads := modifyAt (fun p => { p with held := s.heldAfter i [k] p.held }) i s.pads } hs]
    simp only [modifyAt_modifyAt, heldAfter_cons (k := k) (ks := ks)]
    rfl

/-! ## A gate, pad by pad (R122) -/

/-- The records of the six pads with the first `n` of them replaced. -/
def State.padsUpTo (s : State) (P : Nat → Pad) (n : Nat) : List Pad :=
  (List.range 6).map fun i => if i < n then P i else s.pad i

theorem padsUpTo_zero {s : State} (P : Nat → Pad) (h : s.pads.length = 6) : s.padsUpTo P 0 = s.pads := by
  apply List.ext_getElem?
  intro i
  by_cases hi : i < 6
  · simp [State.padsUpTo, hi, State.pad, h]
  · rw [List.getElem?_eq_none (by simp [State.padsUpTo]; omega), List.getElem?_eq_none (by omega)]

theorem padsUpTo_getD {s : State} {P : Nat → Pad} {n : Nat} (h : n < 6) :
    (s.padsUpTo P n).getD n Pad.blank = s.pad n := by
  simp [State.padsUpTo, h]

theorem padsUpTo_succ (s : State) (P : Nat → Pad) {n : Nat} :
    modifyAt (fun _ => P n) n (s.padsUpTo P n) = s.padsUpTo P (n + 1) := by
  apply List.ext_getElem?
  intro i
  rw [getElem?_modifyAt]
  by_cases hi : i < 6
  · simp only [State.padsUpTo, List.getElem?_map, List.getElem?_range hi, Option.map_some]
    by_cases hn : i = n
    · subst hn
      simp
    · simp only [Nat.lt_succ_iff_lt_or_eq, hn, or_false, if_false]
  · rw [List.getElem?_eq_none (by simp [State.padsUpTo]; omega), List.getElem?_eq_none (by simp [State.padsUpTo]; omega)]
    simp

/-- Once `n` pads have had their gate, each with its record and its arrivals. -/
def State.gatedUpTo (s : State) (P : Nat → Pad) (E : Nat → List Arrival) (n : Nat) : State :=
  { s with pads := s.padsUpTo P n, inbox := s.inbox ++ (List.range n).flatMap E }

/-- A gate's effect from that of each pad. -/
theorem padGates_gatedUpTo {s : State} {counts : List Nat} {P : Nat → Pad} {E : Nat → List Arrival}
    (hlen : s.pads.length = 6)
    (hstep : ∀ n < s.header.padCount, (s.gatedUpTo P E n).padGate n (counts.getD n 0) = s.gatedUpTo P E (n + 1)) :
    s.padGates counts = s.gatedUpTo P E s.header.padCount := by
  have hfold : ∀ n ≤ s.header.padCount,
      (List.range n).foldl (fun s pad => s.padGate pad (counts.getD pad 0)) s = s.gatedUpTo P E n := by
    intro n
    induction n with
    | zero =>
      intro _
      rw [State.gatedUpTo, padsUpTo_zero P hlen]
      simp
    | succ n ih =>
      intro hn
      rw [List.range_succ, List.foldl_append, ih (by omega)]
      exact hstep n hn
  exact hfold _ le_rfl

theorem padGate_eq (s : State) (i count : Nat) :
    s.padGate i count =
      ((padStep s.header.debounce (s.pad i).state (readingOf s.header count)).2).foldl (fun s k => s.padEvent i k)
        (s.modifyPad i fun p =>
          { p with state := (padStep s.header.debounce (s.pad i).state (readingOf s.header count)).1 }) := rfl

/-- What a gate makes of a pad whose record is still the one before the gate, its events apart. -/
theorem gated_padGate {s : State} {counts : List Nat} {P : Nat → Pad} {E : Nat → List Arrival} {n : Nat} (hn : n < 6) :
    (s.gatedUpTo P E n).padGate n (counts.getD n 0) =
      (s.gateKinds counts n).foldl (fun s k => s.padEvent n k)
        { s.gatedUpTo P E n with
          pads := modifyAt (fun _ => { s.pad n with state := s.gateState counts n }) n (s.padsUpTo P n) } := by
  have hpad : (s.gatedUpTo P E n).pad n = s.pad n := padsUpTo_getD hn
  have hpads : modifyAt (fun p : Pad => { p with state := s.gateState counts n }) n (s.padsUpTo P n) =
      modifyAt (fun _ => { s.pad n with state := s.gateState counts n }) n (s.padsUpTo P n) := by
    refine modifyAt_congr fun p hp => ?_
    have hget := padsUpTo_getD (s := s) (P := P) hn
    rw [List.getD_eq_getElem?_getD, hp, Option.getD_some] at hget
    rw [hget]
  rw [padGate_eq, hpad, ← hpads]
  rfl

theorem gatePad_fitted {s : State} {counts : List Nat} {i : Nat} (hi : i < s.header.padCount) :
    s.gatePad counts i = { s.pad i with state := s.gateState counts i } := if_pos hi

theorem padsUpTo_congr {s : State} {P Q : Nat → Pad} {n : Nat} (h : ∀ i < n, P i = Q i) :
    s.padsUpTo P n = s.padsUpTo Q n := by
  unfold State.padsUpTo
  refine List.map_congr_left fun i _ => ?_
  split
  · next hi => rw [h i hi]
  · rfl

theorem padsUpTo_gatePad (s : State) (counts : List Nat) :
    s.padsUpTo (s.gatePad counts) s.header.padCount = (List.range 6).map (s.gatePad counts) := by
  unfold State.padsUpTo
  refine List.map_congr_left fun i _ => ?_
  split
  · rfl
  · next hi => rw [State.gatePad, if_neg hi]

/-- The arrivals of one pad's gate. -/
def State.gateArrivals (s : State) (counts : List Nat) (i : Nat) : List Arrival :=
  ((s.gateKinds counts i).filter (s.padSetting i).enables).map fun k => .event (.pad i k) 0

theorem gateEvents_eq (s : State) (counts : List Nat) :
    s.gateEvents counts = (List.range s.header.padCount).flatMap (s.gateArrivals counts) := rfl

/-- Every arrival of a gate is an event. -/
theorem engineQueue_gateArrivals (s : State) (counts : List Nat) (n : Nat) :
    ((List.range n).flatMap (s.gateArrivals counts)).filter Arrival.isEvent =
      (List.range n).flatMap (s.gateArrivals counts) := by
  refine List.filter_eq_self.mpr fun a ha => ?_
  obtain ⟨i, -, ha⟩ := List.mem_flatMap.mp ha
  obtain ⟨k, -, rfl⟩ := List.mem_map.mp ha
  rfl

/-- A gate in LISTENING or PLAY whose events find room. -/
theorem padGates_playing {s : State} {counts : List Nat} (hs : s.session = .listening ∨ s.session = .play)
    (hlen : s.pads.length = 6) (hcount : s.header.padCount ≤ 6)
    (hroom : s.engineQueue.length + (s.gateEvents counts).length ≤ 32) :
    s.padGates counts = { s with
      pads := (List.range 6).map (s.gatePad counts)
      inbox := s.inbox ++ s.gateEvents counts } := by
  rw [padGates_gatedUpTo (P := s.gatePad counts) (E := s.gateArrivals counts) hlen fun n hn => ?_,
    State.gatedUpTo, padsUpTo_gatePad, gateEvents_eq]
  have hpart : ((List.range (n + 1)).flatMap (s.gateArrivals counts)).length ≤ (s.gateEvents counts).length := by
    rw [gateEvents_eq]
    exact ((List.range_sublist.mpr hn).flatMap _).length_le
  have hsucc : (List.range (n + 1)).flatMap (s.gateArrivals counts) =
      (List.range n).flatMap (s.gateArrivals counts) ++ s.gateArrivals counts n := by
    rw [List.range_succ, List.flatMap_append, List.flatMap_singleton]
  rw [hsucc, List.length_append] at hpart
  rw [gated_padGate (by omega), foldEvents_playing n _ _ (by exact hs) ?_]
  · have hpads := padsUpTo_succ s (s.gatePad counts) (n := n)
    rw [gatePad_fitted hn] at hpads
    rw [State.gatedUpTo, State.gatedUpTo, hsucc, ← hpads, ← List.append_assoc]
    rfl
  · have hqueue : State.engineQueue { s.gatedUpTo (s.gatePad counts) (s.gateArrivals counts) n with
        pads := modifyAt (fun _ => { s.pad n with state := s.gateState counts n }) n
          (s.padsUpTo (s.gatePad counts) n) } =
        s.engineQueue ++ (List.range n).flatMap (s.gateArrivals counts) := by
      rw [← engineQueue_gateArrivals]
      exact List.filter_append ..
    have harrivals : (s.gateArrivals counts n).length =
        ((s.gateKinds counts n).filter (s.padSetting n).enables).length := List.length_map ..
    rw [hqueue, List.length_append]
    rw [harrivals] at hpart
    show s.engineQueue.length + _ + ((s.gateKinds counts n).filter (s.padSetting n).enables).length ≤ 32
    omega

theorem noArrivals (n : Nat) : ((List.range n).flatMap fun _ => ([] : List Arrival)) = [] :=
  List.flatMap_eq_nil_iff.mpr fun _ _ => rfl

/-- A gate in SILENT: the events are discarded. -/
theorem padGates_silent {s : State} {counts : List Nat} (hs : s.session = .silent) (hlen : s.pads.length = 6)
    (hcount : s.header.padCount ≤ 6) :
    s.padGates counts = { s with pads := (List.range 6).map (s.gatePad counts) } := by
  rw [padGates_gatedUpTo (P := s.gatePad counts) (E := fun _ => []) hlen fun n hn => ?_, State.gatedUpTo,
    padsUpTo_gatePad]
  · simp
  · rw [gated_padGate (by omega), foldEvents_silent n _ (by exact hs), State.gatedUpTo, State.gatedUpTo,
      ← padsUpTo_succ, gatePad_fitted hn, noArrivals, noArrivals]

/-- A pad's record after a gate in REST. -/
def State.restPad (s : State) (counts : List Nat) (i : Nat) : Pad :=
  { s.gatePad counts i with held := s.gateHeld counts i }

theorem gateHeld_fitted {s : State} {counts : List Nat} {i : Nat} (hi : i < s.header.padCount) :
    s.gateHeld counts i = s.heldAfter i (s.gateKinds counts i) (s.pad i).held := by
  unfold State.gateHeld State.heldAfter State.gateKinds
  by_cases hw : (s.padSetting i).wake = true
  · rw [if_pos ⟨hi, hw⟩, if_pos hw]
    cases ((padStep s.header.debounce (s.pad i).state (readingOf s.header (counts.getD i 0))).2.filter
      (s.padSetting i).enables).getLast? <;> rfl
  · rw [if_neg fun h => hw h.2, if_neg hw]

theorem gateHeld_bare {s : State} {counts : List Nat} {i : Nat} (hi : ¬ i < s.header.padCount) :
    s.gateHeld counts i = (s.pad i).held := if_neg fun h => hi h.1

theorem gatePad_bare {s : State} {counts : List Nat} {i : Nat} (hi : ¬ i < s.header.padCount) :
    s.gatePad counts i = s.pad i := if_neg hi

/-- A gate in REST: the events are held or discarded. -/
theorem padGates_resting {s : State} {counts : List Nat} (hs : s.session = .rest) (hlen : s.pads.length = 6)
    (hcount : s.header.padCount ≤ 6) :
    s.padGates counts = { s with pads := (List.range 6).map (s.restPad counts) } := by
  have hall : s.padsUpTo (s.restPad counts) s.header.padCount = (List.range 6).map (s.restPad counts) := by
    unfold State.padsUpTo
    refine List.map_congr_left fun i _ => ?_
    split
    · rfl
    · next hi => rw [State.restPad, gateHeld_bare hi, gatePad_bare hi]
  rw [padGates_gatedUpTo (P := s.restPad counts) (E := fun _ => []) hlen fun n hn => ?_, State.gatedUpTo, hall]
  · simp
  · rw [gated_padGate (by omega), foldEvents_resting n _ _ (by exact hs), State.gatedUpTo, State.gatedUpTo,
      ← padsUpTo_succ, modifyAt_modifyAt, State.restPad, gatePad_fitted hn, gateHeld_fitted hn,
      noArrivals, noArrivals]
    rfl

theorem gateWakes_iff (s : State) (counts : List Nat) : s.gateWakes counts = false ↔ s.gateHoldsNone counts := by
  simp only [State.gateWakes, State.gateHoldsNone, List.any_eq_false, List.mem_range, PadSetting.holdsAny,
    Bool.not_eq_true, Bool.and_eq_false_iff, List.any_eq_false]
  refine forall₂_congr fun i _ => ?_
  cases (s.padSetting i).wake <;> simp

theorem gateHeld_none {s : State} {counts : List Nat} (h : s.gateHoldsNone counts) (i : Nat) :
    s.gateHeld counts i = (s.pad i).held := by
  by_cases hi : i < s.header.padCount
  · rw [gateHeld_fitted hi, State.heldAfter]
    by_cases hw : (s.padSetting i).wake = true
    · have hnone : (s.gateKinds counts i).filter (s.padSetting i).enables = [] :=
        List.filter_eq_nil_iff.mpr fun k hk => by simp [h i hi hw k hk]
      rw [if_pos hw, hnone]
      rfl
    · rw [if_neg hw]
  · exact gateHeld_bare hi

theorem gatePad_held (s : State) (counts : List Nat) (i : Nat) : (s.gatePad counts i).held = (s.pad i).held := by
  unfold State.gatePad
  split <;> rfl

theorem restPad_none {s : State} {counts : List Nat} (h : s.gateHoldsNone counts) :
    s.restPad counts = s.gatePad counts := by
  funext i
  rw [State.restPad, gateHeld_none h, ← gatePad_held s counts i]

/-! ## The end of a gate (R122, R130, R134) -/

theorem exec_gateEnd_early {s : State} {dt : Nat} {counts : List Nat} (hon : s.powered = true)
    (h : ∀ g, s.gateStart = some g → s.now + dt < g + 8000) :
    exec (.gateEnd dt counts) s = .next (s.advance dt).onLine := by
  have hsame : (s.advance dt).gateEnds counts = s.advance dt := by
    unfold State.gateEnds
    split
    · next g hg => exact if_neg (Nat.not_le.mpr (h g hg))
    · rfl
  rw [exec_gateEnd hon, hsame]

/-- The state in which a gate has ended and the next one has begun. -/
def State.gateOver (s : State) (dt g : Nat) : State := { s.advance dt with gateStart := some (g + 8000) }

theorem exec_gateEnd_due {s : State} {dt g : Nat} {counts : List Nat} (hon : s.powered = true)
    (hgate : s.gateStart = some g) (hdue : g + 8000 ≤ s.now + dt) :
    exec (.gateEnd dt counts) s = .next ((s.gateOver dt g).endGate counts).onLine := by
  have hends : (s.advance dt).gateEnds counts = (s.gateOver dt g).endGate counts := by
    rw [State.gateEnds, show (s.advance dt).gateStart = some g from hgate]
    exact if_pos hdue
  rw [exec_gateEnd hon, hends]

theorem endGate_kept {s : State} {counts : List Nat} (h : s.session = .rest → s.gateHoldsNone counts) :
    s.endGate counts = s.padGates counts := by
  rw [State.endGate, if_neg]
  rintro ⟨hrest, hwakes⟩
  exact Bool.noConfusion (hwakes.symm.trans ((gateWakes_iff s counts).mpr (h hrest)))

theorem endGate_wakes {s : State} {counts : List Nat} (hrest : s.session = .rest) (h : ¬ s.gateHoldsNone counts) :
    s.endGate counts = (s.padGates counts).padWake := by
  rw [State.endGate, if_pos]
  refine ⟨hrest, ?_⟩
  cases hw : s.gateWakes counts with
  | true => rfl
  | false => exact absurd ((gateWakes_iff s counts).mp hw) h

theorem onLine_silent {s : State} (h : s.session = .silent) : s.onLine = s :=
  onLine_none (select_none (.inr (.inr h)))

theorem offer_eq (s : State) (q : Queued) :
    s.offer q = { s with
      transmit := if s.transmit.length < 8 then s.transmit ++ [q] else s.transmit
      health := { s.health with overrun := s.health.overrun || decide (8 ≤ s.transmit.length) } } := by
  unfold State.offer
  by_cases h : s.transmit.length < 8
  · rw [if_pos (by exact h), if_pos h, decide_eq_false (by omega), Bool.or_false]
  · rw [if_neg (by exact h), if_neg h, decide_eq_true (by omega), Bool.or_true]
    rfl

/-- The return to PLAY where the engine queue has room for the events held (R190). -/
theorem returnToPlay_room {s : State} (hroom : s.engineQueue.length ≤ 26) :
    s.returnToPlay = { s with
      session := .play
      roster := s.roster.map fun p =>
        if p.present = true then { p with silenceAt := some (s.now + 7500000) }
        else { p with removalAt := some (s.now + 60000000) }
      lights := s.lights.map fun l => match l.pattern with
        | .blink _ _ => { l with phase := 0 }
        | _ => l
      hail := { s.hail with due := some (s.hail.lastEnd.getD s.now + (2000000 + 8000 * s.tile)) }
      inbox := s.inbox ++ s.heldEvents
      pads := s.pads.map fun p => { p with held := none } } := by
  rw [State.returnToPlay, releaseHeld_room rfl (by exact hroom)]
  rfl

/-- Settles O43: the pads in order, and in each state of the session what becomes of their events. -/
theorem gateEndMovesEveryPad : Obligations.GateEndMovesEveryPad := by
  refine ⟨fun dt counts s hon => ⟨fun hnone => ?_, fun g hgate => ⟨fun hearly => ?_, fun u hdue hlen hcount hu => ?_⟩⟩,
    countsAreRead⟩
  · exact exec_gateEnd_early hon fun g hg => absurd (hnone.symm.trans hg) (Option.some_ne_none g).symm
  · exact exec_gateEnd_early hon fun g' hg' => by
      cases hgate.symm.trans hg'
      exact hearly
  · subst hu
    rw [exec_gateEnd_due hon hgate hdue]
    refine ⟨fun hs hroom => ?_, fun hs => ?_, fun hs hnone => ?_, fun hs hsome hroom => ?_⟩
    · rw [endGate_kept fun hrest => ?_, padGates_playing (s := s.gateOver dt g) hs hlen hcount hroom]
      · rfl
      · rw [show (s.gateOver dt g).session = s.session from rfl] at hrest
        rcases hs with hs | hs <;> exact absurd (hs.symm.trans hrest) (by decide)
    · rw [endGate_kept (s := s.gateOver dt g) fun hrest => absurd (hs.symm.trans hrest) (by decide),
        padGates_silent (s := s.gateOver dt g) hs hlen hcount, onLine_silent (by exact hs)]
      rfl
    · rw [endGate_kept (s := s.gateOver dt g) fun _ => hnone, padGates_resting (s := s.gateOver dt g) hs hlen hcount,
        restPad_none (s := s.gateOver dt g) hnone]
      rfl
    · rw [endGate_wakes (s := s.gateOver dt g) hs hsome, padGates_resting (s := s.gateOver dt g) hs hlen hcount,
        State.padWake, offer_eq, returnToPlay_room (by exact hroom)]
      have hheld : State.heldEvents { s.gateOver dt g with pads := (List.range 6).map ((s.gateOver dt g).restPad counts) } =
          (List.range 6).filterMap fun i => (s.gateHeld counts i).map fun k => .event (.pad i k) 0 := rfl
      have hpads : ((List.range 6).map ((s.gateOver dt g).restPad counts)).map (fun p => { p with held := none }) =
          (List.range 6).map fun i => { s.gatePad counts i with held := none } := rfl
      rw [← hheld, ← hpads]
      rfl

end Sys2Proof.Machine

namespace Sys2Proof.Machine

/-! ## The base tick (R140, R142, R144, R146, R149) -/

theorem counts_playing {x : Session} (h : x = .listening ∨ x = .play) : x.counts = true := by
  rcases h with rfl | rfl <;> rfl

theorem exec_baseTick_early {s : State} {dt g : Nat} (hon : s.powered = true) (htick : s.lastTick = some g)
    (h : s.now + dt < g + 15625) : exec (.baseTick dt) s = .next (s.advance dt).onLine := by
  have hsame : (s.advance dt).baseTicks = s.advance dt := by
    rw [State.baseTicks, show (s.advance dt).lastTick = some g from htick]
    exact if_neg (Nat.not_le.mpr h)
  rw [exec_baseTick hon, hsame]

/-- The state in which a base tick falls. -/
def State.ticking (s : State) (dt g : Nat) : State := { s.advance dt with lastTick := some (g + 15625) }

theorem exec_baseTick_due {s : State} {dt g : Nat} (hon : s.powered = true) (htick : s.lastTick = some g)
    (h : g + 15625 ≤ s.now + dt) : exec (.baseTick dt) s = .next (s.ticking dt g).tick.onLine := by
  have hticks : (s.advance dt).baseTicks = (s.ticking dt g).tick := by
    rw [State.baseTicks, show (s.advance dt).lastTick = some g from htick]
    exact if_pos h
  rw [exec_baseTick hon, hticks]

theorem tickSession_playing {s : State} (h : s.session = .listening ∨ s.session = .play) : s.tickSession = s := by
  unfold State.tickSession
  rcases h with h | h <;> rw [h] <;> rfl

/-- With no expiry and no tone's end left over none is taken. -/
theorem takeOverdue_none {s : State} (htimers : ∀ x ∈ s.timers, ¬ (x.running = true ∧ x.remaining = 0))
    (htones : ∀ x rest, s.tones = x :: rest → s.toneCount < x.duration) : s.takeOverdue = s := by
  have hexpire : ∀ n, s.expireTimer n = s := by
    intro n
    refine if_neg fun hzero => ?_
    simp only [Timer.atZero, Bool.and_eq_true, beq_iff_eq] at hzero
    unfold State.timer at hzero
    rw [List.getD_eq_getElem?_getD] at hzero
    cases hn : s.timers[n]? with
    | none => rw [hn] at hzero; exact Bool.noConfusion hzero.1
    | some x => rw [hn] at hzero; exact htimers x (List.mem_of_getElem? hn) hzero
  have hfold : ∀ l : List Nat, l.foldl (fun s t => s.expireTimer t) s = s := by
    intro l
    induction l with
    | nil => rfl
    | cons n l ih => rw [List.foldl_cons, hexpire n, ih]
  have htone : s.toneOver = false := by
    unfold State.toneOver
    split
    · rfl
    · next x rest hx => exact decide_eq_false (Nat.not_le.mpr (htones x rest hx))
  rw [State.takeOverdue, hfold, State.endTone, if_neg (by simp [htone])]

theorem timer_baseTick {x : Timer} (h : ¬ (x.running = true ∧ x.remaining = 0)) :
    x.baseTick = if x.running = false then x
      else if x.base + 1 = x.tick.baseTicks then { x with base := 0, remaining := x.remaining - 1 }
      else { x with base := x.base + 1 } := by
  unfold Timer.baseTick
  cases hr : x.running with
  | false => simp
  | true =>
    rw [if_pos ⟨rfl, Nat.pos_of_ne_zero fun hz => h ⟨hr, hz⟩⟩]
    rfl

theorem light_baseTick (l : Light) :
    l.baseTick = match l.pattern with
      | .blink period _ => { l with phase := if l.phase + 1 < period then l.phase + 1 else 0 }
      | _ => l := rfl

/-- The session pattern's phase after a base tick (R146). -/
theorem tickSession_eq {s : State} (hstarting : s.session ≠ .starting) (hlistening : s.session ≠ .listening)
    (hplay : s.session ≠ .play) :
    s.tickSession = { s with sessionPhase :=
      if s.session = .loading then s.sessionPhase
      else if s.sessionPhase + 1 < (if s.session = .silent then 24 else 96) then s.sessionPhase + 1 else 0 } := by
  unfold State.tickSession
  cases h : s.session with
  | starting => exact absurd h hstarting
  | listening => exact absurd h hlistening
  | play => exact absurd h hplay
  | loading =>
    rw [if_pos rfl]
    simp only [Session.blink]
    rw [← h]
  | unwritten => rfl
  | rest => rfl
  | silent => rfl

/-- Settles O44: what counts in LISTENING and PLAY, and what elsewhere. -/
theorem baseTickCounts : Obligations.BaseTickCounts := by
  intro dt s g hon hstarting htick
  refine ⟨exec_baseTick_early hon htick, fun hdue hs _ htimers htones => ?_, fun hdue hlistening hplay => ?_⟩
  · rw [exec_baseTick_due hon htick hdue, State.tick, if_pos (counts_playing (by exact hs)),
      tickSession_playing (by exact hs), takeOverdue_none (by exact htimers) (by exact htones)]
    have hmap : s.timers.map Timer.baseTick = s.timers.map fun x =>
        if x.running = false then x
        else if x.base + 1 = x.tick.baseTicks then { x with base := 0, remaining := x.remaining - 1 }
        else { x with base := x.base + 1 } :=
      List.map_congr_left fun x hx => timer_baseTick (htimers x hx)
    rw [State.tickCounts, show (s.ticking dt g).timers = s.timers from rfl, hmap]
    rfl
  · have hcounts : (s.ticking dt g).session.counts = false := by
      show s.session.counts = false
      cases h : s.session with
      | listening => exact absurd h hlistening
      | play => exact absurd h hplay
      | _ => rfl
    rw [exec_baseTick_due hon htick hdue, State.tick, if_neg (by simp [hcounts]),
      tickSession_eq (s := s.ticking dt g) hstarting hlistening hplay]
    rfl

/-! ## Expiry and the end of a tone (R140, R149) -/

theorem timer_of_get {s : State} {n : Nat} {x : Timer} (h : s.timers[n]? = some x) : s.timer n = x := by
  rw [State.timer, List.getD_eq_getElem?_getD, h, Option.getD_some]

/-- Settles O45: the timer's event is raised, and the tone played leaves the queue. -/
theorem expiryAndToneEnd : Obligations.ExpiryAndToneEnd := by
  intro dt s hon hs
  refine ⟨fun n x hx hrunning hzero hroom => ?_, fun x rest htones => ⟨fun hover => ?_, fun hplaying => ?_⟩⟩
  · have hatZero : x.atZero = true := by simp [Timer.atZero, hrunning, hzero]
    have hexpire : (s.advance dt).expireTimer n = ((s.advance dt).modifyTimer n Timer.expire).raise (.timer n) 0 := by
      rw [State.expireTimer, timer_of_get (s := s.advance dt) hx, if_pos hatZero]
    have hmap : modifyAt Timer.expire n s.timers = modifyAt (fun _ =>
        if x.repeats = true then { x with remaining := x.preset, base := 0 }
        else { x with running := false, remaining := 0, base := 0 }) n s.timers := by
      refine modifyAt_congr fun y hy => ?_
      cases hx.symm.trans hy
      rfl
    rw [exec_timerExpiry hon, State.timerExpires, if_pos (counts_playing (by exact hs)), hexpire,
      raise_room _ _ _ (inGame_playing (by exact hs)) (by decide) (by exact hroom), ← hmap]
    rfl
  · have hends : (s.advance dt).endTone =
        { s.advance dt with tones := rest, toneCount := 0, toneStart := s.now + dt } := by
      have hover' : (s.advance dt).toneOver = true := by
        rw [State.toneOver, show (s.advance dt).tones = x :: rest from htones]
        exact decide_eq_true hover
      rw [State.endTone, if_pos hover', show (s.advance dt).tones = x :: rest from htones]
      rfl
    rw [exec_toneEnd hon, State.toneEnds, if_pos (counts_playing (by exact hs)), hends]
  · have hstays : (s.advance dt).endTone = s.advance dt := by
      have hover' : (s.advance dt).toneOver = false := by
        rw [State.toneOver, show (s.advance dt).tones = x :: rest from htones]
        exact decide_eq_false (Nat.not_le.mpr hplaying)
      rw [State.endTone, if_neg (by simp [hover'])]
    rw [exec_toneEnd hon, State.toneEnds, if_pos (counts_playing (by exact hs)), hstays]

/-! ## The outputs (R143 to R154) -/

/-- The lights in LISTENING and PLAY are those of the quest. -/
theorem lightPin_playing {s : State} {ch : Nat} {l : Light} (hon : s.powered = true) (hl : s.lights[ch]? = some l)
    (hs : s.session = .listening ∨ s.session = .play) : s.lightPin ch = s.questLit l := by
  have hget : s.lights.getD ch ⟨.off, 0⟩ = l := by rw [List.getD_eq_getElem?_getD, hl, Option.getD_some]
  unfold State.lightPin
  rcases hs with hs | hs <;> rw [hs] <;> simp only [hon, Bool.true_and, hget]

/-- The session pattern is channel 0's. -/
theorem lightPin_session {s : State} {period onTime : Nat} (ch : Nat) (hon : s.powered = true)
    (hs : s.session = .unwritten ∨ s.session = .rest ∨ s.session = .silent)
    (hblink : s.session.blink = some (period, onTime)) :
    s.lightPin ch = true ↔ ch = 0 ∧ s.sessionPhase < onTime := by
  have hpin : s.lightPin ch = (s.powered && ch == 0 && decide (s.sessionPhase < onTime)) := by
    unfold State.lightPin
    rcases hs with hs | hs | hs <;> rw [hs] at hblink ⊢ <;> cases hblink <;> rfl
  simp [hpin, hon]

theorem twoDigits_decimal (v : Nat) (blankZero : Bool) : twoDigits v blankZero = decimal v blankZero := by
  have hzero : (v / 10 == 0) = decide (v < 10) := by
    rw [beq_eq_decide]
    exact decide_eq_decide.mpr (by omega)
  simp [twoDigits, decimal, hzero]

/-- The digits in LISTENING and PLAY are those of their source. -/
theorem digitPins_playing {s : State} (hon : s.powered = true) (hs : s.session = .listening ∨ s.session = .play) :
    s.digitPins = s.sourceGlyphs := by
  unfold State.digitPins
  rcases hs with hs | hs <;> rw [hs] <;> exact if_pos hon

theorem digitPins_elsewhere {s : State} (hlistening : s.session ≠ .listening) (hplay : s.session ≠ .play) :
    s.digitPins = (.blank, .blank) := by
  unfold State.digitPins
  cases h : s.session with
  | listening => exact absurd h hlistening
  | play => exact absurd h hplay
  | _ => rfl

/-- A running timer that has not reached 0 shows what remains. -/
theorem sourceGlyphs_timer {s : State} {n : Nat} {x : Timer} (hsource : s.digits.source = .timer n)
    (hx : s.timers[n]? = some x) (hzero : x.atZero = false) :
    s.sourceGlyphs = if x.running = true then twoDigits (min x.remaining 99) s.digits.blankZero
      else (.minus, .minus) := by
  rw [State.sourceGlyphs, hsource]
  simp only [timer_of_get hx, hzero, Bool.false_eq_true, if_false]

/-- Settles O46: the lights, the digits and the tone line, each by its source. -/
theorem lightsShowTheSession : Obligations.LightsShowTheSession := by
  refine ⟨fun s ch l hon hl => ⟨fun hs => ?_, fun hs => ?_, fun hs => ?_, fun hs => ?_, fun hs => ?_⟩,
    fun s => ⟨fun hs => digitPins_elsewhere hs.1 hs.2, fun hon hs => ?_⟩,
    fun s => ⟨fun hnone => ?_, fun x rest n h htones hn hh => ?_⟩⟩
  · rw [lightPin_playing hon hl hs]
    refine ⟨fun hp => ?_, fun hp => ?_, fun p n hp => ?_, fun m hp => ?_⟩ <;> rw [State.questLit, hp]
    · exact decide_eq_true_iff
    · simp only
      cases hv : s.usable m with
      | none => simp
      | some v => simp
  · rw [State.lightPin, hs]
  · rw [State.lightPin, hs]
    simp [hon]
  · rcases hs with hs | hs
    · exact lightPin_session ch hon (.inl hs) (by rw [hs]; rfl)
    · exact lightPin_session ch hon (.inr (.inl hs)) (by rw [hs]; rfl)
  · exact lightPin_session ch hon (.inr (.inr hs)) (by rw [hs]; rfl)
  · rw [digitPins_playing hon hs]
    refine ⟨fun hsource => ?_, fun n hsource => ?_, fun m hsource => ⟨fun hnone => ?_, fun v hv => ?_⟩,
      fun n x hsource hx => ⟨fun hidle => ?_, fun hrunning hleft => ?_⟩⟩
    · rw [State.sourceGlyphs, hsource]
    · rw [State.sourceGlyphs, hsource]
      exact twoDigits_decimal n _
    · rw [State.sourceGlyphs, hsource]
      simp only [hnone]
    · rw [State.sourceGlyphs, hsource]
      simp only [hv]
      exact twoDigits_decimal v _
    · rw [sourceGlyphs_timer hsource hx (by simp [Timer.atZero, hidle]), if_neg (by simp [hidle])]
    · have hmin : min x.remaining 99 = if 99 < x.remaining then 99 else x.remaining := by split <;> omega
      rw [sourceGlyphs_timer hsource hx (by simp [Timer.atZero, hleft]), if_pos hrunning, hmin, twoDigits_decimal]
  · rw [State.tonePin, hnone]
  · have hhigh : x.duty.high n = h := by
      rw [hh]
      cases x.duty <;> rfl
    rw [State.tonePin, htones]
    simp only
    rw [← hn, hhigh]
    exact decide_eq_true_iff

end Sys2Proof.Machine

namespace Sys2Proof.Machine

/-! ## The steps and the trigger (R54 to R58, R66) -/

/-- What the trigger tests is of pads and marks: the step table is no part of it. -/
theorem trigger_congr {s t : State} (hpads : t.pads = s.pads) (hmarks : t.marks = s.marks) (e : Option Happening) (x : Step) :
    t.trigger e x = s.trigger e x := by
  have hlevel : ∀ c, t.levelHolds c = s.levelHolds c := by
    intro c
    simp only [State.levelHolds, State.padHolds, State.pad, hpads, State.usable, State.mark, hmarks]
  simp only [State.trigger, State.allHolds, State.anyHolds, hlevel]

theorem see_sees (x : Step) (e : Happening) : x.see e = x.sees e := by
  simp only [Step.see, Step.sees, List.zip_eq_zipWith, List.map_zipWith]

theorem armStep_eq (x : Step) : x.arm = { x with state := .armed, seen := x.clearFlags } := rfl

/-! ## What a plain effect does (R60, R61) -/

theorem afterEffect_steps (u : State) (d : Nat) (S : List Step) {x : Effect} :
    State.afterEffect { u with steps := S } d x = { u.afterEffect d x with steps := S } := by
  cases x with
  | tone x cut =>
    simp only [State.afterEffect]
    repeat' split
    all_goals rfl
  | recheck i =>
    simp only [State.afterEffect]
    rw [show State.pad { u with steps := S } i = u.pad i from rfl,
      show State.padSetting { u with steps := S } i = u.padSetting i from rfl]
    cases (u.pad i).state.recheckEvent with
    | none => rfl
    | some k =>
      simp only
      split <;> rfl
  | _ => rfl

theorem afterEffects_steps (es : List Effect) (u : State) (d : Nat) (S : List Step) :
    es.foldl (fun u x => u.afterEffect d x) { u with steps := S } =
      { es.foldl (fun u x => u.afterEffect d x) u with steps := S } := by
  induction es generalizing u with
  | nil => rfl
  | cons x es ih => rw [List.foldl_cons, List.foldl_cons, afterEffect_steps, ih]

/-- What a plain effect leaves as it is. -/
structure State.playsOn (u v : State) : Prop where
  session : v.session = u.session
  steps : v.steps = u.steps
  pads : v.pads = u.pads
  marks : v.marks = u.marks
  header : v.header = u.header

theorem State.playsOn.refl (u : State) : u.playsOn u := ⟨rfl, rfl, rfl, rfl, rfl⟩

theorem State.playsOn.trans {u v w : State} (h : u.playsOn v) (k : v.playsOn w) : u.playsOn w :=
  ⟨k.session.trans h.session, k.steps.trans h.steps, k.pads.trans h.pads, k.marks.trans h.marks,
    k.header.trans h.header⟩

theorem afterEffect_playsOn (u : State) (d : Nat) (x : Effect) : u.playsOn (u.afterEffect d x) := by
  cases x with
  | tone x cut =>
    simp only [State.afterEffect]
    repeat' split
    all_goals exact ⟨rfl, rfl, rfl, rfl, rfl⟩
  | recheck i =>
    simp only [State.afterEffect]
    repeat' split
    all_goals exact ⟨rfl, rfl, rfl, rfl, rfl⟩
  | _ => exact ⟨rfl, rfl, rfl, rfl, rfl⟩

theorem afterEffects_playsOn (es : List Effect) (u : State) (d : Nat) :
    u.playsOn (es.foldl (fun u x => u.afterEffect d x) u) := by
  induction es generalizing u with
  | nil => exact .refl u
  | cons x es ih => exact (afterEffect_playsOn u d x).trans (ih _)

theorem engineQueue_append (s : State) (as : List Arrival) (w : Happening) (d : Nat) (h : s.inbox = as ++ [.event w d]) :
    s.engineQueue.length = eventCount as + 1 := by
  rw [State.engineQueue, h, List.filter_append, List.length_append]
  rfl

/-- A plain effect raises one event at most. -/
theorem afterEffect_room (u : State) (d : Nat) (x : Effect) :
    eventCount (u.afterEffect d x).inbox ≤ eventCount u.inbox + 1 := by
  have hone : ∀ w k, eventCount (u.inbox ++ [.event w k]) ≤ eventCount u.inbox + 1 := by
    intro w k
    rw [eventCount, List.filter_append, List.length_append]
    rfl
  cases x with
  | cue c => exact hone _ _
  | tone x cut =>
    simp only [State.afterEffect]
    repeat' split
    all_goals exact Nat.le_succ _
  | recheck i =>
    simp only [State.afterEffect]
    repeat' split
    · exact hone _ _
    · exact Nat.le_succ _
    · exact Nat.le_succ _
  | _ => exact Nat.le_succ _

theorem afterEffects_room (es : List Effect) (u : State) (d : Nat) :
    eventCount (es.foldl (fun u x => u.afterEffect d x) u).inbox ≤ eventCount u.inbox + es.length := by
  induction es generalizing u with
  | nil => exact le_rfl
  | cons x es ih =>
    have h1 := ih (u.afterEffect d x)
    have h2 := afterEffect_room u d x
    rw [List.foldl_cons, List.length_cons]
    omega

theorem recheck_eq {s : State} (i : Nat) (hgame : s.session.inGame = true) (hroom : eventCount s.inbox < 32) :
    s.recheck i = s.afterEffect 0 (.recheck i) := by
  have hraise : ∀ k, s.raise (.pad i k) 0 = { s with inbox := s.inbox ++ [.event (.pad i k) 0] } :=
    fun k => raise_room s _ 0 hgame (by decide) hroom
  simp only [State.recheck, State.afterEffect, PadState.recheckEvent, hraise] <;> rfl

theorem playTone_playing {s : State} (x : Tone) (cut : Bool) (hs : s.session = .listening ∨ s.session = .play) :
    s.playTone x cut =
      if cut = true ∨ s.tones = [] then { s with tones := [x], toneCount := 0, toneStart := s.now }
      else if s.tones.length < 4 then { s with tones := s.tones ++ [x] }
      else { s with health := { s.health with overrun := true } } := by
  have hplay : s.playTone x cut =
      if cut = true then { s with tones := [x], toneCount := 0, toneStart := s.now }
      else if s.tones = [] then { s with tones := [x], toneCount := 0, toneStart := s.now }
      else if s.tones.length < 4 then { s with tones := s.tones ++ [x] } else s.setOverrun := by
    unfold State.playTone
    rcases hs with hs | hs <;> rw [hs] <;> rfl
  rw [hplay]
  cases cut with
  | true => rfl
  | false => simp only [Bool.false_eq_true, false_or, if_false]; rfl

theorem playTone_eq {s : State} (x : Tone) (cut : Bool) (d : Nat) (hgame : s.session.inGame = true) :
    s.playTone x cut = s.afterEffect d (.tone x cut) := by
  by_cases hrest : s.session = .rest
  · have hnothing : s.playTone x cut = s := by rw [State.playTone, hrest]
    rw [hnothing]
    exact (if_pos hrest).symm
  · have hplaying : s.session = .listening ∨ s.session = .play := by
      cases hs : s.session <;> simp_all [Session.inGame]
    rw [playTone_playing x cut hplaying]
    exact (if_neg hrest).symm

/-- The engine's plain effect, where the events it raises find room (R60, R61). -/
theorem effect_plain {h : Handling} {fire : Nat → Handling → Handling} {x : Effect} (hplain : x.isPlain = true)
    (hgame : h.s.session.inGame = true) (hroom : eventCount h.s.inbox < 32)
    (hdepth : h.depth < 8 ∨ ∀ c, x ≠ .cue c) :
    h.effect fire x = { h with s := h.s.afterEffect h.depth x } := by
  cases x with
  | claim op m a b => exact Bool.noConfusion hplain
  | arm n => exact Bool.noConfusion hplain
  | disarm n => exact Bool.noConfusion hplain
  | disarmQuest q => exact Bool.noConfusion hplain
  | cue c =>
    have hdeep : h.depth + 1 ≤ 8 := by
      rcases hdepth with hdepth | hdepth
      · exact hdepth
      · exact absurd rfl (hdepth c)
    show { h with s := (h.s.offer (.cue c)).raise (.cue c) (h.depth + 1) } = _
    rw [offer_eq, raise_room _ _ _ (by exact hgame) hdeep (by exact hroom)]
    rfl
  | recheck i =>
    show { h with s := h.s.recheck i } = _
    rw [recheck_eq i hgame hroom]
    rfl
  | tone x cut =>
    show { h with s := h.s.playTone x cut } = _
    rw [playTone_eq x cut h.depth hgame]
  | _ => rfl

theorem effects_plain {fire : Nat → Handling → Handling} (es : List Effect) (h : Handling)
    (hplain : ∀ x ∈ es, x.isPlain = true) (hgame : h.s.session.inGame = true)
    (hroom : eventCount h.s.inbox + es.length ≤ 32) (hdepth : h.depth < 8 ∨ ∀ c, Effect.cue c ∉ es) :
    h.effects fire es = { h with s := es.foldl (fun u x => u.afterEffect h.depth x) h.s } := by
  induction es generalizing h with
  | nil => rfl
  | cons x es ih =>
    rw [List.length_cons] at hroom
    have hx := effect_plain (h := h) (fire := fire) (hplain x List.mem_cons_self) hgame (by omega)
      (hdepth.imp_right fun hc c he => hc c (he ▸ List.mem_cons_self))
    have hmore := afterEffect_room h.s h.depth x
    have hrest := ih { h with s := h.s.afterEffect h.depth x } (fun y hy => hplain y (List.mem_cons_of_mem _ hy))
      (by rw [(afterEffect_playsOn h.s h.depth x).session]; exact hgame)
      (by show eventCount (h.s.afterEffect h.depth x).inbox + es.length ≤ 32; omega)
      (hdepth.imp_right fun hc c he => hc c (List.mem_cons_of_mem _ he))
    rw [Handling.effects, List.foldl_cons, hx]
    exact hrest

end Sys2Proof.Machine

namespace Sys2Proof.Machine

/-! ## A firing's end (R67) -/

/-- The step that a completed firing leaves; `off` where a disarm stands against it (R67, R71). -/
def Step.completed (x : Step) (off : Bool) : Step :=
  let left := if x.record.repeats = 0 then x.left else x.left - 1
  if x.record.repeats ≠ 0 ∧ left = 0 then { x with left := left, tag := none, state := .spent }
  else if off = true then { x with left := left, tag := none, state := .dormant, seen := x.clearFlags }
  else { x with left := left, tag := none, state := .armed, seen := x.clearFlags }

theorem completed_again {x : Step} (h : x.record.repeats = 0) :
    x.completed false = { x with tag := none, state := .armed, seen := x.clearFlags } := by
  simp only [Step.completed, h, ne_eq, not_true_eq_false, false_and, if_false, Bool.false_eq_true, if_true]

theorem completed_off {x : Step} (h : x.record.repeats = 0) :
    x.completed true = { x with tag := none, state := .dormant, seen := x.clearFlags } := by
  simp only [Step.completed, h, ne_eq, not_true_eq_false, false_and, if_false, if_true]

/-- A step in the table. -/
theorem step_get {s : State} {n : Nat} {x : Step} (h : s.steps[n]? = some x) : s.step n = some x := h

/-- A step written to the table twice is as it was written last. -/
theorem modifyStep_const (x y : Step) (n : Nat) (S : List Step) :
    modifyAt (fun _ => x) n (modifyAt (fun _ => y) n S) = modifyAt (fun _ => x) n S := modifyAt_modifyAt ..

theorem getElem?_modifyAt_same {α : Type} {l : List α} {i : Nat} {x : α} (y : α) (h : l[i]? = some x) :
    (modifyAt (fun _ => y) i l)[i]? = some y := by
  rw [getElem?_modifyAt, if_pos rfl, h]
  rfl

theorem getElem?_modifyAt_other {α : Type} (f : α → α) {l : List α} {i j : Nat} (h : i ≠ j) :
    (modifyAt f i l)[j]? = l[j]? := by
  rw [getElem?_modifyAt, if_neg h.symm]

/-- A firing that completes with the step so. -/
def Handling.completes (h : Handling) (n : Nat) (s : State) : Handling :=
  { h with s := s, firing := h.firing.filter (· != n), disarm := h.disarm.filter (· != n) }

theorem complete_raise {h : Handling} {n : Nat} {x : Step} (hx : h.s.steps[n]? = some x) :
    h.complete n = h.completes n ((h.s.raise (.stepDone n) (h.depth + 1)).modifyStep n
      fun _ => x.completed (h.disarm.contains n)) := by
  rw [Handling.complete, step_get hx]
  simp only [Handling.onState, Handling.endFiring, Handling.completes, Step.completed, ne_eq]
  rfl

/-- STEP_DONE finds room. -/
theorem complete_room {h : Handling} {n : Nat} {x : Step} (hx : h.s.steps[n]? = some x)
    (hgame : h.s.session.inGame = true) (hdepth : h.depth < 8) (hroom : eventCount h.s.inbox < 32) :
    h.complete n = h.completes n (h.s.stepDone n (x.completed (h.disarm.contains n)) h.depth) := by
  rw [complete_raise hx, raise_room _ _ _ hgame hdepth hroom]
  rfl

/-- STEP_DONE would be deeper than 8 (R62). -/
theorem complete_deep {h : Handling} {n : Nat} {x : Step} (hx : h.s.steps[n]? = some x)
    (hgame : h.s.session.inGame = true) (hdepth : h.depth = 8) :
    h.complete n = h.completes n
      { h.s with
        steps := modifyAt (fun _ => x.completed (h.disarm.contains n)) n h.s.steps
        health := { h.s.health with loop := true } } := by
  have hloop : h.s.raise (.stepDone n) (h.depth + 1) = h.s.setLoop := by
    unfold State.raise
    rw [if_pos hgame, if_pos (by simp only [Config.depthLimit]; omega)]
  rw [complete_raise hx, hloop]
  rfl

/-! ## The visits of one event (R65) -/

/-- No step of this number is ARMED and concerned by the event. -/
def State.silentAt (s : State) (e : Happening) (k : Nat) : Prop :=
  ∀ x, s.steps[k]? = some x → ¬ (x.state = .armed ∧ x.record.conditions.any (·.concerns e) = true)

theorem visit_silent {h : Handling} {e : Happening} {k : Nat} (hk : h.s.silentAt e k) : h.visit e k = h := by
  unfold Handling.visit
  split
  · rfl
  · next x hx => exact if_neg fun hv => hk x hx ⟨hv.1, hv.2.1⟩

theorem foldVisit_silent {e : Happening} (l : List Nat) {h : Handling} (hl : ∀ k ∈ l, h.s.silentAt e k) :
    l.foldl (fun h n => h.visit e n) h = h := by
  induction l with
  | nil => rfl
  | cons k l ih =>
    rw [List.foldl_cons, visit_silent (hl k List.mem_cons_self)]
    exact ih fun j hj => hl j (List.mem_cons_of_mem _ hj)

/-- The numbers of the steps, one of them apart. -/
theorem range_split {a b n : Nat} (ha : a ≤ n) (hb : n < b) :
    List.range' a (b - a) = List.range' a (n - a) ++ n :: List.range' (n + 1) (b - (n + 1)) := by
  have h := List.range'_append (s := a) (m := n - a) (n := b - n) (step := 1)
  rw [show b - n = (b - (n + 1)) + 1 by omega, List.range'_succ] at h
  rw [show a + 1 * (n - a) = n by omega, show n - a + (b - (n + 1) + 1) = b - a by omega] at h
  exact h.symm

/-- The handling as it begins. -/
def State.handling (s : State) (depth : Nat) : Handling := ⟨s, [], [], [], depth⟩

theorem handleEvent_range (s : State) (e : Happening) (d : Nat) :
    s.handleEvent e d = ((List.range' 0 (64 - 0)).foldl (fun h n => h.visit e n) (s.handling d)).s := by
  rw [State.handleEvent, List.range_eq_range']
  rfl

theorem handleEvent_none {s : State} {e : Happening} (d : Nat) (h : ∀ k < 64, s.silentAt e k) :
    s.handleEvent e d = s := by
  rw [handleEvent_range, foldVisit_silent _ fun k hk => h k (by have := List.mem_range'_1.mp hk; omega)]
  rfl

/-- One step is visited. -/
theorem handleEvent_one {s : State} {e : Happening} {d n : Nat} (hn : n < 64) (hbefore : ∀ k < n, s.silentAt e k)
    (hafter : ∀ k, n < k → ((s.handling d).visit e n).s.silentAt e k) :
    s.handleEvent e d = ((s.handling d).visit e n).s := by
  rw [handleEvent_range, range_split (Nat.zero_le n) hn, List.foldl_append, List.foldl_cons,
    foldVisit_silent (List.range' 0 (n - 0)) fun k hk => hbefore k (by have := List.mem_range'_1.mp hk; omega),
    foldVisit_silent _ fun k hk => hafter k (by have := List.mem_range'_1.mp hk; omega)]

/-- Two steps are visited, one after the other. -/
theorem handleEvent_two {s : State} {e : Happening} {d n m : Nat} (hn : n < m) (hm : m < 64)
    (hbefore : ∀ k < n, s.silentAt e k)
    (hbetween : ∀ k, n < k → k < m → ((s.handling d).visit e n).s.silentAt e k)
    (hafter : ∀ k, m < k → (((s.handling d).visit e n).visit e m).s.silentAt e k) :
    s.handleEvent e d = (((s.handling d).visit e n).visit e m).s := by
  rw [handleEvent_range, range_split (Nat.zero_le n) (by omega), List.foldl_append, List.foldl_cons,
    foldVisit_silent (List.range' 0 (n - 0)) fun k hk => hbefore k (by have := List.mem_range'_1.mp hk; omega), range_split hn hm, List.foldl_append,
    List.foldl_cons, foldVisit_silent _ fun k hk => hbetween k (by have := List.mem_range'_1.mp hk; omega) (by have := List.mem_range'_1.mp hk; omega),
    foldVisit_silent _ fun k hk => hafter k (by have := List.mem_range'_1.mp hk; omega)]

/-- A step visited: its flags set, its trigger tested (R65, R66). -/
theorem visit_armed {h : Handling} {e : Happening} {n : Nat} {x : Step} (hx : h.s.steps[n]? = some x)
    (harmed : x.state = .armed) (hconcerned : ∃ c ∈ x.record.conditions, c.concerns e = true) (hfired : n ∉ h.fired) :
    h.visit e n =
      if h.s.trigger (some e) (x.sees e) = true then
        fireTop n { h with s := { h.s with steps := modifyAt (fun _ => x.sees e) n h.s.steps } }
      else { h with s := { h.s with steps := modifyAt (fun _ => x.sees e) n h.s.steps } } := by
  unfold Handling.visit
  rw [step_get hx]
  simp only
  rw [if_pos ⟨harmed, List.any_eq_true.mpr hconcerned, by simpa using hfired⟩, see_sees]
  rfl

/-! ## A firing (R67 to R71) -/

/-- Effects that begin with no claim. -/
def noClaim : List Effect → Bool
  | .claim _ _ _ _ :: _ => false
  | _ => true

theorem noClaim_plain {es : List Effect} (h : ∀ x ∈ es, x.isPlain = true) : noClaim es = true := by
  cases es with
  | nil => rfl
  | cons x es =>
    have hx := h x List.mem_cons_self
    cases x <;> first | rfl | exact hx

/-- A firing with no claim: its effects, and its completion. -/
theorem fire_noClaim {h : Handling} {fuel n : Nat} {x : Step} (hx : h.s.steps[n]? = some x)
    (hclaim : noClaim x.record.effects = true) :
    fire (fuel + 1) n h = ((h.begin n).effects (fire fuel) x.record.effects).complete n := by
  show h.fireStep (fire fuel) n = _
  rw [Handling.fireStep, step_get hx]
  simp only
  split
  · next heq =>
    rw [heq] at hclaim
    exact Bool.noConfusion hclaim
  · rfl

/-- A firing of plain effects (R67). -/
theorem fire_plain {h : Handling} {fuel n : Nat} {x : Step} (hx : h.s.steps[n]? = some x)
    (hplain : ∀ y ∈ x.record.effects, y.isPlain = true) (hgame : h.s.session.inGame = true)
    (hroom : eventCount h.s.inbox + x.record.effects.length < 32) (hdepth : h.depth < 8) (hoff : n ∉ h.disarm) :
    fire (fuel + 1) n h = (h.begin n).completes n
      ((x.record.effects.foldl (fun u y => u.afterEffect h.depth y) h.s).stepDone n (x.completed false) h.depth) := by
  have hplays := afterEffects_playsOn x.record.effects h.s h.depth
  have hcount := afterEffects_room x.record.effects h.s h.depth
  have heffects : (h.begin n).effects (fire fuel) x.record.effects =
      { h.begin n with s := x.record.effects.foldl (fun u y => u.afterEffect h.depth y) h.s } :=
    effects_plain (h := h.begin n) _ hplain hgame (Nat.le_of_lt hroom) (.inl hdepth)
  have hoff' : h.disarm.contains n = false := by simpa using hoff
  rw [fire_noClaim hx (noClaim_plain hplain), heffects]
  refine (complete_room (h := { h.begin n with s := x.record.effects.foldl (fun u y => u.afterEffect h.depth y) h.s })
    (x := x) ?_ ?_ hdepth (Nat.lt_of_le_of_lt hcount hroom)).trans ?_
  · rw [← hx]
    exact congrArg (·[n]?) hplays.steps
  · rw [← hgame]
    exact congrArg Session.inGame hplays.session
  · rw [show Handling.disarm { h.begin n with
        s := x.record.effects.foldl (fun u y => u.afterEffect h.depth y) h.s } = h.disarm from rfl, hoff']
    rfl

end Sys2Proof.Machine

namespace Sys2Proof.Machine

/-! ## Tables of steps with the same records -/

/-- Every step of the second table has its number's record in the first. -/
def recordsKept (S T : List Step) : Prop := ∀ (k : Nat) y, T[k]? = some y → ∃ x, S[k]? = some x ∧ y.record = x.record

theorem recordsKept.trans {S T U : List Step} (h : recordsKept S T) (k : recordsKept T U) : recordsKept S U := by
  intro i z hz
  obtain ⟨y, hy, hzy⟩ := k i z hz
  obtain ⟨x, hx, hyx⟩ := h i y hy
  exact ⟨x, hx, hzy.trans hyx⟩

theorem recordsKept_modifyAt {S : List Step} {n : Nat} {x y : Step} (hx : S[n]? = some x) (hy : y.record = x.record) :
    recordsKept S (modifyAt (fun _ => y) n S) := by
  intro k z hz
  rw [getElem?_modifyAt] at hz
  split at hz
  · next hk =>
    subst hk
    rw [hx] at hz
    cases hz
    exact ⟨x, hx, hy⟩
  · exact ⟨z, hz, rfl⟩

/-- A step of this number is concerned by no such event. -/
def State.unconcernedAt (s : State) (e : Happening) (k : Nat) : Prop :=
  ∀ x, s.steps[k]? = some x → ∀ c ∈ x.record.conditions, c.concerns e = false

theorem State.unconcernedAt.silentAt {s : State} {e : Happening} {k : Nat} (h : s.unconcernedAt e k) : s.silentAt e k := by
  intro x hx ⟨_, hany⟩
  obtain ⟨c, hc, hcon⟩ := List.any_eq_true.mp hany
  exact Bool.noConfusion ((h x hx c hc).symm.trans hcon)

theorem State.unconcernedAt.kept {s t : State} {e : Happening} {k : Nat} (h : s.unconcernedAt e k)
    (hkept : recordsKept s.steps t.steps) : t.unconcernedAt e k := by
  intro y hy c hc
  obtain ⟨x, hx, hrecord⟩ := hkept k y hy
  exact h x hx c (hrecord ▸ hc)

/-! ## An event taken (R63, R64) -/

theorem exec_event_discarded {s : State} {e : Happening} {depth dt : Nat} {rest : List Arrival} (hon : s.powered = true)
    (hgame : s.session.inGame = true) (hinbox : s.inbox = .event e depth :: rest) (hrest : s.session = .rest)
    (hpad : e.isPad = true) : exec (.engineEventTaken dt) s = .next (State.onLine { s.advance dt with inbox := rest }) := by
  have htake : (s.advance dt).takeEvent = { s.advance dt with inbox := rest } := by
    rw [State.takeEvent, if_pos (by exact hgame), show (s.advance dt).inbox = .event e depth :: rest from hinbox]
    exact if_pos ⟨hrest, hpad⟩
  rw [exec_engineEventTaken hon, htake]

theorem exec_event {s : State} {e : Happening} {depth dt : Nat} {rest : List Arrival} (hon : s.powered = true)
    (hgame : s.session.inGame = true) (hinbox : s.inbox = .event e depth :: rest)
    (htaken : s.session ≠ .rest ∨ e.isPad = false) :
    exec (.engineEventTaken dt) s = .next (State.handleEvent { s.advance dt with inbox := rest } e depth).onLine := by
  have htake : (s.advance dt).takeEvent = State.handleEvent { s.advance dt with inbox := rest } e depth := by
    rw [State.takeEvent, if_pos (by exact hgame), show (s.advance dt).inbox = .event e depth :: rest from hinbox]
    refine if_neg fun ⟨hrest, hpad⟩ => ?_
    rcases htaken with h | h
    · exact h hrest
    · exact Bool.noConfusion (hpad.symm.trans h)
  rw [exec_engineEventTaken hon, htake]

/-- An event that one step alone is concerned by. -/
theorem exec_event_one {s u : State} {e : Happening} {depth n dt : Nat} {rest : List Arrival}
    (h : s.takes e depth [n] rest) (hn : n < 64) (hu : u = { s.advance dt with inbox := rest })
    (hkept : recordsKept u.steps ((u.handling depth).visit e n).s.steps) :
    exec (.engineEventTaken dt) s = .next ((u.handling depth).visit e n).s.onLine := by
  obtain ⟨hon, hgame, hinbox, htaken, hothers⟩ := h
  have hquiet : ∀ k, k ≠ n → u.unconcernedAt e k := by
    intro k hk x hx
    rw [hu] at hx
    exact hothers k x (by simpa using hk) hx
  rw [exec_event hon hgame hinbox htaken, ← hu, handleEvent_one hn (fun k hk => (hquiet k (by omega)).silentAt)
    fun k hk => ((hquiet k (by omega)).kept hkept).silentAt]

/-- An event that two steps alone are concerned by. -/
theorem exec_event_two {s u : State} {e : Happening} {depth n m dt : Nat} {rest : List Arrival}
    (h : s.takes e depth [n, m] rest) (hn : n < m) (hm : m < 64) (hu : u = { s.advance dt with inbox := rest })
    (hkept : recordsKept u.steps ((u.handling depth).visit e n).s.steps)
    (hkept' : recordsKept u.steps (((u.handling depth).visit e n).visit e m).s.steps) :
    exec (.engineEventTaken dt) s = .next (((u.handling depth).visit e n).visit e m).s.onLine := by
  obtain ⟨hon, hgame, hinbox, htaken, hothers⟩ := h
  have hquiet : ∀ k, k ≠ n → k ≠ m → u.unconcernedAt e k := by
    intro k hk hk' x hx
    rw [hu] at hx
    exact hothers k x (by simp [hk, hk']) hx
  rw [exec_event hon hgame hinbox htaken, ← hu, handleEvent_two hn hm
    (fun k hk => (hquiet k (by omega) (by omega)).silentAt)
    (fun k hk hk' => ((hquiet k (by omega) (by omega)).kept hkept).silentAt)
    fun k hk => ((hquiet k (by omega) (by omega)).kept hkept').silentAt]

/-! ## A visit that fires, or does not (R65 to R67) -/

theorem visit_waits {h : Handling} {e : Happening} {n : Nat} {x : Step} (hx : h.s.steps[n]? = some x)
    (harmed : x.state = .armed) (hconcerned : ∃ c ∈ x.record.conditions, c.concerns e = true) (hfired : n ∉ h.fired)
    (htrigger : h.s.trigger (some e) (x.sees e) = false) :
    h.visit e n = { h with s := { h.s with steps := modifyAt (fun _ => x.sees e) n h.s.steps } } := by
  rw [visit_armed hx harmed hconcerned hfired, if_neg (by simp [htrigger])]

/-- The handling as the step's firing begins, its flags set. -/
def Handling.seen (h : Handling) (n : Nat) (x : Step) : Handling :=
  Handling.begin { h with s := { h.s with steps := modifyAt (fun _ => x) n h.s.steps } } n

theorem visit_fires {h g : Handling} {e : Happening} {n : Nat} {x : Step} (hx : h.s.steps[n]? = some x)
    (harmed : x.state = .armed) (hconcerned : ∃ c ∈ x.record.conditions, c.concerns e = true) (hfired : n ∉ h.fired)
    (htrigger : h.s.trigger (some e) (x.sees e) = true) (hclaim : noClaim x.record.effects = true)
    (hg : (h.seen n (x.sees e)).effects (fire 64) x.record.effects = g) :
    h.visit e n = g.complete n := by
  rw [visit_armed hx harmed hconcerned hfired, if_pos htrigger]
  rw [fireTop, fire_noClaim (x := x.sees e) (getElem?_modifyAt_same _ hx) hclaim, ← hg]
  rfl

/-- A step of plain effects fires (R67). -/
theorem visit_plain {h : Handling} {e : Happening} {n : Nat} {x : Step} (hx : h.s.steps[n]? = some x)
    (harmed : x.state = .armed) (hconcerned : ∃ c ∈ x.record.conditions, c.concerns e = true) (hfired : n ∉ h.fired)
    (htrigger : h.s.trigger (some e) (x.sees e) = true) (hplain : ∀ y ∈ x.record.effects, y.isPlain = true)
    (hgame : h.s.session.inGame = true) (hroom : eventCount h.s.inbox + x.record.effects.length < 32)
    (hdepth : h.depth < 8) (hoff : n ∉ h.disarm) :
    h.visit e n = (h.begin n).completes n
      ((x.record.effects.foldl (fun u y => u.afterEffect h.depth y) h.s).stepDone n ((x.sees e).completed false)
        h.depth) := by
  rw [visit_armed hx harmed hconcerned hfired, if_pos htrigger]
  refine (fire_plain (fuel := 64) (x := x.sees e)
    (h := { h with s := { h.s with steps := modifyAt (fun _ => x.sees e) n h.s.steps } })
    (getElem?_modifyAt_same _ hx) hplain hgame hroom hdepth hoff).trans ?_
  have hsteps := (afterEffects_playsOn x.record.effects h.s h.depth).steps
  rw [show (x.sees e).record.effects = x.record.effects from rfl]
  simp only [afterEffects_steps]
  rw [State.stepDone, State.stepDone, hsteps]
  simp only [modifyStep_const]
  rfl

theorem sees_completed {x : Step} (e : Happening) (harmed : x.state = .armed) (hrepeats : x.record.repeats = 0) :
    (x.sees e).completed false = { x with tag := none, seen := x.clearFlags } := by
  rw [completed_again (x := x.sees e) hrepeats, ← harmed]
  rfl

theorem sees_completed_counted {x : Step} (e : Happening) (harmed : x.state = .armed) (hrepeats : x.record.repeats ≠ 0)
    (hleft : 2 ≤ x.left) :
    (x.sees e).completed false = { x with tag := none, seen := x.clearFlags, left := x.left - 1 } := by
  have hmore : ¬ (x.left - 1 = 0) := by omega
  simp only [Step.completed, Step.sees, ne_eq, hrepeats, hmore, and_false, if_false, Bool.false_eq_true, ← harmed]
  rfl

theorem sees_completed_last {x : Step} (e : Happening) (hrepeats : x.record.repeats ≠ 0) (hleft : x.left = 1) :
    (x.sees e).completed false =
      { x with state := .spent, tag := none, seen := (x.sees e).seen, left := 0 } := by
  simp only [Step.completed, Step.sees, hleft, ne_eq, hrepeats, not_false_eq_true, if_false, Nat.sub_self, and_self,
    if_true]

/-- What a firing of plain effects leaves of the records. -/
theorem recordsKept_stepDone {s : State} {n d d' : Nat} {x y : Step} (es : List Effect) (hx : s.steps[n]? = some x)
    (hy : y.record = x.record) :
    recordsKept s.steps ((es.foldl (fun u z => u.afterEffect d z) s).stepDone n y d').steps := by
  have hsteps := (afterEffects_playsOn es s d).steps
  rw [State.stepDone]
  simp only [hsteps]
  exact recordsKept_modifyAt hx hy

theorem completed_record (x : Step) (off : Bool) : (x.completed off).record = x.record := by
  simp only [Step.completed]
  repeat' split
  all_goals rfl

theorem visitedStepsAreTested : VisitedStepsAreTested := by
  intro dt s u e depth n st rest htakes hcon hu
  obtain ⟨hn, hst, harmed, hconcerned⟩ := hcon
  have hgame : u.session.inGame = true := by rw [hu]; exact htakes.2.1
  have hinbox : u.inbox = rest := by rw [hu]
  have hsteps : u.steps = s.steps := by rw [hu]; rfl
  have htrig : u.trigger (some e) (st.sees e) = s.trigger (some e) (st.sees e) :=
    trigger_congr (by rw [hu]; rfl) (by rw [hu]; rfl) _ _
  have hst' : u.steps[n]? = some st := by rw [hsteps]; exact hst
  refine ⟨fun hwaits => ?_, fun hfires hplain hroom hdepth v hv => ?_⟩
  · have hvisit := visit_waits (h := u.handling depth) hst' harmed hconcerned List.not_mem_nil (htrig.trans hwaits)
    rw [exec_event_one htakes hn hu (by rw [hvisit]; exact recordsKept_modifyAt hst' rfl), hvisit, ← hsteps]
    rfl
  · subst hv
    have hvisit := visit_plain (h := u.handling depth) hst' harmed hconcerned List.not_mem_nil (htrig.trans hfires)
      hplain hgame (by rw [show (u.handling depth).s.inbox = rest from hinbox]; exact hroom) hdepth List.not_mem_nil
    have hkept := recordsKept_stepDone (d := depth) (d' := depth) st.record.effects hst'
      (completed_record (st.sees e) false)
    have hexec := exec_event_one htakes hn hu (by rw [hvisit]; exact hkept)
    rw [hvisit] at hexec
    refine ⟨fun hrepeats => ?_, fun hrepeats hleft => ?_, fun hrepeats hleft => ⟨(st.sees e).seen, ?_⟩⟩
    · rw [sees_completed e harmed hrepeats] at hexec
      exact hexec
    · rw [sees_completed_counted e harmed hrepeats hleft] at hexec
      exact hexec
    · rw [sees_completed_last e hrepeats hleft] at hexec
      exact hexec

end Sys2Proof.Machine

namespace Sys2Proof.Machine

/-! ## The trigger's parts (R55, R56, R58, R66) -/

theorem matches_padEdge (p : Nat) (k : PadEdge) (cls : Option Nat) (e : Happening) :
    (Condition.padEvent p k cls).matchesEvent e = true ↔ ∃ k', e = .pad p k' ∧ padEdgeMatches k cls k' = true := by
  cases e <;> simp only [Condition.matchesEvent, Bool.and_eq_true, beq_iff_eq, Happening.pad.injEq, Bool.false_eq_true,
    reduceCtorEq, false_and, exists_false]
  constructor
  · rintro ⟨rfl, h⟩
    exact ⟨_, ⟨rfl, rfl⟩, h⟩
  · rintro ⟨_, ⟨rfl, rfl⟩, h⟩
    exact ⟨rfl, h⟩

theorem padEdgeMatches_placed (cls : Option Nat) (k : PadEventKind) :
    padEdgeMatches .placed cls k = true ↔ ∃ c, k = .placed c ∧ (cls = none ∨ cls = some c) := by
  cases k <;> simp [padEdgeMatches]

theorem padEdgeMatches_lifted (cls : Option Nat) (k : PadEventKind) :
    padEdgeMatches .lifted cls k = true ↔ ∃ held, k = .lifted held ∧ (cls = none ∨ cls = held) := by
  cases k <;> simp [padEdgeMatches]

theorem padEdgeMatches_misread (cls : Option Nat) (k : PadEventKind) :
    padEdgeMatches .misread cls k = true ↔ k = .misread := by
  cases k <;> simp [padEdgeMatches]

theorem matches_named (x : Nat) (e : Happening) :
    ((Condition.timerExpired x).matchesEvent e = true ↔ e = .timer x) ∧
    ((Condition.cueHeard x).matchesEvent e = true ↔ e = .cue x) ∧
    ((Condition.stepDone x).matchesEvent e = true ↔ e = .stepDone x) := by
  cases e <;> simp only [Condition.matchesEvent, beq_iff_eq, Happening.timer.injEq, Happening.cue.injEq,
    Happening.stepDone.injEq, Bool.false_eq_true, reduceCtorEq, eq_comm (a := x), and_self]

theorem padHolds_iff (s : State) (p : Nat) (cls : Option Nat) :
    s.levelHolds (.padHolds p cls) = true ↔
      ∃ held, ((∃ cand, (s.pad p).state = .occupied held cand) ∨ ∃ run, (s.pad p).state = .leaving held run) ∧
        (cls = none ∨ cls = held) := by
  rw [show s.levelHolds (.padHolds p cls) = s.padHolds p cls from rfl, State.padHolds]
  cases (s.pad p).state <;> simp

/-- Under ALL, the conditions and their flags go by number. -/
theorem trigger_all {s : State} {e : Option Happening} {x : Step} (hall : x.record.matchAll = true)
    (hseen : x.seen.length = x.record.conditions.length) :
    s.trigger e x = true ↔ ∀ (k : Nat) (c : Condition), x.record.conditions[k]? = some c →
      if c.isEdge = true then x.seen[k]? = some true else s.levelHolds c = true := by
  rw [State.trigger, if_pos hall, List.all_eq_true]
  constructor
  · intro h k c hc
    obtain ⟨hk, hget⟩ := List.getElem?_eq_some_iff.mp hc
    have hk' : k < x.seen.length := by omega
    have hholds := h (c, x.seen[k]) (List.mem_iff_getElem?.mpr ⟨k, by
      simp [List.getElem?_zip_eq_some, hc, List.getElem?_eq_getElem hk']⟩)
    rw [List.getElem?_eq_getElem hk', Option.some_inj]
    simp only [State.allHolds] at hholds
    split at hholds
    · next hedge => exact (if_pos hedge).mpr hholds
    · next hedge => exact (if_neg hedge).mpr hholds
  · rintro h ⟨c, f⟩ hmem
    obtain ⟨k, hk⟩ := List.mem_iff_getElem?.mp hmem
    obtain ⟨hc, hf⟩ := List.getElem?_zip_eq_some.mp hk
    have hholds := h k c hc
    simp only [State.allHolds]
    split
    · next hedge =>
      rw [if_pos hedge] at hholds
      exact Option.some_inj.mp (hf.symm.trans hholds)
    · next hedge => exact (if_neg hedge).mp hholds

theorem anyHolds_iff (s : State) (e : Option Happening) (c : Condition) :
    s.anyHolds e c = true ↔
      if c.isEdge = true then ∃ x, e = some x ∧ c.matchesEvent x = true else s.levelHolds c = true := by
  simp only [State.anyHolds]
  by_cases hedge : c.isEdge = true
  · rw [if_pos hedge, if_pos hedge]
    cases e <;> simp
  · rw [if_neg hedge, if_neg hedge]

theorem triggersAreTested : TriggersAreTested := by
  refine ⟨fun p x cls e => ⟨?_, ?_, ?_, matches_named x e⟩, padHolds_iff, fun c => ?_, fun s e x =>
    ⟨fun hall hseen => trigger_all hall hseen, fun hany => ?_⟩⟩
  · rw [matches_padEdge]
    constructor
    · rintro ⟨k, rfl, hk⟩
      obtain ⟨c, rfl, hc⟩ := (padEdgeMatches_placed cls k).mp hk
      exact ⟨c, rfl, hc⟩
    · rintro ⟨c, rfl, hc⟩
      exact ⟨_, rfl, (padEdgeMatches_placed cls _).mpr ⟨c, rfl, hc⟩⟩
  · rw [matches_padEdge]
    constructor
    · rintro ⟨k, rfl, hk⟩
      obtain ⟨held, rfl, hheld⟩ := (padEdgeMatches_lifted cls k).mp hk
      exact ⟨held, rfl, hheld⟩
    · rintro ⟨held, rfl, hheld⟩
      exact ⟨_, rfl, (padEdgeMatches_lifted cls _).mpr ⟨held, rfl, hheld⟩⟩
  · rw [matches_padEdge]
    simp only [padEdgeMatches_misread, exists_eq_right]
  · cases c <;> simp [Condition.isEdge]
  · rw [State.trigger, if_neg (by simp [hany]), List.any_eq_true]
    simp only [anyHolds_iff]

/-! ## Tags (R39) -/

theorem tagHeld_false {s : State} {t : Byte} : s.tagHeld t = false ↔ ∀ c ∈ s.claims, c.tag ≠ t := by
  simp [State.tagHeld]

/-- The tries reach a free value, where one is within their reach. -/
theorem freeTag_reaches (s : State) (n : Nat) (t : Byte) (h : ∃ i ≤ n, s.tagHeld (t + BitVec.ofNat 8 i) = false) :
    s.tagHeld (s.freeTag n t) = false := by
  induction n generalizing t with
  | zero =>
    obtain ⟨i, hi, hfree⟩ := h
    rw [Nat.le_zero.mp hi] at hfree
    simpa [State.freeTag] using hfree
  | succ n ih =>
    rw [State.freeTag]
    split
    · next hheld =>
      obtain ⟨i, hi, hfree⟩ := h
      refine ih (t + 1) ?_
      cases i with
      | zero => simp [hheld] at hfree
      | succ i =>
        refine ⟨i, by omega, ?_⟩
        rw [← hfree]
        congr 1
        rw [BitVec.add_assoc, BitVec.ofNat_add, BitVec.add_comm (1 : Byte)]
        rfl
    · next hheld => simpa using hheld

/-- Five values in a row are not all held by four entries. -/
theorem someTag_free {s : State} (t : Byte) (h : s.claims.length ≤ 4) :
    ∃ i ≤ 5, s.tagHeld (t + BitVec.ofNat 8 i) = false := by
  by_contra hall
  have hheld : ∀ i < 5, t + BitVec.ofNat 8 i ∈ (s.claims.map (·.tag)).toFinset := by
    intro i hi
    by_contra hno
    refine hall ⟨i, by omega, tagHeld_false.mpr fun c hc heq => hno ?_⟩
    exact List.mem_toFinset.mpr (List.mem_map.mpr ⟨c, hc, heq⟩)
  have hinj : Set.InjOn (fun i => t + BitVec.ofNat 8 i) (Finset.range 5 : Set Nat) := by
    intro i hi j hj heq
    have hi' := Finset.mem_range.mp hi
    have hj' := Finset.mem_range.mp hj
    have heq' := congrArg BitVec.toNat (BitVec.add_left_inj t |>.mp (by
      simpa [BitVec.add_comm] using heq : BitVec.ofNat 8 i + t = BitVec.ofNat 8 j + t))
    simp only [BitVec.toNat_ofNat] at heq'
    omega
  have hcard := Finset.card_le_card_of_injOn _ (fun i hi => hheld i (Finset.mem_range.mp hi)) hinj
  have hfew := List.toFinset_card_le (s.claims.map (·.tag))
  rw [Finset.card_range] at hcard
  rw [List.length_map] at hfew
  omega

theorem tagsAreFresh : TagsAreFresh := by
  refine fun s hfew => ⟨tagHeld_false.mp (freeTag_reaches s 5 _ (someTag_free _ hfew)), fun hfree => ?_⟩
  rw [State.nextTag, State.freeTag, tagHeld_false.mpr hfree]
  rfl

end Sys2Proof.Machine

namespace Sys2Proof.Machine

/-! ## A firing that completes at once (R65 to R67) -/

theorem modifyAt_around {α : Type} (x y : α) (f : α → α) {n m : Nat} (S : List α) :
    modifyAt (fun _ => x) n (modifyAt f m (modifyAt (fun _ => y) n S)) = modifyAt (fun _ => x) n (modifyAt f m S) := by
  apply List.ext_getElem?
  intro j
  simp only [getElem?_modifyAt]
  split
  · split <;> simp only [Option.map_map, Function.comp_def]
  · rfl

theorem modifyAt_at {α : Type} (f : α → α) {n : Nat} {x : α} {S : List α} (hx : S[n]? = some x) :
    modifyAt f n S = modifyAt (fun _ => f x) n S :=
  modifyAt_congr fun y hy => by rw [Option.some_inj.mp (hx.symm.trans hy)]

/-- The visit of a step that fires, completes, and has room for its STEP_DONE. -/
theorem visit_completes {h g : Handling} {e : Happening} {n : Nat} {x : Step} (hx : h.s.steps[n]? = some x)
    (harmed : x.state = .armed) (hconcerned : ∃ c ∈ x.record.conditions, c.concerns e = true) (hfired : n ∉ h.fired)
    (htrigger : h.s.trigger (some e) (x.sees e) = true) (hclaim : noClaim x.record.effects = true)
    (hg : (h.seen n (x.sees e)).effects (fire 64) x.record.effects = g) (hstep : g.s.steps[n]? = some (x.sees e))
    (hgame : g.s.session.inGame = true) (hdepth : g.depth < 8) (hroom : eventCount g.s.inbox < 32) :
    h.visit e n = g.completes n (g.s.stepDone n ((x.sees e).completed (g.disarm.contains n)) g.depth) := by
  rw [visit_fires hx harmed hconcerned hfired htrigger hclaim hg, complete_room hstep hgame hdepth hroom]

/-- A step marked as having seen, its firing begun, in the table. -/
theorem seen_steps (h : Handling) (n : Nat) (x : Step) : (h.seen n x).s.steps = modifyAt (fun _ => x) n h.s.steps := rfl

/-! ## ARM and DISARM (R69 to R71) -/

theorem disarmStep_firing {h : Handling} {m : Nat} (hfiring : m ∈ h.firing) :
    h.disarmStep m = { h with disarm := m :: h.disarm } := if_pos (by simpa using hfiring)

theorem disarmStep_other {h : Handling} {m : Nat} {x : Step} (hfiring : m ∉ h.firing) (hx : h.s.steps[m]? = some x) :
    h.disarmStep m = { h with s := { h.s with steps := modifyAt (fun _ => x.disarmed) m h.s.steps } } := by
  have hsame : modifyAt (fun _ => x) m h.s.steps = h.s.steps :=
    (modifyAt_at (fun y => y) hx).symm.trans (modifyAt_id m _)
  unfold Handling.disarmStep Step.disarmed
  rw [if_neg (by simpa using hfiring), step_get hx]
  cases hst : x.state with
  | armed =>
    simp only [hst, Handling.onState, State.modifyStep]
    rw [modifyAt_at _ hx]
    rfl
  | pending =>
    simp only [hst, Handling.onState, State.modifyStep]
    rw [modifyAt_at _ hx]
  | _ => simp only [hst, hsame]

theorem armStep_firing {fire : Nat → Handling → Handling} {h : Handling} {m : Nat} (hfiring : m ∈ h.firing) :
    h.arm fire m = h := if_pos (by simpa using hfiring)

theorem armStep_still {fire : Nat → Handling → Handling} {h : Handling} {m : Nat} {x : Step} (hx : h.s.steps[m]? = some x)
    (hstate : x.state = .armed ∨ x.state = .pending ∨ x.state = .quarantined) : h.arm fire m = h := by
  unfold Handling.arm
  rw [step_get hx]
  split
  · rfl
  · rcases hstate with hstate | hstate | hstate <;> simp only [hstate]

theorem armStep_withdrawn {fire : Nat → Handling → Handling} {h : Handling} {m : Nat} {x : Step} (hfiring : m ∉ h.firing)
    (hx : h.s.steps[m]? = some x) (hstate : x.state = .withdrawn) :
    h.arm fire m =
      { h with s := { h.s with steps := modifyAt (fun _ => { x with state := .pending }) m h.s.steps } } := by
  unfold Handling.arm
  rw [if_neg (by simpa using hfiring), step_get hx]
  simp only [hstate, Handling.onState, State.modifyStep]
  rw [modifyAt_at _ hx]

/-- ARM of a DORMANT or a SPENT step, evaluated on the spot (R69, R70). -/
theorem armStep_rearmed {fire : Nat → Handling → Handling} {h : Handling} {m : Nat} {x : Step} (hfiring : m ∉ h.firing)
    (hfired : m ∉ h.fired) (hx : h.s.steps[m]? = some x) (hstate : x.state = .dormant ∨ x.state = .spent) :
    h.arm fire m =
      if h.s.trigger none x.rearmed = true then
        fire m { h with s := { h.s with steps := modifyAt (fun _ => x.rearmed) m h.s.steps } }
      else { h with s := { h.s with steps := modifyAt (fun _ => x.rearmed) m h.s.steps } } := by
  have hspot : h.arm fire m = Handling.arm.onSpot fire h m x.rearmed := by
    unfold Handling.arm Step.rearmed
    rw [if_neg (by simpa using hfiring), step_get hx]
    rcases hstate with hstate | hstate <;> simp only [hstate] <;> rfl
  rw [hspot]
  exact if_neg (show ¬ (h.fired.contains m = true) by simpa using hfired)

theorem armStep_waits {fire : Nat → Handling → Handling} {h : Handling} {m : Nat} {x : Step} (hfiring : m ∉ h.firing)
    (hfired : m ∉ h.fired) (hx : h.s.steps[m]? = some x) (hstate : x.state = .dormant ∨ x.state = .spent)
    (htrigger : h.s.trigger none x.rearmed = false) :
    h.arm fire m = { h with s := { h.s with steps := modifyAt (fun _ => x.rearmed) m h.s.steps } } := by
  rw [armStep_rearmed hfiring hfired hx hstate, if_neg (by simp [htrigger])]

/-! ## DISARM_QUEST (R71) -/

/-- The table with those of its steps disarmed. -/
def disarmedSteps (off : Nat → Bool) (S : List Step) : List Step :=
  mapFrom (fun k (x : Step) => if off k = true then x.disarmed else x) 0 S

theorem disarmedSteps_get (off : Nat → Bool) (S : List Step) (k : Nat) :
    (disarmedSteps off S)[k]? = (S[k]?).map fun x => if off k = true then x.disarmed else x := by
  rw [disarmedSteps, getElem?_mapFrom, Nat.zero_add]

/-- DISARM of many steps, all in the table. -/
theorem foldDisarm_eq (l : List Nat) {h : Handling} (hdup : l.Nodup) (hin : ∀ k ∈ l, k < h.s.steps.length) :
    l.foldl (fun h k => h.disarmStep k) h =
      { h with
        s := { h.s with steps := disarmedSteps (fun k => decide (k ∈ l ∧ k ∉ h.firing)) h.s.steps }
        disarm := (l.filter (· ∈ h.firing)).reverse ++ h.disarm } := by
  induction l generalizing h with
  | nil =>
    have hsame : disarmedSteps (fun k => decide (k ∈ ([] : List Nat) ∧ k ∉ h.firing)) h.s.steps = h.s.steps := by
      apply List.ext_getElem?
      intro j
      rw [disarmedSteps_get]
      simp
    rw [hsame]
    rfl
  | cons k l ih =>
    obtain ⟨hk, hdup⟩ := List.nodup_cons.mp hdup
    rw [List.foldl_cons]
    by_cases hfiring : k ∈ h.firing
    · rw [disarmStep_firing hfiring, ih (h := { h with disarm := k :: h.disarm }) hdup
        fun j hj => hin j (List.mem_cons_of_mem _ hj)]
      have hsame : ∀ j, (j ∈ k :: l ∧ j ∉ h.firing) ↔ (j ∈ l ∧ j ∉ h.firing) := by
        intro j
        rw [List.mem_cons]
        constructor
        · rintro ⟨rfl | hj, hno⟩
          · exact absurd hfiring hno
          · exact ⟨hj, hno⟩
        · exact fun ⟨hj, hno⟩ => ⟨.inr hj, hno⟩
      simp only [hsame]
      simp [hfiring]
    · have hx := List.getElem?_eq_getElem (hin k List.mem_cons_self)
      rw [disarmStep_other hfiring hx, ih hdup fun j hj => by
        rw [modifyAt_length]
        exact hin j (List.mem_cons_of_mem _ hj)]
      have hsteps : disarmedSteps (fun j => decide (j ∈ l ∧ j ∉ h.firing))
            (modifyAt (fun _ => (h.s.steps[k]'(hin k List.mem_cons_self)).disarmed) k h.s.steps) =
          disarmedSteps (fun j => decide (j ∈ k :: l ∧ j ∉ h.firing)) h.s.steps := by
        apply List.ext_getElem?
        intro j
        rw [disarmedSteps_get, disarmedSteps_get, getElem?_modifyAt]
        by_cases hj : j = k
        · subst hj
          simp [hx, hk, hfiring]
        · simp [hj]
      rw [hsteps]
      simp [hfiring]

theorem questSteps_nodup (s : State) (q : Nat) : (s.questSteps q).Nodup := List.nodup_range.filter _

theorem mem_questSteps {s : State} {q k : Nat} :
    k ∈ s.questSteps q ↔ k < 64 ∧ ∃ x, s.steps[k]? = some x ∧ x.state ≠ .quarantined ∧ x.record.quest = q := by
  rw [State.questSteps, List.mem_filter, List.mem_range]
  show _ ∧ (match s.steps[k]? with | some st => _ | none => _) = true ↔ _
  cases s.steps[k]? <;> simp

end Sys2Proof.Machine

namespace Sys2Proof.Machine

/-! ## The firings of one event (R59 to R71) -/

theorem State.firesOn.takes {s : State} {e : Happening} {depth n : Nat} {st : Step} {rest : List Arrival}
    (h : s.firesOn e depth n st rest) : s.takes e depth [n] rest := by
  obtain ⟨hon, hgame, hinbox, htaken, -, -, -, -, -, -, hothers⟩ := h
  exact ⟨hon, hgame, hinbox, htaken, fun k x hk => hothers k x (by simpa using hk)⟩

theorem State.firesOn.concerned {s : State} {e : Happening} {depth n : Nat} {st : Step} {rest : List Arrival}
    (h : s.firesOn e depth n st rest) : s.concerned e n st := by
  obtain ⟨-, -, -, -, hn, hst, harmed, ⟨c, hc, -, hcon, -⟩, -⟩ := h
  exact ⟨hn, hst, harmed, c, by simp [hc], hcon⟩

/-- One edge condition, matched. -/
theorem trigger_edge {s : State} {e : Happening} {x : Step} {c : Condition} (hc : x.record.conditions = [c])
    (hedge : c.isEdge = true) (hmatches : c.matchesEvent e = true) (hseen : x.seen = [false]) :
    s.trigger (some e) (x.sees e) = true := by
  simp [State.trigger, Step.sees, hc, hseen, hedge, hmatches, State.allHolds, State.anyHolds]

theorem sees_edge {e : Happening} {x : Step} {c : Condition} (hc : x.record.conditions = [c])
    (hedge : c.isEdge = true) (hmatches : c.matchesEvent e = true) (hseen : x.seen = [false]) :
    x.sees e = { x with seen := [true] } := by
  simp [Step.sees, hc, hseen, hedge, hmatches]

theorem clearFlags_edge {x : Step} {c : Condition} (hc : x.record.conditions = [c]) (hseen : x.seen = [false]) :
    x.clearFlags = x.seen := by
  simp [Step.clearFlags, hc, hseen]

theorem State.firesOn.trigger {s u : State} {e : Happening} {depth n : Nat} {st : Step} {rest : List Arrival}
    (h : s.firesOn e depth n st rest) : u.trigger (some e) (st.sees e) = true := by
  obtain ⟨-, -, -, -, -, -, -, ⟨c, hc, hedge, -, hmatches⟩, hseen, -⟩ := h
  exact trigger_edge hc hedge hmatches hseen

theorem State.firesOn.repeats {s : State} {e : Happening} {depth n : Nat} {st : Step} {rest : List Arrival}
    (h : s.firesOn e depth n st rest) : st.record.repeats = 0 := by
  obtain ⟨-, -, -, -, -, -, -, -, -, hrepeats, -⟩ := h
  exact hrepeats

theorem State.firesOn.clear {s : State} {e : Happening} {depth n : Nat} {st : Step} {rest : List Arrival}
    (h : s.firesOn e depth n st rest) : st.clearFlags = st.seen := by
  obtain ⟨-, -, -, -, -, -, -, ⟨c, hc, -⟩, hseen, -⟩ := h
  exact clearFlags_edge hc hseen

/-- What the firing leaves of the step. -/
theorem State.firesOn.completed {s : State} {e : Happening} {depth n : Nat} {st : Step} {rest : List Arrival}
    (h : s.firesOn e depth n st rest) : (st.sees e).completed false = { st with tag := none } := by
  rw [sees_completed e h.concerned.2.2.1 h.repeats, h.clear]

theorem State.firesOn.completed_off {s : State} {e : Happening} {depth n : Nat} {st : Step} {rest : List Arrival}
    (h : s.firesOn e depth n st rest) :
    (st.sees e).completed true = { st with state := .dormant, tag := none } := by
  rw [Machine.completed_off (x := st.sees e) h.repeats, show (st.sees e).clearFlags = st.seen from h.clear]
  rfl

/-- The event is taken: one step fires and completes. -/
theorem exec_fires {s u : State} {e : Happening} {depth n dt : Nat} {st : Step} {rest : List Arrival} {g : Handling}
    (h : s.takes e depth [n] rest) (hcon : s.concerned e n st) (htrigger : s.trigger (some e) (st.sees e) = true)
    (hclaim : noClaim st.record.effects = true) (hu : u = { s.advance dt with inbox := rest })
    (hg : ((u.handling depth).seen n (st.sees e)).effects (fire 64) st.record.effects = g)
    (hstep : g.s.steps[n]? = some (st.sees e)) (hgame : g.s.session.inGame = true) (hdepth : g.depth = depth)
    (hdeep : depth < 8) (hroom : eventCount g.s.inbox < 32) (hkept : recordsKept s.steps g.s.steps) :
    exec (.engineEventTaken dt) s =
      .next (g.s.stepDone n ((st.sees e).completed (g.disarm.contains n)) depth).onLine := by
  obtain ⟨hn, hst, harmed, hconcerned⟩ := hcon
  have hsteps : u.steps = s.steps := by rw [hu]; rfl
  have htrig : u.trigger (some e) (st.sees e) = s.trigger (some e) (st.sees e) :=
    trigger_congr (by rw [hu]; rfl) (by rw [hu]; rfl) _ _
  have hvisit := visit_completes (h := u.handling depth) (by rw [← hst, ← hsteps]; rfl) harmed hconcerned
    List.not_mem_nil (htrig.trans htrigger) hclaim hg hstep hgame (by omega) hroom
  rw [exec_event_one h hn hu, hvisit, hdepth]
  · rfl
  · rw [hvisit, hsteps]
    exact hkept.trans (recordsKept_modifyAt hstep (completed_record _ _))

theorem eventCount_append (as : List Arrival) (w : Happening) (d : Nat) :
    eventCount (as ++ [.event w d]) = eventCount as + 1 := by
  rw [eventCount, List.filter_append, List.length_append]
  rfl

/-- A step's firing ends alike from tables that differ at the step alone. -/
theorem stepDone_steps {u : State} {n d : Nat} {y : Step} {S T : List Step}
    (h : modifyAt (fun _ => y) n S = modifyAt (fun _ => y) n T) :
    State.stepDone { u with steps := S } n y d = State.stepDone { u with steps := T } n y d := by
  simp only [State.stepDone, h]

theorem plainEffectsAreApplied : PlainEffectsAreApplied := by
  intro dt s u e depth n st rest h hplain hroom hu
  have htakes := h.takes
  refine ⟨fun hdepth => ?_, fun hdepth hcue => ?_⟩
  · have hfires := (visitedStepsAreTested dt s _ e depth n st rest htakes h.concerned rfl).2 h.trigger hplain hroom hdepth
      u hu
    have hexec := hfires.1 h.repeats
    rw [h.clear] at hexec
    exact hexec
  · obtain ⟨hn, hst, harmed, hconcerned⟩ := h.concerned
    generalize hw : ({ s.advance dt with inbox := rest } : State) = w at hu
    have hsteps : w.steps = s.steps := by rw [← hw]; rfl
    have hgame : w.session.inGame = true := by rw [← hw]; exact htakes.2.1
    have hinbox : w.inbox = rest := by rw [← hw]
    have hst' : (w.handling depth).s.steps[n]? = some st := by rw [← hst, ← hsteps]; rfl
    have hplays := afterEffects_playsOn st.record.effects
      { w with steps := modifyAt (fun _ => st.sees e) n w.steps } depth
    have heffects := effects_plain (fire := fire 64) (h := (w.handling depth).seen n (st.sees e)) st.record.effects
      hplain hgame (by
        show eventCount w.inbox + _ ≤ 32
        rw [hinbox]
        omega) (.inr hcue)
    have hvisit := visit_fires (h := w.handling depth) hst' harmed hconcerned List.not_mem_nil h.trigger
      (noClaim_plain hplain) heffects
    rw [complete_deep (x := st.sees e) (by
        rw [← getElem?_modifyAt_same (st.sees e) hst']
        exact congrArg (·[n]?) hplays.steps)
      (by rw [← hgame]; exact congrArg Session.inGame hplays.session) hdepth] at hvisit
    have htable : (st.record.effects.foldl (fun u x => u.afterEffect depth x)
        { w with steps := modifyAt (fun _ => st.sees e) n w.steps }) =
        { u with steps := modifyAt (fun _ => st.sees e) n w.steps } := by
      rw [afterEffects_steps, hu]
    have hloop : ((w.handling depth).visit e n).s =
        { u with
          steps := modifyAt (fun _ => { st with tag := none }) n s.steps
          health := { u.health with loop := true } } := by
      rw [hvisit]
      refine (congrArg (fun t : State =>
        { t with
          steps := modifyAt (fun _ => (st.sees e).completed false) n t.steps
          health := { t.health with loop := true } }) htable).trans ?_
      simp only [modifyStep_const, h.completed, hsteps]
    rw [exec_event_one htakes hn hw.symm, hloop]
    rw [hloop, hsteps]
    exact recordsKept_modifyAt hst rfl

/-! ## ARM and DISARM by a firing (R69 to R71) -/

/-- The table as a firing's effects find it, and a step of it written. -/
theorem seen_get (h : Handling) {n m : Nat} {x y : Step} (hne : m ≠ n) (hy : h.s.steps[m]? = some y) :
    (h.seen n x).s.steps[m]? = some y :=
  (getElem?_modifyAt_other _ hne.symm).trans hy

theorem seen_get_same (h : Handling) {n : Nat} {x y : Step} (hx : h.s.steps[n]? = some x) :
    (h.seen n y).s.steps[n]? = some y := getElem?_modifyAt_same _ hx

theorem seen_free (s : State) (d : Nat) {n m : Nat} {x : Step} (hne : m ≠ n) :
    m ∉ ((s.handling d).seen n x).firing ∧ m ∉ ((s.handling d).seen n x).fired :=
  ⟨by simpa [Handling.seen, Handling.begin, State.handling] using hne,
    by simpa [Handling.seen, Handling.begin, State.handling] using hne⟩

theorem rearmed_completed {x : Step} (h : x.record.repeats = 0) :
    x.rearmed.completed false = { x.rearmed with tag := none } := completed_again h

theorem disarmed_record (x : Step) : x.disarmed.record = x.record := by
  unfold Step.disarmed
  split <;> rfl

/-- The event is taken: the effects of the one step that fires touch nothing but the table of steps. -/
theorem State.firesOn.exec_table {s u : State} {e : Happening} {depth n dt : Nat} {st : Step} {rest : List Arrival}
    {g : Handling} {S T : List Step} (h : s.firesOn e depth n st rest) (hdepth : depth < 8) (hroom : eventCount rest < 31)
    (hu : u = { s.advance dt with inbox := rest }) (hclaim : noClaim st.record.effects = true)
    (hg : ((u.handling depth).seen n (st.sees e)).effects (fire 64) st.record.effects = g)
    (hs : g.s = { u with steps := T }) (hd : g.depth = depth) (hstep : T[n]? = some (st.sees e))
    (hsame : ∀ y, modifyAt (fun _ => y) n T = modifyAt (fun _ => y) n S) (hkept : recordsKept s.steps T) :
    exec (.engineEventTaken dt) s =
      .next (State.stepDone { u with steps := S } n ((st.sees e).completed (g.disarm.contains n)) depth).onLine := by
  have hgame : u.session.inGame = true := by rw [hu]; exact h.takes.2.1
  have hcount : eventCount u.inbox < 32 := by rw [hu]; exact Nat.lt_succ_of_lt hroom
  have hexec := exec_fires (dt := dt) h.takes h.concerned h.trigger hclaim hu hg (by rw [hs]; exact hstep)
    (by rw [hs]; exact hgame) hd hdepth (by rw [hs]; exact hcount) (by rw [hs]; exact hkept)
  rw [hexec, hs, stepDone_steps (hsame _)]

/-- A firing writes another step of the table. -/
theorem State.firesOn.exec_writes {s u : State} {e : Happening} {depth n m dt : Nat} {st x y : Step}
    {rest : List Arrival} (h : s.firesOn e depth n st rest) (hdepth : depth < 8) (hroom : eventCount rest < 31)
    (hu : u = { s.advance dt with inbox := rest }) (hclaim : noClaim st.record.effects = true) (hne : m ≠ n)
    (hx : s.steps[m]? = some x) (hy : y.record = x.record)
    (hg : ((u.handling depth).seen n (st.sees e)).effects (fire 64) st.record.effects =
      { (u.handling depth).seen n (st.sees e) with
        s := { ((u.handling depth).seen n (st.sees e)).s with
          steps := modifyAt (fun _ => y) m ((u.handling depth).seen n (st.sees e)).s.steps } }) :
    exec (.engineEventTaken dt) s =
      .next (State.stepDone { u with steps := modifyAt (fun _ => y) m s.steps } n { st with tag := none } depth).onLine := by
  obtain ⟨-, hst, -⟩ := h.concerned
  have hsteps : u.steps = s.steps := by rw [hu]; rfl
  have htable : ((u.handling depth).seen n (st.sees e)).s.steps = modifyAt (fun _ => st.sees e) n s.steps :=
    congrArg _ hsteps
  rw [htable] at hg
  have hexec := h.exec_table (S := modifyAt (fun _ => y) m s.steps) hdepth hroom hu hclaim hg rfl rfl
    ((getElem?_modifyAt_other _ hne).trans (getElem?_modifyAt_same _ hst)) (fun z => modifyAt_around _ _ _ _)
    ((recordsKept_modifyAt hst (y := st.sees e) rfl).trans (recordsKept_modifyAt ((getElem?_modifyAt_other _ hne.symm).trans hx) hy))
  rw [← h.completed]
  exact hexec

/-- A firing leaves the table as it is. -/
theorem State.firesOn.exec_writesNone {s u : State} {e : Happening} {depth n dt : Nat} {st : Step}
    {rest : List Arrival} (h : s.firesOn e depth n st rest) (hdepth : depth < 8) (hroom : eventCount rest < 31)
    (hu : u = { s.advance dt with inbox := rest }) (hclaim : noClaim st.record.effects = true) (off : List Nat)
    (hg : ((u.handling depth).seen n (st.sees e)).effects (fire 64) st.record.effects =
      { (u.handling depth).seen n (st.sees e) with disarm := off }) :
    exec (.engineEventTaken dt) s =
      .next (u.stepDone n ((st.sees e).completed (off.contains n)) depth).onLine := by
  obtain ⟨-, hst, -⟩ := h.concerned
  have hsteps : u.steps = s.steps := by rw [hu]; rfl
  have htable : ((u.handling depth).seen n (st.sees e)).s = { u with steps := modifyAt (fun _ => st.sees e) n s.steps } := by
    rw [← hsteps]
    rfl
  have hexec := h.exec_table (S := s.steps) hdepth hroom hu hclaim hg htable rfl (getElem?_modifyAt_same _ hst)
    (fun z => modifyStep_const _ _ _ _) (recordsKept_modifyAt hst rfl)
  rw [← hsteps] at hexec
  exact hexec

theorem disarmed_quarantined {x : Step} (h : x.state = .quarantined) : x.disarmed = x := by
  unfold Step.disarmed
  rw [h]

/-- ARM of a step whose trigger holds, with a DIGITS effect alone: it fires on the spot (R69, R70). -/
theorem armStep_digits {h : Handling} {m : Nat} {x : Step} {d : Digits} (hfiring : m ∉ h.firing) (hfired : m ∉ h.fired)
    (hx : h.s.steps[m]? = some x) (hstate : x.state = .dormant ∨ x.state = .spent)
    (htrigger : h.s.trigger none x.rearmed = true) (heff : x.record.effects = [.digits d])
    (hrepeats : x.record.repeats = 0) (hgame : h.s.session.inGame = true) (hroom : eventCount h.s.inbox + 1 < 32)
    (hdepth : h.depth < 8) (hoff : m ∉ h.disarm) :
    h.arm (fire 64) m = (h.begin m).completes m
      (State.stepDone { h.s with digits := d } m { x.rearmed with tag := none } h.depth) := by
  have heff' : x.rearmed.record.effects = [.digits d] := heff
  have hnested := fire_plain (fuel := 63) (n := m) (x := x.rearmed)
    (h := { h with s := { h.s with steps := modifyAt (fun _ => x.rearmed) m h.s.steps } })
    (getElem?_modifyAt_same _ hx) (by simp [heff', Effect.isPlain]) hgame (by rw [heff']; exact hroom) hdepth hoff
  rw [heff', rearmed_completed hrepeats] at hnested
  rw [armStep_rearmed hfiring hfired hx hstate, if_pos htrigger, hnested]
  exact congrArg ((h.begin m).completes m)
    (stepDone_steps (u := { h.s with digits := d }) (modifyStep_const _ x.rearmed m h.s.steps))

/-- DISARM_QUEST disarms the quest's steps, the firing one apart (R71). -/
theorem foldDisarm_quest (s : State) (d q : Nat) {n : Nat} {st st' : Step} (hlen : s.steps.length ≤ 64)
    (hst : s.steps[n]? = some st) (hstate : st'.state = .armed) (hrecord : st'.record = st.record) :
    ∃ T off, (((s.handling d).seen n st').s.questSteps q).foldl (fun h k => h.disarmStep k) ((s.handling d).seen n st') =
        { (s.handling d).seen n st' with s := { s with steps := T }, disarm := off } ∧
      T[n]? = some st' ∧ (off.contains n = true ↔ st.record.quest = q) ∧ recordsKept s.steps T ∧
      ∀ y, modifyAt (fun _ => y) n T = modifyAt (fun _ => y) n (mapFrom (fun k (x : Step) =>
        if k ≠ n ∧ x.record.quest = q then x.disarmed else x) 0 s.steps) := by
  have hsame := seen_get_same (s.handling d) (y := st') hst
  have hlength : ((s.handling d).seen n st').s.steps.length = s.steps.length := modifyAt_length _ _ _
  have hfold := foldDisarm_eq (((s.handling d).seen n st').s.questSteps q) (h := (s.handling d).seen n st')
    (questSteps_nodup _ q) fun k hk => by
      obtain ⟨_, x, hx, _⟩ := mem_questSteps.mp hk
      exact (List.getElem?_eq_some_iff.mp hx).1
  have hfiring : ∀ k, k ∈ ((s.handling d).seen n st').firing ↔ k = n := fun k => List.mem_singleton
  have hquest : n ∈ ((s.handling d).seen n st').s.questSteps q ↔ st.record.quest = q := by
    rw [mem_questSteps, hsame, ← hrecord]
    constructor
    · rintro ⟨-, x, hx, -, hq⟩
      rw [Option.some_inj.mp hx]
      exact hq
    · exact fun hq => ⟨by have := (List.getElem?_eq_some_iff.mp hst).1; omega, st', rfl, by simp [hstate], hq⟩
  refine ⟨_, _, hfold, ?_, ?_, ?_, ?_⟩
  · rw [disarmedSteps_get, hsame]
    simp [hfiring]
  · rw [← hquest]
    simp [Handling.seen, Handling.begin, State.handling]
  · intro k y hy
    rw [disarmedSteps_get] at hy
    obtain ⟨x, hx, rfl⟩ := Option.map_eq_some_iff.mp hy
    obtain ⟨z, hz, hzx⟩ := recordsKept_modifyAt hst hrecord k x hx
    refine ⟨z, hz, ?_⟩
    split
    · rw [disarmed_record, hzx]
    · exact hzx
  · intro y
    apply List.ext_getElem?
    intro j
    rw [getElem?_modifyAt, getElem?_modifyAt, disarmedSteps_get, getElem?_mapFrom, Nat.zero_add]
    by_cases hj : j = n
    · subst hj
      rw [if_pos rfl, if_pos rfl, hsame, hst]
      rfl
    · have hget : ((s.handling d).seen n st').s.steps[j]? = s.steps[j]? := getElem?_modifyAt_other _ (Ne.symm hj)
      rw [if_neg hj, if_neg hj, hget]
      cases hx : s.steps[j]? with
      | none => rfl
      | some x =>
        have hj' : j < 64 := by have := (List.getElem?_eq_some_iff.mp hx).1; omega
        rw [Option.map_some, Option.map_some]
        congr 1
        by_cases hq : x.state = .quarantined
        · simp only [disarmed_quarantined hq, ite_self]
        · simp [mem_questSteps, hfiring, hj, hj', hget, hx, hq]

theorem armAndDisarmAct : ArmAndDisarmAct := by
  intro dt s u e depth n st rest h hdepth hroom hu
  obtain ⟨hn, hst, harmed, hconcerned⟩ := h.concerned
  have hsteps : u.steps = s.steps := by rw [hu]; rfl
  have htrig : ∀ x : Step, ((u.handling depth).seen n (st.sees e)).s.trigger none x = s.trigger none x :=
    trigger_congr (by rw [hu]; rfl) (by rw [hu]; rfl) none
  have hother : ∀ m x, m ≠ n → s.steps[m]? = some x →
      ((u.handling depth).seen n (st.sees e)).s.steps[m]? = some x :=
    fun m x hne hx => seen_get _ hne (by rw [← hx, ← hsteps]; rfl)
  have hfiring : n ∈ ((u.handling depth).seen n (st.sees e)).firing := List.mem_cons_self
  refine ⟨fun m x heff hne hx => ?_, fun heff => ?_, fun q heff hlen => ?_, fun heff => ?_, fun m x heff hne hx =>
    ⟨fun hstate => ?_, fun hstate => ?_, fun hstate => ⟨fun hno => ?_, fun d hyes heff' hrepeats => ?_⟩⟩⟩
  · refine h.exec_writes hdepth hroom hu (by rw [heff]; rfl) hne hx (disarmed_record x) ?_
    rw [heff]
    exact disarmStep_other (seen_free u depth hne).1 (hother m x hne hx)
  · rw [← h.completed_off]
    have hexec := h.exec_writesNone hdepth hroom hu (by rw [heff]; rfl) [n]
      (by rw [heff]; exact disarmStep_firing hfiring)
    simpa using hexec
  · obtain ⟨T, off, hfold, hstep, hoff, hkept, hsame⟩ := foldDisarm_quest u depth q (st := st) (st' := st.sees e)
      (hsteps ▸ hlen) (hsteps ▸ hst) harmed rfl
    rw [hsteps] at hkept hsame
    have hexec := h.exec_table hdepth hroom hu (by rw [heff]; rfl) ((congrArg _ heff).trans hfold) rfl rfl hstep
      hsame hkept
    rw [hexec]
    congr 3
    by_cases hq : st.record.quest = q
    · rw [if_pos hq, hoff.mpr hq, h.completed_off]
    · rw [if_neg hq, show off.contains n = false by simpa using fun h => hq (hoff.mp h), h.completed, ← harmed]
  · rw [← h.completed]
    exact h.exec_writesNone hdepth hroom hu (by rw [heff]; rfl) [] (by rw [heff]; exact armStep_firing hfiring)
  · rw [← h.completed]
    exact h.exec_writesNone hdepth hroom hu (by rw [heff]; rfl) []
      (by rw [heff]; exact armStep_still (hother m x hne hx) hstate)
  · refine h.exec_writes hdepth hroom hu (by rw [heff]; rfl) hne hx rfl ?_
    rw [heff]
    exact armStep_withdrawn (seen_free u depth hne).1 (hother m x hne hx) hstate
  · refine h.exec_writes hdepth hroom hu (by rw [heff]; rfl) hne hx rfl ?_
    rw [heff]
    exact armStep_waits (seen_free u depth hne).1 (seen_free u depth hne).2 (hother m x hne hx) hstate
      ((htrig _).trans hno)
  · have hgame : u.session.inGame = true := by rw [hu]; exact h.takes.2.1
    have hinbox : u.inbox = rest := by rw [hu]
    have hfree := seen_free u depth (n := n) (x := st.sees e) hne
    have harm := armStep_digits (h := (u.handling depth).seen n (st.sees e)) hfree.1 hfree.2 (hother m x hne hx) hstate
      ((htrig _).trans hyes) heff' hrepeats hgame (by
        show eventCount u.inbox + 1 < 32
        rw [hinbox]
        omega) hdepth List.not_mem_nil
    have htable : ((u.handling depth).seen n (st.sees e)).s.steps = modifyAt (fun _ => st.sees e) n s.steps :=
      congrArg _ hsteps
    have hexec := exec_fires (dt := dt) h.takes h.concerned h.trigger (by rw [heff]; rfl) hu
      ((congrArg _ heff).trans harm)
      (by
        show (modifyAt _ m ((u.handling depth).seen n (st.sees e)).s.steps)[n]? = _
        rw [getElem?_modifyAt_other _ hne, htable, getElem?_modifyAt_same _ hst])
      hgame rfl hdepth (by
        show eventCount (u.inbox ++ [.event (.stepDone m) (depth + 1)]) < 32
        rw [eventCount_append, hinbox]
        omega) (by
        show recordsKept s.steps (modifyAt _ m ((u.handling depth).seen n (st.sees e)).s.steps)
        rw [htable]
        exact (recordsKept_modifyAt hst (y := st.sees e) rfl).trans
          (recordsKept_modifyAt ((getElem?_modifyAt_other _ hne.symm).trans hx) rfl))
    rw [hexec, ← h.completed]
    congr 2
    exact stepDone_steps (u := State.stepDone { u with digits := d } m { x.rearmed with tag := none } depth)
      (modifyAt_around _ (st.sees e) _ u.steps)

end Sys2Proof.Machine

namespace Sys2Proof.Machine

/-! ## Two steps visited for one event (R65) -/

/-- The second visit, after what the first has left. -/
theorem exec_second {s u v : State} {e : Happening} {depth n m dt : Nat} {rest : List Arrival} {h : Handling} {y : Step}
    (htakes : s.takes e depth [n, m] rest) (hn : n < m) (hm : m < 64) (hu : u = { s.advance dt with inbox := rest })
    (hvisit : (u.handling depth).visit e n = h) (hs : h.s = v) (hfired : m ∉ h.fired) (hoff : m ∉ h.disarm)
    (hd : h.depth = depth) (hdepth : depth < 8) (hy : v.steps[m]? = some y) (harmed : y.state = .armed)
    (hconcerned : ∃ c ∈ y.record.conditions, c.concerns e = true) (hrepeats : y.record.repeats = 0)
    (hgame : v.session.inGame = true) (hroom : eventCount v.inbox + y.record.effects.length < 32)
    (hkept : recordsKept u.steps v.steps) :
    (v.trigger (some e) (y.sees e) = false → exec (.engineEventTaken dt) s = .next
      (State.onLine { v with steps := modifyAt (fun _ => y.sees e) m v.steps })) ∧
    (v.trigger (some e) (y.sees e) = true → (∀ z ∈ y.record.effects, z.isPlain = true) →
      exec (.engineEventTaken dt) s = .next
        ((y.record.effects.foldl (fun u z => u.afterEffect depth z) v).stepDone m
          { y with tag := none, seen := y.clearFlags } depth).onLine) := by
  subst hs hd
  refine ⟨fun hno => ?_, fun hyes hplain => ?_⟩
  · have hvisit' := visit_waits hy harmed hconcerned hfired hno
    have hexec := exec_event_two htakes hn hm hu (by rw [hvisit]; exact hkept) (by
      rw [hvisit, hvisit']
      exact hkept.trans (recordsKept_modifyAt hy rfl))
    rw [hexec, hvisit, hvisit']
  · have hvisit' := visit_plain hy harmed hconcerned hfired hyes hplain hgame hroom hdepth hoff
    rw [sees_completed e harmed hrepeats] at hvisit'
    have hexec := exec_event_two htakes hn hm hu (by rw [hvisit]; exact hkept) (by
      rw [hvisit, hvisit']
      exact hkept.trans (recordsKept_stepDone _ hy rfl))
    rw [hexec, hvisit, hvisit']
    rfl

theorem stepDone_get_other {u : State} {n m d : Nat} {x y : Step} (hne : n ≠ m) (hx : u.steps[m]? = some x) :
    (u.stepDone n y d).steps[m]? = some x := (getElem?_modifyAt_other _ hne).trans hx

theorem stepDone_room (u : State) (n d : Nat) (y : Step) :
    eventCount (u.stepDone n y d).inbox = eventCount u.inbox + 1 := eventCount_append _ _ _

/-- The first visit, by a step whose firing writes the second. -/
theorem visit_writes {u : State} {e : Happening} {depth n m : Nat} {st y : Step} (hst : u.steps[n]? = some st)
    (harmed : st.state = .armed) (hconcerned : ∃ c ∈ st.record.conditions, c.concerns e = true) (hne : n ≠ m)
    (htrigger : u.trigger (some e) (st.sees e) = true) (hclaim : noClaim st.record.effects = true)
    (hrepeats : st.record.repeats = 0) (hgame : u.session.inGame = true) (hdepth : depth < 8)
    (hroom : eventCount u.inbox < 32)
    (hg : ((u.handling depth).seen n (st.sees e)).effects (fire 64) st.record.effects =
      { (u.handling depth).seen n (st.sees e) with
        s := { ((u.handling depth).seen n (st.sees e)).s with
          steps := modifyAt (fun _ => y) m ((u.handling depth).seen n (st.sees e)).s.steps } }) :
    (u.handling depth).visit e n = ((u.handling depth).begin n).completes n
      (State.stepDone { u with steps := modifyAt (fun _ => y) m u.steps } n
        { st with tag := none, seen := st.clearFlags } depth) := by
  rw [visit_completes (h := u.handling depth) hst harmed hconcerned List.not_mem_nil htrigger hclaim hg
    ((getElem?_modifyAt_other _ hne.symm).trans (seen_get_same _ hst)) hgame hdepth hroom]
  rw [← sees_completed e harmed hrepeats]
  exact congrArg (((u.handling depth).begin n).completes n)
    (stepDone_steps (u := u) (modifyAt_around _ (st.sees e) _ u.steps))

theorem twoStepsAreVisited : TwoStepsAreVisited := by
  intro dt s u v e depth n m st x rest htakes hcon hn hm hx hconcerned' htrigger hrepeats hrepeats' hdepth hroom hu
  obtain ⟨-, hst, harmed, hconcerned⟩ := hcon
  have hsteps : u.steps = s.steps := by rw [hu]; rfl
  have hgame : u.session.inGame = true := by rw [hu]; exact htakes.2.1
  have hinbox : u.inbox = rest := by rw [hu]
  have htrig : ∀ e x, u.trigger e x = s.trigger e x := trigger_congr (by rw [hu]; rfl) (by rw [hu]; rfl)
  have hst' : u.steps[n]? = some st := hsteps ▸ hst
  have hx' : u.steps[m]? = some x := hsteps ▸ hx
  have hne : n ≠ m := by omega
  have hfree := seen_free u depth (x := st.sees e) hne.symm
  refine ⟨fun hplain harmed' hv => ?_, fun heff harmed' => ?_, fun heff hdormant hno hv => ?_⟩
  · subst hv
    have hvisit := visit_plain (h := u.handling depth) hst' harmed hconcerned List.not_mem_nil
      ((htrig _ _).trans htrigger) hplain hgame (by
        show eventCount u.inbox + _ < 32
        rw [hinbox]
        omega) hdepth List.not_mem_nil
    rw [sees_completed e harmed hrepeats] at hvisit
    have hplays := afterEffects_playsOn st.record.effects u depth
    have hcount := afterEffects_room st.record.effects u depth
    refine exec_second htakes hn hm hu hvisit rfl hfree.2 List.not_mem_nil rfl hdepth
      (stepDone_get_other hne (by rw [hplays.steps]; exact hx')) harmed' hconcerned' hrepeats'
      (by rw [← hgame, ← hplays.session]; rfl) ?_ (recordsKept_stepDone _ hst' rfl)
    rw [stepDone_room]
    rw [hinbox] at hcount
    omega
  · have hvisit := visit_writes hst' harmed hconcerned hne ((htrig _ _).trans htrigger) (by rw [heff]; rfl) hrepeats
      hgame hdepth (by rw [hinbox]; omega)
      ((congrArg _ heff).trans (disarmStep_other hfree.1 (seen_get (u.handling depth) hne.symm hx')))
    have hsilent : State.silentAt
        (State.stepDone { u with steps := modifyAt (fun _ => x.disarmed) m u.steps } n
          { st with tag := none, seen := st.clearFlags } depth) e m := by
      intro z hz hvisited
      have hget := stepDone_get_other (u := { u with steps := modifyAt (fun _ => x.disarmed) m u.steps })
        (d := depth) (y := { st with tag := none, seen := st.clearFlags }) hne (getElem?_modifyAt_same x.disarmed hx')
      rw [hz] at hget
      rw [Option.some_inj.mp hget, Step.disarmed, harmed'] at hvisited
      exact StepState.noConfusion hvisited.1
    have hkept := (recordsKept_modifyAt hx' (disarmed_record x)).trans
      (recordsKept_modifyAt ((getElem?_modifyAt_other _ hne.symm).trans hst')
        (y := { st with tag := none, seen := st.clearFlags }) rfl)
    have hvisit' := (congrArg (fun h => h.visit e m) hvisit).trans (visit_silent hsilent)
    have hexec := exec_event_two htakes hn hm hu (by rw [hvisit]; exact hkept) (by rw [hvisit']; exact hkept)
    rw [hexec, hvisit', ← hsteps]
    rfl
  · subst hv
    have hvisit := visit_writes hst' harmed hconcerned hne ((htrig _ _).trans htrigger) (by rw [heff]; rfl) hrepeats
      hgame hdepth (by rw [hinbox]; omega)
      ((congrArg _ heff).trans (armStep_waits hfree.1 hfree.2 (seen_get (u.handling depth) hne.symm hx') (.inl hdormant)
        ((htrig _ _).trans hno)))
    rw [← hsteps]
    refine exec_second htakes hn hm hu hvisit rfl hfree.2 List.not_mem_nil rfl hdepth
      (stepDone_get_other (u := { u with steps := modifyAt (fun _ => x.rearmed) m u.steps }) hne
        (getElem?_modifyAt_same _ hx')) rfl hconcerned' hrepeats' hgame ?_ ?_
    · rw [stepDone_room]
      show eventCount u.inbox + 1 + x.record.effects.length < 32
      rw [hinbox]
      omega
    · exact (recordsKept_modifyAt hx' (y := x.rearmed) rfl).trans
        (recordsKept_modifyAt ((getElem?_modifyAt_other _ hne.symm).trans hst') rfl)

end Sys2Proof.Machine

namespace Sys2Proof.Machine

/-! ## A claim's issue (R37 to R40) -/

theorem issueClaim_unrouted {s : State} {n m : Nat} {op : ClaimOp} {a b : Byte} {d : Nat} (h : s.route m = .none) :
    s.issueClaim n m op a b d = (.settled .unrouted, s) := by
  rw [State.issueClaim, h]

theorem issueClaim_full {s : State} {n m : Nat} {op : ClaimOp} {a b : Byte} {d : Nat} (h : s.route m ≠ .none)
    (hfull : 4 ≤ s.claims.length + s.answerHold.length) : s.issueClaim n m op a b d = (.settled .noRoom, s) := by
  rw [State.issueClaim]
  split
  · next hr => exact absurd hr h
  · exact if_pos hfull

/-- A remote claim issued: its tag taken, its CLAIM queued and its entry made (R37 to R39). -/
def State.claimIssued (s : State) (n m p : Nat) (op : ClaimOp) (a b : Byte) : State :=
  { s with
    tagCounter := s.nextTag + 1
    transmit := s.transmit ++ [.claim s.nextTag m op a b p]
    claims := s.claims ++ [⟨s.nextTag, n, m, op, a, b, p, .queued⟩] }

theorem issueClaim_peer {s : State} {n m p : Nat} {op : ClaimOp} {a b : Byte} {d : Nat} (h : s.route m = .peer p)
    (hroom : s.claims.length + s.answerHold.length < 4) :
    s.issueClaim n m op a b d =
      if 8 ≤ s.transmit.length then (.settled .noRoom, s)
      else (.issued s.nextTag, s.claimIssued n m p op a b) := by
  rw [State.issueClaim, h]
  exact if_neg (Nat.not_le_of_lt hroom)

theorem issueClaim_self {s : State} {n m : Nat} {op : ClaimOp} {a b : Byte} {d : Nat} (h : s.route m = .self)
    (hroom : s.claims.length + s.answerHold.length < 4) :
    s.issueClaim n m op a b d =
      (.settled (s.spendTag.localClaim m op a b d).1, (s.spendTag.localClaim m op a b d).2) := by
  rw [State.issueClaim, h]
  exact if_neg (Nat.not_le_of_lt hroom)

theorem localClaim_granted {s : State} {m v : Nat} {op : ClaimOp} {a b : Byte} {d : Nat} {o : Owned}
    (h : s.decideClaim m (some op) a.toNat b.toNat = .ok (o, v)) :
    s.spendTag.localClaim m op a b d = (.granted, s.spendTag.applyGrant m o v none (d + 1)) := by
  rw [State.localClaim, show s.spendTag.decideClaim m (some op) a.toNat b.toNat = .ok (o, v) from h]

theorem localClaim_refused {s : State} {m : Nat} {op : ClaimOp} {a b : Byte} {d : Nat} {r : Reason}
    (h : s.decideClaim m (some op) a.toNat b.toNat = .error r) :
    s.spendTag.localClaim m op a b d = (.refused r, s.spendTag) := by
  rw [State.localClaim, show s.spendTag.decideClaim m (some op) a.toNat b.toNat = .error r from h]

theorem mark_of_owned {s : State} {m : Nat} {o : Owned} (h : s.owned m = some o) : s.mark m = .owned o := by
  unfold State.owned at h
  split at h
  · next o' ho =>
    cases h
    exact ho
  · exact nomatch h

/-! ## The on-refusal path (R68) -/

/-- The step that an on-refusal path leaves DORMANT. -/
def Step.dropped (x : Step) : Step := { x with state := .dormant, tag := none, seen := x.clearFlags }

/-- The step that REARM leaves ARMED. -/
def Step.armedAgain (x : Step) : Step := { x with state := .armed, tag := none, seen := x.clearFlags }

theorem refuse_rearm {fire : Nat → Handling → Handling} {h : Handling} {n : Nat} {x : Step}
    (hx : h.s.steps[n]? = some x) :
    h.refuse fire n .rearm =
      (h.endFiring n).onState fun s => { s with steps := modifyAt (fun _ => x.armedAgain) n s.steps } := by
  simp only [Handling.refuse, Handling.onState, Handling.endFiring, State.modifyStep]
  rw [modifyAt_at _ hx]
  rfl

theorem refuse_drop {fire : Nat → Handling → Handling} {h : Handling} {n : Nat} {x : Step}
    (hx : h.s.steps[n]? = some x) :
    h.refuse fire n .drop =
      (h.endFiring n).onState fun s => { s with steps := modifyAt (fun _ => x.dropped) n s.steps } := by
  simp only [Handling.refuse, Handling.onState, Handling.endFiring, State.modifyStep]
  rw [modifyAt_at _ hx]
  rfl

theorem refuse_fallback {fire : Nat → Handling → Handling} {h : Handling} {n f : Nat} {x : Step}
    (hx : h.s.steps[n]? = some x) :
    h.refuse fire n (.fallback f) = Handling.arm fire
      ((h.endFiring n).onState fun s => { s with steps := modifyAt (fun _ => x.dropped) n s.steps }) f := by
  simp only [Handling.refuse, Handling.onState, Handling.endFiring, State.modifyStep]
  rw [modifyAt_at _ hx]
  rfl

/-- A claim that was not granted takes its on-refusal path. -/
theorem settle_refused {fire : Nat → Handling → Handling} {h : Handling} {n : Nat} {r : StepRecord}
    {out : ClaimOutcome} (hout : out ≠ .granted) : h.settle fire n r out = h.refuse fire n r.onRefusal := by
  cases out with
  | granted => exact absurd rfl hout
  | _ => rfl

/-- The handling once the step's on-refusal path has left it DORMANT. -/
def Handling.dropping (h : Handling) (n : Nat) (x : Step) : Handling :=
  (h.endFiring n).onState fun s => { s with steps := modifyAt (fun _ => x.dropped) n s.steps }

/-- FALLBACK to another step that is DORMANT and waits. -/
theorem refuse_fallback_waits {fire : Nat → Handling → Handling} {h : Handling} {n f : Nat} {x y : Step}
    (hx : h.s.steps[n]? = some x) (hne : f ≠ n) (hy : h.s.steps[f]? = some y) (hstate : y.state = .dormant)
    (hfiring : f ∉ h.firing) (hfired : f ∉ h.fired) (htrigger : h.s.trigger none y.rearmed = false) :
    (h.refuse fire n (.fallback f)).s =
      { h.s with steps := modifyAt (fun _ => y.rearmed) f (modifyAt (fun _ => x.dropped) n h.s.steps) } := by
  have hwaits := armStep_waits (fire := fire) (h := h.dropping n x) (fun hf => hfiring (List.mem_of_mem_filter hf)) hfired
    ((getElem?_modifyAt_other _ hne.symm).trans hy) (.inl hstate) htrigger
  rw [refuse_fallback hx]
  exact congrArg Handling.s hwaits

/-! ## A firing that begins with a claim (R68) -/

theorem fire_settled {h : Handling} {fuel n m : Nat} {op : ClaimOp} {a b : Byte} {x : Step} {es : List Effect}
    {out : ClaimOutcome} {t : State} (hx : h.s.steps[n]? = some x) (heff : x.record.effects = .claim op m a b :: es)
    (hissue : h.s.issueClaim n m op a b h.depth = (.settled out, t)) :
    fire (fuel + 1) n h = ({ h.begin n with s := t } : Handling).settle (fire fuel) n x.record out := by
  show h.fireStep (fire fuel) n = _
  rw [Handling.fireStep, step_get hx]
  simp only [heff]
  rw [show (h.begin n).s.issueClaim n m op a b (h.begin n).depth = (.settled out, t) from hissue]
  rfl

theorem fire_issued {h : Handling} {fuel n m : Nat} {op : ClaimOp} {a b : Byte} {x : Step} {es : List Effect}
    {tag : Byte} {t : State} (hx : h.s.steps[n]? = some x) (heff : x.record.effects = .claim op m a b :: es)
    (hissue : h.s.issueClaim n m op a b h.depth = (.issued tag, t)) :
    fire (fuel + 1) n h = ({ h.begin n with s := t } : Handling).pend n tag := by
  show h.fireStep (fire fuel) n = _
  rw [Handling.fireStep, step_get hx]
  simp only [heff]
  rw [show (h.begin n).s.issueClaim n m op a b (h.begin n).depth = (.issued tag, t) from hissue]
  rfl

theorem visit_settled {h : Handling} {e : Happening} {n m : Nat} {op : ClaimOp} {a b : Byte} {x : Step}
    {es : List Effect} {out : ClaimOutcome} {t : State} (hx : h.s.steps[n]? = some x) (harmed : x.state = .armed)
    (hconcerned : ∃ c ∈ x.record.conditions, c.concerns e = true) (hfired : n ∉ h.fired)
    (htrigger : h.s.trigger (some e) (x.sees e) = true) (heff : x.record.effects = .claim op m a b :: es)
    (hissue : (h.seen n (x.sees e)).s.issueClaim n m op a b h.depth = (.settled out, t)) :
    h.visit e n = ({ h.seen n (x.sees e) with s := t } : Handling).settle (fire 64) n x.record out := by
  rw [visit_armed hx harmed hconcerned hfired, if_pos htrigger]
  exact fire_settled (fuel := 64) (x := x.sees e) (es := es) (getElem?_modifyAt_same _ hx) heff hissue

theorem visit_issued {h : Handling} {e : Happening} {n m : Nat} {op : ClaimOp} {a b : Byte} {x : Step}
    {es : List Effect} {tag : Byte} {t : State} (hx : h.s.steps[n]? = some x) (harmed : x.state = .armed)
    (hconcerned : ∃ c ∈ x.record.conditions, c.concerns e = true) (hfired : n ∉ h.fired)
    (htrigger : h.s.trigger (some e) (x.sees e) = true) (heff : x.record.effects = .claim op m a b :: es)
    (hissue : (h.seen n (x.sees e)).s.issueClaim n m op a b h.depth = (.issued tag, t)) :
    h.visit e n = ({ h.seen n (x.sees e) with s := t } : Handling).pend n tag := by
  rw [visit_armed hx harmed hconcerned hfired, if_pos htrigger]
  exact fire_issued (fuel := 64) (x := x.sees e) (es := es) (getElem?_modifyAt_same _ hx) heff hissue

theorem pend_eq {h : Handling} {n : Nat} {tag : Byte} {x : Step} (hx : h.s.steps[n]? = some x) :
    (h.pend n tag).s =
      { h.s with steps := modifyAt (fun _ => { x with state := .pending, tag := some tag }) n h.s.steps } := by
  rw [← modifyAt_at (fun x : Step => { x with state := .pending, tag := some tag }) hx]
  rfl

theorem State.firesOn.sees_eq {s : State} {e : Happening} {depth n : Nat} {st : Step} {rest : List Arrival}
    (h : s.firesOn e depth n st rest) : st.sees e = { st with seen := [true] } := by
  obtain ⟨-, -, -, -, -, -, -, ⟨c, hc, hedge, -, hmatches⟩, hseen, -⟩ := h
  exact sees_edge hc hedge hmatches hseen

theorem State.firesOn.armedAgain {s : State} {e : Happening} {depth n : Nat} {st : Step} {rest : List Arrival}
    (h : s.firesOn e depth n st rest) : (st.sees e).armedAgain = { st with tag := none } :=
  (completed_again (x := st.sees e) h.repeats).symm.trans h.completed

theorem State.firesOn.dropped {s : State} {e : Happening} {depth n : Nat} {st : Step} {rest : List Arrival}
    (h : s.firesOn e depth n st rest) : (st.sees e).dropped = { st with state := .dormant, tag := none } :=
  (Machine.completed_off (x := st.sees e) h.repeats).symm.trans h.completed_off

/-- The claim is not granted: the firing takes its on-refusal path. -/
theorem State.firesOn.exec_refused {s u v : State} {e : Happening} {depth n m dt : Nat} {op : ClaimOp} {a b : Byte}
    {st : Step} {es : List Effect} {rest : List Arrival} {out : ClaimOutcome} (h : s.firesOn e depth n st rest)
    (heff : st.record.effects = .claim op m a b :: es) (hu : u = { s.advance dt with inbox := rest })
    (hissue : ((u.handling depth).seen n (st.sees e)).s.issueClaim n m op a b depth =
      (.settled out, { v with steps := modifyAt (fun _ => st.sees e) n s.steps }))
    (hout : out ≠ .granted) (hpads : v.pads = s.pads) (hmarks : v.marks = s.marks) :
    (st.record.onRefusal = .rearm → exec (.engineEventTaken dt) s = .next (State.onLine
      { v with steps := modifyAt (fun _ => { st with tag := none }) n s.steps })) ∧
    (st.record.onRefusal = .drop → exec (.engineEventTaken dt) s = .next (State.onLine
      { v with steps := modifyAt (fun _ => { st with state := .dormant, tag := none }) n s.steps })) ∧
    (∀ f x, st.record.onRefusal = .fallback f → f ≠ n → s.steps[f]? = some x → x.state = .dormant →
      s.trigger none x.rearmed = false →
      exec (.engineEventTaken dt) s = .next (State.onLine
        { v with steps := modifyAt (fun _ => x.rearmed) f (modifyAt (fun _ =>
            { st with state := .dormant, tag := none }) n s.steps) })) := by
  obtain ⟨hn, hst, harmed, hconcerned⟩ := h.concerned
  have hsteps : u.steps = s.steps := by rw [hu]; rfl
  have hst' : (u.handling depth).s.steps[n]? = some st := by rw [← hst, ← hsteps]; rfl
  have hvisit := visit_settled hst' harmed hconcerned List.not_mem_nil h.trigger heff hissue
  have hself : ({ v with steps := modifyAt (fun _ => st.sees e) n s.steps } : State).steps[n]? = some (st.sees e) :=
    getElem?_modifyAt_same _ hst
  have hexec : ∀ t : State, ((u.handling depth).visit e n).s = t → recordsKept s.steps t.steps →
      exec (.engineEventTaken dt) s = .next t.onLine := by
    intro t ht hkept
    rw [exec_event_one h.takes hn hu (by rw [ht, hsteps]; exact hkept), ht]
  rw [settle_refused hout] at hvisit
  refine ⟨fun hpath => hexec _ ?_ (recordsKept_modifyAt hst rfl), fun hpath => hexec _ ?_ (recordsKept_modifyAt hst rfl),
    fun f x hpath hne hx hstate hno => hexec _ ?_ ?_⟩
  · rw [hvisit, hpath, refuse_rearm hself, h.armedAgain]
    show ({ v with steps := modifyAt _ n (modifyAt _ n s.steps) } : State) = _
    rw [modifyStep_const]
  · rw [hvisit, hpath, refuse_drop hself, h.dropped]
    show ({ v with steps := modifyAt _ n (modifyAt _ n s.steps) } : State) = _
    rw [modifyStep_const]
  · rw [hvisit, hpath, refuse_fallback_waits (y := x)
      (h := { (u.handling depth).seen n (st.sees e) with
        s := { v with steps := modifyAt (fun _ => st.sees e) n s.steps } }) hself hne ((getElem?_modifyAt_other _ hne.symm).trans hx) hstate
      (seen_free u depth hne).1 (seen_free u depth hne).2
      ((trigger_congr hpads hmarks none _).trans hno), h.dropped]
    show ({ v with steps := modifyAt _ f (modifyAt _ n (modifyAt _ n s.steps)) } : State) = _
    rw [modifyStep_const]
  · exact (recordsKept_modifyAt hst (y := { st with state := .dormant, tag := none }) rfl).trans
      (recordsKept_modifyAt ((getElem?_modifyAt_other _ hne.symm).trans hx) rfl)

theorem claimsAreIssued : ClaimsAreIssued := by
  intro dt s u e depth n m op a b st es rest h heff hdepth hroom hu
  obtain ⟨hn, hst, harmed, hconcerned⟩ := h.concerned
  have hgame : u.session.inGame = true := by rw [hu]; exact h.takes.2.1
  have hinbox : u.inbox = rest := by rw [hu]
  have hsteps : u.steps = s.steps := by rw [hu]; rfl
  have hst' : (u.handling depth).s.steps[n]? = some st := by rw [← hst, ← hsteps]; rfl
  have hseen : ((u.handling depth).seen n (st.sees e)).s = { u with steps := modifyAt (fun _ => st.sees e) n s.steps } := by
    rw [← hsteps]
    rfl
  have hpads : u.pads = s.pads := by rw [hu]; rfl
  have hmarks : u.marks = s.marks := by rw [hu]; rfl
  generalize hw : ((u.handling depth).seen n (st.sees e)).s = w at hseen
  have hroute : w.route m = s.route m := by rw [hseen, hu]; rfl
  have hcount : w.claims.length + w.answerHold.length = s.claims.length + answerCount rest := by rw [hseen, hu]; rfl
  have htag : w.nextTag = s.nextTag := by rw [hseen, hu]; rfl
  have htransmit' : w.transmit = s.transmit := by rw [hseen, hu]; rfl
  have hclaims' : w.claims = s.claims := by rw [hseen, hu]; rfl
  have hdecide : w.decideClaim m (some op) a.toNat b.toNat = s.decideClaim m (some op) a.toNat b.toNat := by
    rw [hseen, hu]
    rfl
  have hw' : w.steps[n]? = some (st.sees e) := by rw [hseen]; exact getElem?_modifyAt_same _ hst
  refine ⟨fun v hv => ?_, fun p hpeer hclaims htransmit => ?_, fun o v hself hclaims hes hok => ?_⟩
  · rcases hv with ⟨hnone, rfl⟩ | ⟨hsome, hfull, rfl⟩ | ⟨⟨p, hpeer⟩, hclaims, hfull, rfl⟩ | ⟨hself, hclaims, ⟨r, hr⟩, rfl⟩
    · refine h.exec_refused heff hu (out := .unrouted) ?_ nofun hpads hmarks
      rw [hw, issueClaim_unrouted (hroute.trans hnone), hseen]
    · refine h.exec_refused heff hu (out := .noRoom) ?_ nofun hpads hmarks
      rw [hw, issueClaim_full (by rw [hroute]; exact hsome) (by rw [hcount]; exact hfull), hseen]
    · refine h.exec_refused heff hu (out := .noRoom) ?_ nofun hpads hmarks
      rw [hw, issueClaim_peer (hroute.trans hpeer) (by rw [hcount]; exact hclaims),
        if_pos (by rw [htransmit']; exact hfull), hseen]
    · refine h.exec_refused heff hu (out := .refused r) ?_ nofun hpads hmarks
      rw [hw, issueClaim_self (hroute.trans hself) (by rw [hcount]; exact hclaims), localClaim_refused (hdecide.trans hr),
        State.spendTag, htag, hseen]
  · have hissue := issueClaim_peer (n := n) (op := op) (a := a) (b := b) (d := depth) (hroute.trans hpeer)
      (by rw [hcount]; exact hclaims)
    rw [if_neg (by rw [htransmit']; omega), htag] at hissue
    have hvisit := visit_issued hst' harmed hconcerned List.not_mem_nil h.trigger heff ((by rw [hw]; exact hissue))
    have hend : ((u.handling depth).visit e n).s =
        { u with
          tagCounter := s.nextTag + 1
          transmit := s.transmit ++ [.claim s.nextTag m op a b p]
          claims := s.claims ++ [⟨s.nextTag, n, m, op, a, b, p, .queued⟩]
          steps := modifyAt (fun _ => { st with state := .pending, seen := [true], tag := some s.nextTag })
            n s.steps } := by
      rw [hvisit, pend_eq (by exact hw')]
      show ({ w.claimIssued n m p op a b with steps := modifyAt _ n w.steps } : State) = _
      rw [State.claimIssued, htag, htransmit', hclaims', hseen]
      simp only [modifyStep_const, h.sees_eq]
    rw [exec_event_one h.takes hn hu, hend]
    rw [hend, hsteps]
    exact recordsKept_modifyAt hst rfl
  · obtain ⟨-, howned, hsealed, -⟩ := decideClaim_ok hok
    have hmark : w.spendTag.mark m = .owned o := by
      rw [← mark_of_owned howned, hseen, hu]
      rfl
    have hqueue : w.spendTag.engineQueue.length < 32 := by
      rw [hseen, hu]
      exact Nat.lt_succ_of_lt hroom
    have hgrant := applyGrant_room v none hmark hsealed (by rw [hseen]; exact hgame) hqueue (Nat.succ_le_of_lt hdepth)
    have hissue := issueClaim_self (n := n) (op := op) (a := a) (b := b) (d := depth) (hroute.trans hself)
      (by rw [hcount]; exact hclaims)
    rw [localClaim_granted (hdecide.trans hok)] at hissue
    generalize w.spendTag.applyGrant m o v none (depth + 1) = t at hissue hgrant
    have hvisit := visit_settled hst' harmed hconcerned List.not_mem_nil h.trigger heff (by rw [hw]; exact hissue)
    have hsettle : ({ (u.handling depth).seen n (st.sees e) with s := t } : Handling).settle (fire 64) n st.record
        .granted = ({ (u.handling depth).seen n (st.sees e) with s := t } : Handling).complete n := by
      rw [Handling.settle, heff, hes]
      rfl
    have hcount' : eventCount t.inbox < 32 := by
      rw [hgrant]
      show eventCount (if _ then w.inbox ++ [Arrival.event (.mark m) (depth + 1)] else w.inbox) < 32
      rw [show w.inbox = rest by rw [hseen]; exact hinbox]
      split
      · rw [eventCount_append]
        omega
      · omega
    have hcomplete := complete_room (h := { (u.handling depth).seen n (st.sees e) with s := t }) (n := n)
      (x := st.sees e) (by rw [hgrant]; exact hw') (by rw [hgrant, hseen]; exact hgame) hdepth hcount'
    rw [hsettle, hcomplete] at hvisit
    have hend : ((u.handling depth).visit e n).s = t.stepDone n { st with tag := none } depth := by
      rw [hvisit, ← h.completed]
      rfl
    have htsteps : t.steps = modifyAt (fun _ => st.sees e) n s.steps := by rw [hgrant, hseen]; rfl
    rw [exec_event_one h.takes hn hu, hend]
    · have hwrite : modifyAt (fun _ => { st with tag := none }) n w.steps =
          modifyAt (fun _ => { st with tag := none }) n s.steps := by
        rw [hseen]
        exact modifyStep_const _ _ _ _
      rw [hgrant, State.spendTag, htag]
      simp only [State.stepDone, hwrite]
      subst hseen hu
      rfl
    · rw [hend, hsteps]
      show recordsKept s.steps (modifyAt _ n t.steps)
      rw [htsteps, modifyStep_const]
      exact recordsKept_modifyAt hst rfl

end Sys2Proof.Machine

namespace Sys2Proof.Machine

/-! ## The event taken (R63 to R67) -/

/-- The one ARMED step fires, with a DIGITS effect alone. -/
theorem exec_event_digits {s u : State} {e : Happening} {depth n dt : Nat} {st : Step} {c : Condition} {d : Digits}
    {rest : List Arrival} (hon : s.powered = true) (hgame : s.session.inGame = true)
    (hinbox : s.inbox = .event e depth :: rest) (htaken : s.session ≠ .rest ∨ e.isPad = false) (hn : n < 64)
    (hst : s.steps[n]? = some st) (hothers : ∀ (k : Nat) (x : Step), k ≠ n → s.steps[k]? = some x → x.state ≠ .armed)
    (harmed : st.state = .armed) (hc : st.record.conditions = [c]) (hedge : c.isEdge = true)
    (hcon : c.concerns e = true) (hmatches : c.matchesEvent e = true) (hseen : st.seen = [false])
    (heff : st.record.effects = [.digits d]) (hrepeats : st.record.repeats = 0) (hdepth : depth < 8)
    (hroom : eventCount rest < 32) (hu : u = { s.advance dt with inbox := rest }) :
    exec (.engineEventTaken dt) s =
      .next (State.stepDone { u with digits := d } n { st with tag := none } depth).onLine := by
  have hsteps : u.steps = s.steps := by rw [hu]; rfl
  have hgame' : u.session.inGame = true := by rw [hu]; exact hgame
  have hinbox' : u.inbox = rest := by rw [hu]
  have hst' : (u.handling depth).s.steps[n]? = some st := by rw [← hst, ← hsteps]; rfl
  have hvisit := visit_completes (e := e)
    (g := { (u.handling depth).seen n (st.sees e) with
      s := { ((u.handling depth).seen n (st.sees e)).s with digits := d } }) hst' harmed
    ⟨c, by simp [hc], hcon⟩ List.not_mem_nil (trigger_edge hc hedge hmatches hseen) (by rw [heff]; rfl)
    (by rw [heff]; rfl) (getElem?_modifyAt_same _ hst') hgame' hdepth (by
      show eventCount u.inbox < 32
      rw [hinbox']
      exact hroom)
  have hcompleted : (st.sees e).completed false = { st with tag := none } := by
    rw [sees_completed e harmed hrepeats, clearFlags_edge hc hseen]
  have hend : ((u.handling depth).visit e n).s =
      State.stepDone { u with digits := d } n { st with tag := none } depth := by
    rw [hvisit, ← hcompleted]
    exact stepDone_steps (u := { u with digits := d }) (modifyStep_const _ (st.sees e) n u.steps)
  have hsilent : ∀ k, k ≠ n → u.silentAt e k :=
    fun k hk x hx hvisited => hothers k x hk (hsteps ▸ hx) hvisited.1
  rw [exec_event hon hgame hinbox htaken, ← hu, handleEvent_one hn (fun k hk => hsilent k (by omega)), hend]
  intro k hk x hx
  rw [hend] at hx
  exact hsilent k (by omega) x ((getElem?_modifyAt_other _ (by omega)).symm.trans hx)

/-- Settles O49, by what a visit does to the step, and by the firing of each kind of effect. -/
theorem engineEventIsHandled : Obligations.EngineEventIsHandled := by
  refine ⟨fun dt s e depth rest hon hgame hinbox => ⟨fun hrest hpad => ?_, fun htaken hnone => ?_, ?_⟩,
    plainEffectsAreApplied, armAndDisarmAct, claimsAreIssued, tagsAreFresh, triggersAreTested, visitedStepsAreTested,
    twoStepsAreVisited⟩
  · exact exec_event_discarded hon hgame hinbox hrest hpad
  · rw [exec_event hon hgame hinbox htaken, handleEvent_none]
    intro k _ x hx ⟨harmed, hany⟩
    obtain ⟨c, hc, hcon⟩ := List.any_eq_true.mp hany
    exact Bool.noConfusion ((hnone k x hx harmed c hc).symm.trans hcon)
  · intro n st c d htaken hn hst hothers harmed hc hedge hcon hmatches hseen heff hrepeats hdepth hroom
    exact exec_event_digits hon hgame hinbox htaken hn hst hothers harmed hc hedge hcon hmatches hseen heff hrepeats
      hdepth hroom rfl

/-! ## An answer event taken (R63, R68, R72) -/

theorem exec_answer {s u : State} {n dt : Nat} {tag : Byte} {out : ClaimOutcome} {rest : List Arrival}
    (hon : s.powered = true) (hgame : s.session.inGame = true) (hinbox : s.inbox = .answer n tag out :: rest)
    (hu : u = { s.advance dt with inbox := rest }) :
    exec (.answerEventTaken dt) s = .next (u.handleAnswer n tag out).onLine := by
  have htake : (s.advance dt).takeAnswer = u.handleAnswer n tag out := by
    rw [State.takeAnswer, if_pos (by exact hgame), show (s.advance dt).inbox = .answer n tag out :: rest from hinbox,
      hu]
  rw [exec_answerEventTaken hon, htake]

theorem handleAnswer_discarded {u : State} {n : Nat} {tag : Byte} {out : ClaimOutcome} {st : Step}
    (hst : u.steps[n]? = some st) (htag : st.tag ≠ some tag) : u.handleAnswer n tag out = u := by
  rw [State.handleAnswer, step_get hst]
  exact if_neg htag

theorem handleAnswer_withdrawn {u : State} {n : Nat} {tag : Byte} {out : ClaimOutcome} {st : Step}
    (hst : u.steps[n]? = some st) (htag : st.tag = some tag) (hstate : st.state = .withdrawn) :
    u.handleAnswer n tag out = { u with steps := modifyAt (fun _ => st.dropped) n u.steps } := by
  rw [State.handleAnswer, step_get hst]
  simp only [htag, if_true, hstate, State.modifyStep]
  rw [modifyAt_at _ hst]
  rfl

/-- The handling of an answer as the rest of the firing begins, the step's tag taken off. -/
def State.answering (u : State) (n : Nat) (st : Step) : Handling :=
  ({ u with steps := modifyAt (fun _ => { st with tag := none }) n u.steps }.handling 0).begin n

theorem handleAnswer_pending {u : State} {n : Nat} {tag : Byte} {out : ClaimOutcome} {st : Step}
    (hst : u.steps[n]? = some st) (htag : st.tag = some tag) (hstate : st.state = .pending) :
    u.handleAnswer n tag out = ((u.answering n st).settle (fire 65) n st.record out).s := by
  rw [State.handleAnswer, step_get hst]
  simp only [htag, if_true, hstate, State.modifyStep]
  rw [modifyAt_at _ hst]
  rfl

theorem answering_steps {u : State} {n : Nat} {st : Step} (hst : u.steps[n]? = some st) :
    (u.answering n st).s.steps[n]? = some { st with tag := none } := getElem?_modifyAt_same _ hst

/-- A claim that was not granted (R68). -/
theorem handleAnswer_refused {u : State} {n : Nat} {tag : Byte} {out : ClaimOutcome} {st : Step}
    (hst : u.steps[n]? = some st) (htag : st.tag = some tag) (hstate : st.state = .pending) (hout : out ≠ .granted) :
    u.handleAnswer n tag out = ((u.answering n st).refuse (fire 65) n st.record.onRefusal).s := by
  rw [handleAnswer_pending hst htag hstate, settle_refused hout]

/-- ARM of a step that has fired in this handling: it is ARMED and not evaluated (R69). -/
theorem armStep_fired {fire : Nat → Handling → Handling} {h : Handling} {m : Nat} {x : Step} (hfiring : m ∉ h.firing)
    (hfired : m ∈ h.fired) (hx : h.s.steps[m]? = some x) (hstate : x.state = .dormant) :
    h.arm fire m = { h with s := { h.s with steps := modifyAt (fun _ => x.arm) m h.s.steps } } := by
  have hspot : h.arm fire m = Handling.arm.onSpot fire h m x.arm := by
    unfold Handling.arm
    rw [if_neg (by simpa using hfiring), step_get hx]
    simp only [hstate]
  rw [hspot]
  exact if_pos (show h.fired.contains m = true by simpa using hfired)

theorem handleAnswer_fallback_self {u : State} {n : Nat} {tag : Byte} {out : ClaimOutcome} {st : Step}
    (hst : u.steps[n]? = some st) (htag : st.tag = some tag) (hstate : st.state = .pending) (hout : out ≠ .granted)
    (hpath : st.record.onRefusal = .fallback n) :
    u.handleAnswer n tag out = { u with steps := modifyAt (fun _ => st.armedAgain) n u.steps } := by
  have harm := armStep_fired (fire := fire 65) (h := (u.answering n st).dropping n { st with tag := none }) (m := n)
    (by simp [Handling.dropping, Handling.onState, Handling.endFiring]) List.mem_cons_self
    (getElem?_modifyAt_same _ (answering_steps hst)) rfl
  rw [handleAnswer_refused hst htag hstate hout, hpath, refuse_fallback (answering_steps hst)]
  refine (congrArg Handling.s harm).trans ?_
  show ({ u with steps := modifyAt _ n (modifyAt _ n (modifyAt _ n u.steps)) } : State) = _
  rw [modifyStep_const, modifyStep_const]
  rfl

theorem handleAnswer_fallback_still {u : State} {n f : Nat} {tag : Byte} {out : ClaimOutcome} {st x : Step}
    (hst : u.steps[n]? = some st) (htag : st.tag = some tag) (hstate : st.state = .pending) (hout : out ≠ .granted)
    (hpath : st.record.onRefusal = .fallback f) (hne : f ≠ n) (hx : u.steps[f]? = some x)
    (hstate' : x.state = .quarantined) :
    u.handleAnswer n tag out = { u with steps := modifyAt (fun _ => st.dropped) n u.steps } := by
  have hother : ((u.answering n st).dropping n { st with tag := none }).s.steps[f]? = some x :=
    (getElem?_modifyAt_other _ hne.symm).trans ((getElem?_modifyAt_other _ hne.symm).trans hx)
  have harm := armStep_still (fire := fire 65) hother (.inr (.inr hstate'))
  rw [handleAnswer_refused hst htag hstate hout, hpath, refuse_fallback (answering_steps hst)]
  refine (congrArg Handling.s harm).trans ?_
  show ({ u with steps := modifyAt _ n (modifyAt _ n u.steps) } : State) = _
  rw [modifyStep_const]
  rfl

theorem handleAnswer_fallback_waits {u : State} {n f : Nat} {tag : Byte} {out : ClaimOutcome} {st x : Step}
    (hst : u.steps[n]? = some st) (htag : st.tag = some tag) (hstate : st.state = .pending) (hout : out ≠ .granted)
    (hpath : st.record.onRefusal = .fallback f) (hne : f ≠ n) (hx : u.steps[f]? = some x)
    (hstate' : x.state = .dormant) (hno : u.trigger none x.rearmed = false) :
    u.handleAnswer n tag out =
      { u with steps := modifyAt (fun _ => x.rearmed) f (modifyAt (fun _ => st.dropped) n u.steps) } := by
  rw [handleAnswer_refused hst htag hstate hout, hpath,
    refuse_fallback_waits (h := u.answering n st) (answering_steps hst) hne
      ((getElem?_modifyAt_other _ hne.symm).trans hx) hstate' (by simpa [State.answering, Handling.begin, State.handling] using hne)
      (by simpa [State.answering, Handling.begin, State.handling] using hne) hno]
  show ({ u with steps := modifyAt _ f (modifyAt _ n (modifyAt _ n u.steps)) } : State) = _
  rw [modifyStep_const]
  rfl

/-- A claim that was granted: the rest of the effects at depth 0, and the completion (R68). -/
theorem handleAnswer_granted {u : State} {n m : Nat} {tag : Byte} {op : ClaimOp} {a b : Byte} {es : List Effect}
    {st : Step} (hst : u.steps[n]? = some st) (htag : st.tag = some tag) (hstate : st.state = .pending)
    (heff : st.record.effects = .claim op m a b :: es) (hplain : ∀ x ∈ es, x.isPlain = true)
    (hgame : u.session.inGame = true) (hroom : eventCount u.inbox + es.length < 32) :
    u.handleAnswer n tag .granted =
      (es.foldl (fun u x => u.afterEffect 0 x) u).stepDone n (Step.completed { st with tag := none } false) 0 := by
  have hplays := afterEffects_playsOn es (u.answering n st).s 0
  have hcount := afterEffects_room es (u.answering n st).s 0
  have heffects := effects_plain (fire := fire 65) (h := u.answering n st) es hplain hgame
    (Nat.le_of_lt hroom) (.inl (show 0 < 8 by decide))
  have hcomplete := complete_room (n := n) (x := { st with tag := none })
    (h := { u.answering n st with s := es.foldl (fun u x => u.afterEffect 0 x) (u.answering n st).s })
    (by rw [← answering_steps hst]; exact congrArg (·[n]?) hplays.steps)
    (by rw [← hgame]; exact congrArg Session.inGame hplays.session) (show 0 < 8 by decide)
    (Nat.lt_of_le_of_lt hcount hroom)
  rw [handleAnswer_pending hst htag hstate, Handling.settle, heff]
  refine (congrArg (fun h => (Handling.complete h n).s) heffects).trans ((congrArg Handling.s hcomplete).trans ?_)
  have htable : es.foldl (fun u x => u.afterEffect 0 x) (u.answering n st).s =
      { es.foldl (fun u x => u.afterEffect 0 x) u with
        steps := modifyAt (fun _ => { st with tag := none }) n u.steps } := afterEffects_steps es u 0 _
  show State.stepDone (es.foldl (fun u x => u.afterEffect 0 x) (u.answering n st).s) n _ 0 = _
  rw [htable]
  refine stepDone_steps ?_
  rw [(afterEffects_playsOn es u 0).steps]
  exact modifyStep_const _ _ _ _

theorem completed_last {x : Step} (hrepeats : x.record.repeats = 1) (hleft : x.left = 1) :
    x.completed false = { x with state := .spent, left := 0, tag := none } := by
  simp [Step.completed, hrepeats, hleft]

/-- Settles O50, by the step's state and the claim's outcome. -/
theorem answerEventIsHandled : Obligations.AnswerEventIsHandled := by
  intro dt s u n tag out rest st hon hgame hinbox hst hu
  have hsteps : u.steps = s.steps := by rw [hu]; rfl
  have hst' : u.steps[n]? = some st := hsteps ▸ hst
  have hgame' : u.session.inGame = true := by rw [hu]; exact hgame
  have hinbox' : u.inbox = rest := by rw [hu]
  have htrig : ∀ x : Step, u.trigger none x = s.trigger none x :=
    trigger_congr (by rw [hu]; rfl) (by rw [hu]; rfl) none
  rw [exec_answer hon hgame hinbox hu, ← hsteps]
  refine ⟨fun htag => ?_, fun htag hstate => ?_, fun htag hstate hout => ⟨fun hpath => ?_, fun hpath => ?_,
    fun f x hpath hne hx => ⟨fun hstate' => ?_, fun hstate' hno => ?_⟩⟩,
    fun op m a b htag hstate hout heff hrepeats hleft hroom => ?_,
    fun op m a b es htag hstate hout heff hplain hrepeats hroom => ?_⟩
  · rw [handleAnswer_discarded hst' htag]
  · rw [handleAnswer_withdrawn hst' htag hstate]
    rfl
  · rw [handleAnswer_refused hst' htag hstate hout]
    rcases hpath with hpath | hpath
    · rw [hpath, refuse_drop (answering_steps hst'), if_pos rfl]
      show Host.Outcome.next (State.onLine { u with steps := modifyAt _ n (modifyAt _ n u.steps) }) = _
      rw [modifyStep_const]
      rfl
    · rw [hpath, refuse_rearm (answering_steps hst'), if_neg nofun]
      show Host.Outcome.next (State.onLine { u with steps := modifyAt _ n (modifyAt _ n u.steps) }) = _
      rw [modifyStep_const]
      rfl
  · rw [handleAnswer_fallback_self hst' htag hstate hout hpath]
    rfl
  · rw [handleAnswer_fallback_still hst' htag hstate hout hpath hne hx hstate']
    rfl
  · rw [handleAnswer_fallback_waits hst' htag hstate hout hpath hne hx hstate' ((htrig _).trans hno)]
    rfl
  · rw [hout, handleAnswer_granted hst' htag hstate heff (fun x hx => nomatch hx) hgame' (by rw [hinbox']; exact hroom),
      completed_last (x := { st with tag := none }) hrepeats hleft]
    rfl
  · rw [hout, handleAnswer_granted hst' htag hstate heff hplain hgame' (by rw [hinbox']; exact hroom),
      completed_again (x := { st with tag := none }) hrepeats]
    rfl

end Sys2Proof.Machine

namespace Sys2Proof.Machine

/-! ## A LOAD frame heard (R175) -/

theorem inGame_ofBlank {x : Session} (h : x.blankTile = true) : x.inGame = false := by
  cases x <;> first | rfl | exact Bool.noConfusion h

/-- A LOAD frame addressed to the tile comes to the loader handling. -/
theorem hear_load {s : State} {rx : Reception} {f : GoodFrame} (h : s.getsLoad rx f) (dt : Nat)
    {isRow : GoodFrame → Bool} (take : State → GoodFrame → State) (hrow : isRow f = true) :
    ((s.advance dt).hear rx isRow fun s f => s.dispatch f take) = take (s.hearing dt) f := by
  obtain ⟨-, hblank, hdriving, hrx, hmine⟩ := h
  have hgame := inGame_ofBlank hblank
  rw [hear_good dt _ (handsOn_of_blankTile hblank) hdriving (fun hin => Bool.noConfusion (hgame.symm.trans hin)) hrx hrow]
  have hshow : (s.hearing dt).showFrame f.sender (.good f.corrected) = s.hearing dt :=
    if_neg (show ¬ s.session.inGame = true by simp [hgame])
  rw [State.dispatch, hshow]
  exact if_neg fun h => h.2 hmine

theorem exec_loadOpen_heard {s u : State} {rx : Reception} {f : GoodFrame} (h : s.getsLoad rx f) (dt : Nat)
    (hkind : f.kind = .loadOpen) (hlen : f.body.length = 1) (hu : (s.hearing dt).takeLoadOpen f = u)
    (hline : u.line = .quiet (s.now + dt)) : exec (.loadOpen dt rx) s = .next u := by
  rw [exec_loadOpen h.1, hear_load h dt _ (by simp [ofCode12, hkind, hlen]), hu, onLine_busy (by rw [hline]; exact nofun)]

theorem exec_seal_heard {s u : State} {rx : Reception} {f : GoodFrame} (h : s.getsLoad rx f) (dt : Nat)
    (hkind : f.kind = .loadOpen) (hlen : f.body.length = 2) (hu : (s.hearing dt).takeSeal f = u)
    (hline : u.line = .quiet (s.now + dt)) : exec (.seal dt rx) s = .next u := by
  rw [exec_seal h.1, hear_load h dt _ (by simp [ofCode12, hkind, hlen]), hu, onLine_busy (by rw [hline]; exact nofun)]

theorem exec_loadPart_heard {s u : State} {rx : Reception} {f : GoodFrame} (h : s.getsLoad rx f) (dt : Nat)
    (hkind : f.kind = .loadPart) (hu : (s.hearing dt).takeLoadPart f = u)
    (hline : u.line = .quiet (s.now + dt)) : exec (.loadPart dt rx) s = .next u := by
  rw [exec_loadPart h.1, hear_load h dt _ (ofKind_self hkind), hu, onLine_busy (by rw [hline]; exact nofun)]

/-- The time of the last LOAD frame, by the state of the session (R179). -/
theorem noteLoad_eq (s : State) : s.noteLoad =
    { s with loader := { s.loader with lastLoad := if s.session = .loading then s.now else s.loader.lastLoad } } := by
  unfold State.noteLoad State.modifyLoader
  split
  · rfl
  · rfl

theorem answerLoad_eq (s : State) (word : AnswerWord) (n : Nat) (tag : Byte) :
    s.answerLoad word n tag = s.answeredLoad word n tag := by
  unfold State.answerLoad State.answeredLoad
  by_cases h : s.answers.length + s.loader.seals.length < 8
  · rw [if_pos h, if_pos ((answerHasRoom_iff s).mpr h)]
    rfl
  · rw [if_neg h, if_neg (by rw [answerHasRoom_iff]; exact h)]
    rfl

theorem answerLoad_room {s : State} (word : AnswerWord) (n : Nat) (tag : Byte)
    (h : s.answers.length + s.loader.seals.length < 8) :
    s.answerLoad word n tag = { s with answers := s.answers ++ [⟨word, .load, n, tag, 0⟩] } := by
  rw [answerLoad_eq]
  exact if_pos h

/-! ## LOAD_OPEN (R176) -/

/-- The loading begins: its first erase at once, or waiting for the store. -/
theorem openLoading_eq (s : State) (tag : Byte) (n : Nat) :
    s.openLoading tag n =
      { s with
        loader :=
          { s.loader with tag := some tag, opener := n, progress := .next 0, slot0 := none, slot1 := none,
                          lastLoad := s.now }
        op := if s.op = none ∧ s.droop = false then some ⟨.erase 0, .loadErase, 0⟩ else s.op
        waiting := if s.op = none ∧ s.droop = false then s.waiting else some ⟨.erase 0, .loadErase, 0⟩ } := by
  rw [State.openLoading, State.request]
  by_cases h : s.op = none ∧ s.droop = false
  · rw [if_pos h, if_pos h, if_pos (by exact h)]
    rfl
  · rw [if_neg h, if_neg h, if_neg (by exact h)]
    rfl

theorem takeLoadOpen_sealed {s : State} {f : GoodFrame} (h : s.loader.isSealed = true) : s.takeLoadOpen f = s :=
  if_pos h

/-! ## LOAD_PART and the seal (R177, R178) -/

theorem takeLoadPart_sealed {s : State} {f : GoodFrame} (h : s.loader.isSealed = true) : s.takeLoadPart f = s :=
  if_neg fun hn => Bool.noConfusion (hn.2.symm.trans h)

theorem takeSeal_sealed {s : State} {f : GoodFrame} (h : s.loader.isSealed = true) : s.takeSeal f = s :=
  if_neg fun hn => Bool.noConfusion (hn.2.1.symm.trans h)

theorem takeLoadPart_room {s : State} {f : GoodFrame} (hblank : s.session.blankTile = true)
    (hunsealed : s.loader.isSealed = false) (hroom : s.answers.length + s.loader.seals.length < 8) :
    s.takeLoadPart f = s.noteLoad.loadPart f.sender (byteAt f.body 0) (numAt f.body 1) (numAt f.body 2)
      (numAt f.body 3) (f.body.drop 4) := by
  rw [State.takeLoadPart, if_pos ⟨hblank, hunsealed⟩, if_pos]
  rw [answerHasRoom_iff, noteLoad_eq]
  exact hroom

theorem takeLoadPart_full {s : State} {f : GoodFrame} (hblank : s.session.blankTile = true)
    (hunsealed : s.loader.isSealed = false) (hfull : 8 ≤ s.answers.length + s.loader.seals.length) :
    s.takeLoadPart f = s.noteLoad.setOverrun := by
  rw [State.takeLoadPart, if_pos ⟨hblank, hunsealed⟩, if_neg]
  rw [answerHasRoom_iff, noteLoad_eq]
  exact Nat.not_lt_of_le hfull

theorem loadPart_refused {s : State} {n block page slot : Nat} {tag : Byte} {data : List Byte} {r : Reason}
    (h : s.judgePart tag block page slot = some r) :
    s.loadPart n tag block page slot data = s.answerLoad (.refuse r) n tag := by
  rw [State.loadPart, h]

theorem loadPart_taken {s : State} {n block page slot : Nat} {tag : Byte} {data : List Byte}
    (h : s.judgePart tag block page slot = none) :
    s.loadPart n tag block page slot data = (s.modifyLoader fun l => l.markSlot block (4 * page + slot)).request
      (.program block (4 * page + slot) data) (.loadPart tag n) := by
  rw [State.loadPart, h]

theorem storeFree_iff (s : State) : s.storeFree = true ↔ s.op = none ∧ s.waiting = none := by
  simp [State.storeFree]

/-- The last of the four tests. -/
theorem orderOk_iff (l : Loader) (block page slot : Nat) :
    l.orderOk block page slot = true ↔ block ≤ 1 ∧ page ≤ 15 ∧ slot ≤ 3 ∧
      ∀ x, (if block = 0 then l.slot0 else l.slot1) = some x → x < 4 * page + slot := by
  have hmark : l.slotMark block = if block = 0 then l.slot0 else l.slot1 := rfl
  rw [Loader.orderOk, hmark]
  cases (if block = 0 then l.slot0 else l.slot1) with
  | none => simp
  | some x => simp [and_assoc]

/-- The four tests of a LOAD_PART that finds the tile in LOADING, in their order. -/
theorem judgePart_refused {s : State} {tag : Byte} {block page slot : Nat} {reason : Reason}
    (hloading : s.session = .loading)
    (h : (s.loader.tag ≠ some tag ∧ reason = .check) ∨
      (s.loader.tag = some tag ∧ s.loader.progress = .failed ∧ reason = .worn) ∨
      (s.loader.tag = some tag ∧ s.loader.progress ≠ .failed ∧ (s.loader.progress ≠ .done ∨ s.op ≠ none) ∧
        reason = .busy) ∨
      (s.loader.tag = some tag ∧ s.loader.progress = .done ∧ s.op = none ∧ s.waiting = none ∧
        (1 < block ∨ 15 < page ∨ 3 < slot ∨
          ∃ x, (if block = 0 then s.loader.slot0 else s.loader.slot1) = some x ∧ 4 * page + slot ≤ x) ∧
        reason = .order)) :
    s.judgePart tag block page slot = some reason := by
  rcases h with ⟨htag, rfl⟩ | ⟨htag, hfailed, rfl⟩ | ⟨htag, hnot, hbusy, rfl⟩ | ⟨htag, hdone, hop, hwaiting, horder, rfl⟩
  · exact if_pos (.inr htag)
  · rw [State.judgePart, if_neg (by simp [hloading, htag]), if_pos hfailed]
  · rw [State.judgePart, if_neg (by simp [hloading, htag]), if_neg hnot, if_pos]
    refine hbusy.imp_right fun hop => Bool.eq_false_iff.mpr fun hfree => hop ((storeFree_iff s).mp hfree).1
  · rw [State.judgePart, if_neg (by simp [hloading, htag]), if_neg (by simp [hdone]),
      if_neg (by simp [hdone, State.storeFree, hop, hwaiting]), if_neg]
    rw [orderOk_iff]
    rintro ⟨hb, hp, hi, hx⟩
    rcases horder with h | h | h | ⟨x, hmark, hle⟩
    · omega
    · omega
    · omega
    · have := hx x hmark
      omega

theorem judgePart_passes {s : State} {tag : Byte} {block page slot : Nat} (hloading : s.session = .loading)
    (htag : s.loader.tag = some tag) (hdone : s.loader.progress = .done) (hop : s.op = none) (hwaiting : s.waiting = none)
    (horder : s.loader.orderOk block page slot = true) : s.judgePart tag block page slot = none := by
  rw [State.judgePart, if_neg (by simp [hloading, htag]), if_neg (by simp [hdone]),
    if_neg (by simp [hdone, State.storeFree, hop, hwaiting]), if_pos horder]

end Sys2Proof.Machine

namespace Sys2Proof.Machine

/-! ## The ends of operations (R156, R157) -/

theorem verify_fail {limit k : Nat} (vs : List Bool) (h : k < limit) :
    verify limit k (List.replicate (limit - k) false ++ vs) = .inl .fail := by
  obtain ⟨n, hn⟩ : ∃ n, limit = k + n + 1 := ⟨limit - k - 1, by omega⟩
  induction n generalizing k with
  | zero =>
    rw [show limit - k = 0 + 1 by omega, List.replicate_succ]
    exact if_pos (by omega)
  | succ n ih =>
    rw [show limit - k = (limit - (k + 1)) + 1 by omega, List.replicate_succ, List.cons_append, verify, if_neg (by omega)]
    exact ih (by omega) (by omega)

theorem judge_pass {o : Operation} {r : OpResult} (hk : o.passes < o.op.passLimit) (h : passesAt r) :
    o.judge r = .inl .pass := by
  obtain ⟨vs, hvs⟩ := h
  rw [Operation.judge, hvs, verify_pass hk]

theorem judge_fail {o : Operation} {r : OpResult} (hk : o.passes < o.op.passLimit)
    (h : failsAll r (o.op.passLimit - o.passes)) : o.judge r = .inl .fail := by
  obtain ⟨vs, hvs⟩ := h
  rw [Operation.judge, hvs, verify_fail vs hk]

theorem judge_ends {o : Operation} {r : OpResult} (hk : o.passes < o.op.passLimit)
    (h : passesAt r ∨ failsAll r (o.op.passLimit - o.passes)) : ∃ v, o.judge r = .inl v := by
  rcases h with h | h
  · exact ⟨_, judge_pass hk h⟩
  · exact ⟨_, judge_fail hk h⟩

/-- A program's end with a verdict. -/
theorem exec_programEnd {s u : State} {b slot k dt : Nat} {data : List Byte} {p : Purpose} {r : OpResult} {v : Verdict}
    (hon : s.powered = true) (hop : s.op = some ⟨.program b slot data, p, k⟩)
    (hv : (Operation.judge ⟨.program b slot data, p, k⟩ r) = .inl v)
    (hu : u = { s.advance dt with op := none, store := s.store.finish (.program b slot data) r.left v }) :
    exec (.storeProgramEnd dt r) s =
      .next (u.clientTakes ⟨.program b slot data, p, k⟩ v).startWaiting.onLine := by
  have hends : (s.advance dt).storeEnds StoreOp.isProgram r =
      (u.clientTakes ⟨.program b slot data, p, k⟩ v).startWaiting := by
    rw [State.storeEnds, show (s.advance dt).op = _ from hop]
    simp only [StoreOp.isProgram, if_true, hv]
    rw [hu]
    rfl
  rw [exec_storeProgramEnd hon, hends]

/-- An erase's end with a verdict. -/
theorem exec_eraseEnd {s u : State} {b k dt : Nat} {p : Purpose} {r : OpResult} {v : Verdict}
    (hon : s.powered = true) (hop : s.op = some ⟨.erase b, p, k⟩)
    (hv : (Operation.judge ⟨.erase b, p, k⟩ r) = .inl v)
    (hu : u = { s.advance dt with op := none, store := s.store.finish (.erase b) r.left v }) :
    exec (.storeEraseEnd dt r) s = .next (u.clientTakes ⟨.erase b, p, k⟩ v).startWaiting.onLine := by
  have hends : (s.advance dt).storeEnds StoreOp.isErase r =
      (u.clientTakes ⟨.erase b, p, k⟩ v).startWaiting := by
    rw [State.storeEnds, show (s.advance dt).op = _ from hop]
    simp only [StoreOp.isErase, if_true, hv]
    rw [hu]
    rfl
  rw [exec_storeEraseEnd hon, hends]

theorem startWaiting_none {s : State} (h : s.waiting = none) : s.startWaiting = s := by
  rw [State.startWaiting, h]

theorem startWaiting_erase {s : State} {b : Nat} {p : Purpose} {k : Nat} (h : s.waiting = some ⟨.erase b, p, k⟩)
    (hop : s.op = none) (hdroop : s.droop = false) :
    s.startWaiting = { s with op := some ⟨.erase b, p, k⟩, waiting := none } := by
  rw [State.startWaiting, h]
  exact if_pos ⟨hop, hdroop⟩

theorem request_erase {s : State} (b : Nat) (p : Purpose) (hop : s.op = none) (hdroop : s.droop = false) :
    s.request (.erase b) p = { s with op := some ⟨.erase b, p, 0⟩ } := if_pos ⟨hop, hdroop⟩

/-- What the end of a program leaves outside its slot. -/
theorem finish_program_sameOutside {st : Store} (b slot : Nat) (data : List Byte) (left : List SlotLeft) (v : Verdict)
    (h : st.wf = true) : sameOutsideSlot st (st.finish (.program b slot data) left v) b slot := by
  cases v with
  | pass => exact writeSlot_sameOutside b slot data h
  | fail =>
    show sameOutsideSlot st (st.leaveProgram b slot data (left.headD .kept)) b slot
    cases left.headD .kept <;> exact writeSlot_sameOutside b slot _ h

theorem finish_erase_sameOutside {st : Store} (b : Nat) (left : List SlotLeft) (v : Verdict) (h : st.wf = true) :
    sameOutsideBlock st (st.finish (.erase b) left v) b := by
  cases v with
  | pass =>
    intro a ha
    show readByte (dropRange (2048 * b) (2048 * (b + 1)) st.cells) a = _
    rw [readByte_dropRange, if_neg (by omega)]
  | fail => exact failed_erase_sameOutside b left h

/-! ## The erasing (R176) -/

theorem erasing_iff (s : State) (b : Nat) :
    s.erasing b = true ↔ s.session = .loading ∧ s.waiting = none ∧ s.loader.progress = .next b := by
  simp [State.erasing, and_assoc]

theorem eraseNext_more {s : State} {b : Nat} (hb : b < 15) (hop : s.op = none) (hdroop : s.droop = false) :
    s.eraseNext b =
      { s with
        loader := { s.loader with progress := .next (b + 1) }
        op := some ⟨.erase (b + 1), .loadErase, 0⟩ } := by
  rw [State.eraseNext, if_pos hb]
  exact request_erase (s := { s with loader := { s.loader with progress := .next (b + 1) } }) (b + 1) .loadErase hop hdroop

theorem eraseNext_last (s : State) {tag : Byte} (htag : s.loader.tag = some tag) :
    s.eraseNext 15 =
      State.answeredLoad { s with loader := { s.loader with progress := .done } } (.grant 0 0) s.loader.opener tag := by
  rw [State.eraseNext, if_neg (by decide), answerLoad_eq, htag]
  rfl

theorem answeredLoad_waiting (s : State) (word : AnswerWord) (n : Nat) (tag : Byte) :
    (s.answeredLoad word n tag).waiting = s.waiting := by
  unfold State.answeredLoad
  split <;> rfl

/-- The client of a blank tile is the loader handling. -/
theorem clientTakes_blank {s : State} (h : s.session.blankTile = true) (o : Operation) (v : Verdict) :
    s.clientTakes o v = s.loaderTakes o v := by
  unfold State.clientTakes
  cases hs : s.session <;> simp_all [Session.blankTile]

theorem clientTakes_loadErase {s : State} (h : s.session.blankTile = true) (b k : Nat) (p : Purpose) (v : Verdict) :
    s.clientTakes ⟨.erase b, p, k⟩ v = s.loadErased b v := clientTakes_blank h _ v

theorem clientTakes_loadProgram {s : State} (h : s.session.blankTile = true) (b slot k : Nat) (data : List Byte)
    (p : Purpose) (v : Verdict) : s.clientTakes ⟨.program b slot data, p, k⟩ v = s.loadProgrammed b p v :=
  clientTakes_blank h _ v

end Sys2Proof.Machine

namespace Sys2Proof.Machine

/-! ## LOAD_OPEN and the erasing (R175, R176) -/

theorem takeLoadOpen_unwritten {s : State} {f : GoodFrame} (hunsealed : s.loader.isSealed = false)
    (hs : s.session = .unwritten) : s.takeLoadOpen f = s.enterLoading.openLoading (byteAt f.body 0) f.sender := by
  rw [State.takeLoadOpen, if_neg (by simp [hunsealed]), hs]

theorem takeLoadOpen_loading {s : State} {f : GoodFrame} (hunsealed : s.loader.isSealed = false)
    (hs : s.session = .loading) : s.takeLoadOpen f = s.openLoading (byteAt f.body 0) f.sender := by
  rw [State.takeLoadOpen, if_neg (by simp [hunsealed]), hs]

/-- The erasing stands at a block, and the store is free. -/
structure State.erasesAt (u : State) (b : Nat) (tag : Byte) : Prop where
  session : u.session = .loading
  op : u.op = none
  droop : u.droop = false
  waiting : u.waiting = none
  progress : u.loader.progress = .next b
  tag : u.loader.tag = some tag

theorem State.erasesAt.erasing {u : State} {b : Nat} {tag : Byte} (h : u.erasesAt b tag) : u.erasing b = true :=
  (erasing_iff u b).mpr ⟨h.session, h.waiting, h.progress⟩

theorem State.erasesAt.blankTile {u : State} {b : Nat} {tag : Byte} (h : u.erasesAt b tag) :
    u.session.blankTile = true := by rw [h.session]; rfl

/-- The next block's erase is in progress. -/
theorem State.erasesAt.more {u : State} {b : Nat} {tag : Byte} (h : u.erasesAt b tag) (hb : b < 15) :
    (u.eraseNext b).startWaiting =
      { u with
        loader := { u.loader with progress := .next (b + 1) }
        op := some ⟨.erase (b + 1), .loadErase, 0⟩ } := by
  rw [eraseNext_more hb h.op h.droop, startWaiting_none (by exact h.waiting)]

/-- Every block is done. -/
theorem State.erasesAt.last {u : State} {tag : Byte} (h : u.erasesAt 15 tag) :
    (u.eraseNext 15).startWaiting =
      State.answeredLoad { u with loader := { u.loader with progress := .done } } (.grant 0 0) u.loader.opener tag := by
  rw [eraseNext_last u h.tag, startWaiting_none]
  rw [answeredLoad_waiting]
  exact h.waiting

theorem State.erasesAt.passed {u : State} {b : Nat} {tag : Byte} (h : u.erasesAt b tag) :
    u.loadErased b .pass = u.eraseNext b := if_pos h.erasing

theorem State.erasesAt.content_failed {u : State} {b : Nat} {tag : Byte} (h : u.erasesAt b tag) (hb : b < 2) :
    (u.loadErased b .fail).startWaiting =
      State.answeredLoad { u with loader := { u.loader with progress := .failed } } (.refuse .worn) u.loader.opener tag := by
  have htag : u.loader.tag.getD 0 = tag := by rw [h.tag]; rfl
  rw [State.loadErased, if_pos h.erasing]
  simp only [if_pos hb, answerLoad_eq, htag]
  exact startWaiting_none ((answeredLoad_waiting _ _ _ _).trans h.waiting)

theorem State.erasesAt.journal_failed {u : State} {b : Nat} {tag : Byte} (h : u.erasesAt b tag) (hb : 2 ≤ b) :
    (u.loadErased b .fail).startWaiting =
      { u with
        op := some ⟨.program b 63 (slotBytes u.epoch (.retired true)), .loadRetired, 0⟩
        store := { u.store with attempted := u.store.attemptedTo b 63 } } := by
  rw [State.loadErased, if_pos h.erasing]
  simp only [if_neg (Nat.not_lt_of_le hb)]
  rw [request_free h.op h.droop, startWaiting_none (by exact h.waiting)]
  rfl

theorem State.erasesAt.retired {u : State} {b : Nat} {tag : Byte} (h : u.erasesAt b tag) (v : Verdict) :
    u.loadProgrammed b .loadRetired v = u.eraseNext b := by
  cases v <;> exact if_pos h.erasing

/-- Settles O54, by the session for the frame, and by the verdict for each end. -/
theorem loadOpenBeginsTheLoading : Obligations.LoadOpenBeginsTheLoading := by
  refine ⟨fun dt rx s f tag h hkind hbody hunsealed => ⟨fun hs hop hdroop => ?_, fun hs => ?_⟩,
    fun dt r s b k tag hon hs hdroop hwaiting hprogress htag hop hk hstore => ⟨fun hpass => ?_, fun hfail => ?_⟩,
    fun dt r s b k tag data hon hs hdroop hwaiting hprogress htag hop hk hstore hends => ?_,
    fun dt r s b b' k hon hs hdroop hwaiting hop hk hstore hends => ?_,
    fun dt rx s f h hsealed => ⟨fun hkind hlen => ?_, fun hkind hlen => ?_, fun hkind => ?_⟩⟩
  · refine exec_loadOpen_heard h dt hkind (by rw [hbody]; rfl) ?_ rfl
    rw [takeLoadOpen_unwritten (by exact hunsealed) (by exact hs), openLoading_eq,
      if_pos (show (s.hearing dt).enterLoading.op = none ∧ (s.hearing dt).enterLoading.droop = false from ⟨hop, hdroop⟩),
      if_pos (show (s.hearing dt).enterLoading.op = none ∧ (s.hearing dt).enterLoading.droop = false from ⟨hop, hdroop⟩),
      hbody]
    rfl
  · refine exec_loadOpen_heard h dt hkind (by rw [hbody]; rfl) ?_ rfl
    rw [takeLoadOpen_loading (by exact hunsealed) (by exact hs), openLoading_eq, hbody]
    rfl
  · generalize hu : ({ s.advance dt with op := none, store := s.store.finish (.erase b) r.left .pass } : State) = u
    have herases : u.erasesAt b tag := by
      subst hu
      exact ⟨hs, rfl, hdroop, hwaiting, hprogress, htag⟩
    have hexec := exec_eraseEnd hon hop (judge_pass hk hpass) hu.symm
    rw [clientTakes_loadErase herases.blankTile, herases.passed] at hexec
    refine ⟨_, rfl, fun hb => ?_, fun hb => ?_⟩
    · rw [hexec, herases.more hb, ← hu]
      rfl
    · subst hb
      rw [hexec, herases.last, ← hu]
      rfl
  · generalize hu : ({ s.advance dt with op := none, store := s.store.finish (.erase b) r.left .fail } : State) = u
    have herases : u.erasesAt b tag := by
      subst hu
      exact ⟨hs, rfl, hdroop, hwaiting, hprogress, htag⟩
    have hexec := exec_eraseEnd hon hop (judge_fail hk hfail) hu.symm
    rw [clientTakes_loadErase herases.blankTile] at hexec
    have houtside := finish_erase_sameOutside b r.left .fail hstore
    by_cases hb : b < 2
    · refine ⟨_, houtside, fun _ => ?_, fun hb' => absurd hb (Nat.not_lt_of_le hb')⟩
      rw [hexec, herases.content_failed hb, ← hu]
      rfl
    · refine ⟨{ s.store.finish (.erase b) r.left .fail with
        attempted := (s.store.finish (.erase b) r.left .fail).attemptedTo b 63 }, houtside, fun hb' => absurd hb' hb,
        fun hb' => ?_⟩
      rw [hexec, herases.journal_failed hb', ← hu]
      rfl
  · obtain ⟨v, hv⟩ := judge_ends (o := ⟨.program b 63 data, .loadRetired, k⟩) hk hends
    generalize hu : ({ s.advance dt with op := none, store := s.store.finish (.program b 63 data) r.left v } : State) = u
    have herases : u.erasesAt b tag := by
      subst hu
      exact ⟨hs, rfl, hdroop, hwaiting, hprogress, htag⟩
    have hexec := exec_programEnd hon hop hv hu.symm
    rw [clientTakes_loadProgram herases.blankTile, herases.retired] at hexec
    refine ⟨_, finish_program_sameOutside b 63 data r.left v hstore, fun hb => ?_, fun hb => ?_⟩
    · rw [hexec, herases.more hb, ← hu]
      rfl
    · subst hb
      rw [hexec, herases.last, ← hu]
      rfl
  · obtain ⟨v, hv⟩ := judge_ends (o := ⟨.erase b, .loadErase, k⟩) hk hends
    generalize hu : ({ s.advance dt with op := none, store := s.store.finish (.erase b) r.left v } : State) = u
    have hexec := exec_eraseEnd hon hop hv hu.symm
    have hdropped : u.loadErased b v = u := if_neg fun herasing => by
      have hnone := ((erasing_iff u b).mp herasing).2.1
      rw [← hu] at hnone
      exact Option.some_ne_none _ (hwaiting.symm.trans hnone)
    rw [clientTakes_loadErase (by rw [← hu]; show s.session.blankTile = true; rw [hs]; rfl), hdropped,
      startWaiting_erase (by rw [← hu]; exact hwaiting) (by rw [← hu]) (by rw [← hu]; exact hdroop)] at hexec
    refine ⟨_, finish_erase_sameOutside b r.left v hstore, ?_⟩
    rw [hexec, ← hu]
  · exact exec_loadOpen_heard h dt hkind hlen (takeLoadOpen_sealed (by exact hsealed)) rfl
  · exact exec_seal_heard h dt hkind hlen (takeSeal_sealed (by exact hsealed)) rfl
  · exact exec_loadPart_heard h dt hkind (takeLoadPart_sealed (by exact hsealed)) rfl

end Sys2Proof.Machine

namespace Sys2Proof.Machine

/-! ## LOAD_PART (R177) -/

theorem noteLoad_off {s : State} (h : s.session ≠ .loading) : s.noteLoad = s := if_neg h

theorem loadPart_fields {f : GoodFrame} {tag b p i : Byte} {data : List Byte} (hbody : f.body = [tag, b, p, i] ++ data) :
    byteAt f.body 0 = tag ∧ numAt f.body 1 = b.toNat ∧ numAt f.body 2 = p.toNat ∧ numAt f.body 3 = i.toNat ∧
      f.body.drop 4 = data := by
  rw [hbody]
  exact ⟨rfl, rfl, rfl, rfl, rfl⟩

theorem markSlot_eq (l : Loader) (b slot : Nat) :
    l.markSlot b slot =
      { l with slot0 := if b = 0 then some slot else l.slot0, slot1 := if b = 0 then l.slot1 else some slot } := by
  unfold Loader.markSlot
  split
  · rfl
  · rfl

/-- Settles O55, by the four tests for the frame, and by the verdict for the program's end. -/
theorem loadPartIsJudged : Obligations.LoadPartIsJudged := by
  refine ⟨fun dt rx s f tag b p i data h hkind hbody hs hunsealed hroom hdroop => ⟨fun reason hreason => ?_,
      fun htag hdone hop hwaiting hb hp hi horder => ?_⟩,
    fun dt rx s f h hkind hs hunsealed hroom => ?_, fun dt rx s f h hkind hunsealed hfull => ?_,
    fun dt r s b slot k n tag data hon hblank hwaiting hop hk hstore => ⟨fun hpass => ?_, fun hfail => ?_⟩⟩
  · obtain ⟨htag', hb, hp, hi, -⟩ := loadPart_fields hbody
    have hlast : (if (s.hearing dt).session = .loading then (s.hearing dt).now else (s.hearing dt).loader.lastLoad) =
      s.now + dt := if_pos hs
    refine exec_loadPart_heard h dt hkind ?_ rfl
    rw [takeLoadPart_room (by exact h.2.1) (by exact hunsealed) (by exact hroom), htag', hb, hp, hi,
      loadPart_refused (r := reason), noteLoad_eq, hlast, answerLoad_room _ _ _ (by exact hroom)]
    · rfl
    · rw [noteLoad_eq]
      exact judgePart_refused hs hreason
  · obtain ⟨htag', hb', hp', hi', hdata⟩ := loadPart_fields hbody
    have hlast : (if (s.hearing dt).session = .loading then (s.hearing dt).now else (s.hearing dt).loader.lastLoad) =
      s.now + dt := if_pos hs
    refine exec_loadPart_heard h dt hkind ?_ rfl
    rw [takeLoadPart_room (by exact h.2.1) (by exact hunsealed) (by exact hroom), htag', hb', hp', hi', hdata,
      loadPart_taken, noteLoad_eq, hlast, request_free (by exact hop) (by exact hdroop)]
    · rw [State.modifyLoader, markSlot_eq]
      rfl
    · rw [noteLoad_eq]
      exact judgePart_passes hs htag hdone hop hwaiting ((orderOk_iff _ _ _ _).mpr ⟨hb, hp, hi, horder⟩)
  · have hnot : (s.hearing dt).session ≠ .loading := by
      show s.session ≠ .loading
      rw [hs]
      exact nofun
    refine exec_loadPart_heard h dt hkind ?_ rfl
    rw [takeLoadPart_room (by exact h.2.1) (by exact hunsealed) (by exact hroom), noteLoad_off hnot,
      loadPart_refused (if_pos (.inl hnot)), answerLoad_room _ _ _ (by exact hroom)]
    rfl
  · refine exec_loadPart_heard h dt hkind ?_ rfl
    rw [takeLoadPart_full (by exact h.2.1) (by exact hunsealed) (by exact hfull), noteLoad_eq]
    rfl
  · have hexec := exec_programEnd (dt := dt) hon hop (judge_pass hk hpass) rfl
    rw [clientTakes_loadProgram (by exact hblank), State.loadProgrammed, answerLoad_eq, startWaiting_none] at hexec
    · exact hexec
    · rw [answeredLoad_waiting]
      exact hwaiting
  · have hexec := exec_programEnd (dt := dt) hon hop (judge_fail hk hfail) rfl
    rw [clientTakes_loadProgram (by exact hblank), State.loadProgrammed, answerLoad_eq, startWaiting_none] at hexec
    · exact ⟨_, finish_program_sameOutside b slot data r.left .fail hstore, hexec⟩
    · rw [answeredLoad_waiting]
      exact hwaiting

/-! ## The seal (R178) -/

theorem takeSeal_dropped {s : State} {f : GoodFrame} (h : numAt f.body 1 ≠ 1) : s.takeSeal f = s :=
  if_neg fun hn => h hn.2.2

theorem takeSeal_full {s : State} {f : GoodFrame} (hblank : s.session.blankTile = true)
    (hunsealed : s.loader.isSealed = false) (hone : numAt f.body 1 = 1)
    (hfull : 8 ≤ s.answers.length + s.loader.seals.length) : s.takeSeal f = s.noteLoad.setOverrun := by
  rw [State.takeSeal, if_pos ⟨hblank, hunsealed, hone⟩, if_neg]
  rw [answerHasRoom_iff, noteLoad_eq]
  exact Nat.not_lt_of_le hfull

theorem takeSeal_room {s : State} {f : GoodFrame} (hblank : s.session.blankTile = true)
    (hunsealed : s.loader.isSealed = false) (hone : numAt f.body 1 = 1)
    (hroom : s.answers.length + s.loader.seals.length < 8) :
    s.takeSeal f = s.noteLoad.holdSeal f.sender (byteAt f.body 0) := by
  rw [State.takeSeal, if_pos ⟨hblank, hunsealed, hone⟩, if_pos]
  rw [answerHasRoom_iff, noteLoad_eq]
  exact hroom

theorem holdSeal_check {s : State} {n : Nat} {tag : Byte} (h : s.session ≠ .loading ∨ s.loader.tag ≠ some tag)
    (hroom : s.answers.length + s.loader.seals.length < 8) :
    s.holdSeal n tag = { s with answers := s.answers ++ [⟨.refuse .check, .load, n, tag, 0⟩] } := by
  rw [State.holdSeal, if_pos h, answerLoad_room _ _ _ hroom]

theorem holdSeal_worn {s : State} {n : Nat} {tag : Byte} (hs : s.session = .loading) (htag : s.loader.tag = some tag)
    (hfailed : s.loader.progress = .failed) (hroom : s.answers.length + s.loader.seals.length < 8) :
    s.holdSeal n tag = { s with answers := s.answers ++ [⟨.refuse .worn, .load, n, tag, 0⟩] } := by
  rw [State.holdSeal, if_neg (by simp [hs, htag]), if_pos hfailed, answerLoad_room _ _ _ hroom]

theorem holdSeal_held {s : State} {n : Nat} {tag : Byte} (hs : s.session = .loading) (htag : s.loader.tag = some tag)
    (hnot : s.loader.progress ≠ .failed) :
    s.holdSeal n tag = { s with loader := { s.loader with seals := s.loader.seals ++ [(tag, n)] } } := by
  rw [State.holdSeal, if_neg (by simp [hs, htag]), if_neg hnot]
  rfl

theorem checkSeal_waits {s : State} (h : s.op ≠ none ∨ s.loader.progress ≠ .done) : s.checkSeal = s := by
  unfold State.checkSeal
  split
  · rfl
  · refine if_neg ?_
    rw [storeFree_iff]
    rintro ⟨-, -, hdone, ⟨hop, -⟩, -⟩
    exact h.elim (fun h => h hop) fun h => h hdone

theorem checkSeal_decides {s : State} {tag : Byte} {n : Nat} {rest : List (Byte × Nat)}
    (hseals : s.loader.seals = (tag, n) :: rest) (hs : s.session = .loading) (hunsealed : s.loader.isSealed = false)
    (hdone : s.loader.progress = .done) (hop : s.op = none) (hwaiting : s.waiting = none) (hdroop : s.droop = false) :
    s.checkSeal =
      if headerCheckOk (s.store.page 0 0) = true ∧ contentCheckOk s.store = true then
        { s with
          loader := { s.loader with seals := rest, isSealed := true }
          answers := s.answers ++ [⟨.grant 0 0, .seal, n, tag, 0⟩] }
      else
        { s with
          loader := { s.loader with seals := rest }
          answers := s.answers ++ [⟨.refuse .check, .seal, n, tag, 0⟩] } := by
  have hanswer : ∀ word, s.answerSeal word tag n =
      { s with
        loader := { s.loader with seals := rest }
        answers := s.answers ++ [⟨word, .seal, n, tag, 0⟩] } := by
    intro word
    rw [State.answerSeal, State.modifyLoader, hseals]
    rfl
  rw [State.checkSeal, hseals]
  simp only
  rw [if_pos ⟨hs, hunsealed, hdone, (storeFree_iff s).mpr ⟨hop, hwaiting⟩, hdroop⟩, hanswer, hanswer]
  simp only [sealPasses, Bool.and_eq_true]
  rfl

/-- Settles O56, by the tests of R178 for the frame, and by the two checks for the seal held. -/
theorem sealIsHeldAndChecked : Obligations.SealIsHeldAndChecked := by
  refine ⟨fun dt rx s f tag x h hkind hbody hunsealed => ?_, fun dt s tag n rest hon hseals =>
    ⟨fun hwaits => ?_, fun hs hunsealed hdone hop hwaiting hdroop => ?_⟩⟩
  · have hlen : f.body.length = 2 := by rw [hbody]; rfl
    have htag' : byteAt f.body 0 = tag := by rw [hbody]; rfl
    have hnum : numAt f.body 1 = x.toNat := by rw [hbody]; rfl
    have hone : x = 1 → numAt f.body 1 = 1 := fun hx => by rw [hnum, hx]; rfl
    refine ⟨fun hx => ?_, fun hx hfull => ?_, fun hx hs hroom => ?_, fun hx hs hroom => ?_⟩
    · refine exec_seal_heard h dt hkind hlen (takeSeal_dropped fun hn => hx ?_) rfl
      exact BitVec.eq_of_toNat_eq (hnum.symm.trans hn)
    · refine exec_seal_heard h dt hkind hlen ?_ rfl
      rw [takeSeal_full (by exact h.2.1) (by exact hunsealed) (hone hx) (by exact hfull), noteLoad_eq]
      rfl
    · have hnot : (s.hearing dt).session ≠ .loading := by
        show s.session ≠ .loading
        rw [hs]
        exact nofun
      refine exec_seal_heard h dt hkind hlen ?_ rfl
      rw [takeSeal_room (by exact h.2.1) (by exact hunsealed) (hone hx) (by exact hroom), noteLoad_off hnot,
        holdSeal_check (.inl hnot) (by exact hroom), htag']
      rfl
    · have hlast : (if (s.hearing dt).session = .loading then (s.hearing dt).now else (s.hearing dt).loader.lastLoad) =
        s.now + dt := if_pos hs
      have htake : (s.hearing dt).takeSeal f =
          State.holdSeal { s.hearing dt with loader := { s.loader with lastLoad := s.now + dt } } f.sender tag := by
        rw [takeSeal_room (by exact h.2.1) (by exact hunsealed) (hone hx) (by exact hroom), noteLoad_eq, hlast, htag']
        rfl
      refine ⟨fun htag => ?_, fun htag hfailed => ?_, fun htag hnot => ?_⟩
      · exact exec_seal_heard h dt hkind hlen (htake.trans (holdSeal_check (.inr htag) (by exact hroom))) rfl
      · exact exec_seal_heard h dt hkind hlen (htake.trans (holdSeal_worn hs htag hfailed (by exact hroom))) rfl
      · exact exec_seal_heard h dt hkind hlen (htake.trans (holdSeal_held hs htag hnot)) rfl
  · rw [exec_sealCheck hon, checkSeal_waits (by exact hwaits)]
  · rw [exec_sealCheck hon, checkSeal_decides (by exact hseals) (by exact hs) (by exact hunsealed) (by exact hdone)
      (by exact hop) (by exact hwaiting) (by exact hdroop)]
    rfl

/-! ## The timeout (R179) -/

/-- Settles O57, by whether the moment has come. -/
theorem loadingTimesOut : Obligations.LoadingTimesOut := by
  refine fun dt s hon hs => ⟨fun hearly => ?_, fun hunsealed hdue => ?_⟩
  · have hkept : (s.advance dt).loadingTimesOut = s.advance dt := if_neg fun ⟨_, hunsealed, hdue⟩ => by
      rcases hearly with h | h
      · exact Bool.noConfusion (hunsealed.symm.trans h)
      · exact absurd hdue (Nat.not_le_of_lt h)
    rw [exec_loadingTimeout hon, hkept]
  · have hout : (s.advance dt).loadingTimesOut = State.enterUnwritten { s.advance dt with waiting := none } :=
      if_pos ⟨hs, hunsealed, hdue⟩
    rw [exec_loadingTimeout hon, hout]
    rfl

end Sys2Proof.Machine

namespace Sys2Proof.Machine

/-! ## The writer's order of work (R163, R169) -/

theorem writerFree_iff (s : State) : s.writerFree = true ↔
    s.session.inGame = true ∧ s.op = none ∧ s.waiting = none ∧ s.droop = false ∧ s.health.storeWorn = false := by
  simp [State.writerFree, and_assoc]

theorem awaits_iff (e : MarkEntry) : (match e with
    | .owned o => o.pending.isSome && !o.sealed
    | .replica _ => false) = true ↔ ∃ o, e = .owned o ∧ o.sealed = false ∧ o.pending ≠ none := by
  cases e with
  | owned o => simp [Option.isSome_iff_ne_none, and_comm]
  | replica r => simp

theorem mem_pendingMarks (s : State) (m : Nat) :
    m ∈ s.pendingMarks ↔ m < 256 ∧ ∃ o, s.mark m = .owned o ∧ o.sealed = false ∧ o.pending ≠ none := by
  rw [State.pendingMarks, List.mem_filter, List.mem_range]
  exact and_congr_right fun _ => awaits_iff (s.mark m)

theorem lowestBlock_iff (s : State) (x : BlockState) (b : Nat) :
    s.lowestBlock x = some b ↔ 2 ≤ b ∧ b < 16 ∧ s.blockState b = x ∧ ∀ c, 2 ≤ c → c < b → s.blockState c ≠ x := by
  rw [State.lowestBlock, journalBlocks, List.find?_range'_eq_some]
  simp only [beq_iff_eq, Bool.not_eq_true', beq_eq_false_iff_ne, ne_eq]
  constructor
  · rintro ⟨hb, hmem, hbefore⟩
    have hrange := List.mem_range'_1.mp hmem
    exact ⟨hrange.1, by omega, hb, hbefore⟩
  · rintro ⟨hlow, hhigh, hb, hbefore⟩
    exact ⟨hb, List.mem_range'_1.mpr ⟨hlow, by omega⟩, hbefore⟩

theorem batchDue_iff (s : State) : s.batchDue = true ↔ s.dueBatch := by
  rw [State.batchDue, State.dueBatch, Bool.or_eq_true, decide_eq_true_iff]
  refine or_congr_right ?_
  cases s.writer.oldestPending with
  | none => simp
  | some x =>
    simp only [decide_eq_true_iff, Option.some_inj, exists_eq_left']
    rfl

theorem isSome_true {α : Type} {x : Option α} (h : x ≠ none) : x.isSome = true := Option.isSome_iff_ne_none.mpr h

theorem isSome_false {α : Type} {x : Option α} (h : x = none) : ¬ x.isSome = true := by simp [h]

theorem firstWork_active {s : State} (h : s.activeBlock ≠ none) :
    s.firstWork =
      if s.writer.newGameOwed.isSome then some .newGameSlot
      else if s.buildingBlock.isSome then some .snapshotSlot
      else if s.writer.compactionOwed && (s.lowestBlock .erased).isSome then some .compaction
      else if s.batchDue then some .batch
      else if (s.lowestBlock .obsolete).isSome then some .erase
      else none := by
  obtain ⟨b, hb⟩ := Option.ne_none_iff_exists'.mp h
  rw [State.firstWork, hb]

theorem firstWork_inactive {s : State} (h : s.activeBlock = none) :
    s.firstWork =
      if (s.lowestBlock .erased).isSome then some .label
      else if (s.lowestBlock .obsolete).isSome then some .erase
      else some .label := by
  rw [State.firstWork, h]

theorem firstWorkIsOrdered : FirstWorkIsOrdered := by
  refine fun s => ⟨writerFree_iff s, mem_pendingMarks s, lowestBlock_iff s, fun hactive => ?_, fun hnone => ?_⟩
  · rw [firstWork_active hactive]
    refine ⟨fun hgame => if_pos (isSome_true hgame), fun hgame hbuilding => ?_, fun hgame hbuilding =>
      ⟨fun howed herased => ?_, fun hno => ⟨fun hdue => ?_, fun hdue hobsolete => ?_, fun hdue hobsolete => ?_⟩⟩⟩
    all_goals rw [if_neg (isSome_false hgame)]
    · exact if_pos (isSome_true hbuilding)
    all_goals rw [if_neg (isSome_false hbuilding)]
    · exact if_pos (by rw [howed, isSome_true herased]; rfl)
    all_goals
      rw [if_neg (show ¬ (s.writer.compactionOwed && (s.lowestBlock .erased).isSome) = true by
        rcases hno with hno | hno <;> simp [hno])]
    · exact if_pos ((batchDue_iff s).mpr hdue)
    · rw [if_neg (by rw [batchDue_iff]; exact hdue)]
      exact if_pos (isSome_true hobsolete)
    · rw [if_neg (by rw [batchDue_iff]; exact hdue)]
      exact if_neg (isSome_false hobsolete)
  · rw [firstWork_inactive hnone]
    refine ⟨fun herased => if_pos (isSome_true herased), fun herased hobsolete => ?_, fun herased hobsolete => ?_⟩
    · rw [if_neg (isSome_false herased)]
      exact if_pos (isSome_true hobsolete)
    · rw [if_neg (isSome_false herased)]
      exact if_neg (isSome_false hobsolete)

/-! ## Work taken, and work that waits (R169) -/

theorem takeWork_taken {s : State} {w : Work} (f : State → State) (hfree : s.writerFree = true)
    (hfirst : s.firstWork = some w) : s.takeWork w f = f s := if_pos ⟨hfree, hfirst⟩

theorem takeWork_waits {s : State} {w : Work} (f : State → State) (h : s.writerFree = false ∨ s.firstWork ≠ some w) :
    s.takeWork w f = s := if_neg fun ⟨hfree, hfirst⟩ => by
  rcases h with h | h
  · exact Bool.noConfusion (h.symm.trans hfree)
  · exact h hfirst

theorem otherWorkWaits : OtherWorkWaits := by
  refine fun dt s u hon hu => ⟨fun w i hi hwaits => ?_, fun hwaits => ?_⟩
  · subst hu
    simp only [List.mem_cons, Prod.mk.injEq, List.not_mem_nil, or_false] at hi
    rcases hi with ⟨rfl, rfl⟩ | ⟨rfl, rfl⟩ | ⟨rfl, rfl⟩ | ⟨rfl, rfl⟩ | ⟨rfl, rfl⟩
    · rw [exec_batchStart hon, takeWork_waits _ hwaits]
    · rw [exec_compactionStart hon, takeWork_waits _ hwaits]
    · rw [exec_snapshotSlot hon, takeWork_waits _ hwaits]
    · rw [exec_newGameSlot hon, takeWork_waits _ hwaits]
    · rw [exec_eraseObsolete hon, takeWork_waits _ hwaits]
  · subst hu
    rw [exec_labelBlock hon, takeWork_waits _ (hwaits.imp_right And.left),
      takeWork_waits _ (hwaits.imp_right And.right), ite_self]

theorem exec_label_taken {s : State} {dt : Nat} (hon : s.powered = true) (hfree : (s.advance dt).writerFree = true)
    (hfirst : (s.advance dt).firstWork = some .label) :
    exec (.labelBlock dt) s = .next (s.advance dt).takeLabel.onLine := by
  rw [exec_labelBlock hon, if_pos hfirst, takeWork_taken _ hfree hfirst]

theorem exec_label_compacts {s : State} {dt : Nat} (hon : s.powered = true) (hfree : (s.advance dt).writerFree = true)
    (hfirst : (s.advance dt).firstWork = some .compaction) :
    exec (.labelBlock dt) s = .next (s.advance dt).takeCompaction.onLine := by
  rw [exec_labelBlock hon, if_neg (by rw [hfirst]; exact nofun), takeWork_taken _ hfree hfirst]

/-- A compaction that comes first has an ERASED block for its label. -/
theorem compaction_erased {s : State} (h : s.firstWork = some .compaction) : ∃ b, s.lowestBlock .erased = some b := by
  refine Option.isSome_iff_exists.mp ?_
  by_cases hactive : s.activeBlock = none
  · rw [firstWork_inactive hactive] at h
    repeat' split at h
    all_goals exact absurd h (by exact nofun)
  · rw [firstWork_active hactive] at h
    repeat' split at h
    all_goals simp_all

theorem labelBlock_spent {s : State} (b : Nat) (type : LabelType) (h : 65535 < s.writer.nextSequence) :
    s.labelBlock b type = { s with health := { s.health with storeWorn := true } } :=
  if_neg (Nat.not_le_of_lt h)

theorem clearCaptured_eq (s : State) : s.clearCaptured = { s with marks := s.marks.map (MarkEntry.capture false) } := rfl

theorem missingLabelsWearTheStore : MissingLabelsWearTheStore := by
  refine fun dt s u hon hu hfree => ⟨fun hfirst hmissing => ?_, fun hfirst hspent => ?_⟩
  · subst hu
    have hworn : (s.advance dt).takeLabel =
        { s.advance dt with health := { s.health with storeWorn := true } } := by
      unfold State.takeLabel
      split
      · next b hb =>
        rcases hmissing with hnone | hspent
        · exact absurd (hb.symm.trans hnone) (Option.some_ne_none b)
        · exact labelBlock_spent b .journal hspent
      · rfl
    rw [exec_label_taken hon hfree hfirst, hworn]
  · subst hu
    obtain ⟨b, hb⟩ := compaction_erased hfirst
    rw [exec_compactionStart hon, takeWork_taken _ hfree hfirst, State.takeCompaction, hb]
    simp only
    rw [labelBlock_spent b .snapshot (by exact hspent)]
    rfl

end Sys2Proof.Machine

namespace Sys2Proof.Machine

/-! ## The marks of a slot (R163, R164, R168) -/

theorem onOwned_onOwned {f : Owned → Owned} (hf : ∀ o, f (f o) = f o) (e : MarkEntry) :
    (e.onOwned f).onOwned f = e.onOwned f := by
  cases e with
  | owned o => exact congrArg MarkEntry.owned (hf o)
  | replica r => rfl

/-- Some marks' entries changed, all at once. -/
theorem foldModifyOwned {f : Owned → Owned} (hf : ∀ o, f (f o) = f o) (l : List Nat) (s : State) :
    l.foldl (fun (s : State) m => s.modifyOwned m f) s =
      { s with marks := mapFrom (fun m e => if m ∈ l then e.onOwned f else e) 0 s.marks } := by
  induction l generalizing s with
  | nil =>
    have hsame : mapFrom (fun m (e : MarkEntry) => if m ∈ ([] : List Nat) then e.onOwned f else e) 0 s.marks = s.marks := by
      apply List.ext_getElem?
      intro j
      rw [getElem?_mapFrom]
      simp
    rw [hsame]
    rfl
  | cons m l ih =>
    have hmarks : mapFrom (fun m (e : MarkEntry) => if m ∈ l then e.onOwned f else e) 0
          (modifyAt (MarkEntry.onOwned f) m s.marks) =
        mapFrom (fun k (e : MarkEntry) => if k ∈ m :: l then e.onOwned f else e) 0 s.marks := by
      apply List.ext_getElem?
      intro j
      rw [getElem?_mapFrom, getElem?_mapFrom, getElem?_modifyAt, Nat.zero_add]
      by_cases hj : j = m
      · subst hj
        rw [if_pos rfl]
        cases s.marks[j]? with
        | none => rfl
        | some e => simp [onOwned_onOwned hf]
      · simp [hj]
    rw [List.foldl_cons, ih, ← hmarks]
    rfl

/-! ## The writer's pieces of work (R162, R164, R167 to R169, R171) -/

theorem free_of_writerFree {s : State} (h : s.writerFree = true) : s.op = none ∧ s.droop = false := by
  obtain ⟨-, hop, -, hdroop, -⟩ := (writerFree_iff s).mp h
  exact ⟨hop, hdroop⟩

theorem labelBlock_written {s : State} (b : Nat) (type : LabelType) (hop : s.op = none) (hdroop : s.droop = false)
    (hleft : s.writer.nextSequence ≤ 65535) :
    s.labelBlock b type =
      { s with
        op := some ⟨.program b 0 (slotBytes s.epoch (.label s.writer.nextSequence type)), .label type, 0⟩
        store := { s.store with attempted := s.store.attemptedTo b 0 }
        writer := { s.writer with
          census := modifyAt (fun k => { k with sequence := s.writer.nextSequence }) (b - 2) s.writer.census
          nextSequence := s.writer.nextSequence + 1 } } := by
  rw [State.labelBlock, if_pos (by exact hleft)]
  simp only
  rw [request_free (by exact hop) (by exact hdroop)]
  rfl

theorem programActive_free {s : State} (b : Nat) (epoch : Byte) (body : SlotBody) (p : Purpose) (hop : s.op = none)
    (hdroop : s.droop = false) :
    s.programActive b epoch body p =
      { s with
        op := some ⟨.program b s.writer.nextSlot (slotBytes epoch body), p, 0⟩
        store := { s.store with attempted := s.store.attemptedTo b s.writer.nextSlot }
        writer := { s.writer with nextSlot := s.writer.nextSlot + 1 } } := by
  rw [State.programActive, request_free hop hdroop]
  rfl

theorem programSnapshot_end {s : State} (b : Nat) (hop : s.op = none) (hdroop : s.droop = false)
    (hnone : s.unsealedFrom s.writer.snapMark = []) :
    s.programSnapshot b =
      { s with
        op := some ⟨.program b s.writer.snapSlot (slotBytes s.epoch (.snapEnd s.serial)), .snapEnd, 0⟩
        store := { s.store with attempted := s.store.attemptedTo b s.writer.snapSlot }
        writer := { s.writer with snapSlot := s.writer.snapSlot + 1 } } := by
  rw [State.programSnapshot]
  simp only [hnone]
  exact congrArg (fun t : State => { t with writer := { s.writer with snapSlot := s.writer.snapSlot + 1 } })
    (request_free hop hdroop b _ _ _)

theorem programSnapshot_part {s : State} {ms : List Nat} {last : Nat} (b : Nat) (hop : s.op = none)
    (hdroop : s.droop = false) (hms : ms = (s.unsealedFrom s.writer.snapMark).take 9) (hlast : ms.getLast? = some last) :
    s.programSnapshot b =
      { s with
        marks := mapFrom (fun m e => if m ∈ ms then e.onOwned fun o => { o with captured := true } else e) 0 s.marks
        op := some ⟨.program b s.writer.snapSlot (slotBytes s.epoch (.snapPart (ms.filterMap s.recordOf))), .snapPart, 0⟩
        store := { s.store with attempted := s.store.attemptedTo b s.writer.snapSlot }
        writer := { s.writer with
          snapSlot := s.writer.snapSlot + 1, snapMark := last + 1, inFlight := some ms } } := by
  rw [State.programSnapshot, show (s.unsealedFrom s.writer.snapMark).take Config.recordRoom = ms from hms.symm]
  simp only [hlast]
  rw [foldModifyOwned (f := fun o => { o with captured := true }) (fun _ => rfl), request_free (by exact hop) (by exact hdroop)]
  rfl

/-- Settles O53, by which piece of work comes first. -/
theorem writerTakesItsFirstWork : Obligations.WriterTakesItsFirstWork := by
  refine ⟨fun dt s b hon hfree => ?_, firstWorkIsOrdered, otherWorkWaits, missingLabelsWearTheStore⟩
  obtain ⟨hop, hdroop⟩ := free_of_writerFree hfree
  refine ⟨fun st hfirst hb hleft hst => ?_, fun st hfirst hb hleft hst => ?_, fun hfirst hb hnone => ?_,
    fun ms hfirst hb hms hsome => ?_, fun g e hfirst hb howed => ?_, fun hfirst hb => ?_⟩
  · have htake : (s.advance dt).takeLabel = (s.advance dt).labelBlock b .journal := by
      rw [State.takeLabel, show (s.advance dt).lowestBlock .erased = some b from hb]
    refine ⟨_, exec_label_taken hon hfree hfirst, ?_⟩
    rw [htake, labelBlock_written b .journal hop hdroop hleft]
    exact ⟨by rw [hst]; rfl, rfl, rfl, rfl, rfl⟩
  · have htake : (s.advance dt).takeCompaction = (s.advance dt).clearCaptured.labelBlock b .snapshot := by
      rw [State.takeCompaction, show (s.advance dt).lowestBlock .erased = some b from hb]
    refine ⟨_, by rw [exec_compactionStart hon, takeWork_taken _ hfree hfirst],
      exec_label_compacts hon hfree hfirst, ?_⟩
    rw [htake, labelBlock_written b .snapshot (by exact hop) (by exact hdroop) (by exact hleft)]
    exact ⟨by rw [hst]; rfl, rfl, rfl, rfl, rfl⟩
  · have htake : (s.advance dt).takeSnapshotSlot = (s.advance dt).programSnapshot b := by
      rw [State.takeSnapshotSlot, show (s.advance dt).buildingBlock = some b from hb]
    refine ⟨_, by rw [exec_snapshotSlot hon, takeWork_taken _ hfree hfirst], ?_⟩
    rw [htake, programSnapshot_end b hop hdroop hnone]
    exact ⟨rfl, rfl, rfl, rfl, rfl⟩
  · have htake : (s.advance dt).takeSnapshotSlot = (s.advance dt).programSnapshot b := by
      rw [State.takeSnapshotSlot, show (s.advance dt).buildingBlock = some b from hb]
    obtain ⟨last, hlast⟩ := Option.ne_none_iff_exists'.mp fun h => hsome (List.getLast?_eq_none_iff.mp h)
    refine ⟨_, by rw [exec_snapshotSlot hon, takeWork_taken _ hfree hfirst], ?_⟩
    rw [htake, programSnapshot_part b hop hdroop hms hlast]
    refine ⟨rfl, fun l hl => by rw [Option.some_inj.mp (hlast.symm.trans hl)]; rfl, rfl, fun m r hm => ?_,
      fun m o hm => ?_, rfl⟩
    · rw [mark_mapFrom (s := s) rfl m (by split <;> rfl), hm]
      split <;> rfl
    · rw [mark_mapFrom (s := s) rfl m (by split <;> rfl), hm]
      split <;> rfl
  · have htake : (s.advance dt).takeNewGameSlot = (s.advance dt).programActive b e (.newGame g) .newGame := by
      rw [State.takeNewGameSlot, show (s.advance dt).activeBlock = some b from hb,
        show (s.advance dt).writer.newGameOwed = some (g, e) from howed]
    refine ⟨_, by rw [exec_newGameSlot hon, takeWork_taken _ hfree hfirst], ?_⟩
    rw [htake, programActive_free b e _ _ hop hdroop]
    exact ⟨rfl, rfl, rfl, rfl, rfl⟩
  · have htake : (s.advance dt).takeErase = { s.advance dt with op := some ⟨.erase b, .eraseObsolete, 0⟩ } := by
      rw [State.takeErase, show (s.advance dt).lowestBlock .obsolete = some b from hb]
      exact request_erase b .eraseObsolete hop hdroop
    rw [exec_eraseObsolete hon, takeWork_taken _ hfree hfirst, htake]

end Sys2Proof.Machine

namespace Sys2Proof.Machine

/-! ## The slots as bytes (R159, R193, R199) -/

/-- The bytes of a slot that its fields name. -/
def SlotBody.head (e : Byte) (body : SlotBody) : List Byte :=
  [body.code, e, BitVec.ofNat 8 body.count] ++ body.area

/-- The bytes of a slot that its check covers. -/
def SlotBody.covered (e : Byte) (body : SlotBody) : List Byte :=
  body.head e ++ List.replicate (30 - (body.head e).length) 0xFF

theorem slotBytes_eq (e : Byte) {body : SlotBody} (harea : body.area.length ≤ 27) :
    slotBytes e body = body.covered e ++ wordBytes (crc16 (bytesToBits (body.covered e))) := by
  have hcovered : [body.code, e, BitVec.ofNat 8 body.count] ++ exactBytes 27 body.area = body.covered e := by
    rw [exactBytes_eq 27 _ harea, SlotBody.covered, SlotBody.head, List.append_assoc]
    congr 3
    simp only [List.length_append, List.length_cons, List.length_nil]
    omega
  rw [slotBytes, hcovered]

theorem covered_length (e : Byte) {body : SlotBody} (harea : body.area.length ≤ 27) : (body.covered e).length = 30 := by
  simp only [SlotBody.covered, SlotBody.head, List.length_append, List.length_cons, List.length_nil, List.length_replicate]
  omega

theorem wordAt_wordBytes {n : Nat} (h : n < 65536) (l : List Byte) : wordAt (l ++ wordBytes n) l.length = n := by
  have hbytes : ∀ i, byteAt (l ++ wordBytes n) (l.length + i) = byteAt (wordBytes n) i := by
    intro i
    simp only [byteAt, List.getD_eq_getElem?_getD, List.getElem?_append_right (Nat.le_add_right l.length i),
      Nat.add_sub_cancel_left]
  rw [wordAt, show byteAt (l ++ wordBytes n) l.length = _ from hbytes 0, hbytes 1]
  show 256 * (BitVec.ofNat 8 (n / 256)).toNat + (BitVec.ofNat 8 n).toNat = n
  simp only [BitVec.toNat_ofNat]
  omega

/-- A byte that a field of the slot names. -/
theorem byteAt_slot (e : Byte) {body : SlotBody} (harea : body.area.length ≤ 27) {i : Nat} (hi : i < (body.head e).length) :
    byteAt (slotBytes e body) i = byteAt (body.head e) i := by
  rw [slotBytes_eq e harea]
  simp only [SlotBody.covered, List.append_assoc, byteAt, List.getD_eq_getElem?_getD, List.getElem?_append_left hi]

/-- A slot of the writer's holds its fields and its check, and reads back so. -/
theorem slot_holds {e : Byte} {body : SlotBody} {head : List Byte} (hhead : head = body.head e)
    (harea : body.area.length ≤ 27) (hcode : body.code ≠ 0xFF) (hcount : body.count ≤ 9)
    (hbody : slotBodyOf (slotBytes e body) = some body) :
    (slotBytes e body).length = 32 ∧
      (slotBytes e body).take 30 = head ++ List.replicate (30 - head.length) 0xFF ∧
      wordAt (slotBytes e body) 30 = crc16 (bytesToBits ((slotBytes e body).take 30)) ∧
      readSlot (slotBytes e body) = .valid e body := by
  subst hhead
  have hlen := covered_length e harea
  have htake : (slotBytes e body).take 30 = body.covered e := by
    rw [slotBytes_eq e harea, ← hlen, List.take_left]
  have hword : wordAt (slotBytes e body) 30 = crc16 (bytesToBits (body.covered e)) := by
    have h := wordAt_wordBytes (crc16_lt (bytesToBits (body.covered e))) (body.covered e)
    rw [hlen, ← slotBytes_eq e harea] at h
    exact h
  have hfields : 3 ≤ (body.head e).length := by
    simp only [SlotBody.head, List.length_append, List.length_cons, List.length_nil]
    omega
  have hcode' : byteAt (slotBytes e body) 0 = body.code := byteAt_slot e harea (by omega)
  have hepoch : byteAt (slotBytes e body) 1 = e := byteAt_slot e harea (by omega)
  have hcount' : numAt (slotBytes e body) 2 = body.count := by
    rw [numAt, byteAt_slot e harea (by omega)]
    show (BitVec.ofNat 8 body.count).toNat = body.count
    rw [BitVec.toNat_ofNat]
    omega
  have hlen32 : (slotBytes e body).length = 32 := by
    rw [slotBytes_eq e harea, List.length_append, hlen]
    rfl
  have hnotErased : allErased (slotBytes e body) = false := by
    refine Bool.eq_false_iff.mpr fun hall => hcode ?_
    rw [← hcode', byteAt, List.getD_eq_getElem?_getD, List.getElem?_eq_getElem (by omega)]
    exact eq_of_beq (List.all_eq_true.mp hall _ (List.getElem_mem (by omega)))
  refine ⟨hlen32, htake, by rw [hword, htake], ?_⟩
  rw [readSlot, if_neg (by simp [hnotErased]), if_pos ⟨by rw [htake, hword], by rw [hcount']; exact hcount⟩, hbody]
  simp only [hepoch]

/-- Records laid out one after the other read back. -/
theorem records_read (rs : List SlotRecord) (pre post : List Byte) (h : ∀ x ∈ rs, x.1 < 256) :
    (List.range rs.length).map (fun r =>
      (numAt (pre ++ (rs.flatMap fun x => [bodyByte x.1, x.2.1, x.2.2]) ++ post) (pre.length + 3 * r),
        byteAt (pre ++ (rs.flatMap fun x => [bodyByte x.1, x.2.1, x.2.2]) ++ post) (pre.length + 3 * r + 1),
        byteAt (pre ++ (rs.flatMap fun x => [bodyByte x.1, x.2.1, x.2.2]) ++ post) (pre.length + 3 * r + 2))) = rs := by
  induction rs generalizing pre with
  | nil => rfl
  | cons x rs ih =>
    have hrest := ih (pre ++ [bodyByte x.1, x.2.1, x.2.2]) fun y hy => h y (List.mem_cons_of_mem _ hy)
    have hbytes : ∀ i, byteAt (pre ++ ((x :: rs).flatMap fun x => [bodyByte x.1, x.2.1, x.2.2]) ++ post) (pre.length + i) =
        byteAt ([bodyByte x.1, x.2.1, x.2.2] ++ ((rs.flatMap fun x => [bodyByte x.1, x.2.1, x.2.2]) ++ post)) i := by
      intro i
      simp only [byteAt, List.getD_eq_getElem?_getD, List.append_assoc, List.flatMap_cons,
        List.getElem?_append_right (Nat.le_add_right pre.length i), Nat.add_sub_cancel_left]
    have hnum : (bodyByte x.1).toNat = x.1 := by
      have := h x List.mem_cons_self
      rw [bodyByte, BitVec.toNat_ofNat]
      omega
    rw [List.length_cons, List.range_succ_eq_map, List.map_cons, List.map_map]
    congr 1
    · rw [numAt, show pre.length + 3 * 0 = pre.length + 0 from rfl, hbytes 0, hbytes 1, hbytes 2]
      exact Prod.ext hnum rfl
    · refine Eq.trans (List.map_congr_left fun r _ => ?_) hrest
      have hindex : pre.length + 3 * (r + 1) = (pre ++ [bodyByte x.1, x.2.1, x.2.2]).length + 3 * r := by
        simp only [List.length_append, List.length_cons, List.length_nil]
        omega
      simp only [Function.comp_apply, Nat.succ_eq_add_one, hindex, List.flatMap_cons, List.append_assoc]

theorem flatMap_record_length (rs : List SlotRecord) :
    (rs.flatMap fun x => [bodyByte x.1, x.2.1, x.2.2]).length = 3 * rs.length := by
  induction rs with
  | nil => rfl
  | cons x rs ih =>
    rw [List.flatMap_cons, List.length_append, ih, List.length_cons]
    simp only [List.length_cons, List.length_nil]
    omega

/-- The records of a slot that has them read back. -/
theorem slotRecords_read {e : Byte} {body : SlotBody} {rs : List SlotRecord} (hrs : rs.length ≤ 9) (h : ∀ x ∈ rs, x.1 < 256)
    (hcount : body.count = rs.length) (harea : body.area = rs.flatMap fun x => [bodyByte x.1, x.2.1, x.2.2]) :
    slotRecords (slotBytes e body) = rs := by
  have hlen : body.area.length ≤ 27 := by
    rw [harea, flatMap_record_length]
    omega
  have hnum : numAt (slotBytes e body) 2 = rs.length := by
    rw [numAt, byteAt_slot e hlen (by simp [SlotBody.head])]
    show (BitVec.ofNat 8 body.count).toNat = rs.length
    rw [BitVec.toNat_ofNat, hcount]
    omega
  have hbytes : ∃ post, slotBytes e body =
      [body.code, e, BitVec.ofNat 8 body.count] ++ (rs.flatMap fun x => [bodyByte x.1, x.2.1, x.2.2]) ++ post := by
    have heq := slotBytes_eq e hlen
    rw [SlotBody.covered, SlotBody.head, harea, List.append_assoc _ (List.replicate _ _)] at heq
    exact ⟨_, heq⟩
  obtain ⟨post, hpost⟩ := hbytes
  have hread := records_read rs [body.code, e, BitVec.ofNat 8 body.count] post h
  rw [← hpost] at hread
  rw [slotRecords, hnum]
  refine Eq.trans (List.map_congr_left fun r _ => ?_) hread
  rw [show 4 + 3 * r = 3 + 3 * r + 1 by omega, show 5 + 3 * r = 3 + 3 * r + 2 by omega]
  rfl

theorem slotBodyOf_label {e : Byte} {q : Nat} {t : LabelType} (hq : 1 ≤ q) (hq' : q ≤ 65535) :
    slotBodyOf (slotBytes e (.label q t)) = some (.label q t) := by
  have hbyte := fun {i} => byteAt_slot e (body := .label q t) (i := i) (show 3 ≤ 27 by decide)
  have hword : wordAt (slotBytes e (.label q t)) 3 = q := by
    rw [wordAt, hbyte (show 3 < 6 by decide), hbyte (show 4 < 6 by decide)]
    show 256 * (BitVec.ofNat 8 (q / 256)).toNat + (BitVec.ofNat 8 q).toNat = q
    simp only [BitVec.toNat_ofNat]
    omega
  have hkind : numAt (slotBytes e (.label q t)) 0 = 1 := by rw [numAt, hbyte (show 0 < 6 by decide)]; rfl
  have htype : numAt (slotBytes e (.label q t)) 5 = t.code.toNat := by rw [numAt, hbyte (show 5 < 6 by decide)]; rfl
  rw [slotBodyOf, hkind, htype, hword]
  cases t <;> exact if_pos (by simpa using hq)

theorem slotBodyOf_byte {e g : Byte} {body : SlotBody} (h : body = .session g ∨ body = .snapEnd g ∨ body = .newGame g) :
    slotBodyOf (slotBytes e body) = some body := by
  rcases h with rfl | rfl | rfl <;> rfl

theorem slotBodyOf_records {e : Byte} {body : SlotBody} {rs : List SlotRecord} (hrs : rs.length ≤ 9)
    (h : ∀ x ∈ rs, x.1 < 256) (hbody : body = .batch rs ∨ body = .snapPart rs) :
    slotBodyOf (slotBytes e body) = some body := by
  have hread : slotRecords (slotBytes e body) = rs := by
    rcases hbody with rfl | rfl <;> exact slotRecords_read hrs h rfl rfl
  rcases hbody with rfl | rfl
  · show some (SlotBody.batch (slotRecords _)) = _
    rw [hread]
  · show some (SlotBody.snapPart (slotRecords _)) = _
    rw [hread]

theorem recordOf_replica {s : State} {m : Nat} {r : Replica} (h : s.mark m = .replica r) : s.recordOf m = none := by
  rw [State.recordOf, State.owned, h]
  rfl

theorem recordOf_owned {s : State} {m : Nat} {o : Owned} (h : s.mark m = .owned o) :
    s.recordOf m = some (m,
      (if o.kind = .tally then bodyByte (16 * (o.value / 10) + o.value % 10) else bodyByte o.value), o.version) := by
  rw [State.recordOf, owned_of_mark h, Option.map_some]
  cases hkind : o.kind <;> rfl

theorem mem_unsealedFrom (s : State) (n m : Nat) :
    m ∈ s.unsealedFrom n ↔ n ≤ m ∧ m < 256 ∧ ∃ o, s.mark m = .owned o ∧ o.sealed = false := by
  rw [State.unsealedFrom, List.mem_filter, List.mem_range, Bool.and_eq_true, decide_eq_true_iff]
  have hentry : (match s.mark m with
      | .owned o => !o.sealed
      | .replica _ => false) = true ↔ ∃ o, s.mark m = .owned o ∧ o.sealed = false := by
    cases s.mark m <;> simp
  exact ⟨fun ⟨hm, hn, ho⟩ => ⟨hn, hm, hentry.mp ho⟩, fun ⟨hn, hm, ho⟩ => ⟨hm, hn, hentry.mpr ho⟩⟩

theorem slotsAreWrittenAndRead : SlotsAreWrittenAndRead := by
  refine ⟨fun e body head h => ?_, fun s m => ⟨fun r => recordOf_replica, fun o => recordOf_owned⟩, mem_unsealedFrom,
    fun s n => ⟨List.pairwise_lt_range.filter _, List.pairwise_lt_range.filter _⟩⟩
  rcases h with ⟨q, t, rfl, hq, hq', rfl⟩ | ⟨g, rfl, rfl⟩ | ⟨rs, rfl, hrs, hnum, rfl⟩ | ⟨rs, rfl, hrs, hnum, rfl⟩ |
    ⟨g, rfl, rfl⟩ | ⟨g, rfl, rfl⟩ | ⟨x, rfl, rfl⟩
  · refine slot_holds ?_ (show 3 ≤ 27 by decide) (by show (1 : Byte) ≠ 0xFF; decide) (Nat.zero_le 9) (slotBodyOf_label hq hq')
    have hlow : bodyByte (q % 256) = BitVec.ofNat 8 q := by
      apply BitVec.eq_of_toNat_eq
      rw [bodyByte, BitVec.toNat_ofNat, BitVec.toNat_ofNat]
      omega
    rw [hlow]
    cases t <;> rfl
  · exact slot_holds rfl (show 1 ≤ 27 by decide) (by show (2 : Byte) ≠ 0xFF; decide) (Nat.zero_le 9)
      (slotBodyOf_byte (.inl rfl))
  · exact slot_holds rfl (by
      show (rs.flatMap fun x => [bodyByte x.1, x.2.1, x.2.2]).length ≤ 27
      rw [flatMap_record_length]
      omega) (by show (3 : Byte) ≠ 0xFF; decide) hrs (slotBodyOf_records hrs hnum (.inl rfl))
  · exact slot_holds rfl (by
      show (rs.flatMap fun x => [bodyByte x.1, x.2.1, x.2.2]).length ≤ 27
      rw [flatMap_record_length]
      omega) (by show (4 : Byte) ≠ 0xFF; decide) hrs (slotBodyOf_records hrs hnum (.inr rfl))
  · exact slot_holds rfl (show 1 ≤ 27 by decide) (by show (5 : Byte) ≠ 0xFF; decide) (Nat.zero_le 9)
      (slotBodyOf_byte (.inr (.inl rfl)))
  · exact slot_holds rfl (show 1 ≤ 27 by decide) (by show (6 : Byte) ≠ 0xFF; decide) (Nat.zero_le 9)
      (slotBodyOf_byte (.inr (.inr rfl)))
  · cases x with
    | true => exact slot_holds rfl (show 1 ≤ 27 by decide) (by show (7 : Byte) ≠ 0xFF; decide) (Nat.zero_le 9) rfl
    | false => exact slot_holds rfl (show 1 ≤ 27 by decide) (by show (7 : Byte) ≠ 0xFF; decide) (Nat.zero_le 9) rfl

end Sys2Proof.Machine

namespace Sys2Proof.Machine

/-! ## Pending flags (R163) -/

theorem anyPending_eq (s : State) : s.anyPending = s.marks.any MarkEntry.awaits := by
  rw [State.anyPending]
  congr 1

theorem awaits_mark {s : State} {m : Nat} (h : (s.mark m).awaits = true) : s.marks[m]? = some (s.mark m) := by
  rw [State.mark, List.getD_eq_getElem?_getD] at *
  cases hm : s.marks[m]? with
  | none =>
    rw [hm] at h
    exact Bool.noConfusion h
  | some e => rfl

theorem mem_pendingMarks_awaits (s : State) (m : Nat) : m ∈ s.pendingMarks ↔ m < 256 ∧ (s.mark m).awaits = true := by
  rw [State.pendingMarks, List.mem_filter, List.mem_range]
  rfl

/-- Some flag is set when a pending mark is listed. -/
theorem anyPending_iff {s : State} (h : s.marks.length = 256) : s.anyPending = true ↔ ∃ m, m ∈ s.pendingMarks := by
  rw [anyPending_eq, List.any_eq_true]
  constructor
  · rintro ⟨e, he, hawaits⟩
    obtain ⟨m, hm, rfl⟩ := List.getElem_of_mem he
    refine ⟨m, (mem_pendingMarks_awaits s m).mpr ⟨by omega, ?_⟩⟩
    rw [State.mark, List.getD_eq_getElem?_getD, List.getElem?_eq_getElem hm]
    exact hawaits
  · rintro ⟨m, hm⟩
    obtain ⟨-, hawaits⟩ := (mem_pendingMarks_awaits s m).mp hm
    exact ⟨s.mark m, List.mem_of_getElem? (awaits_mark hawaits), hawaits⟩

theorem pendingMarks_nodup (s : State) : s.pendingMarks.Nodup := List.nodup_range.filter _

/-- A list with no repetitions is longer than what is taken of it exactly when something is left. -/
theorem exists_not_taken {α : Type} {l : List α} (h : l.Nodup) (n : Nat) : (∃ x ∈ l, x ∉ l.take n) ↔ n < l.length := by
  constructor
  · rintro ⟨x, hx, hno⟩
    by_contra hle
    rw [List.take_of_length_le (by omega)] at hno
    exact hno hx
  · intro hn
    refine ⟨l[n], List.getElem_mem hn, fun hmem => ?_⟩
    obtain ⟨i, hi, heq⟩ := List.getElem_of_mem hmem
    rw [List.length_take] at hi
    rw [List.getElem_take] at heq
    have := (List.Nodup.getElem_inj_iff h).mp heq
    omega

/-- The flag cleared. -/
def Owned.taken (o : Owned) : Owned := { o with pending := none }

/-- The marks with the flags of some cleared. -/
def takenMarks (ms : List Nat) (marks : List MarkEntry) : List MarkEntry :=
  mapFrom (fun m e => if m ∈ ms then e.onOwned Owned.taken else e) 0 marks

theorem mark_taken {s t : State} {ms : List Nat} (h : t.marks = takenMarks ms s.marks) (m : Nat) :
    t.mark m = if m ∈ ms then (s.mark m).onOwned Owned.taken else s.mark m :=
  mark_mapFrom (f := fun m e => if m ∈ ms then e.onOwned Owned.taken else e) h m (by split <;> rfl)

theorem mem_pendingMarks_taken {s t : State} {ms : List Nat} (h : t.marks = takenMarks ms s.marks) (m : Nat) :
    m ∈ t.pendingMarks ↔ m ∈ s.pendingMarks ∧ m ∉ ms := by
  rw [mem_pendingMarks_awaits, mem_pendingMarks_awaits, mark_taken h m]
  by_cases hm : m ∈ ms
  · have hno : ((s.mark m).onOwned Owned.taken).awaits = false := by
      cases s.mark m <;> rfl
    simp [hm, hno]
  · simp [hm]

/-- Some flag is still set when a batch has taken its marks (R163). -/
theorem anyPending_taken {s t : State} (hlen : s.marks.length = 256)
    (h : t.marks = takenMarks (s.pendingMarks.take 9) s.marks) : t.anyPending = true ↔ 9 < s.pendingMarks.length := by
  rw [anyPending_iff (by rw [h, takenMarks, mapFrom_length, hlen]), ← exists_not_taken (pendingMarks_nodup s)]
  simp only [mem_pendingMarks_taken h]

/-! ## The batch (R164) -/

theorem startBatch_eq {s : State} (b : Nat) (hop : s.op = none) (hdroop : s.droop = false) (hlen : s.marks.length = 256) :
    s.startBatch b =
      { s with
        marks := takenMarks (s.pendingMarks.take 9) s.marks
        op := some ⟨.program b s.writer.nextSlot (slotBytes s.epoch
          (.batch ((s.pendingMarks.take 9).filterMap s.recordOf))), .batch, 0⟩
        store := { s.store with attempted := s.store.attemptedTo b s.writer.nextSlot }
        writer := { s.writer with
          nextSlot := s.writer.nextSlot + 1
          inFlight := some (s.pendingMarks.take 9)
          oldestPending := if s.pendingMarks.length ≤ 9 then none else some s.now } } := by
  have hfold := foldModifyOwned (f := Owned.taken) (fun _ => rfl) (s.pendingMarks.take 9) s
  have hany := anyPending_taken (t := { s with marks := takenMarks (s.pendingMarks.take 9) s.marks }) hlen rfl
  have holdest : (if State.anyPending { s with marks := takenMarks (s.pendingMarks.take 9) s.marks } = true then some s.now
      else none) = if s.pendingMarks.length ≤ 9 then none else some s.now := by
    by_cases h : s.pendingMarks.length ≤ 9
    · rw [if_pos h, if_neg (by rw [hany]; omega)]
    · rw [if_neg h, if_pos (hany.mpr (by omega))]
  rw [← holdest]
  show State.programActive (State.noteTaking
    { (s.pendingMarks.take 9).foldl (fun (s : State) m => s.modifyOwned m Owned.taken) s with
      writer := { ((s.pendingMarks.take 9).foldl (fun (s : State) m => s.modifyOwned m Owned.taken) s).writer with
        inFlight := some (s.pendingMarks.take 9) } }) b s.epoch _ .batch = _
  rw [hfold]
  exact programActive_free b s.epoch _ .batch hop hdroop

theorem batchTaken : ∀ (dt : Nat) (s : State) (b : Nat), s.powered = true → (s.advance dt).writerFree = true →
    (s.advance dt).firstWork = some .batch → s.activeBlock = some b → s.marks.length = 256 →
    ∃ t : State, exec (.batchStart dt) s = .next t.onLine ∧
      t.op = some ⟨.program b s.writer.nextSlot (slotBytes s.epoch
        (.batch ((s.pendingMarks.take 9).filterMap s.recordOf))), .batch, 0⟩ ∧
      t.writer = { s.writer with
        nextSlot := s.writer.nextSlot + 1
        inFlight := some (s.pendingMarks.take 9)
        oldestPending := if s.pendingMarks.length ≤ 9 then none else some (s.now + dt) } ∧
      t.store.attempted = s.store.attemptedTo b s.writer.nextSlot ∧
      (∀ m o, s.mark m = .owned o → t.mark m = .owned
        (if m ∈ s.pendingMarks.take 9 then { o with pending := none } else o)) ∧
      (∀ m r, s.mark m = .replica r → t.mark m = .replica r) ∧ (s.advance dt).writerFrame t := by
  intro dt s b hon hfree hfirst hb hlen
  obtain ⟨hop, hdroop⟩ := free_of_writerFree hfree
  have htake : (s.advance dt).takeBatch = (s.advance dt).startBatch b := by
    rw [State.takeBatch, show (s.advance dt).activeBlock = some b from hb]
  refine ⟨_, by rw [exec_batchStart hon, takeWork_taken _ hfree hfirst], ?_⟩
  rw [htake, startBatch_eq b hop hdroop hlen]
  refine ⟨rfl, rfl, rfl, fun m o hm => ?_, fun m r hm => ?_, rfl⟩
  · rw [mark_taken (s := s) rfl m, hm]
    show (if m ∈ s.pendingMarks.take 9 then _ else _) = _
    split <;> rfl
  · rw [mark_taken (s := s) rfl m, hm]
    split <;> rfl

end Sys2Proof.Machine

namespace Sys2Proof.Machine

/-! ## The census (R161, R170) -/

theorem journal_census {c : List Block} (h : c.length = 14) : (journalBlocks.map fun b => c.getD (b - 2) ⟨.obsolete, 0⟩) = c := by
  apply List.ext_getElem?
  intro i
  rw [List.getElem?_map, journalBlocks]
  by_cases hi : i < 14
  · rw [List.getElem?_range' hi, Option.map_some, List.getD_eq_getElem?_getD,
      show 2 + 1 * i - 2 = i by omega, List.getElem?_eq_getElem (by omega)]
    rfl
  · rw [List.getElem?_eq_none (by rw [List.length_range']; omega), List.getElem?_eq_none (by omega)]
    rfl

/-- The count of the blocks in a state is of the census, whole. -/
theorem countBlocks_eq {s : State} (h : s.writer.census.length = 14) (x : BlockState) :
    s.countBlocks x = inState x s.writer.census := by
  have hmap := congrArg (List.countP fun k : Block => k.state == x) (journal_census h)
  rw [List.countP_map] at hmap
  exact hmap

theorem wornTest_eq {s : State} (h : s.writer.census.length = 14) :
    s.wornTest = { s with health := { s.health with storeWorn := wornBy s.writer.census s.health.storeWorn } } := by
  rw [State.wornTest, countBlocks_eq h]
  by_cases hworn : 14 - inState .retired s.writer.census < 3
  · rw [if_pos (by exact hworn), wornBy, decide_eq_true hworn, Bool.or_true]
    rfl
  · rw [if_neg (by exact hworn), wornBy, decide_eq_false hworn, Bool.or_false]

theorem censusWith_length (b : Nat) (x : BlockState) (c : List Block) : (censusWith b x c).length = c.length :=
  modifyAt_length _ _ _

/-- A block retired, its RETIRED slot attempted (R161). -/
theorem retire_attempts {s : State} (b : Nat) (hop : s.op = none) (hdroop : s.droop = false)
    (hfew : s.store.attempted.getD b 0 ≤ 63) :
    s.retire b =
      { s with
        writer := { s.writer with census := censusWith b .retired s.writer.census }
        op := some ⟨.program b 63 (slotBytes s.epoch (.retired false)), .retired, 0⟩
        store := { s.store with attempted := s.store.attempted.set b 64 } } := by
  have hmax : max ((s.setBlock b .retired).store.attempted.getD b 0) (63 + 1) = 64 :=
    max_eq_right (by exact Nat.le_succ_of_le hfew)
  rw [State.retire, if_pos (by exact hfew), request_free (by exact hop) (by exact hdroop), hmax]
  rfl

/-- A block retired whose slot 63 has been attempted: the test is made at once (R161, R170). -/
theorem retire_tests {s : State} (b : Nat) (hcensus : s.writer.census.length = 14)
    (hmany : 64 ≤ s.store.attempted.getD b 0) :
    s.retire b =
      { s with
        writer := { s.writer with census := censusWith b .retired s.writer.census }
        health := { s.health with
          storeWorn := wornBy (censusWith b .retired s.writer.census) s.health.storeWorn } } := by
  rw [State.retire, if_neg (by exact Nat.not_le_of_lt hmany)]
  exact wornTest_eq (s := s.setBlock b .retired) ((censusWith_length b .retired _).trans hcensus)

/-! ## What the writer does with a result (R162, R164 to R171) -/

theorem inGame_cases {x : Session} (h : x.inGame = true) : x = .listening ∨ x = .play ∨ x = .rest := by
  cases x <;> simp_all [Session.inGame]

/-- The client in a game is the Journal Writer. -/
theorem clientTakes_game {s : State} (h : s.session.inGame = true) (o : Operation) (v : Verdict) :
    s.clientTakes o v = s.writerTakes o v := by
  unfold State.clientTakes
  rcases inGame_cases h with hs | hs | hs <;> rw [hs]

/-- Nothing waits for the writer. -/
def State.waitsNone (s : State) : Prop :=
  s.writer.newGameWaits = none ∧ s.writer.withdrawWaits = false ∧ s.waiting = none

theorem takeWaits_none {s : State} (h : s.waitsNone) : s.takeWaits = s := by
  obtain ⟨hgame, hwithdraw, -⟩ := h
  have hnone : s.takeNewGameWait = s := by rw [State.takeNewGameWait, hgame]
  have hnone' : s.takeWithdrawWait = s := if_neg (by simp [hwithdraw])
  unfold State.takeWaits
  split
  · rw [hnone, hnone']
  · rfl

theorem exec_writerProgram {s u v : State} {b slot k dt : Nat} {data : List Byte} {p : Purpose} {r : OpResult}
    {x : Verdict} (hon : s.powered = true) (hgame : s.session.inGame = true)
    (hop : s.op = some ⟨.program b slot data, p, k⟩)
    (hx : (Operation.judge ⟨.program b slot data, p, k⟩ r) = .inl x)
    (hu : u = { s.advance dt with op := none, store := s.store.finish (.program b slot data) r.left x })
    (hv : u.writerProgrammed b slot p x = v) (hwaits : v.waitsNone) :
    exec (.storeProgramEnd dt r) s = .next v.onLine := by
  have htakes : u.clientTakes ⟨.program b slot data, p, k⟩ x = v := by
    rw [clientTakes_game (by rw [hu]; exact hgame)]
    show (u.writerProgrammed b slot p x).takeWaits = v
    rw [hv, takeWaits_none hwaits]
  rw [exec_programEnd hon hop hx hu, htakes, startWaiting_none hwaits.2.2]

theorem exec_writerErase {s u v : State} {b k dt : Nat} {p : Purpose} {r : OpResult} {x : Verdict}
    (hon : s.powered = true) (hgame : s.session.inGame = true) (hop : s.op = some ⟨.erase b, p, k⟩)
    (hx : (Operation.judge ⟨.erase b, p, k⟩ r) = .inl x)
    (hu : u = { s.advance dt with op := none, store := s.store.finish (.erase b) r.left x })
    (hv : u.writerErased b x = v) (hwaits : v.waitsNone) :
    exec (.storeEraseEnd dt r) s = .next v.onLine := by
  have htakes : u.clientTakes ⟨.erase b, p, k⟩ x = v := by
    rw [clientTakes_game (by rw [hu]; exact hgame)]
    show (u.writerErased b x).takeWaits = v
    rw [hv, takeWaits_none hwaits]
  rw [exec_eraseEnd hon hop hx hu, htakes, startWaiting_none hwaits.2.2]

/-! ## Slots that pass -/

theorem becomeActive_eq {s : State} (b : Nat) (h : s.writer.census.length = 14) :
    s.becomeActive b =
      { s with writer := { s.writer with
          census := censusWith b .active s.writer.census
          nextSlot := 1
          compactionOwed := s.writer.compactionOwed || (!s.health.withdrawn &&
            decide (inState .erased (censusWith b .active s.writer.census) ≤ 2)) } } := by
  have hcount := countBlocks_eq (s := s.setBlock b .active) ((censusWith_length b .active _).trans h) .erased
  rw [State.becomeActive, Bool.and_comm (x := !s.health.withdrawn)]
  simp only [hcount]
  rfl

theorem fillActive_eq (s : State) (b slot : Nat) :
    s.fillActive b slot =
      { s with writer := { s.writer with
          census := if slot = 63 then censusWith b .full s.writer.census else s.writer.census } } := by
  unfold State.fillActive
  split
  · rfl
  · rfl

/-- The flag's time, where the journal minds it. -/
def MarkEntry.since : MarkEntry → Option Nat
  | .owned o => if o.sealed = true then none else o.pending
  | .replica _ => none

theorem since_some (e : MarkEntry) (x : Nat) :
    e.since = some x ↔ ∃ o, e = .owned o ∧ o.sealed = false ∧ o.pending = some x := by
  cases e with
  | owned o => cases hsealed : o.sealed <;> simp [MarkEntry.since, hsealed]
  | replica r => simp [MarkEntry.since]

theorem awaits_eq (e : MarkEntry) : e.awaits = e.since.isSome := by
  cases e with
  | owned o => cases hsealed : o.sealed <;> simp [MarkEntry.since, MarkEntry.awaits, hsealed]
  | replica r => rfl

theorem oldestSet_cons (e : MarkEntry) (l : List MarkEntry) :
    oldestSet (e :: l) = match e.since, oldestSet l with
      | some t, some t' => some (min t t')
      | some t, none => some t
      | none, r => r := by
  cases e with
  | owned o => rfl
  | replica r => rfl

/-- The oldest of the times of the flags set (R163). -/
theorem oldestSet_least (l : List MarkEntry) :
    (oldestSet l = none ↔ ∀ e ∈ l, e.since = none) ∧
    ∀ x, oldestSet l = some x → (∃ e ∈ l, e.since = some x) ∧ ∀ e ∈ l, ∀ y, e.since = some y → x ≤ y := by
  induction l with
  | nil => exact ⟨by simp [oldestSet], fun x h => absurd h (Option.some_ne_none x).symm⟩
  | cons e l ih =>
    obtain ⟨hnone, hleast⟩ := ih
    rw [oldestSet_cons]
    cases he : e.since with
    | none =>
      refine ⟨by simp [he, hnone], fun x hx => ?_⟩
      obtain ⟨⟨e', he', hx'⟩, hle⟩ := hleast x hx
      exact ⟨⟨e', List.mem_cons_of_mem _ he', hx'⟩, by
        simp only [List.forall_mem_cons, he]
        exact ⟨fun y hy => absurd hy (Option.some_ne_none y).symm, hle⟩⟩
    | some t =>
      cases hl : oldestSet l with
      | none =>
        have hall := hnone.mp hl
        refine ⟨by simp [he], fun x hx => ?_⟩
        obtain rfl := Option.some_inj.mp hx
        refine ⟨⟨e, List.mem_cons_self, he⟩, ?_⟩
        simp only [List.forall_mem_cons, he]
        exact ⟨fun y hy => (Option.some_inj.mp hy).le, fun e' he' y hy =>
          absurd ((hall e' he').symm.trans hy) (Option.some_ne_none y).symm⟩
      | some t' =>
        obtain ⟨⟨e', he', ht'⟩, hle⟩ := hleast t' hl
        refine ⟨by simp [he], fun x hx => ?_⟩
        obtain rfl := Option.some_inj.mp hx
        refine ⟨?_, ?_⟩
        · rcases min_choice t t' with h | h
          · exact ⟨e, List.mem_cons_self, by rw [he, h]⟩
          · exact ⟨e', List.mem_cons_of_mem _ he', by rw [ht', h]⟩
        · simp only [List.forall_mem_cons, he]
          exact ⟨fun y hy => (min_le_left t t').trans (Option.some_inj.mp hy).le, fun e' he' y hy =>
            (min_le_right t t').trans (hle e' he' y hy)⟩

end Sys2Proof.Machine

namespace Sys2Proof.Machine

/-! ## Slots and erases that pass (R156, R162, R164 to R169, R171) -/

/-- A slot programmed holds its bytes. -/
theorem writeSlot_holds {st : Store} {b slot : Nat} {data : List Byte} (h : st.wf = true) (hb : b < 16) (hslot : slot < 64)
    (hlen : data.length = 32) {i : Nat} (hi : i < 32) :
    readByte (st.writeSlot b slot data).cells (2048 * b + 32 * slot + i) = data.getD i erasedByte := by
  have hdata : exactBytes 32 data = data := by rw [← hlen]; exact exactBytes_self data
  rw [Store.writeSlot, if_pos ⟨hb, hslot⟩, hdata, List.getD_eq_getElem _ _ (by omega)]
  exact readByte_writeBytes h (by simp only [slotAddr, storeSize]; omega) (by omega)

/-- The end of a compaction: the marks and the oldest of the flags left (R168). -/
theorem endCompaction_marks (l : List MarkEntry) :
    (oldestSet l = none ↔ l.any MarkEntry.awaits = false) ∧
    ∀ x, oldestSet l = some x →
      (∃ o, MarkEntry.owned o ∈ l ∧ o.sealed = false ∧ o.pending = some x) ∧
      ∀ o y, MarkEntry.owned o ∈ l → o.sealed = false → o.pending = some y → x ≤ y := by
  obtain ⟨hnone, hleast⟩ := oldestSet_least l
  refine ⟨?_, fun x hx => ?_⟩
  · rw [hnone, List.any_eq_false]
    simp only [awaits_eq, Option.not_isSome_iff_eq_none]
  · obtain ⟨⟨e, he, hsince⟩, hle⟩ := hleast x hx
    obtain ⟨o, rfl, hsealed, hpending⟩ := (since_some e x).mp hsince
    exact ⟨⟨o, he, hsealed, hpending⟩, fun o' y ho' hsealed' hpending' =>
      hle _ ho' y ((since_some _ y).mpr ⟨o', rfl, hsealed', hpending'⟩)⟩

theorem passedSlotsAreTaken : PassedSlotsAreTaken := by
  intro dt r s u b slot k data p h hpass hk hcensus hu
  obtain ⟨hon, hgame, hwaiting, hdroop, hnew, hwithdraw, hop⟩ := h
  have hexec := fun v => exec_writerProgram (v := v) (dt := dt) hon hgame hop (judge_pass hk hpass) hu
  have hwriter : u.writer = s.writer := by rw [hu]; rfl
  have hwaiting' : u.waiting = none := by rw [hu]; exact hwaiting
  refine ⟨fun hp => ?_, fun hp => ?_, fun hp => ?_, fun hp => ?_, fun hp => ?_, fun hp => ?_⟩ <;> subst hp
  · refine hexec _ ?_ ⟨hnew, hwithdraw, hwaiting'⟩
    rw [← hwriter, show s.health = u.health by rw [hu]; rfl]
    exact becomeActive_eq b (by rw [hwriter]; exact hcensus)
  · refine hexec _ ?_ ⟨hnew, hwithdraw, hwaiting'⟩
    rw [← hwriter, show s.marks = u.marks by rw [hu]; rfl]
    rfl
  · refine hexec _ ?_ ⟨hnew, hwithdraw, hwaiting'⟩
    rw [← hwriter]
    exact fillActive_eq { u with writer := { u.writer with inFlight := none } } b slot
  · refine hexec _ ?_ ⟨hnew, hwithdraw, hwaiting'⟩
    rw [← hwriter]
    exact fillActive_eq { u with writer := { u.writer with newGameOwed := none, compactionOwed := true } } b slot
  · refine hexec _ ?_ ⟨hnew, hwithdraw, hwaiting'⟩
    rw [← hwriter]
    rfl
  · obtain ⟨hnone, hleast⟩ := endCompaction_marks (s.marks.map (MarkEntry.onOwned fun o =>
      { o with pending := if o.captured = true then none else o.pending, captured := false }))
    refine ⟨_, _, hexec _ ?_ ⟨hnew, hwithdraw, hwaiting'⟩, rfl, hnone, hleast⟩
    rw [← hwriter, show s.marks = u.marks by rw [hu]; rfl]
    rfl

/-- Settles O51, by the verdict's effect on the store and the writer's part for each purpose. -/
theorem passedOperationsStandInTheStore : Obligations.PassedOperationsStandInTheStore := by
  refine ⟨fun dt r s b slot k data vs hon hgame hwaiting hnew hwithdraw hop hvs hk hb hslot hlen hstore => ?_,
    fun dt r s b k vs hon hgame hwaiting hnew hwithdraw hop hvs hk hlow hhigh hcensus => ?_, passedSlotsAreTaken⟩
  · refine ⟨s.store.writeSlot b slot data, ?_, fun i hi => writeSlot_holds hstore hb (by omega) hlen hi,
      writeSlot_sameOutside b slot data hstore⟩
    refine exec_writerProgram hon hgame hop (judge_pass hk ⟨vs, hvs⟩) rfl ?_ ⟨hnew, hwithdraw, hwaiting⟩
    rw [State.writerProgrammed, fillActive_eq, if_neg (by omega)]
    rfl
  · refine ⟨(s.store.eraseBlock b).forget b,
      { s.writer with census := modifyAt (fun _ => ⟨.erased, 0⟩) (b - 2) s.writer.census }, ?_, rfl, fun i => ?_,
      fun a => readByte_dropRange s.store.cells (2048 * b) (2048 * (b + 1)) a⟩
    · exact exec_writerErase hon hgame hop (judge_pass hk ⟨vs, hvs⟩) rfl rfl ⟨hnew, hwithdraw, hwaiting⟩
    · rw [getElem?_modifyAt]
      split
      · next hi =>
        rw [List.getElem?_eq_getElem (by omega)]
        rfl
      · rfl

/-! ## Slots and erases that fail (R161, R162, R165, R168 to R170) -/

/-- The writer's slot fails, and its block is retired. -/
theorem exec_retires {s u : State} {b slot k dt : Nat} {data : List Byte} {p : Purpose} {r : OpResult}
    {ms : List MarkEntry} {w : Writer} (h : s.writerWorks ⟨.program b slot data, p, k⟩) (hk : k < 8)
    (hfail : failsAll r (8 - k))
    (hu : u = { s.advance dt with op := none, store := s.store.finish (.program b slot data) r.left .fail })
    (hretires : u.writerProgrammed b slot p .fail = State.retire { u with marks := ms, writer := w } b)
    (hcensus : w.census = s.writer.census) (hlen : s.writer.census.length = 14) (hnew : w.newGameWaits = none)
    (hwithdraw : w.withdrawWaits = false) (hattempted : u.store.attempted = s.store.attempted) :
    (s.store.attempted.getD b 0 ≤ 63 → exec (.storeProgramEnd dt r) s = .next (State.onLine
      { s.advance dt with
        marks := ms
        writer := { w with census := censusWith b .retired s.writer.census }
        op := some ⟨.program b 63 (slotBytes s.epoch (.retired false)), .retired, 0⟩
        store := { u.store with attempted := s.store.attempted.set b 64 } })) ∧
    (64 ≤ s.store.attempted.getD b 0 → exec (.storeProgramEnd dt r) s = .next (State.onLine
      { s.advance dt with
        marks := ms
        writer := { w with census := censusWith b .retired s.writer.census }
        op := none
        store := u.store
        health := { s.health with
          storeWorn := wornBy (censusWith b .retired s.writer.census) s.health.storeWorn } })) := by
  obtain ⟨hon, hgame, hwaiting, hdroop, -, -, hop⟩ := h
  have hexec := fun v => exec_writerProgram (v := v) (dt := dt) hon hgame hop (judge_fail hk hfail) hu
  have hwaiting' : u.waiting = none := by rw [hu]; exact hwaiting
  refine ⟨fun hfew => ?_, fun hmany => ?_⟩
  · have hretired := retire_attempts (s := { u with marks := ms, writer := w }) b (by rw [hu])
      (by rw [hu]; exact hdroop) (by rw [← hattempted] at hfew; exact hfew)
    rw [hexec _ (hretires.trans hretired) ⟨hnew, hwithdraw, hwaiting'⟩, ← hcensus, ← hattempted]
    subst hu
    rfl
  · have hretired := retire_tests (s := { u with marks := ms, writer := w }) b (by rw [← hlen, ← hcensus])
      (by rw [← hattempted] at hmany; exact hmany)
    rw [hexec _ (hretires.trans hretired) ⟨hnew, hwithdraw, hwaiting'⟩, ← hcensus]
    subst hu
    rfl

theorem writeSlot_attempted (st : Store) (b slot : Nat) (data : List Byte) :
    (st.writeSlot b slot data).attempted = st.attempted := by
  unfold Store.writeSlot
  split <;> rfl

theorem leaveProgram_attempted (st : Store) (b slot : Nat) (data : List Byte) (l : SlotLeft) :
    (st.leaveProgram b slot data l).attempted = st.attempted := by
  cases l <;> exact writeSlot_attempted st b slot _

theorem leaveSlot_attempted (st : Store) (b slot : Nat) (l : SlotLeft) :
    (st.leaveSlot b slot l).attempted = st.attempted := by
  unfold Store.leaveSlot
  split
  · rfl
  · exact writeSlot_attempted st b slot _
  · split
    · rfl
    · exact writeSlot_attempted st b slot _

theorem leaveBlock_attempted (ls : List SlotLeft) (st : Store) (b slot : Nat) :
    (st.leaveBlock b slot ls).attempted = st.attempted := by
  induction ls generalizing st slot with
  | nil => rfl
  | cons l ls ih => exact (ih _ _).trans (leaveSlot_attempted st b slot l)

/-- The flag set again, where the journal minds it (R165). -/
def Owned.flagAgain (now : Nat) (o : Owned) : Owned := if o.sealed = true then o else o.flag now

theorem flagAgain_flagAgain (now : Nat) (o : Owned) : (o.flagAgain now).flagAgain now = o.flagAgain now := by
  unfold Owned.flagAgain
  cases hsealed : o.sealed with
  | true => simp [hsealed]
  | false => simp [Owned.flag, hsealed]

theorem setPending_eq (s : State) (ms : List Nat) {marks : List MarkEntry}
    (hmarks : marks = mapFrom (fun m e => if m ∈ ms then e.onOwned (Owned.flagAgain s.now) else e) 0 s.marks) :
    s.setPending ms =
      { s with
        marks := marks
        writer := { s.writer with
          oldestPending := if s.anyPending = true ∨ marks.any MarkEntry.awaits = false then s.writer.oldestPending
            else some s.now } } := by
  have hfold : ms.foldl (fun (s : State) m => s.modifyOwned m fun o => if o.sealed then o else o.flag s.now) s =
      { s with marks := marks } := by
    have hnow : ∀ (l : List Nat) (t : State), t.now = s.now →
        l.foldl (fun (s : State) m => s.modifyOwned m fun o => if o.sealed then o else o.flag s.now) t =
          l.foldl (fun (t : State) m => t.modifyOwned m (Owned.flagAgain s.now)) t := by
      intro l
      induction l with
      | nil => exact fun _ _ => rfl
      | cons m l ih =>
        intro t ht
        rw [List.foldl_cons, List.foldl_cons, ih (t.modifyOwned m _) ht, ← ht]
        rfl
    rw [hnow ms s rfl, foldModifyOwned (flagAgain_flagAgain s.now), hmarks]
  have holdest : (if s.anyPending = true then s.writer.oldestPending
      else if State.anyPending { s with marks := marks } = true then some s.now else s.writer.oldestPending) =
      if s.anyPending = true ∨ marks.any MarkEntry.awaits = false then s.writer.oldestPending else some s.now := by
    rw [anyPending_eq { s with marks := marks }]
    show (if s.anyPending = true then _ else if marks.any MarkEntry.awaits = true then _ else _) = _
    by_cases hold : s.anyPending = true
    · rw [if_pos hold, if_pos (.inl hold)]
    · cases hany : marks.any MarkEntry.awaits with
      | true => simp [hold]
      | false => simp
  show State.notePending (ms.foldl _ s) s.anyPending = _
  rw [hfold, notePending_frame, ← holdest]

theorem wornBy_retired {s u : State} {st : Store} {dt : Nat} (hu : u = { s.advance dt with op := none, store := st })
    (hlen : s.writer.census.length = 14) :
    u.wornTest = { u with health := { s.health with storeWorn := wornBy s.writer.census s.health.storeWorn } } := by
  subst hu
  exact wornTest_eq hlen

theorem failedSlotsRetire : FailedSlotsRetire := by
  refine ⟨fun dt r s b slot k data p ms w h hk hfail hlen hstore hcase => ?_,
    fun dt r s b k h hk hfail hstore => ?_, fun dt r s b k data h hk hends hlen hstore => ?_⟩
  · have houtside := finish_program_sameOutside b slot data r.left .fail hstore
    have hattempted : (s.store.finish (.program b slot data) r.left .fail).attempted = s.store.attempted :=
      leaveProgram_attempted s.store b slot data _
    have ⟨_, _, _, _, hnew, hwithdraw, _⟩ := h
    generalize hu : ({ s.advance dt with
      op := none, store := s.store.finish (.program b slot data) r.left .fail } : State) = u
    suffices hretires : u.writerProgrammed b slot p .fail = State.retire { u with marks := ms, writer := w } b ∧
        w.census = s.writer.census ∧ w.newGameWaits = none ∧ w.withdrawWaits = false by
      obtain ⟨hretires, hcensus, hnew', hwithdraw'⟩ := hretires
      have hexec := exec_retires h hk hfail hu.symm hretires hcensus hlen hnew' hwithdraw' (by rw [← hu]; exact hattempted)
      have hst : u.store = s.store.finish (.program b slot data) r.left .fail := by rw [← hu]
      rw [hst] at hexec
      exact ⟨_, houtside, hattempted, hexec⟩
    have hmarks : u.marks = s.marks := by rw [← hu]; rfl
    have hwriter : u.writer = s.writer := by rw [← hu]; rfl
    rcases hcase with ⟨hp, rfl, rfl⟩ | ⟨hp, rfl, rfl⟩ | ⟨rfl, fl, hfl, hms, rfl⟩
    · refine ⟨?_, rfl, hnew, hwithdraw⟩
      rw [← hmarks, ← hwriter]
      rcases hp with rfl | rfl | rfl <;> rfl
    · refine ⟨?_, rfl, hnew, hwithdraw⟩
      rw [← hmarks, ← hwriter]
      rcases hp with rfl | rfl <;> rfl
    · refine ⟨?_, rfl, hnew, hwithdraw⟩
      have hset := setPending_eq u fl (marks := ms) (by rw [hms, hmarks, ← hu]; rfl)
      have hfl' : u.writer.inFlight.getD [] = fl := by rw [hwriter, hfl]; rfl
      have hold : u.anyPending = s.anyPending := by rw [← hu]; rfl
      have hnow : u.now = s.now + dt := by rw [← hu]; rfl
      show State.retire { u.setPending (u.writer.inFlight.getD []) with
        writer := { (u.setPending (u.writer.inFlight.getD [])).writer with inFlight := none } } b = _
      rw [hfl', hset, hwriter, hold, hnow]
  · obtain ⟨hon, hgame, hwaiting, hdroop, hnew, hwithdraw, hop⟩ := h
    have hattempted : (s.store.finish (.erase b) r.left .fail).attempted = s.store.attempted.set b 0 :=
      congrArg (·.set b 0) (leaveBlock_attempted (r.left.take 64) s.store b 0)
    generalize hu : ({ s.advance dt with op := none, store := s.store.finish (.erase b) r.left .fail } : State) = u
    have hstore' : u.store.attempted = s.store.attempted.set b 0 := by rw [← hu]; exact hattempted
    have hfew : u.store.attempted.getD b 0 ≤ 63 := by
      rw [hstore', List.getD_eq_getElem?_getD, List.getElem?_set_self']
      cases s.store.attempted[b]? <;> exact Nat.zero_le 63
    have hretired := retire_attempts b (by rw [← hu]) (by rw [← hu]; exact hdroop) hfew
    have hset : u.store.attempted.set b 64 = s.store.attempted.set b 64 := by rw [hstore', List.set_set]
    rw [hset] at hretired
    refine ⟨{ u.store with attempted := s.store.attempted.set b 64 }, ?_, rfl, ?_⟩
    · rw [← hu]
      exact finish_erase_sameOutside b r.left .fail hstore
    · rw [exec_writerErase (u := u) hon hgame hop (judge_fail hk hfail) hu.symm hretired
        ⟨by rw [← hu]; exact hnew, by rw [← hu]; exact hwithdraw, by rw [← hu]; exact hwaiting⟩, ← hu]
      rfl
  · obtain ⟨v, hv⟩ := judge_ends (o := ⟨.program b 63 data, .retired, k⟩) hk hends
    obtain ⟨hon, hgame, hwaiting, hdroop, hnew, hwithdraw, hop⟩ := h
    refine ⟨_, finish_program_sameOutside b 63 data r.left v hstore, ?_⟩
    rw [exec_writerProgram hon hgame hop hv rfl (wornBy_retired rfl hlen) ⟨hnew, hwithdraw, hwaiting⟩]

/-- Settles O52, by the marks that a batch takes, the bytes of each slot, and the retirement each FAIL brings. -/
theorem batchTakesPendingMarks : Obligations.BatchTakesPendingMarks :=
  ⟨batchTaken, failedSlotsRetire, slotsAreWrittenAndRead⟩

end Sys2Proof.Machine

namespace Sys2Proof.Machine

/-! ## The header page (R193, R197) -/

theorem getLsbD_div (b : Byte) (i : Nat) : b.getLsbD i = true ↔ b.toNat / 2 ^ i % 2 = 1 := by
  rw [BitVec.getLsbD, Nat.testBit_eq_decide_div_mod_eq, decide_eq_true_iff]

theorem padSetting_bits (b : Byte) :
    ((padSetting b).placed = true ↔ b.toNat % 2 = 1) ∧ ((padSetting b).lifted = true ↔ b.toNat / 2 % 2 = 1) ∧
    ((padSetting b).misread = true ↔ b.toNat / 4 % 2 = 1) ∧ ((padSetting b).wake = true ↔ b.toNat / 8 % 2 = 1) := by
  have h0 := getLsbD_div b 0
  rw [Nat.pow_zero, Nat.div_one] at h0
  exact ⟨h0, getLsbD_div b 1, getLsbD_div b 2, getLsbD_div b 3⟩

theorem headerIsLaidOut : HeaderIsLaidOut := by
  rintro page h b w rfl rfl rfl
  refine ⟨rfl, rfl, rfl, rfl, rfl, rfl, rfl, rfl, rfl, rfl, rfl, rfl, rfl, fun i hi => ?_, fun c hc => ?_⟩
  · refine ⟨padSetting (byteAt page (14 + i)), ?_, padSetting_bits _⟩
    show ((List.range 6).map fun i => padSetting (byteAt page (14 + i)))[i]? = _
    rw [List.getElem?_map, List.getElem?_range hi]
    rfl
  · show ((List.range 16).map fun c => (wordAt page (20 + 4 * c), wordAt page (22 + 4 * c)))[c]? = _
    rw [List.getElem?_map, List.getElem?_range hc]
    rfl

theorem headerTests : HeaderTests := by
  rintro page h rfl
  simp only [headerOk, Header.tileOk, Header.windowOk, Header.padsOk, Bool.and_eq_true, decide_eq_true_iff,
    List.all_eq_true, and_assoc]
  rfl

/-! ## The content (R6, R183) -/

theorem markEntryOf_some (page : List Byte) (k : Nat) (kind : MarkKind) (v : Nat) :
    markEntryOf page k = some (kind, v) ↔
      MarkKind.ofCode (numAt page (2 * k)) = some kind ∧ kind.ofStore (byteAt page (2 * k + 1)) = some v := by
  rw [markEntryOf]
  cases MarkKind.ofCode (numAt page (2 * k)) with
  | none => simp
  | some kind' =>
    cases hv : kind'.ofStore (byteAt page (2 * k + 1)) with
    | none =>
      simp only [hv, reduceCtorEq, Option.some_inj, false_iff, not_and]
      rintro rfl
      simp [hv]
    | some v' =>
      simp only [hv, Option.some_inj, Prod.mk.injEq]
      exact and_congr_right fun h => by rw [← h, hv, Option.some_inj]

theorem contentTests : ContentTests := by
  rintro st h page rfl rfl
  simp only [contentOk, Bool.and_eq_true, beq_iff_eq, markPageOk, List.all_eq_true, List.mem_range, and_assoc]
  refine and_congr Iff.rfl (and_congr_right fun _ => forall_congr' fun k => forall_congr' fun _ => ?_)
  rw [Option.isSome_iff_exists]
  constructor
  · rintro ⟨⟨kind, v⟩, h⟩
    obtain ⟨hkind, hv⟩ := (markEntryOf_some _ _ _ _).mp h
    exact ⟨kind, hkind, by simp [hv]⟩
  · rintro ⟨kind, hkind, hv⟩
    obtain ⟨v, hv⟩ := Option.ne_none_iff_exists'.mp hv
    exact ⟨(kind, v), (markEntryOf_some _ _ _ _).mpr ⟨hkind, hv⟩⟩

/-! ## Slots applied (R9, R173) -/

theorem slotsAreApplied : SlotsAreApplied := by
  refine ⟨fun ms g e x rs b => ⟨fun hb => ?_, fun hb => ?_, fun hb => ?_⟩, fun ms m value version rs => ⟨rfl, rfl⟩,
    fun o r value version => ⟨fun h => ?_, fun v hsealed hv => ?_, rfl, fun hsealed => ?_, fun hsealed => ?_, rfl⟩,
    fun b => ⟨rfl, rfl, rfl⟩⟩
  · rcases hb with rfl | rfl <;> rfl
  · rw [hb]
    rfl
  · rcases hb with rfl | rfl <;> rfl
  · simp only [MarkEntry.restore]
    rcases h with hsealed | hv
    · exact if_pos hsealed
    · simp only [hv, ite_self]
  · simp only [MarkEntry.restore, hsealed, hv, Bool.false_eq_true, if_false]
  · exact if_pos hsealed
  · exact if_neg (by simp [hsealed])

end Sys2Proof.Machine

namespace Sys2Proof.Machine

/-! ## One block (R159, R172) -/

/-- The zone after a slot as it reads. -/
def Zone.next (z : Zone) (i : Nat) : SlotRead → Zone
  | .valid _ body => if z.allows i body = true then z.after body else z
  | _ => z

/-- A slot as it reads, judged in its place. -/
def Zone.judge (z : Zone) (i : Nat) : SlotRead → Option ValidSlot
  | .valid e body => if z.allows i body = true then some (e, body) else none
  | _ => none

theorem judgeSlots_cons (z : Zone) (i : Nat) (r : SlotRead) (rest : List SlotRead) :
    judgeSlots z i (r :: rest) = z.judge i r :: judgeSlots (z.next i r) (i + 1) rest := by
  cases r with
  | valid e body =>
    simp only [judgeSlots, Zone.judge, Zone.next]
    split <;> rfl
  | _ => rfl

/-- The zone as the block's label and a SNAP_END before say it. -/
def Zone.fits (z : Zone) (label : Option LabelType) (ended : Prop) : Prop :=
  match z with
  | .unlabelled => label = none
  | .journal => label = some .journal
  | .snapshot => label = some .snapshot ∧ ¬ ended
  | .afterEnd => label = some .snapshot ∧ ended

/-- A slot that reads as a SNAP_END. -/
def SlotRead.isEnd (r : SlotRead) : Prop := ∃ e g, r = .valid e (.snapEnd g)

theorem allows_iff {z : Zone} {label : Option LabelType} {ended : Prop} (h : z.fits label ended) (i : Nat)
    (body : SlotBody) : z.allows i body = true ↔ body.mayStand label i ended := by
  cases z <;> cases body <;> simp_all [Zone.fits, Zone.allows, SlotBody.mayStand]

theorem fits_next {z : Zone} {label : Option LabelType} {ended : Prop} (h : z.fits label ended) (i : Nat)
    (r : SlotRead) : (z.next i r).fits label (ended ∨ r.isEnd) := by
  have hother : ¬ r.isEnd → z.next i r = z → (z.next i r).fits label (ended ∨ r.isEnd) := by
    intro hno hz
    rw [hz, show (ended ∨ r.isEnd) = ended by simp [hno]]
    exact h
  cases r with
  | valid e body =>
    cases body with
    | snapEnd g =>
      have hend : (SlotRead.valid e (.snapEnd g)).isEnd := ⟨e, g, rfl⟩
      cases z <;> simp_all [Zone.fits, Zone.next, Zone.allows, Zone.after]
    | _ =>
      refine hother (fun ⟨e', g, heq⟩ => by cases heq) ?_
      simp only [Zone.next, Zone.after, ite_self]
  | _ => exact hother (fun ⟨e', g, heq⟩ => by cases heq) rfl

theorem judge_some {z : Zone} {i : Nat} {r : SlotRead} {e : Byte} {body : SlotBody} :
    z.judge i r = some (e, body) ↔ r = .valid e body ∧ z.allows i body = true := by
  cases r with
  | valid e' body' =>
    simp only [Zone.judge]
    constructor
    · intro h
      split at h
      · next hallows =>
        cases h
        exact ⟨rfl, hallows⟩
      · exact nomatch h
    · rintro ⟨heq, hallows⟩
      cases heq
      exact if_pos hallows
  | _ => simp [Zone.judge]

/-- The slots of a block are valid where they read valid and stand in their place. -/
theorem judgeSlots_some (reads : List SlotRead) {z : Zone} {label : Option LabelType} {ended : Prop}
    (h : z.fits label ended) (i k : Nat) (e : Byte) (body : SlotBody) :
    (judgeSlots z i reads)[k]? = some (some (e, body)) ↔
      reads[k]? = some (.valid e body) ∧ body.mayStand label (i + k) (ended ∨ ∃ j < k, ∃ r, reads[j]? = some r ∧ r.isEnd) := by
  induction reads generalizing z ended i k with
  | nil => simp [judgeSlots]
  | cons r rest ih =>
    rw [judgeSlots_cons]
    cases k with
    | zero =>
      rw [List.getElem?_cons_zero, List.getElem?_cons_zero, Option.some_inj, Option.some_inj, judge_some,
        allows_iff h, Nat.add_zero]
      simp
    | succ k =>
      have hended : ((ended ∨ r.isEnd) ∨ ∃ j < k, ∃ r, rest[j]? = some r ∧ r.isEnd) ↔
          (ended ∨ ∃ j < k + 1, ∃ r', (r :: rest)[j]? = some r' ∧ r'.isEnd) := by
        rw [or_assoc]
        refine or_congr_right ⟨?_, ?_⟩
        · rintro (hr | ⟨j, hj, r', hget, hr⟩)
          · exact ⟨0, by omega, r, rfl, hr⟩
          · exact ⟨j + 1, by omega, r', hget, hr⟩
        · rintro ⟨j, hj, r', hget, hr⟩
          cases j with
          | zero =>
            cases hget
            exact .inl hr
          | succ j => exact .inr ⟨j, by omega, r', hget, hr⟩
      rw [List.getElem?_cons_succ, List.getElem?_cons_succ, ih (fits_next h i r), propext hended,
        show i + 1 + k = i + (k + 1) by omega]

theorem judgeSlots_length (reads : List SlotRead) (z : Zone) (i : Nat) : (judgeSlots z i reads).length = reads.length := by
  induction reads generalizing z i with
  | nil => rfl
  | cons r rest ih => rw [judgeSlots_cons, List.length_cons, List.length_cons, ih]

theorem usedSlots_erased (reads : List SlotRead) (i : Nat) (hi : usedSlots reads ≤ i) (hlen : i < reads.length) :
    reads[i]? = some .erased := by
  induction reads generalizing i with
  | nil => exact absurd hlen (Nat.not_lt_zero i)
  | cons r rest ih =>
    rw [usedSlots] at hi
    cases hused : usedSlots rest with
    | zero =>
      rw [hused] at hi
      cases i with
      | zero =>
        by_cases hr : r = .erased
        · rw [hr]
          rfl
        · simp [hr] at hi
      | succ i => exact ih i (by omega) (by simpa using hlen)
    | succ n =>
      rw [hused] at hi
      cases i with
      | zero => simp at hi
      | succ i => exact ih i (by simp only at hi; omega) (by simpa using hlen)

theorem usedSlots_last (reads : List SlotRead) (i : Nat) (hi : usedSlots reads = i + 1) : reads[i]? ≠ some .erased := by
  induction reads generalizing i with
  | nil => exact absurd hi (Nat.succ_ne_zero i).symm
  | cons r rest ih =>
    rw [usedSlots] at hi
    cases hused : usedSlots rest with
    | zero =>
      rw [hused] at hi
      by_cases hr : r = .erased
      · simp [hr] at hi
      · simp only [hr, if_false] at hi
        obtain rfl : i = 0 := by omega
        simpa using hr
    | succ n =>
      rw [hused] at hi
      simp only at hi
      obtain rfl : i = n + 1 := by omega
      exact ih n hused

theorem labelOf_some (r : SlotRead) (q : Nat) (t : LabelType) : labelOf r = some (q, t) ↔ ∃ e, r = .valid e (.label q t) := by
  cases r with
  | valid e body => cases body <;> simp [labelOf]
  | _ => simp [labelOf]

theorem zoneOf_fits (label : Option (Nat × LabelType)) : (zoneOf label).fits (label.map Prod.snd) False := by
  rcases label with _ | ⟨q, _ | _⟩ <;> simp [zoneOf, Zone.fits]

theorem readBlock_first (b : Nat) (first : SlotRead) (rest : List SlotRead) (e : Byte) (body : SlotBody) :
    (readBlock b (first :: rest)).slots[0]? = some (some (e, body)) ↔
      first = .valid e body ∧ ∃ q t, body = .label q t := by
  constructor
  · intro h
    have hslot := Option.some_inj.mp h
    cases first with
    | valid e' body' =>
      cases body' with
      | label q t =>
        cases hslot
        exact ⟨rfl, q, t, rfl⟩
      | _ => exact nomatch hslot
    | _ => exact nomatch hslot
  · rintro ⟨rfl, q, t, rfl⟩
    rfl

theorem blocksAreRead : BlocksAreRead := by
  rintro b reads r rfl hlen
  obtain ⟨first, rest, rfl⟩ := List.exists_cons_of_length_eq_add_one hlen
  have hrest : rest.length = 63 := by simpa using hlen
  refine ⟨⟨rfl, ?_⟩, fun q t => ?_, fun e body => ?_, fun i e body hlow hhigh => ?_, fun i hi hi' => ?_, fun i hi => ?_⟩
  · show (_ :: judgeSlots _ 1 rest).length = 64
    rw [List.length_cons, judgeSlots_length, hrest]
  · show labelOf first = some (q, t) ↔ ∃ e, some first = some (.valid e (.label q t))
    simp only [labelOf_some, Option.some_inj]
  · rw [readBlock_first, List.getElem?_cons_zero, Option.some_inj]
  · obtain ⟨k, rfl⟩ : ∃ k, i = 1 + k := ⟨i - 1, by omega⟩
    have hjudge := judgeSlots_some rest (zoneOf_fits (labelOf first)) 1 k e body
    have hended : (False ∨ ∃ j < k, ∃ r, rest[j]? = some r ∧ r.isEnd) ↔
        ∃ j e' g, 1 ≤ j ∧ j < 1 + k ∧ (first :: rest)[j]? = some (.valid e' (.snapEnd g)) := by
      rw [false_or]
      constructor
      · rintro ⟨j, hj, _, hget, e', g, rfl⟩
        exact ⟨j + 1, e', g, by omega, by omega, hget⟩
      · rintro ⟨j, e', g, hlow, hhigh, hget⟩
        obtain ⟨j, rfl⟩ : ∃ i, j = i + 1 := ⟨j - 1, by omega⟩
        exact ⟨j, by omega, _, hget, e', g, rfl⟩
    rw [propext hended] at hjudge
    rw [Nat.add_comm 1 k] at hjudge ⊢
    exact hjudge
  · exact usedSlots_erased _ i hi (by omega)
  · exact usedSlots_last _ i hi

end Sys2Proof.Machine

namespace Sys2Proof.Machine

/-! ## All blocks (R160, R172 to R174) -/

theorem highest_none (l : List BlockReading) : highest l = none ↔ l = [] := by
  cases l with
  | nil => simp [highest]
  | cons r l =>
    simp only [highest, reduceCtorEq, iff_false]
    cases highest l with
    | none => exact Option.some_ne_none r
    | some q =>
      simp only
      split <;> exact Option.some_ne_none _

/-- The reading of highest sequence. -/
theorem highest_some {l : List BlockReading} {r : BlockReading} (h : highest l = some r) :
    r ∈ l ∧ ∀ x ∈ l, x.sequence ≤ r.sequence := by
  induction l generalizing r with
  | nil => exact nomatch h
  | cons p l ih =>
    rw [highest] at h
    cases hl : highest l with
    | none =>
      rw [hl] at h
      obtain rfl := Option.some_inj.mp h
      rw [(highest_none l).mp hl]
      simp
    | some q =>
      rw [hl] at h
      obtain ⟨hq, hle⟩ := ih hl
      simp only at h
      split at h
      · next hlt =>
        obtain rfl := Option.some_inj.mp h
        exact ⟨List.mem_cons_of_mem _ hq, by simpa using ⟨hlt.le, hle⟩⟩
      · next hge =>
        obtain rfl := Option.some_inj.mp h
        exact ⟨List.mem_cons_self, by
          simpa using fun x hx => (hle x hx).trans (Nat.le_of_not_lt hge)⟩

theorem newestIsFound : NewestIsFound := by
  intro rs
  have hmem : ∀ r, r ∈ rs.filter (fun r => r.counts && r.label.isSome) ↔ r ∈ rs ∧ r.counts = true ∧ r.label ≠ none := by
    intro r
    rw [List.mem_filter, Bool.and_eq_true, Option.isSome_iff_ne_none]
  refine ⟨fun hnone => ?_, fun ⟨r, hr, hcounts, hlabel⟩ => ?_⟩
  · have hempty : highest (rs.filter fun r => r.counts && r.label.isSome) = none := by
      rw [highest_none, List.eq_nil_iff_forall_not_mem]
      intro r hr
      obtain ⟨hr, hcounts, hlabel⟩ := (hmem r).mp hr
      exact hlabel (hnone r hr hcounts)
    rw [newestEpoch, highestSequence, hempty]
    exact ⟨rfl, rfl⟩
  · cases hhighest : highest (rs.filter fun r => r.counts && r.label.isSome) with
    | none =>
      have hin := (hmem r).mpr ⟨hr, hcounts, hlabel⟩
      rw [(highest_none _).mp hhighest] at hin
      exact absurd hin List.not_mem_nil
    | some q =>
      obtain ⟨hq, hle⟩ := highest_some hhighest
      obtain ⟨hq, hcounts', hlabel'⟩ := (hmem q).mp hq
      refine ⟨q, hq, hcounts', hlabel', fun x hx hcx hlx => hle x ((hmem x).mpr ⟨hx, hcx, hlx⟩), ?_, ?_⟩
      · rw [highestSequence, hhighest]
      · rw [newestEpoch, hhighest]

/-! ## The classes of blocks (R172, R174) -/

theorem retiredMark_some (r : BlockReading) (x : Bool) :
    r.retiredMark = some x ↔ ∃ e, r.slots.getD 63 none = some (e, .retired x) := by
  rw [BlockReading.retiredMark]
  rcases r.slots.getD 63 none with _ | ⟨e, _ | _ | _ | _ | _ | _ | _⟩ <;> simp

theorem counts_true (r : BlockReading) : r.counts = true ↔ r.retiredMark ≠ some true := by
  simp [BlockReading.counts]

theorem hasEnd_iff (r : BlockReading) : r.hasEnd = true ↔ ∃ e g, some (e, SlotBody.snapEnd g) ∈ r.slots := by
  rw [BlockReading.hasEnd, List.any_eq_true]
  constructor
  · rintro ⟨s, hs, h⟩
    rcases s with _ | ⟨e, _ | _ | _ | _ | g | _ | _⟩ <;> first | exact ⟨e, g, hs⟩ | exact nomatch h
  · rintro ⟨e, g, h⟩
    exact ⟨_, h, rfl⟩

theorem usable_iff (r : BlockReading) : r.usable = true ↔ r.counts = true ∧ ∃ q t, r.label = some (q, t) ∧
    (t = .snapshot → ∃ e g, some (e, SlotBody.snapEnd g) ∈ r.slots) := by
  rw [BlockReading.usable, Bool.and_eq_true, ← hasEnd_iff]
  refine and_congr_right fun _ => ?_
  rcases r.label with _ | ⟨q, _ | _⟩ <;> simp

theorem isSnapshot_iff (r : BlockReading) :
    r.isSnapshot = true ↔ r.usable = true ∧ ∃ q, r.label = some (q, .snapshot) := by
  rw [BlockReading.isSnapshot, Bool.and_eq_true]
  refine and_congr_right fun _ => ?_
  rcases r.label with _ | ⟨q, _ | _⟩ <;> simp

theorem isApplied_base (r k : BlockReading) : r.isApplied (some k) = true ↔ r.block = k.block ∨
    (r.usable = true ∧ r.isSnapshot = false ∧ k.sequence < r.sequence) := by
  simp [BlockReading.isApplied, and_assoc]

/-! ## The order of the applied blocks (R173) -/

theorem insertReading_perm (r : BlockReading) (l : List BlockReading) : (insertReading r l).Perm (r :: l) := by
  induction l with
  | nil => exact .refl _
  | cons q l ih =>
    rw [insertReading]
    split
    · exact (ih.cons q).trans (.swap r q l)
    · exact .refl _

theorem insertReading_sorted (r : BlockReading) {l : List BlockReading}
    (h : l.Pairwise fun x y => x.sequence ≤ y.sequence) :
    (insertReading r l).Pairwise fun x y => x.sequence ≤ y.sequence := by
  induction l with
  | nil => simp [insertReading]
  | cons q l ih =>
    obtain ⟨hq, hl⟩ := List.pairwise_cons.mp h
    rw [insertReading]
    split
    · next hle =>
      refine List.pairwise_cons.mpr ⟨fun y hy => ?_, ih hl⟩
      rcases List.mem_cons.mp ((insertReading_perm r l).mem_iff.mp hy) with rfl | hy
      · exact hle
      · exact hq y hy
    · next hgt =>
      have hlt := (Nat.lt_of_not_le hgt).le
      refine List.pairwise_cons.mpr ⟨fun y hy => ?_, h⟩
      rcases List.mem_cons.mp hy with rfl | hy
      · exact hlt
      · exact hlt.trans (hq y hy)

theorem foldInsert_sorts (l : List BlockReading) {acc : List BlockReading}
    (h : acc.Pairwise fun x y => x.sequence ≤ y.sequence) :
    (l.foldl (fun acc r => insertReading r acc) acc).Perm (l ++ acc) ∧
      (l.foldl (fun acc r => insertReading r acc) acc).Pairwise fun x y => x.sequence ≤ y.sequence := by
  induction l generalizing acc with
  | nil => exact ⟨.refl _, h⟩
  | cons r l ih =>
    obtain ⟨hperm, hsorted⟩ := ih (insertReading_sorted r h)
    exact ⟨hperm.trans (((insertReading_perm r acc).append_left l).trans List.perm_middle), hsorted⟩

theorem blocksAreClassified : BlocksAreClassified := by
  intro rs r hr
  have hfilter : ∀ x, x ∈ (rs.filter (·.isApplied (baseOf rs))).filter (fun r => !r.isRetired && decide (r.used ≤ 63)) ↔
      x ∈ rs ∧ x.isApplied (baseOf rs) = true ∧ x.isRetired = false ∧ x.used ≤ 63 := by
    intro x
    simp only [List.mem_filter, Bool.and_eq_true, Bool.not_eq_true', decide_eq_true_iff, and_assoc]
  refine ⟨?_, ?_, usable_iff r, isSnapshot_iff r, fun q t hlabel => ?_, fun hbase => ?_, fun hsnap hnone => ?_,
    fun hnone => by rw [hnone]; rfl, fun k hbase => by rw [hbase]; exact isApplied_base r k, fun hactive => ?_,
    fun happlied hretired hused hnone => ?_, fun hretired => if_pos hretired, fun hretired happlied => ?_,
    fun k hretired happlied hactive => ?_, fun hretired happlied hactive => ?_, ?_⟩
  · rw [BlockReading.isRetired, Option.isSome_iff_exists, exists_comm]
    exact exists_congr fun x => retiredMark_some r x
  · rw [← retiredMark_some, ← Bool.not_eq_true, counts_true, not_not]
  · rw [BlockReading.sequence, hlabel]
  · obtain ⟨hin, hle⟩ := highest_some hbase
    obtain ⟨-, hsnap⟩ := List.mem_filter.mp hin
    exact ⟨hsnap, fun x hx hxs => hle x (List.mem_filter.mpr ⟨hx, hxs⟩)⟩
  · have hin : r ∈ rs.filter (·.isSnapshot) := List.mem_filter.mpr ⟨hr, hsnap⟩
    rw [(highest_none _).mp hnone] at hin
    exact absurd hin List.not_mem_nil
  · obtain ⟨hin, hle⟩ := highest_some hactive
    obtain ⟨-, happlied, hretired, hused⟩ := (hfilter r).mp hin
    exact ⟨happlied, hretired, hused, fun x hx hxa hxr hxu => hle x ((hfilter x).mpr ⟨hx, hxa, hxr, hxu⟩)⟩
  · have hin := (hfilter r).mpr ⟨hr, happlied, hretired, hused⟩
    rw [(highest_none _).mp hnone] at hin
    exact absurd hin List.not_mem_nil
  · rw [recoveredState, if_neg (by simp [hretired]), if_neg (by simp [happlied])]
  · rw [recoveredState, if_neg (by simp [hretired]), if_pos happlied, hactive, Option.map_some]
    simp only [Option.some_inj]
  · rw [recoveredState, if_neg (by simp [hretired]), if_pos happlied, hactive]
    exact if_neg nofun
  · obtain ⟨hperm, hsorted⟩ := foldInsert_sorts (rs.filter (·.isApplied (baseOf rs))) List.Pairwise.nil
    rw [List.append_nil] at hperm
    exact ⟨_, hperm, hsorted, rfl⟩

end Sys2Proof.Machine

namespace Sys2Proof.Machine

/-! ## The ends of a start's operations (R156, R182) -/

theorem isRead_iff (op : StoreOp) : op.isRead = true ↔ ∃ b p, op = .read b p := by
  cases op <;> simp [StoreOp.isRead]

/-- A page read of a start ends. -/
theorem exec_startRead {s : State} {op : StoreOp} {n k dt : Nat} (hon : s.powered = true)
    (hstarting : s.session = .starting) (hop : s.op = some ⟨op, .startRead n, k⟩) (hread : op.isRead = true) (hk : k < 1) :
    exec (.storeReadEnd dt) s =
      .next (({ s.advance dt with op := none } : State).startReadEnds n).startWaiting.onLine := by
  obtain ⟨b, p, rfl⟩ := (isRead_iff op).mp hread
  have hjudge : (Operation.judge ⟨.read b p, .startRead n, k⟩ readResult) = .inl .pass := judge_pass hk ⟨[], rfl⟩
  have hends : (s.advance dt).storeEnds StoreOp.isRead readResult =
      (({ s.advance dt with op := none } : State).startReadEnds n).startWaiting := by
    rw [State.storeEnds, show (s.advance dt).op = _ from hop]
    simp only [StoreOp.isRead, if_true, hjudge]
    rw [State.clientTakes, show ((s.advance dt).endOp ⟨.read b p, .startRead n, k⟩ readResult .pass).session = _ from hstarting]
    rfl
  rw [exec_storeReadEnd hon, hends]

/-- A read of the start's next page, for a command's result. -/
theorem readsPage_next {s : State} (n : Nat) (hstarting : s.session = .starting) (hwaiting : s.waiting = none) :
    (s.readsPage n).startWaiting.onLine = s.readsPage n := by
  rw [startWaiting_none (by exact hwaiting), onLine_deaf (.inl (by exact hstarting))]

/-- A page read that judges nothing is followed by the next (R182). -/
theorem startRead_goesOn {dt : Nat} {s : State} {op : StoreOp} {n k : Nat} (hon : s.powered = true)
    (hstarting : s.session = .starting) (hdroop : s.droop = false) (hwaiting : s.waiting = none)
    (hop : s.op = some ⟨op, .startRead n, k⟩) (hread : op.isRead = true) (h0 : n ≠ 0) (h18 : n ≠ 18) (h242 : n ≠ 242)
    (hk : k < 1) :
    exec (.storeReadEnd dt) s =
      .next { s.advance dt with op := some ⟨startPage (n + 1), .startRead (n + 1), 0⟩ } := by
  rw [exec_startRead hon hstarting hop hread hk, startReadEnds_next rfl (by exact hdroop) h0 h18 h242,
    readsPage_next (s := { s.advance dt with op := none }) _ hstarting hwaiting]
  rfl

/-! ## The header and the content are judged (R182, R183) -/

/-- STARTING ends in UNWRITTEN (R183). -/
theorem startUnwritten_next {dt : Nat} {s : State} (hwaiting : s.waiting = none) :
    (({ s.advance dt with op := none } : State).startUnwritten).startWaiting.onLine = s.blankFrom dt := by
  have hstart : ({ s.advance dt with op := none } : State).startUnwritten = s.blankFrom dt := by
    have htile := unwrittenTile_eq (s.store.page 0 0)
    unfold State.startUnwritten State.blankFrom State.enterUnwritten
    rw [show unwrittenTile (({ s.advance dt with op := none } : State).store.page 0 0) = _ from htile]
    rfl
  rw [hstart, startWaiting_none (by exact hwaiting), onLine_busy (by exact nofun)]

theorem computeRoutes_get {s : State} {m : Nat} (h : m < 256) : s.computeRoutes[m]? = some (s.routeOf m) := by
  rw [State.computeRoutes, List.getElem?_map, List.getElem?_range h, Option.map_some]

theorem routeOf_noPeers {s : State} (h : s.roster = []) (m : Nat) :
    s.routeOf m = if s.inWindow m = true then .self else .none := by
  rw [State.routeOf, h]
  rfl

theorem initialMarks_get {h : Header} {page : List Byte} {m : Nat} (hm : m < 256) :
    (initialMarks h page)[m]? = some (if h.first ≤ m ∧ m < h.first + h.size then ownedOf page h.sealed (m - h.first)
      else .replica Replica.blank) := by
  rw [initialMarks, List.getElem?_map, List.getElem?_range hm, Option.map_some]

theorem ownedOf_some {page : List Byte} {k v : Nat} {kind : MarkKind} (sealedCount : Nat)
    (hkind : MarkKind.ofCode (numAt page (2 * k)) = some kind)
    (hv : kind.ofStore (byteAt page (2 * k + 1)) = some v) :
    ownedOf page sealedCount k = .owned ⟨kind, v, v, 0, decide (k < sealedCount), false, none, none, false⟩ := by
  rw [ownedOf, markEntryOf, hkind]
  simp only [hv]

theorem headerAndContentAreJudged : HeaderAndContentAreJudged := by
  rintro dt s op n ⟨hon, hstarting, hdroop, hwaiting, -, hop⟩ hread
  have hexec := exec_startRead (dt := dt) hon hstarting hop hread Nat.zero_lt_one
  refine ⟨fun h0 hbad => ?_, fun h0 hok => ?_, fun h18 hbad => ?_, fun h18 hok h hh => ?_⟩
  · rw [hexec, h0, startReadEnds_header_bad (by exact hbad), startUnwritten_next hwaiting]
  · rw [hexec, h0, startReadEnds_header_ok rfl (by exact hdroop) (by exact hok), startWaiting_none (by exact hwaiting)]
    rfl
  · rw [hexec, h18, startReadEnds_content_bad (by exact hbad), startUnwritten_next hwaiting]
  · generalize hu : ({ s.advance dt with op := none } : State) = u at hexec
    have hstore : u.store = s.store := by rw [← hu]; rfl
    have hused : u.startReadEnds 18 = u.useContent.startRead 19 := by
      rw [State.startReadEnds, if_neg (by decide), if_pos (show 18 = contentReads from rfl), if_pos (by rw [← hu]; exact hok)]
    rw [startRead_eq 19 (s := u.useContent) (by rw [← hu]; rfl) (by rw [← hu]; exact hdroop)] at hused
    refine ⟨u.useContent.marks, u.useContent.routes, ?_, ?_, fun hroster m hm => ?_, ?_, ?_, ?_⟩
    · rw [hexec, h18, hused, startWaiting_none (by rw [← hu]; exact hwaiting), ← hu, hh]
      rfl
    · exact (List.length_map ..).trans List.length_range
    · have hget : u.useContent.routes[m]? = some (u.setContent.routeOf m) := computeRoutes_get hm
      rw [hget, routeOf_noPeers (by rw [← hu]; exact hroster), ← hu, hh, State.inWindow]
      congr 1
      exact if_congr decide_eq_true_iff rfl rfl
    · exact (List.length_map ..).trans List.length_range
    · intro k kind v hk hm hkind hv
      have hget : u.useContent.marks[h.first + k]? = _ :=
        initialMarks_get (h := parseHeader (u.store.page 0 0)) (page := u.store.page 0 1) hm
      rw [hget, hstore, ← hh, if_pos ⟨Nat.le_add_right _ _, Nat.add_lt_add_left hk _⟩, Nat.add_sub_cancel_left,
        ownedOf_some _ hkind hv]
    · intro m hm hout
      have hget : u.useContent.marks[m]? = _ :=
        initialMarks_get (h := parseHeader (u.store.page 0 0)) (page := u.store.page 0 1) hm
      rw [hget, hstore, ← hh, if_neg (by omega)]

end Sys2Proof.Machine

namespace Sys2Proof.Machine

/-! ## STARTING ends in LISTENING (R74, R174, R182) -/

theorem checkCompaction_eq (s : State) :
    s.checkCompaction =
      { s with writer := { s.writer with
          compactionOwed := if s.health.storeWorn = true then s.writer.compactionOwed
            else decide (s.countBlocks .erased ≤ 2) } } := by
  unfold State.checkCompaction
  split
  · rfl
  · rfl

/-- The steps a start reads from their table (R49, R74). -/
def State.stepsRead (s : State) : List Step :=
  (List.range 64).map fun n => stepOf s.header.padCount (s.store.slot 1 n)

theorem finishStart_eq (v : State) :
    v.finishStart =
      { v with
        session := .listening
        line := .quiet v.now
        listenAt := some (v.now + 4000000)
        gateStart := some v.now
        lastTick := some v.now
        tile := v.header.tile
        roster := []
        routes := ({ v with roster := [] } : State).computeRoutes
        inbox := []
        steps := v.stepsRead
        watched := (List.range 256).map fun m => v.stepsRead.any fun st => st.watches m
        health := { v.health with quarantine := v.stepsRead.any fun st => st.state == .quarantined }
        writer := { v.writer with
          compactionOwed := if v.health.storeWorn = true then v.writer.compactionOwed
            else decide (v.countBlocks .erased ≤ 2) } } := by
  rw [State.finishStart, checkCompaction_eq]
  rfl

theorem finishStart_line (v : State) : v.finishStart.line = .quiet v.now := by
  rw [finishStart_eq]

theorem finishStart_waiting (v : State) : v.finishStart.waiting = v.waiting := by
  rw [finishStart_eq]

/-- A usable step watches the marks its tests name (R20). -/
theorem watches_iff (x : Step) (m : Nat) :
    x.watches m = true ↔ x.state ≠ .quarantined ∧ ∃ c v, Condition.markTest m c v ∈ x.record.conditions := by
  rw [Step.watches, Bool.and_eq_true, bne_iff_ne, List.any_eq_true]
  refine and_congr_right fun _ => ⟨?_, ?_⟩
  · rintro ⟨c, hc, htest⟩
    cases c with
    | markTest m' cmp v =>
      obtain rfl : m' = m := beq_iff_eq.mp htest
      exact ⟨cmp, v, hc⟩
    | _ => exact absurd htest Bool.false_ne_true
  · rintro ⟨cmp, v, hc⟩
    exact ⟨_, hc, beq_self_eq_true m⟩

theorem getD_mapRange {α : Type} (f : Nat → α) (d : α) {m n : Nat} (h : m < n) : ((List.range n).map f).getD m d = f m := by
  rw [List.getD_eq_getElem?_getD, List.getElem?_map, List.getElem?_range h]
  rfl

theorem finishStart_route {v : State} {m : Nat} (h : m < 256) :
    v.finishStart.route m = if v.inWindow m = true then .self else .none := by
  rw [finishStart_eq]
  exact (getD_mapRange _ _ h).trans (routeOf_noPeers (s := { v with roster := [] }) rfl m)

theorem finishStart_steps (v : State) : v.finishStart.steps = v.stepsRead := by
  rw [finishStart_eq]

theorem finishStart_quarantine (v : State) :
    v.finishStart.health.quarantine = true ↔ ∃ x ∈ v.finishStart.steps, x.state = .quarantined := by
  rw [finishStart_eq]
  simp only [List.any_eq_true, beq_iff_eq]

theorem finishStart_watches (v : State) : v.finishStart.watchesItsTests := by
  intro m hm
  have hwatched : v.finishStart.isWatched m = v.stepsRead.any fun st => st.watches m := by
    rw [finishStart_eq]
    exact getD_mapRange (fun m => v.stepsRead.any fun st => st.watches m) false hm
  rw [finishStart_steps, hwatched, List.any_eq_true]
  simp only [watches_iff]

/-- A start that is over has come to LISTENING. -/
theorem finishStart_ends (v : State) : v.endsStart v.finishStart :=
  ⟨fun _ hm => finishStart_route hm, finishStart_steps v, finishStart_quarantine v, finishStart_watches v, by
    rw [finishStart_eq]⟩

theorem clientTakes_starting {s : State} (h : s.session = .starting) (o : Operation) (v : Verdict) :
    s.clientTakes o v = s.startOpEnds o v := by
  rw [State.clientTakes, h]

/-- The SESSION slot that passes ends the start (R174, R182). -/
theorem sessionSlot_ends {dt : Nat} {r : OpResult} {s v : State} {b slot k : Nat} {data : List Byte}
    (hon : s.powered = true) (hstarting : s.session = .starting) (hwaiting : s.waiting = none)
    (hop : s.op = some ⟨.program b slot data, .session, k⟩) (hr : passesAt r) (hk : k < 8)
    (hv : v = { s.advance dt with
      op := none
      store := s.store.writeSlot b slot data
      writer := { s.writer with
        census := if slot = 63 then censusWith b .full s.writer.census else s.writer.census } }) :
    exec (.storeProgramEnd dt r) s = .next v.finishStart := by
  generalize hu : ({ s.advance dt with op := none, store := s.store.writeSlot b slot data } : State) = u
  have htakes : u.clientTakes ⟨.program b slot data, .session, k⟩ .pass = (u.fillActive b slot).finishStart :=
    clientTakes_starting (by rw [← hu]; exact hstarting) _ _
  have hfilled : u.fillActive b slot = v := by rw [fillActive_eq, hv, ← hu]; rfl
  rw [exec_programEnd hon hop (judge_pass hk hr) hu.symm, htakes, hfilled,
    startWaiting_none ((finishStart_waiting v).trans (by rw [hv]; exact hwaiting)),
    onLine_busy (by rw [finishStart_line]; exact nofun)]

/-- The SESSION slot that passes ends the start, as it stands afterwards. -/
theorem sessionSlot_listens {dt : Nat} {r : OpResult} {s : State} {b slot k : Nat} {data : List Byte}
    (hon : s.powered = true) (hstarting : s.session = .starting) (hwaiting : s.waiting = none)
    (hworn : s.health.storeWorn = false) (hop : s.op = some ⟨.program b slot data, .session, k⟩)
    (hr : passesAt r) (hk : k < 8) :
    ∃ t, exec (.storeProgramEnd dt r) s = .next t ∧
      (∀ m < 256, t.route m = if s.inWindow m = true then .self else .none) ∧
      t.steps = ((List.range 64).map fun n =>
        stepOf s.header.padCount ((s.store.writeSlot b slot data).slot 1 n)) ∧
      (t.health.quarantine = true ↔ ∃ x ∈ t.steps, x.state = .quarantined) ∧
      t.watchesItsTests ∧
      t = { s.advance dt with
        session := .listening
        line := .quiet (s.now + dt)
        listenAt := some (s.now + dt + 4000000)
        gateStart := some (s.now + dt)
        lastTick := some (s.now + dt)
        tile := s.header.tile
        roster := []
        routes := t.routes
        inbox := []
        steps := t.steps
        watched := t.watched
        health := { s.health with quarantine := t.health.quarantine }
        op := none
        store := s.store.writeSlot b slot data
        writer := { s.writer with
          census := if slot = 63 then censusWith b .full s.writer.census else s.writer.census
          compactionOwed := t.writer.compactionOwed } } ∧
      (s.writer.census.length = 14 →
        t.writer.compactionOwed = decide (inState .erased t.writer.census ≤ 2)) := by
  have hexec := sessionSlot_ends (dt := dt) hon hstarting hwaiting hop hr hk rfl
  generalize hv : State.mk .. = v at hexec
  obtain ⟨hroutes, hsteps, hquarantine, hwatches, heq⟩ := finishStart_ends v
  refine ⟨_, hexec, fun m hm => (hroutes m hm).trans (by rw [← hv]; rfl), hsteps.trans (by rw [← hv]; rfl),
    hquarantine, hwatches, ?_, fun hcensus => ?_⟩
  · rw [finishStart_eq, ← hv]
    rfl
  · have hlen : v.writer.census.length = 14 := by
      rw [← hv]
      show (if slot = 63 then _ else _ : List Block).length = 14
      split
      · exact (censusWith_length b .full _).trans hcensus
      · exact hcensus
    rw [finishStart_eq]
    show (if v.health.storeWorn = true then _ else _) = _
    rw [if_neg (by rw [← hv, Bool.not_eq_true]; exact hworn), countBlocks_eq hlen]

end Sys2Proof.Machine

namespace Sys2Proof.Machine

/-! ## What a start does next (R162, R174) -/

/-- A start whose store is free: no operation in progress, none waiting, the supply up. -/
structure State.StartFree (v : State) : Prop where
  op : v.op = none
  waiting : v.waiting = none
  droop : v.droop = false

theorem endsStart_waiting {v t : State} (h : v.endsStart t) : t.waiting = v.waiting := by
  obtain ⟨-, -, -, -, ht⟩ := h
  rw [ht]

theorem beginsSlot_waiting {v t : State} (h : v.beginsSlot t) : t.waiting = v.waiting := by
  obtain ⟨hactive, hlabel, hworn⟩ := h
  cases ha : v.activeBlock with
  | some b => rw [hactive b ha]
  | none =>
    cases he : v.lowestBlock .erased with
    | none => exact endsStart_waiting (v := v.setWorn) (hworn ha (.inl he))
    | some b =>
      rcases Nat.lt_or_ge 65535 v.writer.nextSequence with hspent | hleft
      · exact endsStart_waiting (v := v.setWorn) (hworn ha (.inr hspent))
      · rw [hlabel b ha he hleft]

theorem startsNext_waiting {v t : State} (h : v.startsNext t) : t.waiting = v.waiting := by
  obtain ⟨hworn, hsession, hcensus⟩ := h
  cases hw : v.health.storeWorn with
  | true => exact endsStart_waiting (hworn hw)
  | false =>
    by_cases hs : v.stage = .session
    · exact beginsSlot_waiting (hsession hw hs)
    · obtain ⟨hobsolete, hnone⟩ := hcensus hw hs
      cases ho : v.lowestBlock .obsolete with
      | some b => rw [hobsolete b ho]
      | none =>
        obtain ⟨hfew, hmany⟩ := hnone ho
        by_cases hslot : v.activeBlock = none ∨ v.countBlocks .retired ≤ 11
        · exact beginsSlot_waiting (hfew hslot)
        · rw [not_or] at hslot
          exact endsStart_waiting (v := v.setWorn) (hmany hslot.1 (by omega))

/-- A start that finds the store worn ends. -/
theorem setWorn_ends (v : State) :
    ({ v with health := { v.health with storeWorn := true } } : State).endsStart v.setWorn.finishStart :=
  finishStart_ends v.setWorn

theorem startLabel_written {v : State} {b : Nat} (hv : v.StartFree) (hworn : v.health.storeWorn = false)
    (he : v.lowestBlock .erased = some b) (hleft : v.writer.nextSequence ≤ 65535) :
    v.startLabel = v.labelBlock b .journal := by
  rw [State.startLabel, he]
  refine if_neg ?_
  rw [labelBlock_written b .journal hv.op hv.droop hleft, Bool.not_eq_true]
  exact hworn

theorem startLabel_worn {v : State} (h : v.lowestBlock .erased = none ∨ 65535 < v.writer.nextSequence) :
    v.startLabel = v.setWorn.finishStart := by
  unfold State.startLabel
  split
  · rename_i b he
    have hspent : 65535 < v.writer.nextSequence := h.resolve_left (by rw [he]; exact nofun)
    rw [labelBlock_spent b .journal hspent]
    exact if_pos rfl
  · rfl

/-- The SESSION slot next: programmed in the ACTIVE block, or a block labelled, or the store worn. -/
theorem startSession_begins {v : State} (hv : v.StartFree) (hworn : v.health.storeWorn = false) :
    v.beginsSlot v.startSession := by
  refine ⟨fun b ha => ?_, fun b ha he hleft => ?_, fun ha hspent => ?_⟩
  · rw [State.startSession, ha]
    exact programActive_free (s := { v with stage := .session }) b v.epoch _ _ hv.op hv.droop
  · rw [State.startSession, ha]
    exact (startLabel_written hv hworn he hleft).trans (labelBlock_written b .journal hv.op hv.droop hleft)
  · rw [State.startSession, ha]
    show State.endsStart _ v.startLabel
    rw [startLabel_worn hspent]
    exact setWorn_ends v

theorem startSession_label {v : State} (h : v.activeBlock = none) : v.startSession = v.startLabel := by
  rw [State.startSession, h]

theorem nextStart_worn {v : State} (h : v.health.storeWorn = true) : v.nextStart = v.finishStart := if_pos h

theorem nextStart_session {v : State} (hworn : v.health.storeWorn = false) (h : v.stage = .session) :
    v.nextStart = v.startSession := by
  rw [State.nextStart, if_neg (by simp [hworn]), h]

/-- The census in force: the OBSOLETE erasures, the ACTIVE block, the worn test, the SESSION slot (R174). -/
theorem nextStart_census {v : State} (hworn : v.health.storeWorn = false) (h : v.stage ≠ .session) :
    v.nextStart = match v.lowestBlock .obsolete with
      | some b => v.request (.erase b) .eraseObsolete
      | none => match v.activeBlock with
        | none => v.startLabel
        | some _ => if v.wornTest.health.storeWorn then v.wornTest.finishStart else v.wornTest.startSession := by
  rw [State.nextStart, if_neg (by simp [hworn])]
  cases hs : v.stage with
  | session => exact absurd hs h
  | _ => rfl

theorem nextStart_starts {v : State} (hv : v.StartFree) : v.startsNext v.nextStart := by
  refine ⟨fun hworn => ?_, fun hworn hs => ?_, fun hworn hs => ⟨fun b ho => ?_, fun ho => ⟨fun hfew => ?_, fun ha hmany => ?_⟩⟩⟩
  · rw [nextStart_worn hworn]
    exact finishStart_ends v
  · rw [nextStart_session hworn hs]
    exact startSession_begins hv hworn
  · rw [nextStart_census hworn hs, ho]
    exact request_erase b _ hv.op hv.droop
  · have hbegins := startSession_begins hv hworn
    rw [nextStart_census hworn hs, ho]
    cases ha : v.activeBlock with
    | none =>
      rw [startSession_label ha] at hbegins
      exact hbegins
    | some b =>
      have hcount : v.countBlocks .retired ≤ 11 := hfew.resolve_left (by rw [ha]; exact nofun)
      have htest : v.wornTest = v := if_neg (by show ¬ _ < 3; omega)
      simp only [htest, hworn, Bool.false_eq_true, if_false]
      exact hbegins
  · obtain ⟨b, hb⟩ := Option.ne_none_iff_exists'.mp ha
    have htest : v.wornTest = v.setWorn := if_pos (by show _ < 3; omega)
    rw [nextStart_census hworn hs, ho]
    simp only [hb, htest]
    exact setWorn_ends v

theorem goOn_free {v : State} (hv : v.StartFree) : v.goOn = v.nextStart := if_pos ⟨hv.op, hv.waiting⟩

theorem goOn_busy {v : State} {o : Operation} (h : v.op = some o) : v.goOn = v := if_neg (by simp [h])

/-- A start that goes on, as a command's result. -/
theorem goOn_next {v : State} (hv : v.StartFree) :
    ∃ t : State, Host.Outcome.next v.goOn.startWaiting.onLine = (.next t.onLine : Answered) ∧ v.startsNext t := by
  have hstarts := nextStart_starts hv
  refine ⟨v.nextStart, ?_, hstarts⟩
  rw [goOn_free hv, startWaiting_none ((startsNext_waiting hstarts).trans hv.waiting)]

end Sys2Proof.Machine

namespace Sys2Proof.Machine

/-! ## The start goes on (R161, R162, R165, R174) -/

/-- What recovery gives, in the words of the statement. -/
theorem recover_rebuilt (s : State) (dt : Nat) :
    ({ ({ s.advance dt with op := none } : State).recover with stage := .census } : State) = s.rebuilt dt := by
  have hepoch : ∀ x : Option Byte, (match x with
      | some e => e + 1
      | none => 1) = (x.map fun e => e + 1).getD 1 := by
    intro x
    cases x <;> rfl
  have hslot : ∀ x : Option BlockReading, (match x with
      | some r => r.used
      | none => 1) = (x.map BlockReading.used).getD 1 := by
    intro x
    cases x <;> rfl
  unfold State.recover State.recoverFrom State.rebuilt
  simp only [← hepoch, ← hslot]
  rfl

theorem eraseFailed_attempted (st : Store) (b : Nat) (left : List SlotLeft) :
    (st.finish (.erase b) left .fail).attempted = st.attempted.set b 0 :=
  congrArg (·.set b 0) (leaveBlock_attempted (left.take 64) st b 0)

theorem getD_set_zero (l : List Nat) (b : Nat) : (l.set b 0).getD b 0 = 0 := by
  rw [List.getD_eq_getElem?_getD, List.getElem?_set_self']
  cases l[b]? <;> rfl

theorem lastRead_goesOn (dt : Nat) (s : State) (op : StoreOp) (h : s.startsWith ⟨op, .startRead 242, 0⟩)
    (hread : op.isRead = true) :
    ∃ t : State, exec (.storeReadEnd dt) s = .next t.onLine ∧ (s.rebuilt dt).startsNext t := by
  obtain ⟨hon, hstarting, hdroop, hwaiting, -, hop⟩ := h
  have hends : ({ s.advance dt with op := none } : State).startReadEnds 242 = (s.rebuilt dt).goOn := by
    rw [State.startReadEnds, if_neg (by decide), if_neg (by decide), if_pos (show 242 = journalReads from rfl),
      recover_rebuilt]
  rw [exec_startRead hon hstarting hop hread Nat.zero_lt_one, hends]
  exact goOn_next ⟨rfl, hwaiting, hdroop⟩

theorem obsoleteErase_goesOn (dt : Nat) (r : OpResult) (s : State) (b k : Nat)
    (h : s.startsWith ⟨.erase b, .eraseObsolete, k⟩) (hk : k < 4) (hr : passesAt r) :
    ∃ t : State, exec (.storeEraseEnd dt r) s = .next t.onLine ∧ State.startsNext
      { s.advance dt with
        op := none
        store := (s.store.eraseBlock b).forget b
        writer := { s.writer with
          census := modifyAt (fun _ => ⟨.erased, 0⟩) (b - 2) s.writer.census } } t := by
  obtain ⟨hon, hstarting, hdroop, hwaiting, -, hop⟩ := h
  generalize hu : ({ s.advance dt with op := none, store := (s.store.eraseBlock b).forget b } : State) = u
  have htakes : u.clientTakes ⟨.erase b, .eraseObsolete, k⟩ .pass = (u.modifyBlock b fun _ => ⟨.erased, 0⟩).goOn :=
    clientTakes_starting (by rw [← hu]; exact hstarting) _ _
  rw [exec_eraseEnd hon hop (judge_pass hk hr) hu.symm, htakes, ← hu]
  exact goOn_next ⟨rfl, hwaiting, hdroop⟩

theorem obsoleteErase_retires (dt : Nat) (r : OpResult) (s : State) (b k : Nat)
    (h : s.startsWith ⟨.erase b, .eraseObsolete, k⟩) (hk : k < 4) (hstore : s.storeOk) (hr : failsAll r (4 - k)) :
    ∃ st : Store, sameOutsideBlock s.store st b ∧
      exec (.storeEraseEnd dt r) s = .next (State.onLine
        { s.advance dt with
          writer := { s.writer with census := censusWith b .retired s.writer.census }
          op := some ⟨.program b 63 (slotBytes s.epoch (.retired false)), .retired, 0⟩
          store := st }) := by
  obtain ⟨hon, hstarting, hdroop, hwaiting, -, hop⟩ := h
  generalize hst : s.store.finish (.erase b) r.left .fail = st
  have hsame : sameOutsideBlock s.store st b := hst ▸ finish_erase_sameOutside b r.left .fail hstore
  have hfew : st.attempted.getD b 0 ≤ 63 := by
    rw [← hst, eraseFailed_attempted, getD_set_zero]
    exact Nat.zero_le 63
  generalize hu : ({ s.advance dt with op := none, store := st } : State) = u
  have hretired := retire_attempts b (s := u) (by rw [← hu]) (by rw [← hu]; exact hdroop) (by rw [← hu]; exact hfew)
  have htakes : u.clientTakes ⟨.erase b, .eraseObsolete, k⟩ .fail = (u.retire b).goOn :=
    clientTakes_starting (by rw [← hu]; exact hstarting) _ _
  have hexec := exec_eraseEnd (dt := dt) (u := u) hon hop (judge_fail hk hr) (by rw [← hu, hst])
  refine ⟨{ st with attempted := st.attempted.set b 64 }, hsame, ?_⟩
  rw [hexec, htakes, hretired, goOn_busy rfl,
    startWaiting_none (by rw [← hu]; exact hwaiting), ← hu]
  rfl

theorem labelSlot_goesOn (dt : Nat) (r : OpResult) (s : State) (b slot k : Nat) (data : List Byte)
    (h : s.startsWith ⟨.program b slot data, .label .journal, k⟩) (hk : k < 8) (hlen : s.writer.census.length = 14)
    (hr : passesAt r) :
    ∃ t : State, exec (.storeProgramEnd dt r) s = .next t.onLine ∧ State.startsNext
      { s.advance dt with
        op := none
        store := s.store.writeSlot b slot data
        writer := { s.writer with
          census := censusWith b .active s.writer.census
          nextSlot := 1
          compactionOwed := s.writer.compactionOwed || (!s.health.withdrawn &&
            decide (inState .erased (censusWith b .active s.writer.census) ≤ 2)) } } t := by
  obtain ⟨hon, hstarting, hdroop, hwaiting, -, hop⟩ := h
  generalize hu : ({ s.advance dt with op := none, store := s.store.writeSlot b slot data } : State) = u
  have htakes : u.clientTakes ⟨.program b slot data, .label .journal, k⟩ .pass = (u.becomeActive b).goOn :=
    clientTakes_starting (by rw [← hu]; exact hstarting) _ _
  rw [exec_programEnd hon hop (judge_pass hk hr) hu.symm, htakes, becomeActive_eq b (by rw [← hu]; exact hlen), ← hu]
  exact goOn_next ⟨rfl, hwaiting, hdroop⟩

theorem failedSlot_goesOn (dt : Nat) (r : OpResult) (s : State) (b slot k : Nat) (data : List Byte) (p : Purpose)
    (h : s.startsWith ⟨.program b slot data, p, k⟩) (hk : k < 8) (hstore : s.storeOk)
    (hlen : s.writer.census.length = 14) (hp : p = .label .journal ∨ p = .session) (hr : failsAll r (8 - k)) :
    ∃ st : Store, sameOutsideSlot s.store st b slot ∧ st.attempted = s.store.attempted ∧
      (s.store.attempted.getD b 0 ≤ 63 → exec (.storeProgramEnd dt r) s = .next (State.onLine
        { s.advance dt with
          writer := { s.writer with census := censusWith b .retired s.writer.census }
          op := some ⟨.program b 63 (slotBytes s.epoch (.retired false)), .retired, 0⟩
          store := { st with attempted := s.store.attempted.set b 64 } })) ∧
      (64 ≤ s.store.attempted.getD b 0 →
        ∃ t : State, exec (.storeProgramEnd dt r) s = .next t.onLine ∧ State.startsNext
          { s.advance dt with
            writer := { s.writer with census := censusWith b .retired s.writer.census }
            op := none
            store := st
            health := { s.health with
              storeWorn := wornBy (censusWith b .retired s.writer.census) s.health.storeWorn } }
          t) := by
  obtain ⟨hon, hstarting, hdroop, hwaiting, -, hop⟩ := h
  generalize hst : s.store.finish (.program b slot data) r.left .fail = st
  have hsame : sameOutsideSlot s.store st b slot := hst ▸ finish_program_sameOutside b slot data r.left .fail hstore
  have hattempted : st.attempted = s.store.attempted := hst ▸ leaveProgram_attempted s.store b slot data _
  generalize hu : ({ s.advance dt with op := none, store := st } : State) = u
  have hexec := exec_programEnd (dt := dt) (u := u) hon hop (judge_fail hk hr) (by rw [← hu, hst])
  have htakes : u.clientTakes ⟨.program b slot data, p, k⟩ .fail = (u.retire b).goOn := by
    rw [clientTakes_starting (by rw [← hu]; exact hstarting)]
    rcases hp with rfl | rfl <;> rfl
  rw [hexec, htakes]
  refine ⟨st, hsame, hattempted, fun hfew => ?_, fun hmany => ?_⟩
  · rw [retire_attempts b (s := u) (by rw [← hu]) (by rw [← hu]; exact hdroop)
      (by rw [← hu]; exact (congrArg (·.getD b 0) hattempted).trans_le hfew), goOn_busy rfl,
      startWaiting_none (by rw [← hu]; exact hwaiting), ← hu]
    simp only [hattempted]
    rfl
  · rw [retire_tests b (s := u) (by rw [← hu]; exact hlen)
      (by rw [← hu]; exact hmany.trans_eq (congrArg (·.getD b 0) hattempted).symm), ← hu]
    exact goOn_next ⟨rfl, hwaiting, hdroop⟩

theorem retiredSlot_goesOn (dt : Nat) (r : OpResult) (s : State) (b slot k : Nat) (data : List Byte)
    (h : s.startsWith ⟨.program b slot data, .retired, k⟩) (hk : k < 8) (hstore : s.storeOk)
    (hlen : s.writer.census.length = 14) (hr : passesAt r ∨ failsAll r (8 - k)) :
    ∃ st : Store, sameOutsideSlot s.store st b slot ∧
      ∃ t : State, exec (.storeProgramEnd dt r) s = .next t.onLine ∧ State.startsNext
        { s.advance dt with
          op := none
          store := st
          health := { s.health with
            storeWorn := wornBy s.writer.census s.health.storeWorn } } t := by
  obtain ⟨v, hv⟩ := judge_ends (o := ⟨.program b slot data, .retired, k⟩) hk hr
  obtain ⟨hon, hstarting, hdroop, hwaiting, -, hop⟩ := h
  refine ⟨_, finish_program_sameOutside b slot data r.left v hstore, ?_⟩
  generalize hu : ({ s.advance dt with op := none, store := s.store.finish (.program b slot data) r.left v } : State) = u
  have htakes : u.clientTakes ⟨.program b slot data, .retired, k⟩ v = u.wornTest.goOn :=
    clientTakes_starting (by rw [← hu]; exact hstarting) _ _
  rw [exec_programEnd hon hop hv hu.symm, htakes, wornBy_retired hu.symm hlen, ← hu]
  exact goOn_next ⟨rfl, hwaiting, hdroop⟩

theorem startGoesOn : StartGoesOn := by
  refine ⟨lastRead_goesOn, fun dt r s b k h hk hstore => ⟨obsoleteErase_goesOn dt r s b k h hk,
    obsoleteErase_retires dt r s b k h hk hstore⟩, fun dt r s b slot k data p h hk hstore hlen =>
    ⟨fun hp hr => ?_, failedSlot_goesOn dt r s b slot k data p h hk hstore hlen, fun hp hr => ?_⟩⟩
  · subst hp
    exact labelSlot_goesOn dt r s b slot k data h hk hlen hr
  · subst hp
    exact retiredSlot_goesOn dt r s b slot k data h hk hstore hlen hr

end Sys2Proof.Machine

namespace Sys2Proof.Machine

/-! ## What a reader of bytes gives (R51, R198) -/

/-- A reader gives nothing exactly at a fault, and otherwise what stands in the bytes. -/
def ReadsAs {α : Type} (o : Option α) (fault : Prop) (stands : α → Prop) : Prop :=
  (o = none ↔ fault) ∧ ∀ x, o = some x → stands x

section
variable {α : Type} {fault : Prop} {stands : α → Prop}

theorem ReadsAs.of_none (h : fault) : ReadsAs none fault stands := ⟨⟨fun _ => h, fun _ => rfl⟩, nofun⟩

theorem ReadsAs.of_some {x : α} (h : ¬ fault) (hx : stands x) : ReadsAs (some x) fault stands :=
  ⟨⟨nofun, fun hf => absurd hf h⟩, fun _ hy => Option.some_inj.mp hy ▸ hx⟩

theorem ReadsAs.of_check {x : α} {ok : Bool} (h : ok = true ↔ ¬ fault) (hx : stands x) :
    ReadsAs (check ok x) fault stands := by
  cases ok with
  | true => exact .of_some (h.mp rfl) hx
  | false => exact .of_none (of_not_not fun hf => Bool.false_ne_true (h.mpr hf))

end

/-! ## The codes (R198) -/

theorem padEdge_codes : ∀ n : Nat,
    (n = 1 ∧ PadEdge.ofCode n = some .placed) ∨ (n = 2 ∧ PadEdge.ofCode n = some .lifted) ∨
      (n = 3 ∧ PadEdge.ofCode n = some .misread) ∨ ((n = 0 ∨ 3 < n) ∧ PadEdge.ofCode n = none)
  | 0 => .inr (.inr (.inr ⟨.inl rfl, rfl⟩))
  | 1 => .inl ⟨rfl, rfl⟩
  | 2 => .inr (.inl ⟨rfl, rfl⟩)
  | 3 => .inr (.inr (.inl ⟨rfl, rfl⟩))
  | n + 4 => .inr (.inr (.inr ⟨.inr (by omega), rfl⟩))

theorem comparison_codes : ∀ n : Nat,
    (n = 1 ∧ Comparison.ofCode n = some .eq) ∨ (n = 2 ∧ Comparison.ofCode n = some .ne) ∨
      (n = 3 ∧ Comparison.ofCode n = some .ge) ∨ (n = 4 ∧ Comparison.ofCode n = some .lt) ∨
      ((n = 0 ∨ 4 < n) ∧ Comparison.ofCode n = none)
  | 0 => .inr (.inr (.inr (.inr ⟨.inl rfl, rfl⟩)))
  | 1 => .inl ⟨rfl, rfl⟩
  | 2 => .inr (.inl ⟨rfl, rfl⟩)
  | 3 => .inr (.inr (.inl ⟨rfl, rfl⟩))
  | 4 => .inr (.inr (.inr (.inl ⟨rfl, rfl⟩)))
  | n + 5 => .inr (.inr (.inr (.inr ⟨.inr (by omega), rfl⟩)))

theorem class_codes (x : Byte) :
    ((x.toNat ≤ 14 ∨ x.toNat = 255) ∧ ∃ c, classOf x = some c ∧ x.toNat = classByte c) ∨
      (14 < x.toNat ∧ x.toNat ≠ 255 ∧ classOf x = none) := by
  unfold classOf
  split
  · exact .inl ⟨.inl ‹_›, _, rfl, rfl⟩
  · split
    · exact .inl ⟨.inr ‹_›, _, rfl, ‹_›⟩
    · exact .inr ⟨by omega, ‹_›, rfl⟩

theorem tick_codes : ∀ n : Nat,
    (n ≤ 3 ∧ ∃ t, TickLength.ofCode n = some t ∧ n = t.digit) ∨ (3 < n ∧ TickLength.ofCode n = none)
  | 0 => .inl ⟨by decide, _, rfl, rfl⟩
  | 1 => .inl ⟨by decide, _, rfl, rfl⟩
  | 2 => .inl ⟨by decide, _, rfl, rfl⟩
  | 3 => .inl ⟨by decide, _, rfl, rfl⟩
  | n + 4 => .inr ⟨by omega, rfl⟩

theorem mode_codes : ∀ n : Nat,
    (n ≤ 1 ∧ ∃ x, modeOf n = some x ∧ n = if x = true then 1 else 0) ∨ (1 < n ∧ modeOf n = none)
  | 0 => .inl ⟨by decide, _, rfl, rfl⟩
  | 1 => .inl ⟨by decide, _, rfl, rfl⟩
  | n + 2 => .inr ⟨by omega, rfl⟩

/-- A wave duty's code (R198). -/
def WaveDuty.digit : WaveDuty → Nat
  | .quarter => 0
  | .third => 1
  | .half => 2

theorem duty_codes : ∀ n : Nat,
    (n ≤ 2 ∧ ∃ d, WaveDuty.ofCode n = some d ∧ n = d.digit) ∨ (2 < n ∧ WaveDuty.ofCode n = none)
  | 0 => .inl ⟨by decide, _, rfl, rfl⟩
  | 1 => .inl ⟨by decide, _, rfl, rfl⟩
  | 2 => .inl ⟨by decide, _, rfl, rfl⟩
  | n + 3 => .inr ⟨by omega, rfl⟩

theorem period_codes : ∀ n : Nat,
    (n ≤ 3 ∧ ∃ p, blinkPeriod n = some p ∧ (n, p) ∈ [(0, 12), (1, 24), (2, 48), (3, 96)]) ∨
      (3 < n ∧ blinkPeriod n = none)
  | 0 => .inl ⟨by decide, _, rfl, by decide⟩
  | 1 => .inl ⟨by decide, _, rfl, by decide⟩
  | 2 => .inl ⟨by decide, _, rfl, by decide⟩
  | 3 => .inl ⟨by decide, _, rfl, by decide⟩
  | n + 4 => .inr ⟨by omega, rfl⟩

theorem onTime_codes (p : Nat) : ∀ n : Nat,
    (n ≤ 3 ∧ ∃ x, blinkOn p n = some x ∧ (n, x) ∈ [(0, p / 4), (1, p / 3), (2, p / 2), (3, p)]) ∨
      (3 < n ∧ blinkOn p n = none)
  | 0 => .inl ⟨by decide, _, rfl, by simp⟩
  | 1 => .inl ⟨by decide, _, rfl, by simp⟩
  | 2 => .inl ⟨by decide, _, rfl, by simp⟩
  | 3 => .inl ⟨by decide, _, rfl, by simp⟩
  | n + 4 => .inr ⟨by omega, rfl⟩

theorem refusal_codes (x : Nat) : ∀ n : Nat,
    ReadsAs (parseOnRefusal n x) (2 < n ∨ n = 2 ∧ 63 < x) fun y =>
      (n = 0 → y = .rearm) ∧ (n = 1 → y = .drop) ∧ (n = 2 → y = .fallback x)
  | 0 => .of_some (by omega) ⟨fun _ => rfl, nofun, nofun⟩
  | 1 => .of_some (by omega) ⟨nofun, fun _ => rfl, nofun⟩
  | 2 => .of_check (by rw [decide_eq_true_iff]; omega) ⟨nofun, nofun, fun _ => rfl⟩
  | n + 3 => .of_none (by omega)

/-- How a light pattern stands in its code and its operand byte (R143, R198). -/
def LightPattern.standsIn (n v : Nat) : LightPattern → Prop
  | .off => n = 0
  | .on => n = 1
  | .blink period lit => n = 2 ∧ (v / 16, period) ∈ [(0, 12), (1, 24), (2, 48), (3, 96)] ∧
      (v % 16, lit) ∈ [(0, period / 4), (1, period / 3), (2, period / 2), (3, period)]
  | .follow m => n = 3 ∧ v = m

theorem pattern_codes (x : Byte) : ∀ n : Nat,
    ReadsAs (parsePattern n x) (3 < n ∨ (n = 2 ∧ (3 < x.toNat / 16 ∨ 3 < x.toNat % 16)))
      (LightPattern.standsIn n x.toNat)
  | 0 => .of_some (by omega) rfl
  | 1 => .of_some (by omega) rfl
  | 2 => by
    show ReadsAs (match blinkPeriod (x.toNat / 16) with
      | none => none
      | some p => (blinkOn p (x.toNat % 16)).map fun n => LightPattern.blink p n) _ _
    rcases period_codes (x.toNat / 16) with ⟨hp, p, hperiod, hpin⟩ | ⟨hp, hperiod⟩ <;> simp only [hperiod, true_and]
    · rcases onTime_codes p (x.toNat % 16) with ⟨ho, o, hon, hoin⟩ | ⟨ho, hon⟩ <;> rw [hon]
      · exact .of_some (by omega) ⟨rfl, hpin, hoin⟩
      · exact .of_none (by omega)
    · exact .of_none (by omega)
  | 3 => .of_some (by omega) ⟨rfl, rfl⟩
  | n + 4 => .of_none (by omega)

/-- How a digit source stands in its code and its operand byte (R198). -/
def DigitSource.standsIn (n v : Nat) : DigitSource → Prop
  | .none => n = 0
  | .fixed x => n = 1 ∧ v = x
  | .mark m => n = 2 ∧ v = m
  | .timer t => n = 3 ∧ v = t

theorem source_codes (x : Nat) : ∀ n : Nat,
    ReadsAs (parseSource n x) (3 < n ∨ (n = 1 ∧ 99 < x) ∨ (n = 3 ∧ 3 < x)) (DigitSource.standsIn n x)
  | 0 => .of_some (by omega) rfl
  | 1 => .of_check (by rw [decide_eq_true_iff]; omega) ⟨rfl, rfl⟩
  | 2 => .of_some (by omega) ⟨rfl, rfl⟩
  | 3 => .of_check (by rw [decide_eq_true_iff]; omega) ⟨rfl, rfl⟩
  | n + 4 => .of_none (by omega)

/-! ## The conditions and the effects (R51, R198) -/

section
variable {pads : Nat} {c : List Byte} {b : Nat → Nat} {i : Nat}

theorem parseCondition_reads (h0 : numAt c 0 = b i) (h1 : numAt c 1 = b (i + 1)) (h2 : numAt c 2 = b (i + 2))
    (h3 : numAt c 3 = b (i + 3)) :
    ReadsAs (parseCondition pads c) (conditionFault pads b i) (Condition.standsAt b i) := by
  have hbyte2 : (byteAt c 2).toNat = b (i + 2) := h2
  have hbyte3 : (byteAt c 3).toNat = b (i + 3) := h3
  unfold parseCondition conditionFault
  simp only [h0, h1, h2, h3]
  split
  case h_1 hcode =>
    rcases padEdge_codes (b (i + 2)) with ⟨hn, he⟩ | ⟨hn, he⟩ | ⟨hn, he⟩ | ⟨hn, he⟩ <;> simp only [he]
    · rcases class_codes (byteAt c 3) with ⟨hok, cls, hcls, hval⟩ | ⟨hlow, hany, hcls⟩ <;> simp only [hcls]
      · exact .of_check (by rw [decide_eq_true_iff]; omega) ⟨hcode, rfl, hn, hbyte3 ▸ hval⟩
      · exact .of_none (by omega)
    · rcases class_codes (byteAt c 3) with ⟨hok, cls, hcls, hval⟩ | ⟨hlow, hany, hcls⟩ <;> simp only [hcls]
      · exact .of_check (by rw [decide_eq_true_iff]; omega) ⟨hcode, rfl, hn, hbyte3 ▸ hval⟩
      · exact .of_none (by omega)
    · exact .of_check (by rw [decide_eq_true_iff]; omega) ⟨hcode, rfl, hn⟩
    · exact .of_none (by omega)
  case h_2 hcode =>
    rcases class_codes (byteAt c 2) with ⟨hok, cls, hcls, hval⟩ | ⟨hlow, hany, hcls⟩ <;> simp only [hcls]
    · exact .of_check (by rw [decide_eq_true_iff]; omega) ⟨hcode, rfl, hbyte2 ▸ hval⟩
    · exact .of_none (by omega)
  case h_3 hcode =>
    rcases comparison_codes (b (i + 2)) with ⟨hn, he⟩ | ⟨hn, he⟩ | ⟨hn, he⟩ | ⟨hn, he⟩ | ⟨hn, he⟩ <;> simp only [he]
    · exact .of_check (by rw [decide_eq_true_iff]; omega) ⟨hcode, rfl, hn, rfl⟩
    · exact .of_check (by rw [decide_eq_true_iff]; omega) ⟨hcode, rfl, hn, rfl⟩
    · exact .of_check (by rw [decide_eq_true_iff]; omega) ⟨hcode, rfl, hn, rfl⟩
    · exact .of_check (by rw [decide_eq_true_iff]; omega) ⟨hcode, rfl, hn, rfl⟩
    · exact .of_none (by omega)
  case h_4 hcode => exact .of_check (by rw [decide_eq_true_iff]; omega) ⟨hcode, rfl⟩
  case h_5 hcode => exact .of_check (by rw [decide_eq_true_iff]; omega) ⟨hcode, rfl⟩
  case h_6 hcode => exact .of_check (by rw [decide_eq_true_iff]; omega) ⟨hcode, rfl⟩
  case h_7 =>
    simp only [imp_false] at *
    exact .of_none (by omega)

theorem effectFault_other (h : b i = 0 ∨ 14 < b i) : effectFault pads b i := by
  rw [effectFault, ← or_assoc]
  exact .inl h

theorem effectFault_claim (h : 1 ≤ b i ∧ b i ≤ 4 ∨ b i = 8) : ¬ effectFault pads b i := by
  unfold effectFault
  omega

theorem effectFault_number (h : 5 ≤ b i ∧ b i ≤ 7) : effectFault pads b i ↔ 63 < b (i + 1) := by
  unfold effectFault
  omega

theorem effectFault_timerStart (h : b i = 9) : effectFault pads b i ↔
    3 < b (i + 1) ∨ b (i + 2) = 0 ∨ 3 < b (i + 3) / 16 ∨ 1 < b (i + 3) % 16 := by
  simp [effectFault, h]

theorem effectFault_timerStop (h : b i = 10) : effectFault pads b i ↔ 3 < b (i + 1) := by
  simp [effectFault, h]

theorem effectFault_light (h : b i = 11) : effectFault pads b i ↔
    7 < b (i + 1) ∨ 3 < b (i + 2) ∨ (b (i + 2) = 2 ∧ (3 < b (i + 3) / 16 ∨ 3 < b (i + 3) % 16)) := by
  simp [effectFault, h]

theorem effectFault_tone (h : b i = 12) : effectFault pads b i ↔
    31 < b (i + 1) ∨ b (i + 2) = 0 ∨ 2 < b (i + 3) / 16 ∨ 1 < b (i + 3) % 16 := by
  simp [effectFault, h]

theorem effectFault_digits (h : b i = 13) : effectFault pads b i ↔
    3 < b (i + 1) ∨ (b (i + 1) = 1 ∧ 99 < b (i + 2)) ∨ (b (i + 1) = 3 ∧ 3 < b (i + 2)) := by
  simp [effectFault, h]

theorem effectFault_recheck (h : b i = 14) : effectFault pads b i ↔ pads ≤ b (i + 1) := by
  simp [effectFault, h]

theorem parseEffect_reads (h0 : numAt c 0 = b i) (h1 : numAt c 1 = b (i + 1)) (h2 : numAt c 2 = b (i + 2))
    (h3 : numAt c 3 = b (i + 3)) :
    ReadsAs (parseEffect pads c) (effectFault pads b i) (Effect.standsAt b i) := by
  have hbyte2 : b (i + 2) = (byteAt c 2).toNat := h2.symm
  have hbyte3 : b (i + 3) = (byteAt c 3).toNat := h3.symm
  unfold parseEffect highNibble lowNibble
  simp only [h0, h1, h2]
  rw [← hbyte3]
  split
  case h_1 hcode => exact .of_some (effectFault_claim (by omega)) ⟨hcode, rfl, hbyte2⟩
  case h_2 hcode => exact .of_some (effectFault_claim (by omega)) ⟨hcode, rfl, hbyte2⟩
  case h_3 hcode => exact .of_some (effectFault_claim (by omega)) ⟨hcode, rfl, hbyte2⟩
  case h_4 hcode => exact .of_some (effectFault_claim (by omega)) ⟨hcode, rfl, hbyte2, hbyte3⟩
  case h_5 hcode => exact .of_check (by rw [effectFault_number (by omega), decide_eq_true_iff, Nat.not_lt]) ⟨hcode, rfl⟩
  case h_6 hcode => exact .of_check (by rw [effectFault_number (by omega), decide_eq_true_iff, Nat.not_lt]) ⟨hcode, rfl⟩
  case h_7 hcode => exact .of_check (by rw [effectFault_number (by omega), decide_eq_true_iff, Nat.not_lt]) ⟨hcode, rfl⟩
  case h_8 hcode => exact .of_some (effectFault_claim (by omega)) ⟨hcode, rfl⟩
  case h_9 hcode =>
    rw [effectFault_timerStart hcode]
    rcases tick_codes (b (i + 3) / 16) with ⟨ht, t, htick, hdigit⟩ | ⟨ht, htick⟩ <;> simp only [htick]
    · rcases mode_codes (b (i + 3) % 16) with ⟨hm, r, hmode, hbit⟩ | ⟨hm, hmode⟩ <;> simp only [hmode]
      · exact .of_check (by simp only [Bool.and_eq_true, decide_eq_true_iff]; omega)
          ⟨hcode, rfl, rfl, by rw [← hdigit, ← hbit]; omega⟩
      · exact .of_none (by omega)
    · exact .of_none (by omega)
  case h_10 hcode => exact .of_check (by rw [effectFault_timerStop hcode, decide_eq_true_iff, Nat.not_lt]) ⟨hcode, rfl⟩
  case h_11 hcode =>
    rw [effectFault_light hcode]
    obtain ⟨hfault, hstands⟩ := pattern_codes (byteAt c 3) (b (i + 2))
    rw [← hbyte3] at hfault hstands
    cases hp : parsePattern (b (i + 2)) (byteAt c 3) with
    | none => exact .of_none (by have := hfault.mp hp; omega)
    | some p =>
      have hfine : ¬ _ := fun hf => Option.some_ne_none p (hp.symm.trans (hfault.mpr hf))
      have hp := hstands p hp
      refine .of_check (by rw [decide_eq_true_iff]; omega) ⟨hcode, rfl, ?_⟩
      cases p with
      | off => exact hp
      | on => exact hp
      | blink period lit => exact hp
      | follow m => exact hp
  case h_12 hcode =>
    rw [effectFault_tone hcode]
    rcases duty_codes (b (i + 3) / 16) with ⟨hd, d, hduty, hdigit⟩ | ⟨hd, hduty⟩ <;> simp only [hduty]
    · rcases mode_codes (b (i + 3) % 16) with ⟨hm, cut, hmode, hbit⟩ | ⟨hm, hmode⟩ <;> simp only [hmode]
      · refine .of_check (by simp only [Bool.and_eq_true, decide_eq_true_iff]; omega) ⟨hcode, rfl, rfl, ?_⟩
        show b (i + 3) = 16 * d.digit + if cut = true then 1 else 0
        rw [← hdigit, ← hbit]
        omega
      · exact .of_none (by omega)
    · exact .of_none (by omega)
  case h_13 hcode =>
    rw [effectFault_digits hcode]
    obtain ⟨hfault, hstands⟩ := source_codes (b (i + 2)) (b (i + 1))
    cases hsrc : parseSource (b (i + 1)) (b (i + 2)) with
    | none => exact .of_none (by have := hfault.mp hsrc; omega)
    | some src =>
      have hfine : ¬ _ := fun hf => Option.some_ne_none src (hsrc.symm.trans (hfault.mpr hf))
      have hsrc := hstands src hsrc
      refine .of_some (by omega) ⟨hcode, ?_, ?_⟩
      · rw [hbyte3, BitVec.getLsbD, Nat.testBit_zero, decide_eq_true_iff]
      · cases src <;> exact hsrc
  case h_14 hcode => exact .of_check (by rw [effectFault_recheck hcode, decide_eq_true_iff, Nat.not_le]) ⟨hcode, rfl⟩
  case h_15 =>
    simp only [imp_false] at *
    exact .of_none (effectFault_other (by omega))

end

end Sys2Proof.Machine

namespace Sys2Proof.Machine

/-! ## The step records (R49 to R51, R198) -/

theorem allSome_none {α : Type} : ∀ {l : List (Option α)}, allSome l = none ↔ none ∈ l
  | [] => by simp [allSome]
  | none :: l => by simp [allSome]
  | some x :: l => by simp [allSome, allSome_none (l := l)]

theorem allSome_some {α : Type} : ∀ {l : List (Option α)} {xs : List α}, allSome l = some xs → l = xs.map some
  | [], xs, h => by
    obtain rfl := Option.some_inj.mp h
    rfl
  | none :: l, xs, h => absurd h nofun
  | some x :: l, xs, h => by
    obtain ⟨ys, hys, rfl⟩ := Option.map_eq_some_iff.mp h
    rw [allSome_some hys, List.map_cons]

/-- All of a list's pieces read, each from its place. -/
theorem allSome_reads {α : Type} {n : Nat} {f : Nat → Option α} {fault : Nat → Prop} {stands : Nat → α → Prop}
    (h : ∀ k, ReadsAs (f k) (fault k) (stands k)) :
    ReadsAs (allSome ((List.range n).map f)) (∃ k < n, fault k) fun xs =>
      xs.length = n ∧ ∀ k x, xs[k]? = some x → stands k x := by
  refine ⟨?_, fun xs hxs => ?_⟩
  · rw [allSome_none, List.mem_map]
    exact exists_congr fun k => and_congr List.mem_range (h k).1
  · have hmap := allSome_some hxs
    have hlen : xs.length = n := by simpa using (congrArg List.length hmap).symm
    refine ⟨hlen, fun k x hx => (h k).2 x ?_⟩
    obtain ⟨hk, -⟩ := List.getElem?_eq_some_iff.mp hx
    have hget := congrArg (·[k]?) hmap
    simp only [List.getElem?_map, List.getElem?_range (hlen ▸ hk), hx, Option.map_some, Option.some_inj] at hget
    exact hget

theorem numAt_quad (r : List Byte) (offset k : Nat) {j : Nat} (hj : j < 4) :
    numAt (quad r offset k) j = numAt r (offset + 4 * k + j) := by
  rw [numAt, numAt, byteAt, byteAt, quad, List.getD_eq_getElem?_getD, List.getD_eq_getElem?_getD,
    List.getElem?_take_of_lt hj, List.getElem?_drop]

theorem isClaim_iff {b : Nat → Nat} {i : Nat} {e : Effect} (h : e.standsAt b i) :
    e.isClaim = true ↔ 1 ≤ b i ∧ b i ≤ 4 := by
  cases e with
  | claim op m x y =>
    have hcode : 1 ≤ b i ∧ b i ≤ 4 := by
      cases op <;> (obtain ⟨hcode, -⟩ := h; omega)
    exact ⟨fun _ => hcode, fun _ => rfl⟩
  | _ =>
    obtain ⟨hcode, -⟩ := h
    exact ⟨nofun, fun hclaim => by omega⟩

/-- The claims of the effects that stand so, the first apart. -/
theorem tailClaim_iff {b : Nat → Nat} {es : List Effect} {n : Nat} (hlen : es.length = n)
    (h : ∀ (k : Nat) (e : Effect), es[k]? = some e → e.standsAt b (16 + 4 * k)) :
    es.tail.any Effect.isClaim = true ↔ ∃ k < n, 1 ≤ k ∧ 1 ≤ b (16 + 4 * k) ∧ b (16 + 4 * k) ≤ 4 := by
  rw [List.any_eq_true]
  constructor
  · rintro ⟨e, he, hclaim⟩
    obtain ⟨k, hk⟩ := List.mem_iff_getElem?.mp he
    rw [List.getElem?_tail] at hk
    obtain ⟨hlt, -⟩ := List.getElem?_eq_some_iff.mp hk
    exact ⟨k + 1, hlen ▸ hlt, Nat.le_add_left 1 k, (isClaim_iff (h _ _ hk)).mp hclaim⟩
  · rintro ⟨k, hk, hpos, hcode⟩
    obtain ⟨j, rfl⟩ : ∃ j, k = j + 1 := ⟨k - 1, by omega⟩
    have hget : es[j + 1]? = some es[j + 1] := List.getElem?_eq_getElem (hlen ▸ hk)
    exact ⟨es[j + 1], List.mem_iff_getElem?.mpr ⟨j, by rw [List.getElem?_tail, hget]⟩,
      (isClaim_iff (h _ _ hget)).mpr hcode⟩

/-- What a record that is not at fault holds of its bytes (R198). -/
def StepRecord.standsIn (b : Nat → Nat) (x : StepRecord) : Prop :=
  x.quest = b 0 / 16 ∧ x.repeats = b 0 % 16 ∧ (x.armed = true ↔ b 1 / 64 = 1) ∧
    (x.matchAll = true ↔ b 1 / 16 % 4 = 0) ∧
    (b 1 / 4 % 4 = 0 → x.onRefusal = .rearm) ∧ (b 1 / 4 % 4 = 1 → x.onRefusal = .drop) ∧
    (b 1 / 4 % 4 = 2 → x.onRefusal = .fallback (b 3)) ∧
    x.conditions.length = b 1 % 4 ∧ x.effects.length = b 2 ∧
    (∀ (k : Nat) (c : Condition), x.conditions[k]? = some c → c.standsAt b (4 + 4 * k)) ∧
    (∀ (k : Nat) (e : Effect), x.effects[k]? = some e → e.standsAt b (16 + 4 * k))

theorem ReadsAs.fine {α : Type} {o : Option α} {fault : Prop} {stands : α → Prop} {x : α} (h : ReadsAs o fault stands)
    (ho : o = some x) : ¬ fault ∧ stands x :=
  ⟨fun hf => Option.some_ne_none x (ho.symm.trans (h.1.mpr hf)), h.2 x ho⟩

theorem ReadsAs.some_of_fine {α : Type} {o : Option α} {fault : Prop} {stands : α → Prop} (h : ReadsAs o fault stands)
    (hfine : ¬ fault) : ∃ x, o = some x :=
  Option.ne_none_iff_exists'.mp fun ho => hfine (h.1.mp ho)

theorem mode_reads : ∀ n : Nat, ReadsAs (modeOf n) (1 < n) fun x => x = true ↔ n = 1
  | 0 => .of_some (by omega) (by decide)
  | 1 => .of_some (by omega) (by decide)
  | n + 2 => .of_none (by omega)

/-- The faults of a record in the order in which it is read. -/
theorem recordFault_iff (pads : Nat) (b : Nat → Nat) :
    recordFault pads b ↔ ¬ (1 ≤ b 1 % 4 ∧ 1 ≤ b 2 ∧ b 2 ≤ 4) ∨ 1 < b 1 / 64 ∨ 1 < b 1 / 16 % 4 ∨
      (2 < b 1 / 4 % 4 ∨ b 1 / 4 % 4 = 2 ∧ 63 < b 3) ∨ (∃ k < b 1 % 4, conditionFault pads b (4 + 4 * k)) ∨
      (∃ k < b 2, effectFault pads b (16 + 4 * k)) ∨
      ∃ k < b 2, 1 ≤ k ∧ 1 ≤ b (16 + 4 * k) ∧ b (16 + 4 * k) ≤ 4 := by
  have hcounts : ¬ (1 ≤ b 1 % 4 ∧ 1 ≤ b 2 ∧ b 2 ≤ 4) ↔ b 1 % 4 = 0 ∨ b 2 = 0 ∨ 4 < b 2 := by omega
  unfold recordFault
  simp only [and_or_left, exists_or]
  rw [hcounts, iff_eq_eq]
  ac_rfl

theorem conditions_read (pads : Nat) (r : List Byte) (n : Nat) :
    ReadsAs (allSome ((List.range n).map fun k => parseCondition pads (quad r 4 k)))
      (∃ k < n, conditionFault pads (numAt r) (4 + 4 * k)) fun cs =>
        cs.length = n ∧ ∀ (k : Nat) (c : Condition), cs[k]? = some c → c.standsAt (numAt r) (4 + 4 * k) :=
  allSome_reads fun k => parseCondition_reads (numAt_quad r 4 k (j := 0) (by decide)) (numAt_quad r 4 k (by decide))
    (numAt_quad r 4 k (by decide)) (numAt_quad r 4 k (by decide))

theorem effects_read (pads : Nat) (r : List Byte) (n : Nat) :
    ReadsAs (allSome ((List.range n).map fun k => parseEffect pads (quad r 16 k)))
      (∃ k < n, effectFault pads (numAt r) (16 + 4 * k)) fun es =>
        es.length = n ∧ ∀ (k : Nat) (e : Effect), es[k]? = some e → e.standsAt (numAt r) (16 + 4 * k) :=
  allSome_reads fun k => parseEffect_reads (numAt_quad r 16 k (j := 0) (by decide)) (numAt_quad r 16 k (by decide))
    (numAt_quad r 16 k (by decide)) (numAt_quad r 16 k (by decide))

theorem parseStep_reads (pads : Nat) (r : List Byte) :
    ReadsAs (parseStep pads r) (recordFault pads (numAt r)) (StepRecord.standsIn (numAt r)) := by
  have hconds := conditions_read pads r (numAt r 1 % 4)
  have heffects := effects_read pads r (numAt r 2)
  have hrefusal := refusal_codes (numAt r 3) (numAt r 1 / 4 % 4)
  have harmed := mode_reads (numAt r 1 / 64)
  have hany := mode_reads (numAt r 1 / 16 % 4)
  rw [recordFault_iff]
  unfold parseStep
  simp only
  split
  case isFalse hcounts => exact .of_none (.inl hcounts)
  case isTrue hcounts =>
    split
    case h_1 armed any refusal cs es ha hy hr hc he =>
      obtain ⟨hafine, harmed⟩ := harmed.fine ha
      obtain ⟨hyfine, hany⟩ := hany.fine hy
      obtain ⟨hrfine, hrearm, hdrop, hfallback⟩ := hrefusal.fine hr
      obtain ⟨hcfine, hclen, hcstands⟩ := hconds.fine hc
      obtain ⟨hefine, helen, hestands⟩ := heffects.fine he
      refine .of_check ?_ ⟨rfl, rfl, harmed, ?_, hrearm, hdrop, hfallback, hclen, helen, hcstands, hestands⟩
      · rw [← tailClaim_iff helen hestands]
        simp only [not_not_intro hcounts, hafine, hyfine, hrfine, hcfine, hefine, false_or, Bool.not_eq_true', Bool.not_eq_true]
      · cases any <;> simp at hany ⊢ <;> omega
    case h_2 hnone =>
      refine .of_none (of_not_not fun hfine => ?_)
      simp only [not_or] at hfine
      obtain ⟨-, hafine, hyfine, hrfine, hcfine, hefine, -⟩ := hfine
      obtain ⟨armed, ha⟩ := harmed.some_of_fine hafine
      obtain ⟨any, hy⟩ := hany.some_of_fine hyfine
      obtain ⟨refusal, hr⟩ := hrefusal.some_of_fine (not_or.mpr hrfine)
      obtain ⟨cs, hc⟩ := hconds.some_of_fine hcfine
      obtain ⟨es, he⟩ := heffects.some_of_fine hefine
      exact hnone armed any refusal cs es ha hy hr hc he

theorem start_ne_quarantined (x : StepRecord) : x.start ≠ .quarantined := by
  unfold StepRecord.start
  split <;> exact nofun

theorem stepsAreChecked : StepsAreChecked := by
  rintro pads r x b rfl rfl
  obtain ⟨hfault, hstands⟩ := parseStep_reads pads r
  unfold stepOf
  cases hparse : parseStep pads r with
  | none => exact ⟨⟨fun _ => hfault.mp hparse, fun _ => rfl⟩, fun h => absurd rfl h⟩
  | some rec =>
    obtain ⟨hquest, hrepeats, harmed, hall, hrearm, hdrop, hfallback, hclen, helen, hcs, hes⟩ := hstands rec hparse
    have hfine : ¬ recordFault pads (numAt r) := fun hf => Option.some_ne_none rec (hparse.symm.trans (hfault.mpr hf))
    refine ⟨⟨fun h => absurd h (start_ne_quarantined rec), fun h => absurd h hfine⟩, fun _ =>
      ⟨if_congr harmed rfl rfl, harmed, hquest, hrepeats, hrepeats, rfl, hall, hrearm, hdrop, hfallback, hclen, helen,
        ?_, hcs, hes⟩⟩
    exact (List.map_const' ..).trans (by rw [hclen])

end Sys2Proof.Machine

namespace Sys2Proof.Machine

/-- Settles O5, by the reads and the SESSION slot of a start, the content's judging, recovery, and what a start does next. -/
theorem startingReadsAndEnds : Obligations.StartingReadsAndEnds :=
  ⟨fun _ _ _ _ _ hon hstarting hdroop hwaiting hop hread h0 h18 h242 hk =>
      startRead_goesOn hon hstarting hdroop hwaiting hop hread h0 h18 h242 hk,
    fun _ _ _ _ _ _ _ vs hon hstarting hwaiting hworn hop hvs hk =>
      sessionSlot_listens hon hstarting hwaiting hworn hop ⟨vs, hvs⟩ hk,
    headerIsLaidOut, headerTests, contentTests, headerAndContentAreJudged, stepsAreChecked, blocksAreRead,
    blocksAreClassified, slotsAreApplied, newestIsFound, startGoesOn⟩

end Sys2Proof.Machine
